-- ==== Sys2Proof/Word.lean ====
section
/-! DEFINITION. The plain data widths of the part. -/

namespace Sys2Proof

/-- One 8-bit value of a message, a telegram or a table entry. -/
abbrev Byte := BitVec 8

/-- A loading arm, 0 to 5. -/
abbrev Arm := Fin 6

/-- A device index, 0 to 31. -/
abbrev DevIx := Fin 32

/-- The six arms in ascending order. -/
def allArms : List Arm := [0, 1, 2, 3, 4, 5]

/-- The 32 device indices in ascending order. -/
def allDevIx : List DevIx := List.finRange 32

end Sys2Proof
end

