-- ==== Sys2Proof/Syntax.lean ====
section
/-! DEFINITION. The commands: one constructor of Instr per row of spec/opcode_table.json, with the row's operands. -/

namespace Sys2Proof

/-- A tanker position of the bay. -/
inductive Lane where
  | a
  | b
  deriving DecidableEq, Repr

/-- A character that completes in the Terminal Link receiver (R1, R3): eight data bits, the parity bit as received, the
level of the stop bit (true is mark), whether the receive buffer cannot accept a character at that moment (R4), and whether a
reply that is pending at that moment has not yet begun (the answer time of R9 and R10). -/
structure TermChar where
  data : Byte
  parity : Bool
  stop : Bool
  blocked : Bool
  early : Bool
  deriving DecidableEq, Repr

/-- A character that completes in the Bay Bus receiver (R2, R3): eight data bits, the ninth bit, the level of the stop bit
(true is mark), whether the reply buffer cannot accept a character at that moment (R4), whether that buffer frees before anything
else arrives (R4), and whether the telegram picked last has not yet begun (the 4 bit times of R27). -/
structure BusChar where
  data : Byte
  ninth : Bool
  stop : Bool
  blocked : Bool
  frees : Bool
  gap : Bool
  deriving DecidableEq, Repr

/-- One event of a STATION EVENT LIST (R15). The fields stand as the bytes carry them; a value outside the listed ones is a
misfit. -/
inductive StationEvent where
  | card (digits : BitVec 40) (cls : Byte)
  | start (arm compartment : Byte)
  | stop (arm : Byte)
  | estop
  deriving DecidableEq, Repr

/-- A device reply by its kind, 41H..46H and 60H..7FH (R13, R15). -/
inductive DeviceReply where
  | meterSample (pulses : BitVec 32) (interval temperature : BitVec 16) (flags : Byte)
  | valveState (stage flags : Byte)
  | shotReport (outlet : Byte) (dose : BitVec 16) (status : Byte)
  | injectorState (state : Byte) (dose : BitVec 32) (flags : Byte)
  | stationEvents (events : List StationEvent)
  | permissiveState (flags : Byte)
  | diagnostic (kind : Byte) (payload : List Byte)
  deriving DecidableEq, Repr

/-- The commands. A terminal request carries its payload bytes: the whole payload where one row has the kind to itself, the
bytes after the table id, selector, mode or emptying byte where the kind is shared among rows (`rest`). A request whose row
samples or shows the CAL ENABLE pad carries the pad's level (`cal`). -/
inductive Instr where
  | hardReset (addr : BitVec 5) (trate brate : BitVec 2)
  | messageDiscarded (chars : List TermChar)
  | unknownKind (kind : Byte) (payload : List Byte)
  | replySent
  | statusRead (cal : Bool) (payload : List Byte)
  | noticePoll (payload : List Byte)
  | noticeMask (payload : List Byte)
  | tableWriteDevice (rest : List Byte)
  | deviceEntryEmpty (index : Byte) (rest : List Byte)
  | tableWriteScanList (rest : List Byte)
  | tableWritePassFilter (rest : List Byte)
  | tableWriteBaySettings (cal : Bool) (rest : List Byte)
  | tableWriteProduct (cal : Bool) (rest : List Byte)
  | productEmpty (code : Byte) (rest : List Byte)
  | tableWriteArm (cal : Bool) (rest : List Byte)
  | armEmpty (arm : Byte) (rest : List Byte)
  | tableWriteInjector (rest : List Byte)
  | injectorEmpty (index : Byte) (rest : List Byte)
  | tableReadDevice (rest : List Byte)
  | tableReadScanList (rest : List Byte)
  | tableReadPassFilter (rest : List Byte)
  | tableReadBaySettings (rest : List Byte)
  | tableReadProduct (rest : List Byte)
  | tableReadArm (rest : List Byte)
  | tableReadInjector (rest : List Byte)
  | consistencyReport (rest : List Byte)
  | permitWrite (payload : List Byte)
  | permitDelete (payload : List Byte)
  | permitReadByCard (rest : List Byte)
  | permitReadByPosition (rest : List Byte)
  | orderPlace (payload : List Byte)
  | orderCancel (payload : List Byte)
  | loadClose (payload : List Byte)
  | batchAbort (payload : List Byte)
  | override (payload : List Byte)
  | noteTake (payload : List Byte)
  | noteRelease (payload : List Byte)
  | timeSet (payload : List Byte)
  | timeSetBroadcast (payload : List Byte)
  | timeRead (payload : List Byte)
  | bayModeInService (rest : List Byte)
  | bayModeOutOfService (rest : List Byte)
  | restart (payload : List Byte)
  | passthrough (payload : List Byte)
  | telegramSent
  | responseTimeout
  | restartQuietEnd
  | unacceptedReply (reply : DeviceReply)
  | meterSample (pulses : BitVec 32) (interval temperature : BitVec 16) (flags : Byte)
  | valveState (stage flags : Byte)
  | shotReport (outlet : Byte) (dose : BitVec 16) (status : Byte)
  | injectorState (state : Byte) (dose : BitVec 32) (flags : Byte)
  | permissiveState (flags : Byte)
  | diagnosticReply (kind : Byte) (payload : List Byte)
  | stationEventList (events : List StationEvent)
  | pendingStartLapse (arm : Arm) (lane : Lane)
  | noFlowTimeout (arm : Arm)
  | stopTimeout (arm : Arm)
  | travelTimerExpiry (arm : Arm)
  | shotTimeout (injector : DevIx)
  | candidateExpiry (lane : Lane)
  | overrideDeadline (lane : Lane)
  | noteNumberWriteDone
  | calibrationWriteDone
  | secondTick
  | busCharacter (char : BusChar)
  deriving DecidableEq, Repr

end Sys2Proof
end

