-- ==== Sys2Proof/Decode.lean ====
section
/-! DEFINITION. The words of the command table. No row of spec/opcode_table.json gives bits: the part has no register window
and no command word (General description), so no word spells a command. -/

namespace Sys2Proof

/-- The command that a table word spells: none, for every width and word. -/
def decodeTableWord (_nbits _w : Nat) : Option Instr := none

end Sys2Proof
end

