-- ==== Sys2Proof/Config.lean ====
section
/-! DEFINITION. The free values: what the spec does not state, or states in two ways. None has a body, so a claim that mentions one holds for every value of it. -/

namespace Sys2Proof

/-- DESIGN CHOICE (log 22, safe). A batch total (R69, 48 bits) whose sum no longer fits: the spec states no result. The
argument is the free-value counter of State. -/
opaque Config.freeTotal : Nat → BitVec 48

/-- DESIGN CHOICE (log 22, safe). A temperature-weight sum (R69, signed 64 bits) that no longer fits. -/
opaque Config.freeWeight : Nat → BitVec 64

/-- DESIGN CHOICE (log 22, safe). A delivered dose (R99, 32 bits) that no longer fits. -/
opaque Config.freeDose : Nat → BitVec 32

/-- DESIGN CHOICE (log 23, safe). What a reply's field of up to four bytes shows for a figure that does not fit it. It
depends on the figure, since a part of a note reads the same each time (R17). -/
opaque Config.freeField : Int → BitVec 32

/-- DESIGN CHOICE (log 19, safe). Whether a LOAD CLOSED notice carries the load's end time, as R147 says of it, or the time at which it
is queued, as R172 and R179 say of every notice. No rule says which yields, so neither is chosen. -/
opaque Config.closedShowsEnd : Bool

end Sys2Proof
end

