-- ==== Sys2Proof/Machine/Operands.lean ====
section
/-! DEFINITION. The operand forms: byte order, BCD digits, the check, fields of replies, roundings, and the layouts of the
device replies. -/

namespace Sys2Proof.Machine

/-- The number that bytes carry, most significant byte first (section 1.6). -/
def beNat (bs : List Byte) : Nat := bs.foldl (fun n b => n * 256 + b.toNat) 0

/-- The low `k` bytes of a number, most significant byte first (section 1.6). -/
def beBytes : Nat → Nat → List Byte
  | 0, _ => []
  | k + 1, n => BitVec.ofNat 8 (n / 256 ^ k) :: beBytes k n

/-- An unsigned figure in a field of `k` bytes. A figure that does not fit shows a free value (log 23). -/
def fieldBytes (k n : Nat) : List Byte :=
  if n < 256 ^ k then beBytes k n else beBytes k (Config.freeField n).toNat

/-- A signed figure in a field of two bytes, two's complement (R17). A figure that does not fit shows a free value (log 23). -/
def signedField (v : Int) : List Byte :=
  if -32768 ≤ v ∧ v ≤ 32767 then beBytes 2 (BitVec.ofInt 16 v).toNat else beBytes 2 (Config.freeField v).toNat

/-- Both digits of a BCD byte are 0..9 (00 Numbers). -/
def bcdOk (b : Byte) : Bool := b.toNat / 16 ≤ 9 && b.toNat % 16 ≤ 9

/-- The number a BCD byte shows. -/
def bcdVal (b : Byte) : Nat := b.toNat / 16 * 10 + b.toNat % 16

/-- A number 0..99 as one BCD byte. -/
def toBcd (n : Nat) : Byte := BitVec.ofNat 8 (n / 10 % 10 * 16 + n % 10)

/-- The number that BCD bytes show, most significant digits first. -/
def bcdNat (bs : List Byte) : Nat := bs.foldl (fun n b => n * 100 + bcdVal b) 0

/-- The low `2k` decimal digits of a number as `k` BCD bytes. -/
def bcdBytes : Nat → Nat → List Byte
  | 0, _ => []
  | k + 1, n => toBcd (n / 100 ^ k) :: bcdBytes k n

/-- One bit of the check: generator 1021H, most significant bit first (R6). -/
def crcBit (c : BitVec 16) (bit : Bool) : BitVec 16 :=
  (c <<< 1) ^^^ (if c.msb != bit then 0x1021#16 else 0#16)

/-- One byte of the check (R6). -/
def crcByte (c : BitVec 16) (b : Byte) : BitVec 16 :=
  [7, 6, 5, 4, 3, 2, 1, 0].foldl (fun c i => crcBit c (b.getLsbD i)) c

/-- The check over bytes: preset FFFFH, no final inversion (R6). -/
def crc (bs : List Byte) : BitVec 16 := bs.foldl crcByte 0xFFFF#16

/-- A frame on either line: address, kind, length, payload and check, high byte first (R6, R14). -/
def frame (address kind : Byte) (payload : List Byte) : List Byte :=
  let body := address :: kind :: BitVec.ofNat 8 payload.length :: payload
  body ++ beBytes 2 (crc body).toNat

/-- A quotient rounded to the nearest whole number, halfway cases away from zero (R61, R65, R72, R97). -/
def roundAway (n : Int) (d : Nat) : Int :=
  let q : Int := ((2 * n.natAbs + d) / (2 * d) : Nat)
  if n < 0 then -q else q

/-- A quotient rounded to the nearest whole number, halfway cases up (R73, R115, R118). -/
def roundUp (n d : Nat) : Nat := (2 * n + d) / (2 * d)

/-- The level of a bit of a flags byte. -/
def flag (b : Byte) (i : Nat) : Bool := b.getLsbD i

/-- The address of a byte list's element, 00H past its end; every use is behind a length check. -/
def byteAt (bs : List Byte) (i : Nat) : Byte := bs.getD i 0

/-- A field of `k` bytes at offset `i`, read as an unsigned number. -/
def fieldAt (bs : List Byte) (i k : Nat) : Nat := beNat ((bs.drop i).take k)

/-- The lane code 00H A, 01H B. -/
def laneOf (b : Byte) : Option Lane :=
  if b = 0x00#8 then some .a else if b = 0x01#8 then some .b else none

def laneCode : Lane → Byte
  | .a => 0x00#8
  | .b => 0x01#8

/-- The arm a byte 00H..05H names. -/
def armOf (b : Byte) : Option Arm := if h : b.toNat < 6 then some ⟨b.toNat, h⟩ else none

/-- The device index a byte 00H..1FH names. -/
def devIxOf (b : Byte) : Option DevIx := if h : b.toNat < 32 then some ⟨b.toNat, h⟩ else none

/-- The ten BCD digits of a card number, as five bytes. -/
def cardBytes (digits : BitVec 40) : List Byte := beBytes 5 digits.toNat

/-- A station event fits its layout (R15): ten BCD digits and a listed class, arm 0..5 and compartment 1..8, arm 0..5 or FFH. -/
def StationEvent.fits : StationEvent → Bool
  | .card digits cls => (cardBytes digits).all bcdOk && cls.toNat ≤ 1
  | .start arm comp => arm.toNat ≤ 5 && 1 ≤ comp.toNat && comp.toNat ≤ 8
  | .stop arm => arm.toNat ≤ 5 || arm = 0xFF#8
  | .estop => true

/-- A device reply fits its kind's layout: its length as R13 gives and every coded field on a listed code (R15). -/
def replyFits : DeviceReply → Bool
  | .meterSample _ _ _ _ => true
  | .valveState stage _ => stage.toNat ≤ 2
  | .shotReport outlet _ status => outlet.toNat ≤ 5 && status.toNat ≤ 2
  | .injectorState state _ _ => state.toNat ≤ 1
  | .stationEvents events => events.length ≤ 4 && events.all StationEvent.fits
  | .permissiveState _ => true
  | .diagnostic kind payload => 0x60 ≤ kind.toNat && kind.toNat ≤ 0x7F && payload.length ≤ 32

/-- The kind code of a device reply (R13). -/
def replyKind : DeviceReply → Byte
  | .meterSample _ _ _ _ => 0x41#8
  | .valveState _ _ => 0x42#8
  | .shotReport _ _ _ => 0x43#8
  | .injectorState _ _ _ => 0x44#8
  | .stationEvents _ => 0x45#8
  | .permissiveState _ => 0x46#8
  | .diagnostic kind _ => kind

/-- One event as its seven bytes (R15). -/
def eventBytes : StationEvent → List Byte
  | .card digits cls => 0x01#8 :: cardBytes digits ++ [cls]
  | .start arm comp => [0x02#8, arm, comp, 0#8, 0#8, 0#8, 0#8]
  | .stop arm => [0x03#8, arm, 0#8, 0#8, 0#8, 0#8, 0#8]
  | .estop => [0x04#8, 0#8, 0#8, 0#8, 0#8, 0#8, 0#8]

/-- The payload of a device reply (R15). -/
def replyPayload : DeviceReply → List Byte
  | .meterSample pulses interval temp flags =>
    beBytes 4 pulses.toNat ++ beBytes 2 interval.toNat ++ beBytes 2 temp.toNat ++ [flags]
  | .valveState stage flags => [stage, flags]
  | .shotReport outlet dose status => outlet :: beBytes 2 dose.toNat ++ [status]
  | .injectorState state dose flags => state :: beBytes 4 dose.toNat ++ [flags]
  | .stationEvents events => BitVec.ofNat 8 events.length :: events.flatMap eventBytes
  | .permissiveState flags => [flags]
  | .diagnostic _ payload => payload

/-- One event from its seven bytes, none for a type that is not listed (R15). -/
def parseEvent (bs : List Byte) : Option StationEvent :=
  if byteAt bs 0 = 0x01#8 then some (.card (BitVec.ofNat 40 (fieldAt bs 1 5)) (byteAt bs 6))
  else if byteAt bs 0 = 0x02#8 then some (.start (byteAt bs 1) (byteAt bs 2))
  else if byteAt bs 0 = 0x03#8 then some (.stop (byteAt bs 1))
  else if byteAt bs 0 = 0x04#8 then some .estop
  else none

/-- The events of a list's bytes after the count, oldest first (R15). -/
def parseEvents : Nat → List Byte → Option (List StationEvent)
  | 0, _ => some []
  | k + 1, bs =>
    match parseEvent (bs.take 7), parseEvents k (bs.drop 7) with
    | some e, some es => some (e :: es)
    | _, _ => none

/-- The reply that a kind and a payload carry, none where the payload does not fit the kind's layout (R13, R15). -/
def parseReply (kind : Byte) (p : List Byte) : Option DeviceReply :=
  let r : Option DeviceReply :=
    if kind = 0x41#8 ∧ p.length = 9 then
      some (.meterSample (BitVec.ofNat 32 (fieldAt p 0 4)) (BitVec.ofNat 16 (fieldAt p 4 2))
        (BitVec.ofNat 16 (fieldAt p 6 2)) (byteAt p 8))
    else if kind = 0x42#8 ∧ p.length = 2 then some (.valveState (byteAt p 0) (byteAt p 1))
    else if kind = 0x43#8 ∧ p.length = 4 then
      some (.shotReport (byteAt p 0) (BitVec.ofNat 16 (fieldAt p 1 2)) (byteAt p 3))
    else if kind = 0x44#8 ∧ p.length = 6 then
      some (.injectorState (byteAt p 0) (BitVec.ofNat 32 (fieldAt p 1 4)) (byteAt p 5))
    else if kind = 0x45#8 ∧ p.length = 1 + 7 * (byteAt p 0).toNat then
      (parseEvents (byteAt p 0).toNat (p.drop 1)).map .stationEvents
    else if kind = 0x46#8 ∧ p.length = 1 then some (.permissiveState (byteAt p 0))
    else if 0x60 ≤ kind.toNat ∧ kind.toNat ≤ 0x7F then some (.diagnostic kind p)
    else none
  r.filter replyFits

/-- The fault flag of a reply: METER FAULT or DEVICE FAULT where the kind carries one (R21). -/
def replyFault : DeviceReply → Bool
  | .meterSample _ _ _ flags => flag flags 1
  | .valveState _ flags => flag flags 0
  | .injectorState _ _ flags => flag flags 0
  | .permissiveState flags => flag flags 7
  | .shotReport _ _ _ => false
  | .stationEvents _ => false
  | .diagnostic _ _ => false

end Sys2Proof.Machine
end

