-- ==== Sys2Proof/Machine/State.lean ====
section
/-! DEFINITION. The state of the part, block by block, and its value right after reset. Everything is plain data. -/

namespace Sys2Proof.Machine

/-- The spec names no stop: every command has an effect or is answered with a refusal reason, which is a reply (R10). So no
fault exists and nobody raises one. -/
inductive Fault where
  deriving DecidableEq, Repr

/-- Refusals of the model. -/
inductive Refusal where
  /-- Raised by exec's arm of a command that has no meaning yet; safe, since the model stops. No arm raises it. -/
  | notModelled (mnemonic : String)
  deriving DecidableEq, Repr

/-! ### Links (chapter 1) -/

/-- The refusal reasons of R10. -/
inductive Reason where
  | badFormat | badValue | busy | calLocked | tableFull | notFound | inUse
  | wrongMode | duplicate | notOldest | noTarget | timeNotSet | notAllowed
  deriving DecidableEq, Repr

/-- A reply on the Terminal Link (R10). -/
inductive TermReply where
  | accept
  | refuse (reason : Reason)
  | data (payload : List Byte)
  deriving DecidableEq, Repr

/-- The receive state of the Terminal Link (R4, R8): the bytes of the message in progress, how many were taken (past 245
they are counted and not stored), whether a character error broke it, and the held stage. -/
structure TermRx where
  buffer : List Byte
  count : Nat
  broken : Bool
  held : Option TermChar
  deriving DecidableEq, Repr

/-- The Terminal Link error counters, each saturating at 65535 (R5). -/
structure TermCounters where
  parity : Nat
  framing : Nat
  brk : Nat
  overrun : Nat
  check : Nat
  deriving DecidableEq, Repr

/-- The Bay Bus error counters, each saturating at 65535 (R5). -/
structure BusCounters where
  framing : Nat
  brk : Nat
  overrun : Nat
  check : Nat
  deriving DecidableEq, Repr

/-! ### Time (chapter 10) -/

/-- The time record, two BCD digits a field (R16). -/
structure TimeRec where
  year : Byte
  month : Byte
  day : Byte
  weekday : Byte
  hour : Byte
  minute : Byte
  second : Byte
  deriving DecidableEq, Repr

/-- The time counter (R166, R167, R171). -/
structure TimeCounter where
  record : TimeRec
  divider : Nat
  timeSet : Bool
  deriving DecidableEq, Repr

/-- A date, three BCD bytes (R120, R172). -/
structure Date where
  year : Byte
  month : Byte
  day : Byte
  deriving DecidableEq, Repr

/-! ### Terminal port (chapter 11) -/

/-- The bay mode (R175). -/
inductive BayMode where
  | outOfService
  | inService
  | draining
  deriving DecidableEq, Repr

/-- The notice kinds 0 to 13 of R179. -/
inductive NoticeKind where
  | loadOpened | loadRefused | batchStarted | batchHalted | batchDone | loadClosed | device
  | injectorFault | overrideApplied | permissive | unauthorisedFlow | calibration | timeSet | passthrough
  deriving DecidableEq, Repr

/-- The subject of a notice, by kind (R179). -/
inductive Subject where
  | lane (l : Lane)
  | arm (n : Arm)
  | device (i : DevIx)
  | none
  deriving DecidableEq, Repr

/-- A notice (R179). `extra` is the reply kind and payload of a PASSTHROUGH notice with outcome REPLY. -/
structure Notice where
  kind : NoticeKind
  subject : Subject
  code : Byte
  time : TimeRec
  extra : Option (Byte × List Byte)
  deriving DecidableEq, Repr

/-- The terminal port (chapters 1 and 11). -/
structure TerminalPort where
  rx : TermRx
  reply : Option TermReply
  mode : BayMode
  notices : List Notice
  mask : BitVec 16
  pendingSet : BitVec 16
  counters : TermCounters
  deriving DecidableEq, Repr

/-! ### Permit table (chapter 7) -/

inductive PermitClass where
  | driver
  | supervisor
  deriving DecidableEq, Repr

inductive PermitState where
  | active
  | suspended
  | revoked
  deriving DecidableEq, Repr

/-- A permit (R120). -/
structure Permit where
  card : Nat
  cls : PermitClass
  state : PermitState
  driverRef : BitVec 16
  carrier : BitVec 16
  expiry : Date
  endorsed : BitVec 16
  dailyLimit : Nat
  usedToday : Nat
  lastLoad : Option Date
  lane : Option Lane
  deriving DecidableEq, Repr

/-! ### Stop reasons, exceptions and display codes -/

/-- The stop reasons, coded 01H..0BH in section 1.6. -/
inductive StopReason where
  | preset | pulseFault | tempLost | meterLost | valveLost | noFlow | permissive | estop | driver | aborted | additive
  deriving DecidableEq, Repr

/-- The exceptions of section 1.6, bits 0 to 9. -/
inductive Exc where
  | tempHeld | vcfClamp | overspeed | doseLag | doseClamp | resumed | meterLost | additiveShort | additiveOverridden | halted
  deriving DecidableEq, Repr

/-- The display codes of R138. -/
inductive DisplayCode where
  | opened | wrongMode | timeNotSet | noteFull | unknownCard | notAllowed | revoked | suspended | wrongLane | noOrder
  | expired | endorsement | limit | noLoad | noCompartment | compartmentDone | loadClosing | wrongCard | noTarget
  | overrideArmed | overrideApplied | overrideExpired | closed | wrongArm | wrongProduct | noPermissive | compartmentBusy
  | additiveHalt | loading | waitArm | armBusy | halted | complete
  deriving DecidableEq, Repr

/-! ### Scanner (chapter 2) -/

/-- A valve stage (R12). -/
inductive Stage where
  | closed
  | low
  | high
  deriving DecidableEq, Repr

inductive DeviceKind where
  | meter | valve | injector | station | permissive
  deriving DecidableEq, Repr

inductive FaultSource where
  | device
  | part
  deriving DecidableEq, Repr

/-- The device states; the fault source is present only while FAULTED (R18). -/
inductive DeviceState where
  | unknown
  | online
  | silent
  | faulted (source : FaultSource)
  deriving DecidableEq, Repr

/-- The association of a device entry (R18). -/
inductive Association where
  | arm (n : Arm)
  | lane (l : Lane)
  | none
  deriving DecidableEq, Repr

/-- A present device table entry (R18). -/
structure Device where
  address : Byte
  kind : DeviceKind
  assoc : Association
  timeout : Nat
  missLimit : Nat
  state : DeviceState
  misses : Nat
  setStage : Option Stage
  retryHold : Bool
  display : Option DisplayCode
  deriving DecidableEq, Repr

/-- The telegrams the part sends (R12). -/
inductive Telegram where
  | poll
  | valveSet (stage : Stage)
  | shot (outlet dose : Nat)
  | streamStart (outlet ratio : Nat)
  | streamStop
  | stationShow (code : DisplayCode)
  | shotQuery
  | diagnostic (kind : Byte) (payload : List Byte)
  deriving DecidableEq, Repr

/-- The arbiter's five steps (R29). -/
inductive PickStep where
  | urgentClose | valve | injector | scan | passthrough
  deriving DecidableEq, Repr

/-- The transaction in flight (R27). `sent` says that BDE is released and the response timeout runs; `written` that the
entry was written meanwhile (R20); `newerCode` that a newer display code was posted meanwhile (R32). -/
structure Transaction where
  device : DevIx
  address : Byte
  telegram : Telegram
  step : PickStep
  timeout : Nat
  sent : Bool
  written : Bool
  newerCode : Bool
  deriving DecidableEq, Repr

/-- The Bay Bus receive state (R4, R13): reply buffer, broken mark, held stage. -/
structure BusRx where
  buffer : List Byte
  broken : Bool
  held : Option BusChar
  deriving DecidableEq, Repr

/-- The passthrough slot's contents (R36). -/
structure PassSlot where
  device : DevIx
  kind : Byte
  payload : List Byte
  deriving DecidableEq, Repr

/-- The scanner. `quiet` is the 100 ms after RESTART (R38); `wake` marks, inside one event, that work of R27's list arrived
(log 36). -/
structure Scanner where
  devices : Vector (Option Device) 32
  list : List DevIx
  pointer : Nat
  wrap : Bool
  filter : Vector (BitVec 32) 5
  slot : Option PassSlot
  transaction : Option Transaction
  rx : BusRx
  counters : BusCounters
  quiet : Bool
  wake : Bool
  deriving DecidableEq, Repr

/-! ### Tables (chapter 3) -/

/-- The bay settings (R41). -/
structure Settings where
  tref : Nat
  overrideWindow : Nat
  startWait : Nat
  noFlowTimeout : Nat
  deriving DecidableEq, Repr

/-- A recipe slot (R42). -/
structure RecipeSlot where
  additive : Byte
  injector : DevIx
  ratio : Nat
  required : Bool
  deriving DecidableEq, Repr

/-- A product entry with its code (R42). -/
structure Product where
  code : Byte
  cls : Nat
  alpha : Nat
  recipe : List RecipeSlot
  deriving DecidableEq, Repr

/-- The lane reach of an arm (R44). -/
inductive Reach where
  | a
  | b
  | both
  deriving DecidableEq, Repr

/-- An arm entry (R44). -/
structure ArmEntry where
  reach : Reach
  meter : DevIx
  valve : DevIx
  km : Nat
  curve : List (Nat × Nat)
  maxPulses : Nat
  maxFlow : Nat
  startup : Nat
  slowdown : Nat
  leadInitial : Nat
  leadMin : Nat
  leadMax : Nat
  cutoff : Nat
  leak : Nat
  allowed : BitVec 256
  deriving DecidableEq, Repr

inductive InjMode where
  | shot
  | stream
  deriving DecidableEq, Repr

/-- An injector entry (R47). -/
structure InjectorEntry where
  mode : InjMode
  shotSize : Nat
  outlets : Vector (Option Nat) 6
  tolerance : Nat
  shotTimeout : Nat
  streamMin : Nat
  deriving DecidableEq, Repr

/-! ### Meter computer (chapter 4) -/

inductive History where
  | fresh
  | tracking
  deriving DecidableEq, Repr

/-- The metering record of an arm (R54). -/
structure Metering where
  history : History
  lastPulses : BitVec 32
  lastTemp : Option Int
  hold : Nat
  r1 : Nat
  r2 : Nat
  r3 : Nat
  unauthorised : Nat
  deriving DecidableEq, Repr

/-! ### Batch controller (chapter 5) -/

inductive BatchState where
  | armed | startup | full | topoff | stopping | halted | done
  deriving DecidableEq, Repr

/-- A batch record (R75, R69). Its arm is the arm whose record holds it. A timer is the interval it was started with while it
runs and none while it is stopped (log 2). -/
structure Batch where
  lane : Lane
  compartment : Nat
  product : Byte
  preset : Nat
  state : BatchState
  stopReason : Option StopReason
  ending : Bool
  raw : Nat
  gross : Nat
  net : Nat
  tempWeight : Int
  weightBase : Nat
  exceptions : BitVec 16
  additiveOverride : Bool
  startTime : Option TimeRec
  degraded : Bool
  overspeed : Nat
  noFlow : Nat
  noFlowTimer : Option Nat
  stopTimer : Option Nat
  resumed : Nat
  flowed : Bool
  deriving DecidableEq, Repr

/-- A pending start (R74, R80), with the interval its lapse timer was started with. -/
structure PendingStart where
  lane : Lane
  compartment : Nat
  timer : Nat
  deriving DecidableEq, Repr

/-- An arm record (R74). -/
structure ArmRec where
  holder : Option Batch
  desired : Stage
  reported : Option Stage
  starts : List PendingStart
  stopLead : Option Nat
  travelTimer : Option Nat
  excess : Nat
  deriving DecidableEq, Repr

/-- One value per lane. -/
structure Lanes (α : Type) where
  a : α
  b : α
  deriving DecidableEq, Repr

/-- The batch controller, with the tables it holds (R39). -/
structure BatchController where
  settings : Settings
  products : List Product
  armTable : Vector (Option ArmEntry) 6
  arms : Vector ArmRec 6
  permissive : Lanes Bool
  deriving DecidableEq, Repr

/-! ### Additive scheduler (chapter 6) -/

inductive ScheduleState where
  | active
  | suspended
  | faulted
  deriving DecidableEq, Repr

/-- A dosing schedule (R99). -/
structure Schedule where
  additive : Byte
  injector : DevIx
  ratio : Nat
  required : Bool
  mode : InjMode
  outlet : Nat
  shotSize : Nat
  tolerance : Nat
  shotTimeout : Nat
  streamMin : Nat
  interval : Nat
  countdown : Int
  pending : Nat
  settled : Nat
  delivered : Nat
  streamed : Nat
  state : ScheduleState
  deriving DecidableEq, Repr

inductive ShotPhase where
  | sending
  | awaiting
  | querying
  deriving DecidableEq, Repr

/-- A shot in flight (R104). Its schedule is the one of arm `arm` on this injector while `owned`; `timeout` is that
schedule's shot timeout, kept for a shot that outlives it (R109). -/
structure Flight where
  arm : Arm
  outlet : Nat
  dose : Nat
  timeout : Nat
  attempt : Nat
  phase : ShotPhase
  timer : Option Nat
  busy : Nat
  owned : Bool
  deriving DecidableEq, Repr

/-- A request posted for the scanner (R31). -/
inductive InjRequest where
  | shot (outlet dose : Nat)
  | streamStart (outlet ratio : Nat)
  | streamStop
  | shotQuery
  deriving DecidableEq, Repr

inductive StreamState where
  | idle | starting | running | stopping
  deriving DecidableEq, Repr

/-- A stream record (R112). `taken` says that the scanner has taken the latest START or STOP, `once` that the STOP is the one
R110 or R111 posts, `owned` that the schedule it runs for is not closed (R118). -/
structure Stream where
  state : StreamState
  attempt : Nat
  stopWanted : Bool
  baseline : BitVec 32
  startDose : Nat
  taken : Bool
  once : Bool
  owned : Bool
  deriving DecidableEq, Repr

/-- An injector table entry with the scheduler's records for it (R47, R103, R112). -/
structure InjectorSlot where
  entry : InjectorEntry
  queue : List Arm
  flight : Option Flight
  request : Option InjRequest
  stream : Stream
  deriving DecidableEq, Repr

/-- The additive scheduler: the injector table with its records, and the schedules of each arm's batch in slot order. -/
structure AdditiveScheduler where
  slots : Vector (Option InjectorSlot) 32
  schedules : Vector (List Schedule) 6
  deriving DecidableEq, Repr

/-! ### Load manager (chapter 8) -/

/-- One compartment of an order (R134). -/
structure OrderLine where
  compartment : Nat
  product : Byte
  preset : Nat
  deriving DecidableEq, Repr

/-- An order (R134). `lane` is absent for either lane. -/
structure Order where
  reference : BitVec 32
  carrier : BitVec 16
  tanker : List Byte
  lane : Option Lane
  lines : List OrderLine
  deriving DecidableEq, Repr

inductive CompState where
  | pending | loading | halted | done
  deriving DecidableEq, Repr

inductive AddStatus where
  | ok | short | faulted | suspended
  deriving DecidableEq, Repr

/-- An additive result (R118). -/
structure AddResult where
  additive : Byte
  target : Nat
  delivered : Nat
  status : AddStatus
  deriving DecidableEq, Repr

/-- A compartment entry (R137). -/
structure CompEntry where
  compartment : Nat
  product : Byte
  preset : Nat
  arm : Option Arm
  state : CompState
  gross : Nat
  net : Nat
  avgTemp : Int
  vcf : Option Nat
  reason : Option StopReason
  exceptions : BitVec 16
  additives : List AddResult
  deriving DecidableEq, Repr

/-- A load (R136). -/
structure Load where
  reference : BitVec 32
  carrier : BitVec 16
  tanker : List Byte
  card : Nat
  driverRef : BitVec 16
  startTime : TimeRec
  endTime : Option TimeRec
  permitOverride : Bool
  permitOverridden : Bool
  entries : List CompEntry
  deriving DecidableEq, Repr

inductive LoadState where
  | none | opened | ending | closing
  deriving DecidableEq, Repr

/-- The ending reason of a lane (R136). -/
inductive EndReason where
  | driver
  | aborted
  deriving DecidableEq, Repr

/-- A refusal candidate (R142). -/
structure Candidate where
  card : Nat
  order : BitVec 32
  timer : Nat
  deriving DecidableEq, Repr

inductive Target where
  | load
  | arm (n : Arm)
  deriving DecidableEq, Repr

inductive Half where
  | supervisor
  | terminal
  deriving DecidableEq, Repr

/-- An override slot that is not empty (R148). -/
structure OverrideSlot where
  target : Target
  half : Half
  deadline : Nat
  deriving DecidableEq, Repr

/-- A lane record (R136). -/
structure LaneRec where
  state : LoadState
  load : Option Load
  endReason : Option EndReason
  candidate : Option Candidate
  slot : Option OverrideSlot
  deriving DecidableEq, Repr

/-- The load manager. -/
structure LoadManager where
  orders : List Order
  lanes : Lanes LaneRec
  deriving DecidableEq, Repr

/-! ### Note builder (chapter 9) -/

/-- What a closing record holds: every field of a note but its number (R154, R155). The compartment entries are held as the
load holds them, so an entry that is not DONE shows as NOT LOADED. -/
structure NoteBody where
  lane : Lane
  reference : BitVec 32
  tanker : List Byte
  driverRef : BitVec 16
  carrier : BitVec 16
  startTime : TimeRec
  endTime : TimeRec
  calAtClose : Nat
  permitOverridden : Bool
  entries : List CompEntry
  gross : Nat
  net : Nat
  deriving DecidableEq, Repr

/-- A delivery note (R154). -/
structure Note where
  number : Nat
  body : NoteBody
  deriving DecidableEq, Repr

/-- A write request (R161). -/
inductive WriteReq where
  | note (lane : Lane)
  | calibration (count : Nat)
  deriving DecidableEq, Repr

/-- The write in progress with the word it read at its start (R162, R163). -/
structure WriteOp where
  req : WriteReq
  read : Nat
  deriving DecidableEq, Repr

/-- The note builder and the retained store. -/
structure NoteBuilder where
  notes : List Note
  closing : Lanes (Option NoteBody)
  calDue : Nat
  queue : List WriteReq
  writing : Option WriteOp
  nextNote : Nat
  calCounter : Nat
  deriving DecidableEq, Repr

/-! ### Pads and the whole state -/

/-- The pads and straps (00 Pads, R1, R2, R14). -/
structure Pads where
  tde : Bool
  bde : Bool
  run : Bool
  calEnable : Bool
  addr : BitVec 5
  trate : BitVec 2
  brate : BitVec 2
  deriving DecidableEq, Repr

/-- The part. `free` counts the free values used (log 22); `pending` is the queue of waiting commands, first in, first out. -/
structure State where
  pads : Pads
  port : TerminalPort
  time : TimeCounter
  permits : List Permit
  load : LoadManager
  batch : BatchController
  meter : Vector Metering 6
  additive : AdditiveScheduler
  note : NoteBuilder
  scan : Scanner
  free : Nat
  pending : List Instr
  deriving DecidableEq, Repr

/-! ### Reset values -/

/-- 00-01-01 00:00:00, weekday 06 (R173). -/
def TimeRec.reset : TimeRec := ⟨0x00#8, 0x01#8, 0x01#8, 0x06#8, 0x00#8, 0x00#8, 0x00#8⟩

def TermRx.empty : TermRx := ⟨[], 0, false, none⟩

def BusRx.empty : BusRx := ⟨[], false, none⟩

/-- The terminal port at hard reset (R11, R185). -/
def TerminalPort.reset : TerminalPort where
  rx := .empty
  reply := none
  mode := .outOfService
  notices := []
  mask := 0x3FFF#16
  pendingSet := 0#16
  counters := ⟨0, 0, 0, 0, 0⟩

/-- The starting values of a metering record (R54). -/
def Metering.start : Metering := ⟨.fresh, 0#32, none, 0, 0, 0, 0, 0⟩

/-- An arm record at hard reset (R98). -/
def ArmRec.reset : ArmRec := ⟨none, .closed, none, [], none, none, 0⟩

/-- An idle stream record (R119). -/
def Stream.idle : Stream := ⟨.idle, 1, false, 0#32, 0, false, false, false⟩

/-- A lane record at hard reset (R153). -/
def LaneRec.reset : LaneRec := ⟨.none, none, none, none, none⟩

/-- The batch controller at hard reset (R53, R98). -/
def BatchController.reset : BatchController where
  settings := ⟨1500, 120, 10, 30⟩
  products := []
  armTable := Vector.replicate 6 none
  arms := Vector.replicate 6 ArmRec.reset
  permissive := ⟨false, false⟩

/-- The scanner at hard reset (R38). -/
def Scanner.reset : Scanner where
  devices := Vector.replicate 32 none
  list := []
  pointer := 0
  wrap := true
  filter := Vector.replicate 5 0#32
  slot := none
  transaction := none
  rx := .empty
  counters := ⟨0, 0, 0, 0⟩
  quiet := false
  wake := false

/-- The state that a hard reset leaves, from the straps it samples and the retained words it finds (R185, R160, R165). The
CAL ENABLE level is an input; the free-value counter and the queue are the model's own (logs 5, 22, 34). The permit table is emptied, and
no charge outlives it (R133, log 54). -/
def State.afterHardReset (addr : BitVec 5) (trate brate : BitVec 2) (calEnable : Bool) (nextNote calCounter free : Nat)
    (pending : List Instr) : State where
  pads := ⟨false, false, false, calEnable, addr, trate, brate⟩
  port := .reset
  time := ⟨.reset, 0, false⟩
  permits := []
  load := ⟨[], ⟨.reset, .reset⟩⟩
  batch := .reset
  meter := Vector.replicate 6 Metering.start
  additive := ⟨Vector.replicate 32 none, Vector.replicate 6 []⟩
  note := ⟨[], ⟨none, none⟩, calCounter, [], none, nextNote, calCounter⟩
  scan := .reset
  free := free
  pending := pending

/-- The part right after its first hard reset: the retained store as manufactured (R160), the straps at address 1 and rates
00 and CAL ENABLE low (DESIGN CHOICE, logs 4, 5, 33). -/
def State.reset : State := State.afterHardReset 1#5 0#2 0#2 false 1 0 0 []

end Sys2Proof.Machine
end

