-- ==== Sys2Proof/Machine/Flags.lean ====
section
/-! DEFINITION. The coded fields and flag computations: codes of section 1.6, saturating counters, character errors,
exception sets, the notice mask and the pending set. -/

namespace Sys2Proof.Machine

/-! ### Codes -/

/-- The refusal reasons' codes (R10). -/
def Reason.code : Reason → Byte
  | .badFormat => 0x01#8
  | .badValue => 0x02#8
  | .busy => 0x03#8
  | .calLocked => 0x04#8
  | .tableFull => 0x05#8
  | .notFound => 0x06#8
  | .inUse => 0x07#8
  | .wrongMode => 0x08#8
  | .duplicate => 0x09#8
  | .notOldest => 0x0A#8
  | .noTarget => 0x0B#8
  | .timeNotSet => 0x0C#8
  | .notAllowed => 0x0D#8

/-- A reply's kind and payload (R10). -/
def TermReply.parts : TermReply → Byte × List Byte
  | .accept => (0xA0#8, [])
  | .refuse r => (0xA1#8, [r.code])
  | .data p => (0xA2#8, p)

/-- The stop reasons' codes (section 1.6). -/
def StopReason.code : StopReason → Byte
  | .preset => 0x01#8
  | .pulseFault => 0x02#8
  | .tempLost => 0x03#8
  | .meterLost => 0x04#8
  | .valveLost => 0x05#8
  | .noFlow => 0x06#8
  | .permissive => 0x07#8
  | .estop => 0x08#8
  | .driver => 0x09#8
  | .aborted => 0x0A#8
  | .additive => 0x0B#8

/-- A stop reason in an entry, 00H for none (section 1.6). -/
def stopCode : Option StopReason → Byte
  | none => 0x00#8
  | some r => r.code

/-- The display codes' numbers (R138). -/
def DisplayCode.code : DisplayCode → Byte
  | .opened => 0x01#8
  | .wrongMode => 0x02#8
  | .timeNotSet => 0x03#8
  | .noteFull => 0x04#8
  | .unknownCard => 0x05#8
  | .notAllowed => 0x06#8
  | .revoked => 0x07#8
  | .suspended => 0x08#8
  | .wrongLane => 0x09#8
  | .noOrder => 0x0A#8
  | .expired => 0x0B#8
  | .endorsement => 0x0C#8
  | .limit => 0x0D#8
  | .noLoad => 0x0E#8
  | .noCompartment => 0x0F#8
  | .compartmentDone => 0x10#8
  | .loadClosing => 0x11#8
  | .wrongCard => 0x12#8
  | .noTarget => 0x13#8
  | .overrideArmed => 0x14#8
  | .overrideApplied => 0x15#8
  | .overrideExpired => 0x16#8
  | .closed => 0x17#8
  | .wrongArm => 0x20#8
  | .wrongProduct => 0x21#8
  | .noPermissive => 0x22#8
  | .compartmentBusy => 0x23#8
  | .additiveHalt => 0x24#8
  | .loading => 0x25#8
  | .waitArm => 0x26#8
  | .armBusy => 0x27#8
  | .halted => 0x28#8
  | .complete => 0x29#8

/-- The valve stages' codes (R12). -/
def Stage.code : Stage → Byte
  | .closed => 0x00#8
  | .low => 0x01#8
  | .high => 0x02#8

/-- The stage a reply's byte reports; the layout admits 00H..02H only (R15). -/
def stageOf (b : Byte) : Stage :=
  if b = 0x00#8 then .closed else if b = 0x01#8 then .low else .high

/-- CLOSED below LOW and LOW below HIGH (R91). -/
def Stage.rank : Stage → Nat
  | .closed => 0
  | .low => 1
  | .high => 2

/-- The device kinds' codes (R18). -/
def DeviceKind.code : DeviceKind → Byte
  | .meter => 0x00#8
  | .valve => 0x01#8
  | .injector => 0x02#8
  | .station => 0x03#8
  | .permissive => 0x04#8

/-- The device kind a code names (R18). -/
def deviceKindOf (b : Byte) : Option DeviceKind :=
  if b = 0x00#8 then some .meter
  else if b = 0x01#8 then some .valve
  else if b = 0x02#8 then some .injector
  else if b = 0x03#8 then some .station
  else if b = 0x04#8 then some .permissive
  else none

/-- The place of a device kind's set in the pass filter (R35). -/
def DeviceKind.index : DeviceKind → Fin 5
  | .meter => 0
  | .valve => 1
  | .injector => 2
  | .station => 3
  | .permissive => 4

/-- The association byte: an arm, a lane, or FFH none (R18). -/
def Association.code : Association → Byte
  | .arm n => BitVec.ofNat 8 n.val
  | .lane l => laneCode l
  | .none => 0xFF#8

/-- The association a byte gives for a kind, none where it does not fit the kind (R18). -/
def assocOf (k : DeviceKind) (b : Byte) : Option Association :=
  match k with
  | .meter | .valve => (armOf b).map .arm
  | .station => (laneOf b).map .lane
  | .injector | .permissive => if b = 0xFF#8 then some .none else none

/-- The state byte of TABLE READ (R18). -/
def DeviceState.code : DeviceState → Byte
  | .unknown => 0x00#8
  | .online => 0x01#8
  | .silent => 0x02#8
  | .faulted _ => 0x03#8

/-- The fault source byte of TABLE READ (R18). -/
def DeviceState.sourceCode : DeviceState → Byte
  | .faulted .device => 0x01#8
  | .faulted .part => 0x02#8
  | .unknown | .online | .silent => 0x00#8

/-- The code of a DEVICE notice (R24). -/
def DeviceState.noticeCode : DeviceState → Byte
  | .unknown => 0x00#8
  | .online => 0x01#8
  | .silent => 0x02#8
  | .faulted .device => 0x03#8
  | .faulted .part => 0x04#8

/-- The code of a DEVICE notice for an emptied entry (R24). -/
def removedCode : Byte := 0x05#8

/-- The bay mode's code (R184). -/
def BayMode.code : BayMode → Byte
  | .outOfService => 0x00#8
  | .inService => 0x01#8
  | .draining => 0x02#8

/-- The lane load state's code (R184). -/
def LoadState.code : LoadState → Byte
  | .none => 0x00#8
  | .opened => 0x01#8
  | .ending => 0x02#8
  | .closing => 0x03#8

/-- The holder's batch state in STATUS READ; a DONE batch holds no arm (R184). -/
def BatchState.code : BatchState → Byte
  | .armed => 0x01#8
  | .startup => 0x02#8
  | .full => 0x03#8
  | .topoff => 0x04#8
  | .stopping => 0x05#8
  | .halted => 0x06#8
  | .done => 0x00#8

/-- The reported stage in STATUS READ, FFH absent (R184). -/
def stageByte : Option Stage → Byte
  | none => 0xFF#8
  | some st => st.code

def PermitClass.code : PermitClass → Byte
  | .driver => 0x00#8
  | .supervisor => 0x01#8

def PermitState.code : PermitState → Byte
  | .active => 0x00#8
  | .suspended => 0x01#8
  | .revoked => 0x02#8

/-- The status byte of an additive result (section 1.6). -/
def AddStatus.code : AddStatus → Byte
  | .ok => 0x00#8
  | .short => 0x01#8
  | .faulted => 0x02#8
  | .suspended => 0x03#8

/-- A notice kind's number, which is its bit in the mask and the pending set (R179). -/
def NoticeKind.number : NoticeKind → Nat
  | .loadOpened => 0
  | .loadRefused => 1
  | .batchStarted => 2
  | .batchHalted => 3
  | .batchDone => 4
  | .loadClosed => 5
  | .device => 6
  | .injectorFault => 7
  | .overrideApplied => 8
  | .permissive => 9
  | .unauthorisedFlow => 10
  | .calibration => 11
  | .timeSet => 12
  | .passthrough => 13

/-- The subject byte of a notice, FFH for none (R181). -/
def Subject.code : Subject → Byte
  | .lane l => laneCode l
  | .arm n => BitVec.ofNat 8 n.val
  | .device i => BitVec.ofNat 8 i.val
  | .none => 0xFF#8

/-- A telegram's kind and payload (R12). -/
def Telegram.parts : Telegram → Byte × List Byte
  | .poll => (0x01#8, [])
  | .valveSet st => (0x02#8, [st.code])
  | .shot outlet dose => (0x03#8, BitVec.ofNat 8 outlet :: beBytes 2 dose)
  | .streamStart outlet ratio => (0x04#8, BitVec.ofNat 8 outlet :: beBytes 2 ratio)
  | .streamStop => (0x05#8, [])
  | .stationShow c => (0x06#8, [c.code])
  | .shotQuery => (0x07#8, [])
  | .diagnostic kind payload => (kind, payload)

/-- A telegram of the diagnostic kinds, to which a diagnostic reply may come (R13). -/
def Telegram.isDiagnostic : Telegram → Bool
  | .diagnostic _ _ => true
  | .poll | .valveSet _ | .shot _ _ | .streamStart _ _ | .streamStop | .stationShow _ | .shotQuery => false

/-- A valid reply of this kind is one that a device of this kind may send (R28). -/
def DeviceKind.accepts : DeviceKind → DeviceReply → Bool
  | .meter, .meterSample _ _ _ _ => true
  | .valve, .valveState _ _ => true
  | .injector, .shotReport _ _ _ => true
  | .injector, .injectorState _ _ _ => true
  | .station, .stationEvents _ => true
  | .permissive, .permissiveState _ => true
  | _, _ => false

/-! ### Exception sets -/

/-- An exception's bit (section 1.6). -/
def Exc.bit : Exc → Nat
  | .tempHeld => 0
  | .vcfClamp => 1
  | .overspeed => 2
  | .doseLag => 3
  | .doseClamp => 4
  | .resumed => 5
  | .meterLost => 6
  | .additiveShort => 7
  | .additiveOverridden => 8
  | .halted => 9

def setExc (e : Exc) (x : BitVec 16) : BitVec 16 := x ||| (1#16 <<< e.bit)

def hasExc (e : Exc) (x : BitVec 16) : Bool := x.getLsbD e.bit

/-! ### Counters -/

/-- A saturating 16-bit counter takes one more (R5). -/
def satInc (n : Nat) : Nat := if 65535 ≤ n then 65535 else n + 1

/-- The kinds of character error that one character alone shows (R3). -/
inductive CharError where
  | none | parity | framing | brk
  deriving DecidableEq, Repr

/-- The even parity bit of a byte: with it the count of ones across data and parity bit is even (R1). -/
def parityBit (b : Byte) : Bool := ((List.range 8).filter fun i => b.getLsbD i).length % 2 = 1

/-- The check of a Terminal Link character as it completes: a break has every bit at space; a parity and framing error
together count as framing (R3). The parity bit is checked against the even one (R1). -/
def TermChar.error (c : TermChar) : CharError :=
  if c.stop then (if c.parity = parityBit c.data then .none else .parity)
  else if c.data = 0#8 ∧ !c.parity then .brk
  else .framing

/-- The check of a Bay Bus character as it completes (R2, R3). -/
def BusChar.error (c : BusChar) : CharError :=
  if c.stop then .none
  else if c.data = 0#8 ∧ !c.ninth then .brk
  else .framing

/-- A character error adds one to the counter of its kind (R5). -/
def TermCounters.countError (k : TermCounters) : CharError → TermCounters
  | .none => k
  | .parity => { k with parity := satInc k.parity }
  | .framing => { k with framing := satInc k.framing }
  | .brk => { k with brk := satInc k.brk }

/-- A character error adds one to the counter of its kind (R5); the Bay Bus has no parity. -/
def BusCounters.countError (k : BusCounters) : CharError → BusCounters
  | .none => k
  | .parity => k
  | .framing => { k with framing := satInc k.framing }
  | .brk => { k with brk := satInc k.brk }

/-- A message discarded as short, long, wrong in length or failing its CRC (R5, R8). -/
def State.countTermCheck (s : State) : State :=
  { s with port.counters.check := satInc s.port.counters.check }

/-- A reply found broken for a reason other than a character error or the timeout (R5, R13). -/
def State.countBusCheck (s : State) : State :=
  { s with scan.counters.check := satInc s.scan.counters.check }

/-- A character lost to an occupied held stage on the Bay Bus (R4, R5). -/
def State.countBusOverrun (s : State) : State :=
  { s with scan.counters.overrun := satInc s.scan.counters.overrun }

/-- A character error on the Bay Bus (R5). -/
def State.countBusError (s : State) (e : CharError) : State :=
  { s with scan.counters := s.scan.counters.countError e }

/-! ### Notices -/

/-- A notice is raised with a given time (R180): its kind's pending bit is set; it joins the queue when its mask bit is set
and the queue holds fewer than 32. -/
def State.raiseNoticeAt (s : State) (kind : NoticeKind) (subject : Subject) (code : Byte) (time : TimeRec)
    (extra : Option (Byte × List Byte)) : State :=
  { s with
    port.pendingSet := s.port.pendingSet ||| (1#16 <<< kind.number)
    port.notices :=
      if s.port.mask.getLsbD kind.number = true ∧ s.port.notices.length < 32 then
        s.port.notices ++ [⟨kind, subject, code, time, extra⟩]
      else s.port.notices }

/-- A notice is raised with the time record of this event (R179, R180). -/
def State.raiseNotice (s : State) (kind : NoticeKind) (subject : Subject) (code : Byte) : State :=
  s.raiseNoticeAt kind subject code s.time.record none

end Sys2Proof.Machine
end

