-- ==== Sys2Proof/Machine/Ops.lean ====
section
/-! DEFINITION. The shared operations over the blocks' records: reading and writing tables and records, posting display codes
and injector requests, the desired stage, the terminal request's gate and reply, the bay mode. -/

namespace Sys2Proof.Machine

/-! ### Lanes, arms, devices, injectors -/

def Lanes.get {α : Type} (v : Lanes α) : Lane → α
  | .a => v.a
  | .b => v.b

def Lanes.set {α : Type} (v : Lanes α) (l : Lane) (x : α) : Lanes α :=
  match l with
  | .a => { v with a := x }
  | .b => { v with b := x }

def Lane.other : Lane → Lane
  | .a => .b
  | .b => .a

/-- The lane record of a lane (R136). -/
def State.lane (s : State) (l : Lane) : LaneRec := s.load.lanes.get l

def State.setLane (s : State) (l : Lane) (r : LaneRec) : State :=
  { s with load.lanes := s.load.lanes.set l r }

/-- A lane holds a load while its load state is OPEN, ENDING or CLOSING (R136). -/
def State.holdsLoad (s : State) (l : Lane) : Bool := (s.lane l).state != .none

/-- The arm record (R74). -/
def State.arm (s : State) (n : Arm) : ArmRec := s.batch.arms[n]

def State.setArm (s : State) (n : Arm) (r : ArmRec) : State :=
  { s with batch.arms := s.batch.arms.set n r }

/-- The batch that holds an arm (R74). -/
def State.holder (s : State) (n : Arm) : Option Batch := (s.arm n).holder

/-- The arm's batch record takes a new value; a free arm stays free. -/
def State.modBatch (s : State) (n : Arm) (f : Batch → Batch) : State :=
  s.setArm n { s.arm n with holder := (s.holder n).map f }

/-- An exception is set on the batch that holds the arm (R75). -/
def State.setBatchExc (s : State) (n : Arm) (e : Exc) : State :=
  s.modBatch n fun b => { b with exceptions := setExc e b.exceptions }

/-- The arm entry (R44). -/
def State.armEntry (s : State) (n : Arm) : Option ArmEntry := s.batch.armTable[n]

/-- The device entry at an index (R18). -/
def State.device (s : State) (i : DevIx) : Option Device := s.scan.devices[i]

def State.setDevice (s : State) (i : DevIx) (d : Option Device) : State :=
  { s with scan.devices := s.scan.devices.set i d }

/-- The device of a kind at an index. -/
def State.deviceOfKind (s : State) (i : DevIx) (k : DeviceKind) : Option Device :=
  (s.device i).filter fun d => d.kind = k

/-- The indices of the present entries of a kind, ascending. -/
def State.devicesOfKind (s : State) (k : DeviceKind) : List DevIx :=
  allDevIx.filter fun i => (s.deviceOfKind i k).isSome

/-- The injector table entry with its records (R47, R103, R112). -/
def State.slot (s : State) (i : DevIx) : Option InjectorSlot := s.additive.slots[i]

def State.setSlot (s : State) (i : DevIx) (x : Option InjectorSlot) : State :=
  { s with additive.slots := s.additive.slots.set i x }

def State.modSlot (s : State) (i : DevIx) (f : InjectorSlot → InjectorSlot) : State :=
  s.setSlot i ((s.slot i).map f)

/-- The schedules of the batch that holds the arm, in slot order (R99). -/
def State.schedules (s : State) (n : Arm) : List Schedule := s.additive.schedules[n]

def State.setSchedules (s : State) (n : Arm) (l : List Schedule) : State :=
  { s with additive.schedules := s.additive.schedules.set n l }

/-- The batch's schedule on an injector, of which there is at most one (R43, R99). -/
def State.schedule (s : State) (n : Arm) (i : DevIx) : Option Schedule :=
  (s.schedules n).find? fun c => c.injector = i

def State.modSchedule (s : State) (n : Arm) (i : DevIx) (f : Schedule → Schedule) : State :=
  s.setSchedules n ((s.schedules n).map fun c => if c.injector = i then f c else c)

/-- The metering record (R54). -/
def State.metering (s : State) (n : Arm) : Metering := s.meter[n]

def State.setMetering (s : State) (n : Arm) (m : Metering) : State :=
  { s with meter := s.meter.set n m }

/-- The product entry of a code (R42). -/
def State.product (s : State) (code : Byte) : Option Product := s.batch.products.find? fun p => p.code = code

/-- The arm's meter is a present METER entry in state ONLINE (R55, R83). -/
def State.meterOnline (s : State) (n : Arm) : Bool :=
  match s.armEntry n with
  | none => false
  | some e => (s.deviceOfKind e.meter .meter).any fun d => d.state = .online

/-- The arm's valve is a present VALVE entry in state ONLINE (R83). -/
def State.valveOnline (s : State) (n : Arm) : Bool :=
  match s.armEntry n with
  | none => false
  | some e => (s.deviceOfKind e.valve .valve).any fun d => d.state = .online

/-- The state is one of ARMED, STARTUP, FULL and TOPOFF, in which a halt acts (R88). -/
def BatchState.haltable : BatchState → Bool
  | .armed | .startup | .full | .topoff => true
  | .stopping | .halted | .done => false

/-- The flowing states (R84). -/
def BatchState.flowing : BatchState → Bool
  | .startup | .full | .topoff => true
  | .armed | .stopping | .halted | .done => false

/-- The arms whose batch belongs to a lane, ascending (R136: a batch of the lane is one whose record names the lane). -/
def State.lanesArms (s : State) (l : Lane) : List Arm :=
  allArms.filter fun n => (s.holder n).any fun b => b.lane = l

/-- Preset less the gross total in μL; it may be negative (R84). -/
def Batch.remaining (b : Batch) : Int := (b.preset : Int) * 1000000 - b.gross

/-! ### The bus: wake, display codes, requests -/

/-- Work of R27's list has arrived in this event (log 36). -/
def State.wakeBus (s : State) : State := { s with scan.wake := true }

/-- The display pending of a present STATION entry of the lane takes the code (R32). -/
def Device.showCode (d : Device) (l : Lane) (c : DisplayCode) : Device :=
  if d.kind = .station ∧ d.assoc = .lane l then { d with display := some c } else d

/-- The lane has a present STATION entry. -/
def State.hasStation (s : State) (l : Lane) : Bool :=
  allDevIx.any fun i => (s.device i).any fun d => d.kind = .station && d.assoc = .lane l

/-- A display code is posted to a lane (R32): every present STATION entry of the lane takes it, and a STATION SHOW in flight
to one of them learns that a newer code stands. With no such entry the code is dropped. -/
def State.post (s : State) (l : Lane) (c : DisplayCode) : State :=
  if s.hasStation l then
    { s with
      scan.devices := s.scan.devices.map fun d => d.map fun d => d.showCode l c
      scan.transaction := s.scan.transaction.map fun t =>
        if (s.device t.device).any (fun d => d.kind = .station && d.assoc = .lane l) then { t with newerCode := true } else t
      scan.wake := true }
  else s

/-- The additive scheduler posts a request, at most one per injector (R31). -/
def State.postRequest (s : State) (i : DevIx) (r : InjRequest) : State :=
  (s.modSlot i fun x => { x with request := some r }).wakeBus

/-- A request not yet taken is withdrawn (R31). -/
def State.withdrawRequest (s : State) (i : DevIx) : State :=
  s.modSlot i fun x => { x with request := none }

/-- The desired stage of an arm is set (R76). A change restarts the travel timer with the no-flow timeout of this moment and
keeps the excess count at 0 while it runs (R91), and wakes the bus (R27). -/
def State.setDesired (s : State) (n : Arm) (st : Stage) : State :=
  if (s.arm n).desired = st then s
  else (s.setArm n { s.arm n with
          desired := st, travelTimer := some s.batch.settings.noFlowTimeout, excess := 0 }).wakeBus

/-- The stage R76 gives for a holder's state and degraded flag. -/
def desiredFor (st : BatchState) (degraded : Bool) : Stage :=
  match st with
  | .startup => .low
  | .full => if degraded then .low else .high
  | .topoff => .low
  | .armed | .stopping | .halted | .done => .closed

/-- The holder's state changes and the desired stage follows it (R76). -/
def State.setBatchState (s : State) (n : Arm) (st : BatchState) : State :=
  match s.holder n with
  | none => s
  | some b => (s.modBatch n fun b => { b with state := st }).setDesired n (desiredFor st b.degraded)

/-- The batch's no-flow timer starts with the no-flow timeout of this moment (R86). -/
def State.startNoFlowTimer (s : State) (n : Arm) : State :=
  s.modBatch n fun b => { b with noFlowTimer := some s.batch.settings.noFlowTimeout }

/-- The batch's stop timer starts with the no-flow timeout of this moment when its meter is not ONLINE (R90). -/
def State.startStopTimerIfLost (s : State) (n : Arm) : State :=
  if s.meterOnline n then s
  else s.modBatch n fun b => { b with stopTimer := some s.batch.settings.noFlowTimeout }

/-- The reported stage is LOW or HIGH. -/
def State.reportsOpen (s : State) (n : Arm) : Bool :=
  (s.arm n).reported = some .low || (s.arm n).reported = some .high

/-! ### The terminal port -/

/-- The bay mode changes, and RUN is high exactly in IN SERVICE (R175). -/
def State.setMode (s : State) (m : BayMode) : State :=
  { s with port.mode := m, pads.run := m == .inService }

/-- A reply becomes pending; TDE is taken as asserted from here on (R1, R9, R10, log 6). -/
def State.reply (s : State) (r : TermReply) : State :=
  { s with port.reply := some r, pads.tde := true }

/-- The characters of the pending reply with their even parity bits (R1, R6, R10, R14). -/
def State.replyLine (s : State) : Option (List (Byte × Bool)) :=
  s.port.reply.map fun r => (frame (s.pads.addr.setWidth 8) r.parts.1 r.parts.2).map fun b => (b, parityBit b)

/-- The characters of the telegram in flight with their ninth bits: set in the first, clear in the others (R2, R12). -/
def State.telegramLine (s : State) : Option (List (Byte × Bool)) :=
  s.scan.transaction.map fun t =>
    ((frame t.address t.telegram.parts.1 t.telegram.parts.2).zipIdx).map fun (b, i) => (b, i == 0)

/-- A refusal reason as an owner's answer that changes nothing. -/
def State.refuse (s : State) (r : Reason) : State × TermReply := (s, .refuse r)

/-- An owner's ACCEPT with the state its effect leaves. -/
def State.accept (s : State) : State × TermReply := (s, .accept)

/-- An owner's DATA answer. -/
def State.answer (s : State) (p : List Byte) : State × TermReply := (s, .data p)

/-- The date of the time record, "today" (R125). -/
def State.today (s : State) : Date := ⟨s.time.record.year, s.time.record.month, s.time.record.day⟩

/-- Dates compare year first, then month, then day; BCD bytes compare as their numbers (R128). -/
def Date.key (d : Date) : Nat := d.year.toNat * 65536 + d.month.toNat * 256 + d.day.toNat

/-- The seven bytes of a time record (R16). -/
def TimeRec.bytes (t : TimeRec) : List Byte := [t.year, t.month, t.day, t.weekday, t.hour, t.minute, t.second]

end Sys2Proof.Machine
end

