-- ==== Sys2Proof/Machine/Volume.lean ====
section
/-! DEFINITION. The meter computer's arithmetic (chapter 4): pulse delta, raw volume, flow rate, meter factor, gross,
temperature, correction factor, net, and the reporting figures. -/

namespace Sys2Proof.Machine

/-- Stage 1: the pulse delta on a 32-bit counter (R57). -/
def pulseDelta (p last : BitVec 32) : Nat := (p - last).toNat

/-- Stages 2, 5 and 8: a dividend with the carried remainder gives the truncated quotient and the new remainder. -/
def carryDiv (dividend remainder divisor : Nat) : Nat × Nat :=
  ((dividend + remainder) / divisor, (dividend + remainder) % divisor)

/-- Stage 2: raw increment in μL and the new r1 (R59). -/
def rawStage (pulses km r1 : Nat) : Nat × Nat := carryDiv (pulses * 1000000000) r1 km

/-- Stage 3: flow rate in L/min, the interval clamped to 1..5000 ms (R60). -/
def flowRate (raw interval : Nat) : Nat := raw * 60 / (min 5000 (max 1 interval) * 1000)

/-- Case 4 of R61 on one segment. -/
def interpolate (q : Nat) (a b : Nat × Nat) : Int :=
  a.2 + roundAway (((q : Int) - a.1) * ((b.2 : Int) - a.2)) (b.1 - a.1)

/-- Stage 4 beyond the first point: the segment that holds the rate, or the last factor (R61). -/
def factorFrom (q : Nat) : Nat × Nat → List (Nat × Nat) → Int
  | a, [] => a.2
  | a, b :: rest => if q < b.1 then interpolate q a b else factorFrom q b rest

/-- Stage 4: the meter factor at a flow rate (R61). An entry's curve is never empty (R44). -/
def meterFactor (q : Nat) : List (Nat × Nat) → Nat
  | [] => 100000
  | a :: rest => if q ≤ a.1 then a.2 else (factorFrom q a rest).toNat

/-- Stage 5: gross increment and the new r2 (R62). -/
def grossStage (raw mf r2 : Nat) : Nat × Nat := carryDiv (raw * mf) r2 100000

/-- Stage 7: the correction factor before the clamp (R65). -/
def vcfExact (alpha : Nat) (t : Int) (tref : Nat) : Int := 100000 - roundAway (alpha * (t - tref)) 1000

/-- Stage 7: the correction factor, clamped to 90000..110000 (R65). -/
def vcf (alpha : Nat) (t : Int) (tref : Nat) : Nat := (min 110000 (max 90000 (vcfExact alpha t tref))).toNat

/-- The clamp acts (R65). -/
def vcfClamped (alpha : Nat) (t : Int) (tref : Nat) : Bool :=
  vcfExact alpha t tref < 90000 || 110000 < vcfExact alpha t tref

/-- Stage 8: net increment and the new r3 (R66). -/
def netStage (gross vcf r3 : Nat) : Nat × Nat := carryDiv (gross * vcf) r3 100000

/-- What stage 6 gives: the temperature used, and TEMP HELD, NO TEMPERATURE and HOLD EXHAUSTED (R63, R64). -/
structure TempResult where
  temp : Int
  held : Bool
  noTemp : Bool
  exhausted : Bool
  deriving DecidableEq, Repr

/-- The reading is usable: TEMP VALID set and within −4000..+6000 (R63). -/
def tempUsable (valid : Bool) (reading : Int) : Bool := valid && -4000 ≤ reading && reading ≤ 6000

/-- Stage 6: the temperature used and the record after it (R63, R64). -/
def tempStage (m : Metering) (valid : Bool) (reading : Int) (tref : Nat) : TempResult × Metering :=
  if tempUsable valid reading then
    (⟨reading, false, false, false⟩, { m with lastTemp := some reading, hold := 0 })
  else
    match m.lastTemp with
    | some t => (⟨t, true, false, 5 ≤ m.hold⟩, { m with hold := min 6 (m.hold + 1) })
    | none => (⟨tref, true, true, 6 ≤ m.hold⟩, m)

/-- A sample result (R68). -/
structure SampleResult where
  pulses : Nat
  raw : Nat
  gross : Nat
  net : Nat
  rate : Nat
  temp : Int
  pulseFault : Bool
  tempHeld : Bool
  noTemp : Bool
  holdExhausted : Bool
  vcfClamp : Bool
  deriving DecidableEq, Repr

/-- Stages 2 to 8 for a pulse delta already judged (R58 to R66), with the record after them. -/
def runStages (e : ArmEntry) (alpha tref : Nat) (m : Metering) (pulses : Nat) (fault : Bool) (interval : Nat)
    (valid : Bool) (reading : Int) : SampleResult × Metering :=
  let raw := rawStage pulses e.km m.r1
  let q := flowRate raw.1 interval
  let gross := grossStage raw.1 (meterFactor q e.curve) m.r2
  let t := tempStage m valid reading tref
  let f := vcf alpha t.1.temp tref
  let net := netStage gross.1 f m.r3
  (⟨pulses, raw.1, gross.1, net.1, q, t.1.temp, fault, t.1.held, t.1.noTemp, t.1.exhausted,
      vcfClamped alpha t.1.temp tref⟩,
    { t.2 with r1 := raw.2, r2 := gross.2, r3 := net.2 })

/-! ### Reporting figures -/

/-- A total in μL reported in decilitres, halfway cases up (R71). -/
def toDl (microlitres : Nat) : Nat := (microlitres + 50000) / 100000

/-- The average temperature of a batch (R72). -/
def Batch.avgTemp (b : Batch) : Int := if b.weightBase = 0 then 0 else roundAway b.tempWeight b.weightBase

/-- The reported VCF of a batch, absent when its gross dL is 0 (R73). -/
def Batch.reportedVcf (b : Batch) : Option Nat :=
  if toDl b.gross = 0 then none else some (roundUp (b.net * 100000) b.gross)

/-! ### Totals -/

/-- A sum fits a 48-bit total (R69). -/
def fits48 (n : Nat) : Bool := n < 2 ^ 48

/-- A sum fits the signed 64-bit weight sum (R69). -/
def fits64 (n : Int) : Bool := -(2 ^ 63) ≤ n && n < 2 ^ 63

/-- The increments of a result are added to the batch's totals (R69). A sum that leaves its number format is a free value
(log 22); `k` is the free-value counter. -/
def Batch.addIncrements (b : Batch) (r : SampleResult) (k : Nat) : Batch :=
  let total := fun (j n : Nat) => if fits48 n then n else (Config.freeTotal (k + j)).toNat
  let weight := b.tempWeight + r.temp * r.gross
  { b with
    raw := total 0 (b.raw + r.raw)
    gross := total 1 (b.gross + r.gross)
    net := total 2 (b.net + r.net)
    weightBase := total 1 (b.weightBase + r.gross)
    tempWeight := if fits64 weight then weight else (Config.freeWeight (k + 3)).toInt }

/-- Every sum of R69 fits its number format. -/
def Batch.incrementsFit (b : Batch) (r : SampleResult) : Bool :=
  fits48 (b.raw + r.raw) && fits48 (b.gross + r.gross) && fits48 (b.net + r.net) &&
    fits48 (b.weightBase + r.gross) && fits64 (b.tempWeight + r.temp * r.gross)

/-! ### Changes of the meter's state -/

/-- A change of the meter's state starts the sample history afresh; the remainders stay (R55). -/
def Metering.meterChanged (m : Metering) : Metering :=
  { m with history := .fresh, lastTemp := none, hold := 0, unauthorised := 0 }

/-- The meter computer is told of a change of state of the METER entry at an index: every arm whose entry names it starts its
history afresh (R55). -/
def State.meterChanged (s : State) (i : DevIx) : State :=
  allArms.foldl (fun s n =>
    if (s.armEntry n).any fun e => e.meter = i then s.setMetering n (s.metering n).meterChanged else s) s

/-- The unauthorised-flow watch takes a sample that is neither FRESH nor a pulse fault (R70). -/
def State.watchFlow (s : State) (n : Arm) (pulses leak : Nat) : State :=
  let m := s.metering n
  if pulses ≤ leak then s.setMetering n { m with unauthorised := 0 }
  else if 2 ≤ m.unauthorised then
    (s.setMetering n { m with unauthorised := 0 }).raiseNotice .unauthorisedFlow (.arm n) 0x00#8
  else s.setMetering n { m with unauthorised := m.unauthorised + 1 }

end Sys2Proof.Machine
end

