-- ==== Sys2Proof/Machine/Shots.lean ====
section
/-! DEFINITION. The additive scheduler's queues, shots in flight and streams (R100 to R103, R108, R109, R112): what needs no
other block but the scanner's request. -/

namespace Sys2Proof.Machine

/-- The settled shots saturate at 16,777,215 (R99). -/
def addSettled (n k : Nat) : Nat := min 16777215 (n + k)

/-- The interval of a SHOT schedule before the clamp (R100). -/
def rawInterval (shotSize ratio : Nat) : Nat := shotSize * 100 * 1000000 / ratio

/-- The interval of a SHOT schedule (R100). -/
def shotInterval (shotSize ratio : Nat) : Nat := max 1000000 (rawInterval shotSize ratio)

/-- The injector has an owned shot of this arm in flight (R104, R109). -/
def InjectorSlot.flightOf (x : InjectorSlot) (n : Arm) : Bool := x.flight.any fun f => f.owned && f.arm = n

/-- The head of the queue is issued when no shot is in flight: a shot in flight with attempt 1 in SENDING, and a SHOT request
with the schedule's outlet and shot size (R103). -/
def State.issueHead (s : State) (i : DevIx) : State :=
  match s.slot i with
  | none => s
  | some x =>
    match x.flight, x.queue with
    | none, n :: _ =>
      match s.schedule n i with
      | none => s
      | some c =>
        (s.modSlot i fun x => { x with
            flight := some ⟨n, c.outlet, c.shotSize, c.shotTimeout, 1, .sending, none, 0, true⟩ }).postRequest i
          (.shot c.outlet c.shotSize)
    | _, _ => s

/-- A schedule with pending shots and no entry in its injector's queue joins at the back, and a head with no shot in flight is
issued (R103). An unowned shot of the same arm is no entry (R109). -/
def State.joinQueue (s : State) (n : Arm) (i : DevIx) : State :=
  match s.schedule n i with
  | none => s
  | some c =>
    (s.modSlot i fun x =>
      if 0 < c.pending ∧ ¬ x.queue.contains n then { x with queue := x.queue ++ [n] } else x).issueHead i

/-- A SHOT schedule withdraws what it has not yet ordered: its queue entry goes unless its shot is in flight, and its pending
shots not in flight are settled with nothing delivered (R108, R116 step 1). -/
def State.withdrawShots (s : State) (n : Arm) (i : DevIx) : State :=
  if (s.slot i).any fun x => x.flightOf n then
    s.modSchedule n i fun c => { c with pending := min 1 c.pending, settled := addSettled c.settled (c.pending - 1) }
  else
    (s.modSlot i fun x => { x with queue := x.queue.filter fun m => m ≠ n }).modSchedule n i fun c =>
      { c with pending := 0, settled := addSettled c.settled c.pending }

/-- The shot in flight is given up with its timer; the head entry of an owned shot leaves the queue (R105, R109). -/
def State.dropFlight (s : State) (i : DevIx) : State :=
  s.modSlot i fun x =>
    { x with
      queue := if x.flight.any fun f => f.owned then x.queue.drop 1 else x.queue
      flight := none }

/-! ### Streams (R112) -/

/-- The arm a STREAM injector serves: exactly one (R47). -/
def InjectorEntry.servedArm (e : InjectorEntry) : Option Arm := allArms.find? fun n => (e.outlets[n]).isSome

def State.modStream (s : State) (i : DevIx) (f : Stream → Stream) : State :=
  s.modSlot i fun x => { x with stream := f x.stream }

/-- The stream goes to STARTING for an arm's ACTIVE schedule: attempt 1, the delivered dose becomes the start dose, STREAM
START posted with outlet and ratio (R112, first row). -/
def State.startStream (s : State) (n : Arm) (i : DevIx) : State :=
  match s.schedule n i with
  | none => s
  | some c =>
    (s.modStream i fun t => { t with
        state := .starting, attempt := 1, stopWanted := false, startDose := c.delivered, taken := false,
        once := false, owned := true }).postRequest i (.streamStart c.outlet c.ratio)

/-- The batch that holds the arm is in FULL or TOPOFF (R112). -/
def State.inFullOrTopoff (s : State) (n : Arm) : Bool :=
  (s.holder n).any fun b => b.state = .full || b.state = .topoff

/-- The stream becomes IDLE other than with the declaration of a failure, and starts again when the arm's batch is in FULL or
TOPOFF with its schedule ACTIVE (R112, below the table). -/
def State.streamIdle (s : State) (i : DevIx) : State :=
  let s1 := s.modStream i fun t => { t with
    state := .idle, attempt := 1, stopWanted := false, taken := false, once := false, owned := false }
  match (s1.slot i).bind fun x => x.entry.servedArm with
  | none => s1
  | some n =>
    if s1.inFullOrTopoff n ∧ (s1.schedule n i).any (fun c => c.state = .active) then s1.startStream n i else s1

/-- The stream becomes IDLE with the declaration of a failure (R112). -/
def State.streamFailed (s : State) (i : DevIx) : State :=
  s.modStream i fun t => { t with
    state := .idle, attempt := 1, stopWanted := false, taken := false, once := false, owned := false }

/-- A STREAM STOP is posted with an attempt number; the stream is STOPPING from its posting (R112). -/
def State.postStreamStop (s : State) (i : DevIx) (attempt : Nat) (once : Bool) : State :=
  (s.modStream i fun t => { t with
    state := .stopping, attempt := attempt, stopWanted := false, taken := false, once := once }).postRequest i .streamStop

/-- The batch leaves FULL and TOPOFF, or its schedule leaves ACTIVE: the stop rows of R112. -/
def State.stopStream (s : State) (i : DevIx) : State :=
  match s.slot i with
  | none => s
  | some x =>
    match x.stream.state with
    | .idle => s
    | .starting =>
      if x.stream.taken then s.modStream i fun t => { t with stopWanted := true }
      else (s.withdrawRequest i).streamIdle i
    | .running => s.postStreamStop i 1 false
    | .stopping => s

/-- The STREAM STOP that R110 and R111 post for a faulted or silent injector: sent once, it replaces any START or STOP still
posted (R112). -/
def State.stopStreamOnce (s : State) (i : DevIx) : State := s.postStreamStop i 1 true

/-! ### A batch's schedules as a whole -/

/-- The batch enters FULL or TOPOFF from STARTUP: each ACTIVE STREAM schedule with an IDLE stream opens it (R112). -/
def State.openStreams (s : State) (n : Arm) : State :=
  (s.schedules n).foldl (fun s c =>
    if c.mode = .stream ∧ c.state = .active ∧ (s.slot c.injector).any (fun x => x.stream.state = .idle) then
      s.startStream n c.injector
    else s) s

/-- The batch has left STARTUP, FULL and TOPOFF: each ACTIVE SHOT schedule withdraws what it has not ordered and each ACTIVE
STREAM schedule has its stream stopped; a SUSPENDED or FAULTED one has nothing to withdraw (R108). -/
def State.leaveFlowing (s : State) (n : Arm) : State :=
  (s.schedules n).foldl (fun s c =>
    if c.state ≠ .active then s
    else
      match c.mode with
      | .shot => s.withdrawShots n c.injector
      | .stream => s.stopStream c.injector) s

/-- A shot of a closing schedule that is still in flight becomes unowned: its entry leaves the queue, and one in QUERYING ends
at once with its query withdrawn and the next head issued (R109). A stream it ran is no longer credited (R118). -/
def State.disown (s : State) (n : Arm) (i : DevIx) : State :=
  match s.slot i with
  | none => s
  | some x =>
    let s1 := s.modSlot i fun x => { x with
      queue := x.queue.filter fun m => m ≠ n
      flight := x.flight.map fun f => if f.owned ∧ f.arm = n then { f with owned := false } else f }
    if x.flightOf n && x.flight.any fun f => f.phase = .querying then
      ((s1.withdrawRequest i).modSlot i fun x => { x with flight := none }).issueHead i
    else s1

/-- The batch's schedules are closed at DONE (R109, R118). -/
def State.closeSchedules (s : State) (n : Arm) : State :=
  ((s.schedules n).foldl (fun s c =>
    match c.mode with
    | .shot => s.disown n c.injector
    | .stream => s.modStream c.injector fun t =>
        if t.owned ∧ (s.slot c.injector).any (fun x => x.entry.servedArm = some n) then { t with owned := false } else t) s).setSchedules
      n []

/-- The target of a dose at a ratio, in 0.1 mL, halfway cases up (R115, R118). -/
def doseTarget (gross ratio : Nat) : Nat := roundUp (gross * ratio) 100000000

/-- The result of one schedule at DONE (R118). -/
def Schedule.result (c : Schedule) (gross : Nat) : AddResult :=
  let target := doseTarget gross c.ratio
  ⟨c.additive, target, c.delivered,
    match c.state with
    | .faulted => .faulted
    | .suspended => .suspended
    | .active => if c.delivered * 100 < target * (100 - c.tolerance) then .short else .ok⟩

/-- A dose added to a delivered dose; a sum past 32 bits is a free value (log 22). -/
def addDose (delivered dose free : Nat) : Nat :=
  if delivered + dose < 2 ^ 32 then delivered + dose else (Config.freeDose free).toNat

/-- The schedule's delivered dose takes a value computed as a sum; the free-value counter advances when the sum does not fit
(R99, log 22). -/
def State.setDelivered (s : State) (n : Arm) (i : DevIx) (base dose : Nat) : State :=
  let s1 := s.modSchedule n i fun c => { c with delivered := addDose base dose s.free }
  if base + dose < 2 ^ 32 then s1 else { s1 with free := s.free + 1 }

end Sys2Proof.Machine
end

