-- ==== Sys2Proof/Machine/Halt.lean ====
section
/-! DEFINITION. Halts and degrades (R85, R88), what the additive scheduler asks of the batch controller, and the faults of
schedules and injectors (R23, R107, R110, R111, R116). -/

namespace Sys2Proof.Machine

/-! ### Batch controller: leaving the flowing states -/

/-- A batch goes to STOPPING: state and reason, ending mark, desired CLOSED, no-flow timer stopped, stop timer when the meter
is not ONLINE, and the additive scheduler is told (R84 for PRESET, R88 steps 1, 2, 5 and 6). -/
def State.enterStopping (s : State) (n : Arm) (reason : StopReason) : State :=
  (((s.modBatch n fun b => { b with stopReason := some reason, noFlowTimer := none }).setBatchState n .stopping).startStopTimerIfLost
    n).leaveFlowing n

/-- R88 steps 3 and 4: the counts become 0, and METER LOST sets its exception. -/
def Batch.clearCounts (b : Batch) (reason : StopReason) : Batch :=
  { b with
    noFlow := 0
    overspeed := 0
    exceptions := if reason = .meterLost then setExc .meterLost b.exceptions else b.exceptions }

/-- R88 steps 1 to 7, also with the reasons of R94 and R95: STOPPING, then a BATCH HALTED notice with the reason. -/
def State.stopBatch (s : State) (n : Arm) (reason : StopReason) : State :=
  ((s.modBatch n fun b => b.clearCounts reason).enterStopping n reason).raiseNotice .batchHalted (.arm n) reason.code

/-- A halt acts on a batch in ARMED, STARTUP, FULL or TOPOFF and leaves any other as it is (R88). -/
def State.haltBatch (s : State) (n : Arm) (reason : StopReason) : State :=
  if (s.holder n).any fun b => b.state.haltable then s.stopBatch n reason else s

/-- A FULL batch that is not degraded becomes degraded: flag set, overspeed count 0, OVERSPEED set, desired LOW (R85). -/
def State.degradeBatch (s : State) (n : Arm) : State :=
  if (s.holder n).any fun b => b.state = .full && !b.degraded then
    (s.modBatch n fun b => { b with
        degraded := true
        overspeed := 0
        exceptions := setExc .overspeed b.exceptions }).setDesired n .low
  else s

/-- A degrade request of the additive scheduler: DOSE LAG whatever the state, then the degrade with its four effects (R85,
log 20). -/
def State.degradeRequest (s : State) (n : Arm) : State := (s.setBatchExc n .doseLag).degradeBatch n

/-- What the additive scheduler asks of the batch controller (R101, R102, R116). -/
inductive AddRequest where
  | halt (n : Arm)
  | degrade (n : Arm)
  deriving DecidableEq, Repr

/-- The batch controller carries out one request. -/
def State.applyRequest (s : State) : AddRequest → State
  | .halt n => s.haltBatch n .additive
  | .degrade n => s.degradeRequest n

/-- Requests are passed on in the order they were raised (R101). -/
def State.applyRequests (s : State) (rs : List AddRequest) : State := rs.foldl State.applyRequest s

/-! ### Schedule faults -/

/-- The causes of an INJECTOR FAULT notice (R116). -/
inductive FaultCause where
  | deviation | repeatFailure | device | notAvailable
  deriving DecidableEq, Repr

def FaultCause.code : FaultCause → Byte
  | .deviation => 0x01#8
  | .repeatFailure => 0x02#8
  | .device => 0x03#8
  | .notAvailable => 0x04#8

/-- R116 step 3, and step 5 for an OPTIONAL schedule. -/
def State.noticeFault (s : State) (n : Arm) (required : Bool) (cause : FaultCause) : State :=
  let s1 := s.raiseNotice .injectorFault (.arm n) cause.code
  if required then s1 else s1.setBatchExc n .additiveShort

/-- An ACTIVE schedule becomes FAULTED (R116): steps 1, 2, 3 and 5 at once; step 4, the halt a REQUIRED schedule asks for, is
given back so that the caller passes it on when its rule says. A schedule in another state is left as it is. -/
def State.faultSchedule (s : State) (n : Arm) (i : DevIx) (cause : FaultCause) : State × List AddRequest :=
  match s.schedule n i with
  | none => (s, [])
  | some c =>
    if c.state ≠ .active then (s, [])
    else
      let s1 := s.modSchedule n i fun c => { c with state := .faulted }
      let s2 := match c.mode with
        | .shot => s1.withdrawShots n i
        | .stream => s1.stopStream i
      (s2.noticeFault n c.required cause, if c.required then [.halt n] else [])

/-- A schedule fault whose halt follows at once (R105, R110, R115). -/
def State.faultScheduleNow (s : State) (n : Arm) (i : DevIx) (cause : FaultCause) : State :=
  let r := s.faultSchedule n i cause
  r.1.applyRequests r.2

/-- Every ACTIVE schedule on an injector becomes FAULTED, taking batches in ascending order of arm (R110 step 4). -/
def State.faultSchedulesOn (s : State) (i : DevIx) (cause : FaultCause) : State :=
  allArms.foldl (fun s n => s.faultScheduleNow n i cause) s

/-! ### Injector state changes at the additive scheduler -/

/-- The injector's stream is not IDLE. -/
def State.streamActive (s : State) (i : DevIx) : Bool :=
  (s.slot i).any fun x => x.entry.mode = .stream && x.stream.state ≠ .idle

/-- An injector has become FAULTED (R110): the shot in flight ends without credit, the untaken request is withdrawn, the queue
is emptied, its ACTIVE schedules become FAULTED, and a stream that is not IDLE is sent one STREAM STOP. The pending shots of a
FAULTED or SUSPENDED schedule whose flight ends here stay pending and join no queue again (log 49, the model's choice). -/
def State.injectorFaulted (s : State) (i : DevIx) (source : FaultSource) : State :=
  let cause : FaultCause := match source with
    | .part => .repeatFailure
    | .device => .device
  let s1 := s.modSlot i fun x => { x with flight := none, request := none, queue := [] }
  let s2 := s1.faultSchedulesOn i cause
  if s2.streamActive i then s2.stopStreamOnce i else s2

/-- An unowned shot ends and the next head is issued (R109, R111). Its own SHOT, posted and not yet taken, is not withdrawn
here: it stays posted unless the next head's takes its place (log 48, the model's choice). -/
def State.endUnowned (s : State) (i : DevIx) : State :=
  if (s.slot i).any fun x => x.flight.any fun f => !f.owned then
    (s.modSlot i fun x => { x with flight := none }).issueHead i
  else s

/-- An injector has become SILENT (R111). -/
def State.injectorSilent (s : State) (i : DevIx) : State :=
  match s.slot i with
  | none => s
  | some x =>
    match x.entry.mode with
    | .shot => s.endUnowned i
    | .stream => if x.stream.state = .idle then s else (s.faultSchedulesOn i .device).stopStreamOnce i

/-- An injector has become UNKNOWN or REMOVED: an unowned shot ends and a posted request is withdrawn (R111, R31, log 17). -/
def State.injectorUnknown (s : State) (i : DevIx) : State := (s.withdrawRequest i).endUnowned i

/-- The additive scheduler is told of a change of an injector's state (R110, R111). A move of the fault source from DEVICE to
PART changes nothing there (R110). -/
def State.injectorChanged (s : State) (i : DevIx) (before after : DeviceState) : State :=
  match after with
  | .unknown => s.injectorUnknown i
  | .online => s
  | .silent => s.injectorSilent i
  | .faulted source => if before = .faulted .device ∧ source = .part then s else s.injectorFaulted i source

/-- The additive scheduler declares an injector failed (R23): the entry becomes FAULTED with source PART, noticed and handed on
(R24, log 18), unless it already is or no INJECTOR entry stands there. -/
def State.declareFailed (s : State) (i : DevIx) : State :=
  match s.deviceOfKind i .injector with
  | none => s
  | some d =>
    if d.state = .faulted .part then s
    else
      ((s.setDevice i (some { d with state := .faulted .part })).raiseNotice .device (.device i)
        (DeviceState.noticeCode (.faulted .part))).injectorChanged i d.state (.faulted .part)

/-- An attempt of the shot in flight has failed (R107). A shot whose schedule is no longer ACTIVE ends without credit, reissue
or declaration (R116 step 1, log 30). -/
def State.attemptFailed (s : State) (i : DevIx) : State :=
  match (s.slot i).bind fun x => x.flight with
  | none => s
  | some f =>
    if ¬ (s.schedule f.arm i).any fun c => c.state = .active then
      ((s.modSchedule f.arm i fun c => { c with
          pending := c.pending - 1, settled := addSettled c.settled (min 1 c.pending) }).dropFlight i).issueHead i
    else if f.attempt = 1 then
      (s.modSlot i fun x => { x with
          flight := some { f with attempt := 2, busy := 0, phase := .sending, timer := none } }).postRequest i
        (.shot f.outlet f.dose)
    else s.declareFailed i

end Sys2Proof.Machine
end

