-- ==== Sys2Proof/Machine/Permits.lean ====
section
/-! DEFINITION. The permit table (chapter 7): order and positions, the day roll, charges, the tests and the questions, and the
four permit requests. -/

namespace Sys2Proof.Machine

/-- The permit of a card (R120). -/
def State.permit (s : State) (card : Nat) : Option Permit := s.permits.find? fun p => p.card = card

/-- Every permit of a card takes a new value; there is at most one (R120). -/
def State.modPermit (s : State) (card : Nat) (f : Permit → Permit) : State :=
  { s with permits := s.permits.map fun p => if p.card = card then f p else p }

/-- A permit takes its place in the ascending order of card numbers (R120, R122). -/
def insertPermit (p : Permit) : List Permit → List Permit
  | [] => [p]
  | q :: rest => if p.card < q.card then p :: q :: rest else q :: insertPermit p rest

/-- The day roll: a last load day other than today, or absent, sets used today to 0 (R125). -/
def Permit.roll (p : Permit) (today : Date) : Permit :=
  if p.lastLoad = some today then p else { p with usedToday := 0 }

/-- A batch's gross dL is charged: roll, add with the ceiling, last load day today (R126). -/
def Permit.charge (p : Permit) (today : Date) (dl : Nat) : Permit :=
  { p.roll today with usedToday := min 99999999 ((p.roll today).usedToday + dl), lastLoad := some today }

def State.chargePermit (s : State) (card : Nat) (dl : Nat) : State :=
  s.modPermit card fun p => p.charge s.today dl

/-! ### The tests (R127 to R130) -/

/-- The expiry test fails: the expiry date is earlier than today (R128). -/
def Permit.expired (p : Permit) (today : Date) : Bool := p.expiry.key < today.key

/-- The state test and its two reasons, REVOKED first (R127). -/
def Permit.stateFailure (p : Permit) : Option DisplayCode :=
  match p.state with
  | .revoked => some .revoked
  | .suspended => some .suspended
  | .active => none

/-- The endorsement test passes: every named class is in the set (R129). -/
def Permit.endorses (p : Permit) (classes : List Nat) : Bool := classes.all fun c => p.endorsed.getLsbD c

/-- The lane test passes (R129). -/
def Permit.admitsLane (p : Permit) (l : Lane) : Bool := p.lane = none || p.lane = some l

/-- The limit test passes, on a permit already rolled (R130). -/
def Permit.withinLimit (p : Permit) (dl : Nat) : Bool := p.dailyLimit = 0 || p.usedToday + dl ≤ p.dailyLimit * 10

/-! ### In use (R123) -/

/-- The card is the permit of the load of a lane that holds one (R123). -/
def State.loadHasCard (s : State) (l : Lane) (card : Nat) : Bool :=
  s.holdsLoad l && (s.lane l).load.any fun x => x.card = card

/-- The card is the card of a lane's refusal candidate (R123). -/
def State.candidateHasCard (s : State) (l : Lane) (card : Nat) : Bool :=
  (s.lane l).candidate.any fun c => c.card = card

/-- The in-use bits of PERMIT READ (R124). -/
def State.permitUse (s : State) (card : Nat) : Byte :=
  (if s.loadHasCard .a card then 1#8 else 0#8) ||| (if s.loadHasCard .b card then 2#8 else 0#8) |||
    (if s.candidateHasCard .a card then 4#8 else 0#8) ||| (if s.candidateHasCard .b card then 8#8 else 0#8)

/-! ### Requests -/

/-- The days of a month; month 02 has 29 when the year number is divisible by 4 (R166). -/
def daysInMonth (year month : Nat) : Nat :=
  if month = 2 then (if year % 4 = 0 then 29 else 28)
  else if month = 4 ∨ month = 6 ∨ month = 9 ∨ month = 11 then 30
  else 31

/-- Year, month and day in BCD make a real date (R121, R166). -/
def realDate (year month day : Byte) : Bool :=
  bcdOk year && bcdOk month && bcdOk day && 1 ≤ bcdVal month && bcdVal month ≤ 12 && 1 ≤ bcdVal day &&
    bcdVal day ≤ daysInMonth (bcdVal year) (bcdVal month)

/-- The lane restriction byte (R121). -/
def restrictionOf (b : Byte) : Option (Option Lane) :=
  if b = 0xFF#8 then some none else (laneOf b).map some

def restrictionCode : Option Lane → Byte
  | none => 0xFF#8
  | some l => laneCode l

def permitClassOf (b : Byte) : Option PermitClass :=
  if b = 0x00#8 then some .driver else if b = 0x01#8 then some .supervisor else none

def permitStateOf (b : Byte) : Option PermitState :=
  if b = 0x00#8 then some .active else if b = 0x01#8 then some .suspended
  else if b = 0x02#8 then some .revoked else none

/-- The permit that a PERMIT WRITE payload gives, with no usage yet; none where the form is bad (R121 step 1). -/
def parsePermit (p : List Byte) : Option Permit :=
  match permitClassOf (byteAt p 5), permitStateOf (byteAt p 6), restrictionOf (byteAt p 19) with
  | some cls, some st, some lane =>
    if p.length = 21 then
      some {
        card := bcdNat (p.take 5)
        cls := cls
        state := st
        driverRef := BitVec.ofNat 16 (fieldAt p 7 2)
        carrier := BitVec.ofNat 16 (fieldAt p 9 2)
        expiry := ⟨byteAt p 11, byteAt p 12, byteAt p 13⟩
        endorsed := BitVec.ofNat 16 (fieldAt p 14 2)
        dailyLimit := fieldAt p 16 3
        usedToday := 0
        lastLoad := none
        lane := lane }
    else none
  | _, _, _ => none

/-- A known card's permit is replaced in place: its usage stays unless RESET USAGE is set (R122). -/
def Permit.replaceBy (old new : Permit) (reset : Bool) : Permit :=
  if reset then new else { new with usedToday := old.usedToday, lastLoad := old.lastLoad }

/-- PERMIT WRITE (R121, R122). -/
def State.permitWrite (s : State) (p : List Byte) : State × TermReply :=
  match parsePermit p with
  | none => s.refuse .badFormat
  | some n =>
    if ¬ ((p.take 5).all bcdOk ∧ realDate n.expiry.year n.expiry.month n.expiry.day ∧ n.dailyLimit ≤ 999999) then
      s.refuse .badValue
    else if (s.permit n.card).isSome then (s.modPermit n.card fun old => old.replaceBy n (flag (byteAt p 20) 0)).accept
    else if s.permits.length < 256 then State.accept { s with permits := insertPermit n s.permits }
    else s.refuse .tableFull

/-- PERMIT DELETE (R123). -/
def State.permitDelete (s : State) (p : List Byte) : State × TermReply :=
  let card := bcdNat p
  if p.length ≠ 5 then s.refuse .badFormat
  else if ¬ p.all bcdOk then s.refuse .badValue
  else if (s.permit card).isNone then s.refuse .notFound
  else if s.permitUse card ≠ 0#8 then s.refuse .inUse
  else State.accept { s with permits := s.permits.filter fun q => q.card ≠ card }

/-- The standing byte of PERMIT READ (R124): the first failure of the state and expiry tests at today's date. -/
def Permit.standing (p : Permit) (today : Date) : Byte :=
  match p.state with
  | .revoked => 0x02#8
  | .suspended => 0x03#8
  | .active => if p.expired today then 0x04#8 else 0x00#8

/-- Bytes 0..19 of PERMIT WRITE's layout (R121). -/
def Permit.fields (p : Permit) : List Byte :=
  bcdBytes 5 p.card ++ [p.cls.code, p.state.code] ++ beBytes 2 p.driverRef.toNat ++ beBytes 2 p.carrier.toNat ++
    [p.expiry.year, p.expiry.month, p.expiry.day] ++ beBytes 2 p.endorsed.toNat ++ beBytes 3 p.dailyLimit ++
    [restrictionCode p.lane]

/-- The 32 bytes of PERMIT READ for the permit at a position (R124). -/
def State.permitRecord (s : State) (p : Permit) (pos : Nat) : List Byte :=
  p.fields ++ beBytes 4 p.usedToday ++
    (match p.lastLoad with
      | none => [0xFF#8, 0xFF#8, 0xFF#8]
      | some d => [d.year, d.month, d.day]) ++
    [BitVec.ofNat 8 pos] ++ beBytes 2 s.permits.length ++ [p.standing s.today, s.permitUse p.card]

/-- The permit at a position is read: the day roll, then its record (R124, R125). -/
def State.permitReadAt (s : State) (pos : Nat) : State × TermReply :=
  match s.permits[pos]? with
  | none => s.refuse .notFound
  | some p =>
    let s1 := s.modPermit p.card fun q => q.roll s.today
    s1.answer (s1.permitRecord (p.roll s.today) pos)

/-- PERMIT READ by card number, the bytes after the selector 00H (R124). -/
def State.permitReadByCard (s : State) (rest : List Byte) : State × TermReply :=
  if rest.length ≠ 5 then s.refuse .badFormat
  else if ¬ rest.all bcdOk then s.refuse .badValue
  else s.permitReadAt (s.permits.findIdx fun p => p.card = bcdNat rest)

/-- PERMIT READ by position, the bytes after the selector 01H (R124). -/
def State.permitReadByPosition (s : State) (rest : List Byte) : State × TermReply :=
  if rest.length ≠ 1 then s.refuse .badFormat
  else s.permitReadAt (byteAt rest 0).toNat

end Sys2Proof.Machine
end

