-- ==== Sys2Proof/Machine/Notes.lean ====
section
/-! DEFINITION. The note builder (chapter 9): calibration requests, the store's write queue, closing records, notes and their
parts. The completion of a note-number write stands in Done, since it returns the lane to NONE. -/

namespace Sys2Proof.Machine

/-! ### The store's writes (R161 to R163) -/

/-- A write starts: it reads its word (R162, R163). -/
def NoteBuilder.start (b : NoteBuilder) (r : WriteReq) : NoteBuilder :=
  { b with writing := some ⟨r, match r with
      | .note _ => b.nextNote
      | .calibration _ => b.calCounter⟩ }

/-- A request arrives: it starts at once when no write is in progress, and else joins the back of the queue (R161). -/
def NoteBuilder.request (b : NoteBuilder) (r : WriteReq) : NoteBuilder :=
  if b.writing.isNone then b.start r else { b with queue := b.queue ++ [r] }

/-- The word a note-number write stores (R162). -/
def nextNumber (n : Nat) : Nat := if n = 99999999 then 1 else n + 1

/-- A write completes: its word holds the new value from here on (R161, R162, R163). -/
def NoteBuilder.storeWord (b : NoteBuilder) (w : WriteOp) : NoteBuilder :=
  match w.req with
  | .note _ => { b with writing := none, nextNote := nextNumber w.read }
  | .calibration k => { b with writing := none, calCounter := min 999999 (w.read + k) }

/-- After a completed write the request at the head leaves the queue and starts (R161). -/
def NoteBuilder.startNext (b : NoteBuilder) : NoteBuilder :=
  match b.writing, b.queue with
  | none, r :: rest => { b with queue := rest }.start r
  | _, _ => b

/-- A calibration request that waits takes one more increment (R163). -/
def bumpCalibration : WriteReq → WriteReq
  | .note l => .note l
  | .calibration k => .calibration (k + 1)

def WriteReq.isCalibration : WriteReq → Bool
  | .note _ => false
  | .calibration _ => true

/-- A calibration request for one accepted metrological change (R163). -/
def NoteBuilder.calibrate (b : NoteBuilder) : NoteBuilder :=
  let b1 := { b with calDue := min 999999 (b.calDue + 1) }
  if b.queue.any WriteReq.isCalibration then { b1 with queue := b.queue.map bumpCalibration }
  else b1.request (.calibration 1)

/-! ### Closing records (R155, R156) -/

/-- The sum of a figure over compartment entries (R156). -/
def sumEntries (f : CompEntry → Nat) (es : List CompEntry) : Nat := (es.map f).sum

/-- What a closing record copies from the load, with the totals and the calibration due value of this moment (R155). -/
def NoteBody.ofLoad (l : Lane) (x : Load) (endTime : TimeRec) (calDue : Nat) : NoteBody where
  lane := l
  reference := x.reference
  tanker := x.tanker
  driverRef := x.driverRef
  carrier := x.carrier
  startTime := x.startTime
  endTime := endTime
  calAtClose := calDue
  permitOverridden := x.permitOverridden
  entries := x.entries
  gross := sumEntries CompEntry.gross x.entries
  net := sumEntries CompEntry.net x.entries

/-- A load is handed over at its entry to CLOSING: the closing record is made and a note-number request arrives (R155). -/
def NoteBuilder.close (b : NoteBuilder) (l : Lane) (x : Load) (endTime : TimeRec) : NoteBuilder :=
  { b with closing := b.closing.set l (some (NoteBody.ofLoad l x endTime b.calDue)) }.request (.note l)

/-! ### Parts of a note (R17) -/

/-- The five bytes every part opens with (R17). -/
def partOpening (n : Note) (part : Nat) : List Byte := bcdBytes 4 n.number ++ [BitVec.ofNat 8 part]

/-- Part 0, the note head (R17). -/
def Note.head (n : Note) : List Byte :=
  partOpening n 0 ++ [laneCode n.body.lane] ++ beBytes 4 n.body.reference.toNat ++ n.body.tanker ++
    beBytes 2 n.body.driverRef.toNat ++ beBytes 2 n.body.carrier.toNat ++ n.body.startTime.bytes ++ n.body.endTime.bytes ++
    fieldBytes 3 n.body.calAtClose ++ [if n.body.permitOverridden then 0x01#8 else 0x00#8] ++ fieldBytes 4 n.body.gross ++
    fieldBytes 4 n.body.net ++ [BitVec.ofNat 8 n.body.entries.length]

/-- An additive result as ten bytes (R17). -/
def AddResult.bytes (r : AddResult) : List Byte :=
  r.additive :: fieldBytes 4 r.target ++ fieldBytes 4 r.delivered ++ [r.status.code]

/-- Part n, a compartment entry (R17). An entry that is not DONE shows as NOT LOADED: arm absent, stop reason none, figures 0,
absent or empty (R137, R154). -/
def CompEntry.part (e : CompEntry) (n : Note) (part : Nat) : List Byte :=
  partOpening n part ++ [BitVec.ofNat 8 e.compartment, e.product] ++ fieldBytes 3 e.preset ++
    (if e.state = .done then
      [match e.arm with
        | none => 0xFF#8
        | some a => BitVec.ofNat 8 a.val, 0x01#8] ++ fieldBytes 4 e.gross ++ fieldBytes 4 e.net ++ signedField e.avgTemp ++
        (match e.vcf with
          | none => [0xFF#8, 0xFF#8, 0xFF#8]
          | some v => fieldBytes 3 v) ++
        [stopCode e.reason] ++ beBytes 2 e.exceptions.toNat ++ [BitVec.ofNat 8 e.additives.length] ++
        e.additives.flatMap AddResult.bytes
    else
      [0xFF#8, 0x00#8] ++ beBytes 4 0 ++ beBytes 4 0 ++ beBytes 2 0 ++ [0xFF#8, 0xFF#8, 0xFF#8] ++ [0x00#8] ++ beBytes 2 0 ++
        [0x00#8])

/-- NOTE TAKE (R158). -/
def State.noteTake (s : State) (p : List Byte) : State × TermReply :=
  if p.length ≠ 1 then s.refuse .badFormat
  else
    match s.note.notes with
    | [] => s.refuse .notFound
    | n :: _ =>
      let part := (byteAt p 0).toNat
      if part = 0 then s.answer n.head
      else
        match n.body.entries[part - 1]? with
        | none => s.refuse .badValue
        | some e => s.answer (e.part n part)

/-- NOTE RELEASE (R159). -/
def State.noteRelease (s : State) (p : List Byte) : State × TermReply :=
  if p.length ≠ 4 then s.refuse .badFormat
  else if ¬ (p.all bcdOk ∧ bcdNat p ≠ 0) then s.refuse .badValue
  else
    match s.note.notes with
    | [] => s.refuse .notFound
    | n :: rest =>
      if n.number = bcdNat p then State.accept { s with note.notes := rest } else s.refuse .notOldest

end Sys2Proof.Machine
end

