-- ==== Sys2Proof/Machine/Startup.lean ====
section
/-! DEFINITION. Creating a batch and its schedules, entering STARTUP, the judgement of a START and pending starts (R78 to R83,
R99, R100). -/

namespace Sys2Proof.Machine

/-! ### Compartment entries of a lane's load (R137) -/

def Load.entry (x : Load) (comp : Nat) : Option CompEntry := x.entries.find? fun e => e.compartment = comp

def Load.modEntry (x : Load) (comp : Nat) (f : CompEntry → CompEntry) : Load :=
  { x with entries := x.entries.map fun e => if e.compartment = comp then f e else e }

/-- The entry of a compartment in the lane's load takes a new value (R137). -/
def State.modEntry (s : State) (l : Lane) (comp : Nat) (f : CompEntry → CompEntry) : State :=
  s.setLane l { s.lane l with load := (s.lane l).load.map fun x => x.modEntry comp f }

/-- The load manager is told that the compartment is LOADING on an arm (R79, R137). -/
def State.reportLoading (s : State) (l : Lane) (comp : Nat) (n : Arm) : State :=
  s.modEntry l comp fun e => { e with state := .loading, arm := some n }

/-- The load manager is told that the compartment is HALTED (R89, R137). -/
def State.reportHalted (s : State) (l : Lane) (comp : Nat) : State :=
  s.modEntry l comp fun e => { e with state := .halted }

/-! ### Override slots whose ARM target vanishes (R148) -/

/-- The batch on the arm leaves HALTED, so a slot of its lane with that target empties (R148). -/
def State.armTargetGone (s : State) (l : Lane) (n : Arm) : State :=
  s.setLane l { s.lane l with slot := (s.lane l).slot.filter fun x => x.target ≠ .arm n }

/-! ### Schedules (R99, R100) -/

/-- The injector's device entry is absent or FAULTED with either source (R99). -/
def State.injectorUnavailable (s : State) (i : DevIx) : Bool :=
  match s.deviceOfKind i .injector with
  | none => true
  | some d =>
    match d.state with
    | .faulted _ => true
    | .unknown | .online | .silent => false

/-- The schedule of one recipe slot at its creation (R99). Without an injector entry, or where its map does not serve the arm,
the schedule is created FAULTED and the settings it would copy stand at 0 (log 24). -/
def State.newSchedule (s : State) (n : Arm) (r : RecipeSlot) : Schedule :=
  let entry := (s.slot r.injector).map fun x => x.entry
  let outlet := entry.bind fun e => e.outlets[n]
  let size := entry.elim 0 fun e => e.shotSize
  let interval := shotInterval size r.ratio
  { additive := r.additive
    injector := r.injector
    ratio := r.ratio
    required := r.required
    mode := entry.elim .shot fun e => e.mode
    outlet := outlet.getD 0
    shotSize := size
    tolerance := entry.elim 0 fun e => e.tolerance
    shotTimeout := entry.elim 0 fun e => e.shotTimeout
    streamMin := entry.elim 0 fun e => e.streamMin
    interval := interval
    countdown := interval
    pending := 0
    settled := 0
    delivered := 0
    streamed := 0
    state := if outlet.isNone || s.injectorUnavailable r.injector then .faulted else .active }

/-- The interval of a SHOT schedule on a present injector entry is held at 1,000,000 μL (R100). -/
def State.intervalClamped (s : State) (r : RecipeSlot) : Bool :=
  (s.slot r.injector).any fun x => x.entry.mode = .shot && rawInterval x.entry.shotSize r.ratio < 1000000

/-- One slot's schedule is created (R99): DOSE CLAMP where its interval is held (R100); one created FAULTED has its notice with
cause NOT AVAILABLE at once and its ADDITIVE SHORT when OPTIONAL, its halt with the end of the entry (R116, log 50). -/
def State.createSchedule (s : State) (n : Arm) (r : RecipeSlot) : State :=
  let c := s.newSchedule n r
  let s1 := s.setSchedules n (s.schedules n ++ [c])
  let s2 := if s.intervalClamped r then s1.setBatchExc n .doseClamp else s1
  if c.state = .faulted then s2.noticeFault n c.required .notAvailable else s2

/-- The schedules of a batch are created in slot order (R99). -/
def State.createSchedules (s : State) (n : Arm) (product : Byte) : State :=
  ((s.product product).elim [] fun p => p.recipe).foldl (fun s r => s.createSchedule n r) (s.setSchedules n [])

/-- A REQUIRED schedule of the batch is FAULTED (R116). -/
def State.requiredFaulted (s : State) (n : Arm) : Bool :=
  (s.schedules n).any fun c => c.required && c.state = .faulted

/-! ### Entering STARTUP (R83) -/

/-- The remaining volume is at or below the stop lead (R83 step 6, R84 order 3). -/
def State.atStopLead (s : State) (n : Arm) (b : Batch) : Bool :=
  b.remaining ≤ (((s.arm n).stopLead.getD 0 : Nat) : Int) * 100000

/-- First entry to STARTUP: remainders to 0, flowed set, start time taken (R83 step 3, R67). -/
def State.firstStartup (s : State) (n : Arm) : State :=
  (s.modBatch n fun b => { b with flowed := true, startTime := some s.time.record }).setMetering n
    { s.metering n with r1 := 0, r2 := 0, r3 := 0 }

/-- R83 step 6: a batch already at its stop lead goes on to STOPPING with reason PRESET. -/
def State.stopIfAtLead (s : State) (n : Arm) : State :=
  if (s.holder n).any fun b => s.atStopLead n b then s.enterStopping n .preset else s

/-- Entry to STARTUP, steps 1 to 6 of R83, the no-flow timer where the stage is already reported open (R86), and then the halt
for a FAULTED REQUIRED schedule (R116). The code of BATCH STARTED goes by the flowed mark, so a batch resumed before it ever
entered STARTUP has 00H (log 47). -/
def State.enterStartup (s : State) (n : Arm) (b : Batch) : State :=
  let s1 := (s.setBatchState n .startup).modBatch n fun b => { b with overspeed := 0, noFlow := 0 }
  let s2 := if s1.reportsOpen n then s1.startNoFlowTimer n else s1
  let s3 := if b.flowed then s2 else (s2.firstStartup n).createSchedules n b.product
  let s4 := (s3.raiseNotice .batchStarted (.arm n) (if b.flowed then 0x01#8 else 0x00#8)).stopIfAtLead n
  if s4.requiredFaulted n then s4.haltBatch n .additive else s4

/-- The test of R83: a batch in ARMED enters STARTUP when its meter and valve are ONLINE and its lane permissive is true. -/
def State.tryStartup (s : State) (n : Arm) : State :=
  match s.holder n with
  | none => s
  | some b =>
    if b.state = .armed ∧ s.meterOnline n ∧ s.valveOnline n ∧ s.batch.permissive.get b.lane then s.enterStartup n b else s

/-! ### Creating and resuming (R79) -/

/-- A batch record at its creation (R75). -/
def Batch.new (l : Lane) (comp : Nat) (product : Byte) (preset : Nat) : Batch where
  lane := l
  compartment := comp
  product := product
  preset := preset
  state := .armed
  stopReason := none
  ending := false
  raw := 0
  gross := 0
  net := 0
  tempWeight := 0
  weightBase := 0
  exceptions := 0#16
  additiveOverride := false
  startTime := none
  degraded := false
  overspeed := 0
  noFlow := 0
  noFlowTimer := none
  stopTimer := none
  resumed := 0
  flowed := false

/-- A batch is created on a free arm (R79). -/
def State.createBatch (s : State) (n : Arm) (l : Lane) (comp : Nat) (product : Byte) (preset : Nat) : State :=
  ((((s.setArm n { s.arm n with holder := some (Batch.new l comp product preset) }).setDesired n .closed).reportLoading l comp
    n).post l .loading).tryStartup n

/-- The record of a batch that is resumed (R79). -/
def Batch.resume (b : Batch) : Batch :=
  { b with
    state := .armed
    stopReason := none
    ending := false
    noFlow := 0
    noFlowTimer := none
    stopTimer := none
    resumed := min 255 (b.resumed + 1)
    exceptions := setExc .resumed b.exceptions }

/-- A HALTED batch is resumed (R79); it leaves HALTED, so an override slot on it empties (R148). -/
def State.resumeBatch (s : State) (n : Arm) (b : Batch) : State :=
  (((((s.modBatch n Batch.resume).setDesired n .closed).armTargetGone b.lane n).reportLoading b.lane b.compartment n).post b.lane
    .loading).tryStartup n

/-! ### Judging a START (R78) -/

/-- The arm reaches the lane (R44, R78). -/
def Reach.serves : Reach → Lane → Bool
  | .a, .a => true
  | .b, .b => true
  | .both, _ => true
  | .a, .b => false
  | .b, .a => false

/-- A HALTED batch of this lane and compartment holds the arm (R78). -/
def State.haltedHere (s : State) (n : Arm) (l : Lane) (comp : Nat) : Option Batch :=
  (s.holder n).filter fun b => b.lane = l && b.compartment = comp && b.state = .halted

/-- The compartment has a batch of the lane other than a HALTED one on this arm, or a pending start of the lane on another arm
(R78 step 4). -/
def State.compartmentBusy (s : State) (n : Arm) (l : Lane) (comp : Nat) : Bool :=
  allArms.any fun m =>
    ((s.holder m).any fun b => b.lane = l && b.compartment = comp && !(m = n && b.state = .halted)) ||
    (m ≠ n && (s.arm m).starts.any fun p => p.lane = l && p.compartment = comp)

/-- Steps 1 to 4 of R78: the code of the first that fails. -/
def State.startFailure (s : State) (n : Arm) (l : Lane) (comp : Nat) (product : Byte) : Option DisplayCode :=
  match s.armEntry n with
  | none => some .wrongArm
  | some e =>
    if ¬ e.reach.serves l then some .wrongArm
    else if ¬ e.allowed.getLsbD product.toNat then some .wrongProduct
    else if ¬ s.batch.permissive.get l then some .noPermissive
    else if s.compartmentBusy n l comp then some .compartmentBusy
    else none

/-- Step 5 of R78: a batch HALTED for ADDITIVE without its override. -/
def State.additiveHeld (s : State) (n : Arm) (l : Lane) (comp : Nat) : Bool :=
  (s.haltedHere n l comp).any fun b => b.stopReason = some .additive && !b.additiveOverride

/-- A START on a held arm becomes a pending start (R80). -/
def State.makePending (s : State) (n : Arm) (l : Lane) (comp : Nat) : State :=
  (s.setArm n { s.arm n with
      starts := ((s.arm n).starts.filter fun p => p.lane ≠ l) ++ [⟨l, comp, s.batch.settings.startWait⟩] }).post l .waitArm

/-- A START passed on by the load manager (R78). -/
def State.judgeStart (s : State) (n : Arm) (l : Lane) (comp : Nat) (product : Byte) (preset : Nat) : State :=
  match s.startFailure n l comp product with
  | some c => s.post l c
  | none =>
    if s.additiveHeld n l comp then s.post l .additiveHalt
    else
      match s.haltedHere n l comp with
      | some b => s.resumeBatch n b
      | none => if (s.holder n).isNone then s.createBatch n l comp product preset else s.makePending n l comp

/-- The lane's pending starts on every arm are removed, with no code posted (R81). -/
def State.dropLaneStarts (s : State) (l : Lane) : State :=
  { s with batch.arms := s.batch.arms.map fun r => { r with starts := r.starts.filter fun p => p.lane ≠ l } }

/-- The lane's pending start on one arm is removed (R81). -/
def State.dropStart (s : State) (n : Arm) (l : Lane) : State :=
  s.setArm n { s.arm n with starts := (s.arm n).starts.filter fun p => p.lane ≠ l }

/-- Every pending start on the arm is removed (R81). -/
def State.dropAllStarts (s : State) (n : Arm) : State := s.setArm n { s.arm n with starts := [] }

/-- The product and preset of a compartment from the lane's load as it stands (R82). -/
def State.loadLine (s : State) (l : Lane) (comp : Nat) : Option (Byte × Nat) :=
  ((s.lane l).load.bind fun x => x.entry comp).map fun e => (e.product, e.preset)

/-- The pending starts of a released arm are served, oldest first: one that passes is removed and creates a batch; one that
fails is removed with its code posted (R82). An entry whose load is gone has nothing to start and is removed (log 35). -/
def State.serveStarts (s : State) (n : Arm) : List PendingStart → State
  | [] => s
  | p :: rest =>
    let s1 := s.setArm n { s.arm n with starts := rest }
    match s1.loadLine p.lane p.compartment with
    | none => s1.serveStarts n rest
    | some (product, preset) =>
      match s1.startFailure n p.lane p.compartment product with
      | some c => (s1.post p.lane c).serveStarts n rest
      | none => s1.createBatch n p.lane p.compartment product preset

end Sys2Proof.Machine
end

