-- ==== Sys2Proof/Machine/Done.lean ====
section
/-! DEFINITION. How a batch ends and how a load ends: HALTED, DONE, stop-lead learning, the lane end request, ENDING and CLOSING,
the return of the lane, and the stops of driver and terminal (R89, R92 to R97, R144 to R147, R157). -/

namespace Sys2Proof.Machine

/-! ### CLOSING (R146, R155) -/

/-- A load goes to CLOSING: load state, end time, hand-over to the note builder (R146). -/
def State.closeLoad (s : State) (l : Lane) : State :=
  match (s.lane l).load with
  | none => s
  | some x =>
    let s1 := s.setLane l
      { s.lane l with state := .closing, load := some { x with endTime := some s.time.record } }
    { s1 with note := s1.note.close l x s.time.record }

/-- ENDING with no batch of the lane left goes on to CLOSING (R144, R145 step 4). -/
def State.closeIfIdle (s : State) (l : Lane) : State :=
  if (s.lane l).state = .ending ∧ s.lanesArms l = [] then s.closeLoad l else s

/-- The stop reason a lane end request carries (R95). -/
def EndReason.stopReason : EndReason → StopReason
  | .driver => .driver
  | .aborted => .aborted

/-- Entry to ENDING: load state and reason, then LOAD CLOSING posted (R145 steps 1 and 2). -/
def State.markEnding (s : State) (l : Lane) (r : EndReason) : State :=
  (s.setLane l { s.lane l with state := .ending, endReason := some r }).post l .loadClosing

/-- Every compartment of the lane's load is DONE (R144). -/
def State.allDone (s : State) (l : Lane) : Bool :=
  (s.lane l).load.any fun x => x.entries.all fun e => e.state = .done

/-- The load manager is told that the lane has one batch fewer (R144). Auto-close finds no batch of the lane, so its lane end
request has only pending starts to remove (R145). -/
def State.oneFewer (s : State) (l : Lane) : State :=
  if (s.lane l).state = .opened ∧ s.allDone l ∧ s.lanesArms l = [] then
    ((s.markEnding l .driver).dropLaneStarts l).closeIfIdle l
  else s.closeIfIdle l

/-! ### DONE (R96, R97) -/

/-- The stop lead after learning (R97): half the overrun, rounded away from zero, added and clamped. -/
def learnedLead (lead grossDl preset low high : Nat) : Nat :=
  (max (low : Int) (min (high : Int) (lead + roundAway ((grossDl : Int) - preset * 10) 2))).toNat

/-- A batch teaches its arm: stop reason PRESET, never resumed, meter never lost (R97). -/
def Batch.teaches (b : Batch) : Bool :=
  b.stopReason = some .preset && b.resumed = 0 && !hasExc .meterLost b.exceptions

/-- Stop-lead learning (R97). -/
def State.learnLead (s : State) (n : Arm) (b : Batch) : State :=
  match s.armEntry n with
  | none => s
  | some e =>
    if b.teaches then
      s.setArm n { s.arm n with
        stopLead := (s.arm n).stopLead.map fun lead => learnedLead lead (toDl b.gross) b.preset e.leadMin e.leadMax }
    else s

/-- R96 step 4: the compartment entry takes the result. -/
def CompEntry.result (e : CompEntry) (n : Arm) (b : Batch) (results : List AddResult) : CompEntry :=
  { e with
    arm := some n
    state := .done
    gross := toDl b.gross
    net := toDl b.net
    avgTemp := b.avgTemp
    vcf := b.reportedVcf
    reason := b.stopReason
    exceptions := b.exceptions
    additives := results }

/-- R118: ADDITIVE SHORT when any result is SHORT. -/
def Batch.noteShort (b : Batch) (results : List AddResult) : Batch :=
  if results.any fun r => r.status = .short then { b with exceptions := setExc .additiveShort b.exceptions } else b

/-- R96 step 1: the timers stop. -/
def Batch.stopTimers (b : Batch) : Batch := { b with noFlowTimer := none, stopTimer := none }

/-- R96 step 9: the arm is released. -/
def State.releaseArm (s : State) (n : Arm) : State :=
  (s.setArm n { s.arm n with holder := none, excess := 0 }).setDesired n .closed

/-- R96 step 5: the gross dL is charged to the permit of the lane's load. -/
def State.chargeLoad (s : State) (l : Lane) (dl : Nat) : State :=
  match (s.lane l).load with
  | none => s
  | some x => s.chargePermit x.card dl

/-- A batch reaches DONE (R96). An override slot on a batch that was HALTED empties (R148). -/
def State.batchDone (s : State) (n : Arm) : State :=
  match s.holder n with
  | none => s
  | some b0 =>
    let l := b0.lane
    let s1 := ((s.setBatchState n .done).modBatch n Batch.stopTimers).armTargetGone l n
    let results := (s.schedules n).map fun c => c.result b0.gross
    let b := b0.noteShort results
    let s2 := (s1.closeSchedules n).modEntry l b.compartment fun e => e.result n b results
    let s3 := (s2.chargeLoad l (toDl b.gross)).learnLead n b
    let s4 := ((s3.raiseNotice .batchDone (.arm n) (stopCode b.stopReason)).post l .complete).releaseArm n
    (s4.serveStarts n (s4.arm n).starts).oneFewer l

/-! ### HALTED (R89) -/

/-- Entry to HALTED (R89). -/
def State.enterHalted (s : State) (n : Arm) (b : Batch) : State :=
  (((s.setBatchState n .halted).modBatch n fun b => { b with stopTimer := none, exceptions := setExc .halted b.exceptions }).reportHalted
    b.lane b.compartment).post b.lane .halted

/-- A STOPPING batch ends: DONE when its reason is PRESET or its ending mark is set, HALTED otherwise (R89, R90). -/
def State.endStopping (s : State) (n : Arm) : State :=
  match s.holder n with
  | none => s
  | some b => if b.stopReason = some .preset ∨ b.ending then s.batchDone n else s.enterHalted n b

/-! ### Stops of driver and terminal (R92 to R95) -/

/-- The holder's stop reason is set. -/
def State.setReason (s : State) (n : Arm) (r : StopReason) : State :=
  s.modBatch n fun b => { b with stopReason := some r }

/-- The holder's ending mark is set. -/
def State.markBatchEnding (s : State) (n : Arm) : State := s.modBatch n fun b => { b with ending := true }

/-- ESTOP at a lane (R92). -/
def State.estop (s : State) (l : Lane) : State :=
  allArms.foldl (fun s n => if (s.holder n).any fun b => b.lane = l then s.haltBatch n .estop else s) (s.dropLaneStarts l)

/-- STOP at a lane naming all arms (R93). -/
def State.stopAll (s : State) (l : Lane) : State :=
  allArms.foldl (fun s n => if (s.holder n).any fun b => b.lane = l then s.haltBatch n .driver else s) (s.dropLaneStarts l)

/-- STOP at a lane naming one arm (R93). -/
def State.stopArm (s : State) (l : Lane) (n : Arm) : State :=
  let s1 := s.dropStart n l
  match s1.holder n with
  | none => s1
  | some b =>
    if b.lane ≠ l then s1
    else if b.state = .halted then (s1.setReason n .driver).batchDone n
    else s1.haltBatch n .driver

/-- A STOP event (R93); FFH names all arms, and the layout admits no other value above 5 (R15). -/
def State.stopEvent (s : State) (l : Lane) (arm : Byte) : State :=
  match armOf arm with
  | some n => s.stopArm l n
  | none => s.stopAll l

/-- BATCH ABORT acts on the holder by its state (R94). -/
def State.abortHolder (s : State) (n : Arm) : State :=
  match s.holder n with
  | none => s
  | some b =>
    match b.state with
    | .armed | .halted => (s.setReason n .aborted).batchDone n
    | .startup | .full | .topoff => (s.markBatchEnding n).stopBatch n .aborted
    | .stopping => (s.setReason n .aborted).markBatchEnding n
    | .done => s

/-- BATCH ABORT (R94). -/
def State.batchAbort (s : State) (p : List Byte) : State × TermReply :=
  if p.length ≠ 1 then s.refuse .badFormat
  else
    match armOf (byteAt p 0) with
    | none => s.refuse .badValue
    | some n =>
      if (s.holder n).isNone ∧ (s.arm n).starts = [] then s.refuse .notFound
      else ((s.dropAllStarts n).abortHolder n).accept

/-- The lane end request acts on one batch of the lane (R95). -/
def State.endBatch (s : State) (n : Arm) (b : Batch) (r : EndReason) : State :=
  match b.state with
  | .armed => (s.setReason n r.stopReason).batchDone n
  | .startup | .full | .topoff => (s.markBatchEnding n).stopBatch n r.stopReason
  | .stopping =>
    match r with
    | .driver => s.markBatchEnding n
    | .aborted => (s.setReason n .aborted).markBatchEnding n
  | .halted => s.batchDone n
  | .done => s

/-- The lane end request (R95): the lane's pending starts go, then each batch of the lane in ascending order of arm. -/
def State.laneEnd (s : State) (l : Lane) (r : EndReason) : State :=
  allArms.foldl (fun s n =>
    match s.holder n with
    | none => s
    | some b => if b.lane = l then s.endBatch n b r else s) (s.dropLaneStarts l)

/-- An OPEN load goes to ENDING by card or LOAD CLOSE (R145). -/
def State.enterEnding (s : State) (l : Lane) (r : EndReason) : State :=
  ((s.markEnding l r).laneEnd l r).closeIfIdle l

/-! ### The return of the lane (R147, R157, R177) -/

/-- The lane is back at NONE and the terminal port is told (R147, R177): a DRAINING bay with no load left goes OUT OF SERVICE. -/
def State.laneReturned (s : State) : State :=
  if s.port.mode = .draining ∧ ¬ s.holdsLoad .a ∧ ¬ s.holdsLoad .b then s.setMode .outOfService else s

/-- The time in a LOAD CLOSED notice: the load's end time (R147) or the time at this event (R172, R179), which of the two is left free
(log 19). -/
def State.closedTime (s : State) (endTime : TimeRec) : TimeRec :=
  if Config.closedShowsEnd then endTime else s.time.record

/-- The note of a lane's load has been queued (R147), with a LOAD CLOSED notice (log 19). -/
def State.loadClosed (s : State) (l : Lane) (endTime : TimeRec) : State :=
  (((s.setLane l { s.lane l with state := .none, load := none, endReason := none }).raiseNoticeAt .loadClosed (.lane l) 0x00#8
    (s.closedTime endTime) none).post l .closed).laneReturned

/-- The note-number write of a lane has stored its word: the note takes the number read, joins the queue, and the lane returns
(R157, R162). -/
def State.noteQueued (s : State) (l : Lane) (number : Nat) : State :=
  match s.note.closing.get l with
  | none => s
  | some body =>
    State.loadClosed
      { s with
        note.notes := s.note.notes ++ [⟨number, body⟩]
        note.closing := s.note.closing.set l none } l body.endTime

/-- The store's next write starts (R161). -/
def State.startNextWrite (s : State) : State := { s with note := s.note.startNext }

end Sys2Proof.Machine
end

