-- ==== Sys2Proof/Machine/Loads.lean ====
section
/-! DEFINITION. The load manager (chapter 8): orders, cards, opening attempts, START at the lane, the two-part override. -/

namespace Sys2Proof.Machine

/-! ### Candidates and orders (R135, R142, R148) -/

/-- A refusal candidate leaves the lane, and an override slot with target LOAD empties (R142, R148). -/
def State.dropCandidate (s : State) (l : Lane) : State :=
  s.setLane l { s.lane l with candidate := none, slot := (s.lane l).slot.filter fun x => x.target ≠ .load }

/-- A lane's candidate leaves when it names the order (R135). -/
def State.dropCandidateOf (s : State) (ref : BitVec 32) (l : Lane) : State :=
  if (s.lane l).candidate.any fun c => c.order = ref then s.dropCandidate l else s

/-- The queued order with a reference (R134). -/
def State.order (s : State) (ref : BitVec 32) : Option Order := s.load.orders.find? fun o => o.reference = ref

/-- An order leaves the queue, and every candidate naming it leaves its lane (R135). -/
def State.removeOrder (s : State) (ref : BitVec 32) : State :=
  (State.dropCandidateOf { s with load.orders := s.load.orders.filter fun o => o.reference ≠ ref } ref .a).dropCandidateOf
    ref .b

/-- One compartment of ORDER PLACE, four bytes (R134). -/
def parseLine (bs : List Byte) : OrderLine := ⟨(byteAt bs 0).toNat, byteAt bs 1, fieldAt bs 2 2⟩

/-- The compartments of ORDER PLACE, in the order of the message (R134). -/
def parseLines : Nat → List Byte → List OrderLine
  | 0, _ => []
  | k + 1, bs => parseLine bs :: parseLines k (bs.drop 4)

/-- The order that an ORDER PLACE payload gives; none where the form is bad (R134 step 1). -/
def parseOrder (p : List Byte) : Option Order :=
  let n := (byteAt p 15).toNat
  match restrictionOf (byteAt p 14) with
  | none => none
  | some lane =>
    if 16 ≤ p.length ∧ p.length = 16 + 4 * n then
      some {
        reference := BitVec.ofNat 32 (fieldAt p 0 4)
        carrier := BitVec.ofNat 16 (fieldAt p 4 2)
        tanker := (p.drop 6).take 8
        lane := lane
        lines := parseLines n (p.drop 16) }
    else none

/-- No value stands twice in a list. -/
def distinct {α : Type} [BEq α] : List α → Bool
  | [] => true
  | a :: rest => !rest.contains a && distinct rest

/-- R134 step 2. -/
def Order.valid (o : Order) : Bool :=
  1 ≤ o.lines.length && o.lines.length ≤ 8 && (o.lines.all fun x => 1 ≤ x.compartment && x.compartment ≤ 8 && 1 ≤ x.preset) &&
    distinct (o.lines.map fun x => x.compartment) && o.tanker.all fun b => 0x20 ≤ b.toNat && b.toNat ≤ 0x7E

/-- The reference is that of a queued order or of a lane's load (R134 step 4). -/
def State.referenceUsed (s : State) (ref : BitVec 32) : Bool :=
  (s.order ref).isSome || (s.holdsLoad .a && (s.lane .a).load.any fun x => x.reference = ref) ||
    (s.holdsLoad .b && (s.lane .b).load.any fun x => x.reference = ref)

/-- ORDER PLACE (R134). -/
def State.orderPlace (s : State) (p : List Byte) : State × TermReply :=
  match parseOrder p with
  | none => s.refuse .badFormat
  | some o =>
    if ¬ o.valid then s.refuse .badValue
    else if ¬ o.lines.all (fun x => (s.product x.product).isSome) then s.refuse .notFound
    else if s.referenceUsed o.reference then s.refuse .duplicate
    else if 8 ≤ s.load.orders.length then s.refuse .tableFull
    else State.accept { s with load.orders := s.load.orders ++ [o] }

/-- ORDER CANCEL (R135). -/
def State.orderCancel (s : State) (p : List Byte) : State × TermReply :=
  let ref : BitVec 32 := BitVec.ofNat 32 (beNat p)
  if p.length ≠ 4 then s.refuse .badFormat
  else if (s.order ref).isNone then s.refuse .notFound
  else (s.removeOrder ref).accept

/-! ### The opening attempt (R140) -/

/-- The lanes that hold a load (R140 step 3). -/
def State.loadCount (s : State) : Nat := (if s.holdsLoad .a then 1 else 0) + (if s.holdsLoad .b then 1 else 0)

/-- Steps 1 to 3 of R140: bay mode, time set, note reservation. -/
def State.bayFailure (s : State) : Option DisplayCode :=
  if s.port.mode ≠ .inService then some .wrongMode
  else if ¬ s.time.timeSet then some .timeNotSet
  else if 16 ≤ s.note.notes.length + s.loadCount then some .noteFull
  else none

/-- Steps 5 to 7 of R140: class, state, lane. -/
def Permit.cardFailure (p : Permit) (l : Lane) : Option DisplayCode :=
  if p.cls ≠ .driver then some .notAllowed
  else
    match p.stateFailure with
    | some c => some c
    | none => if p.admitsLane l then none else some .wrongLane

/-- Steps 1 to 7 of R140: the permit, or the code of the first check that fails. -/
def State.openingPermit (s : State) (l : Lane) (card : Nat) : Except DisplayCode Permit :=
  match s.bayFailure with
  | some c => .error c
  | none =>
    match s.permit card with
    | none => .error .unknownCard
    | some p =>
      match p.cardFailure l with
      | some c => .error c
      | none => .ok p

/-- Step 8 of R140: the oldest order for the carrier at this lane. -/
def State.chooseOrder (s : State) (carrier : BitVec 16) (l : Lane) : Option Order :=
  s.load.orders.find? fun o => o.carrier = carrier && (o.lane = none || o.lane = some l)

/-- The classes of an order's products, read when asked (R129). -/
def State.orderClasses (s : State) (o : Order) : List Nat :=
  o.lines.filterMap fun x => (s.product x.product).map fun p => p.cls

/-- The volume the limit test names: the presets × 10 dL (R130). -/
def Order.volumeDl (o : Order) : Nat := (o.lines.map fun x => x.preset * 10).sum

/-- Steps 9 to 11 of R140, on a permit already rolled (R130). -/
def Permit.orderFailure (p : Permit) (today : Date) (classes : List Nat) (dl : Nat) : Option DisplayCode :=
  if p.expired today then some .expired
  else if ¬ p.endorses classes then some .endorsement
  else if ¬ p.withinLimit dl then some .limit
  else none

/-- A compartment entry at opening: PENDING, results empty (R137). -/
def OrderLine.entry (x : OrderLine) : CompEntry where
  compartment := x.compartment
  product := x.product
  preset := x.preset
  arm := none
  state := .pending
  gross := 0
  net := 0
  avgTemp := 0
  vcf := none
  reason := none
  exceptions := 0#16
  additives := []

/-- The load that opens for an order (R136, R141 step 2). -/
def Order.load (o : Order) (card : Nat) (driverRef : BitVec 16) (start : TimeRec) (overridden : Bool) : Load where
  reference := o.reference
  carrier := o.carrier
  tanker := o.tanker
  card := card
  driverRef := driverRef
  startTime := start
  endTime := none
  permitOverride := overridden
  permitOverridden := overridden
  entries := o.lines.map OrderLine.entry

/-- The load opens (R141; R151 with the permit override). -/
def State.openLoad (s : State) (l : Lane) (card : Nat) (driverRef : BitVec 16) (o : Order) (overridden : Bool) : State :=
  let s1 := s.removeOrder o.reference
  ((s1.setLane l { s1.lane l with
      state := .opened
      load := some (o.load card driverRef s.time.record overridden) }).raiseNotice .loadOpened (.lane l)
    (if overridden then 0x01#8 else 0x00#8)).post l .opened

/-- A refused card: its code posted and noticed (R142). -/
def State.refuseCard (s : State) (l : Lane) (c : DisplayCode) : State :=
  (s.post l c).raiseNotice .loadRefused (.lane l) c.code

/-- The candidate kept for EXPIRED, ENDORSEMENT and LIMIT (R142). -/
def State.keepCandidate (s : State) (l : Lane) (card : Nat) (o : Order) : State :=
  s.setLane l { s.lane l with candidate := some ⟨card, o.reference, s.batch.settings.overrideWindow⟩ }

/-- An opening attempt (R139 to R142): the lane's candidate leaves first; the second question rolls the permit (R125, R130). -/
def State.openingAttempt (s0 : State) (l : Lane) (card : Nat) : State :=
  let s := s0.dropCandidate l
  match s.openingPermit l card with
  | .error c => s.refuseCard l c
  | .ok p =>
    match s.chooseOrder p.carrier l with
    | none => s.refuseCard l .noOrder
    | some o =>
      let s1 := s.modPermit card fun q => q.roll s.today
      match (p.roll s.today).orderFailure s.today (s.orderClasses o) o.volumeDl with
      | some c => (s1.refuseCard l c).keepCandidate l card o
      | none => s1.openLoad l card p.driverRef o false

/-! ### START at the lane (R143) -/

/-- Step 5 of R143: the permit's reason for a START that would create a batch. -/
def State.startPermitFailure (s : State) (x : Load) (product : Byte) : Option DisplayCode :=
  match s.permit x.card with
  | none => some .unknownCard
  | some p =>
    match p.stateFailure with
    | some c => some c
    | none =>
      if x.permitOverride then none
      else if p.expired s.today then some .expired
      else if ¬ p.endorses (((s.product product).map fun q => q.cls).toList) then some .endorsement
      else none

/-- A START for an entry of the OPEN load (R143 steps 4 and 5). -/
def State.startEntry (s : State) (l : Lane) (n : Arm) (x : Load) (e : CompEntry) : State :=
  match e.state with
  | .done => s.post l .compartmentDone
  | .halted => s.judgeStart n l e.compartment e.product e.preset
  | .pending | .loading =>
    match s.startPermitFailure x e.product with
    | some c => s.post l c
    | none => s.judgeStart n l e.compartment e.product e.preset

/-- A START event (R143); the layout admits arms 0..5 only (R15). -/
def State.startEvent (s : State) (l : Lane) (arm comp : Byte) : State :=
  match (s.lane l).state with
  | .none => s.post l .noLoad
  | .ending | .closing => s.post l .loadClosing
  | .opened =>
    match (s.lane l).load, armOf arm with
    | some x, some n =>
      match x.entry comp.toNat with
      | none => s.post l .noCompartment
      | some e => s.startEntry l n x e
    | _, _ => s

/-! ### The two-part override (R148 to R151) -/

/-- Arm n is held by a batch of the lane HALTED with reason ADDITIVE (R148). -/
def State.armTarget (s : State) (l : Lane) (n : Arm) : Bool :=
  (s.holder n).any fun b => b.lane = l && b.state = .halted && b.stopReason = some .additive

/-- A target exists at a lane (R148). -/
def State.targetExists (s : State) (l : Lane) : Target → Bool
  | .load => (s.lane l).candidate.isSome
  | .arm n => s.armTarget l n

/-- The slot empties (R148). -/
def State.clearSlot (s : State) (l : Lane) : State := s.setLane l { s.lane l with slot := none }

/-- The slot is armed with a target and a half; its deadline is the override window of this moment (R148). -/
def State.armSlot (s : State) (l : Lane) (t : Target) (h : Half) : State :=
  s.setLane l { s.lane l with slot := some ⟨t, h, s.batch.settings.overrideWindow⟩ }

/-- FAULTED schedules of the batch become SUSPENDED, and ADDITIVE OVERRIDDEN is set (R117). -/
def State.suspendFaulted (s : State) (n : Arm) : State :=
  (s.setSchedules n ((s.schedules n).map fun c =>
    match c.state with
    | .faulted => { c with state := .suspended }
    | .active | .suspended => c)).setBatchExc n .additiveOverridden

/-- An override of target ARM n completes (R151). -/
def State.overrideArm (s : State) (l : Lane) (n : Arm) : State :=
  (((((s.modBatch n fun b => { b with additiveOverride := true }).suspendFaulted n).clearSlot l).raiseNotice .overrideApplied
    (.arm n) 0x01#8)).post l .overrideApplied

/-- A LOAD override fails: candidate and slot go, and the code is posted and noticed (R151). -/
def State.overrideFailed (s : State) (l : Lane) (c : DisplayCode) : State × TermReply :=
  (((s.dropCandidate l).clearSlot l).refuseCard l c).refuse .notAllowed

/-- An override of target LOAD completes (R151): the checks of R140 steps 1 to 7 for the candidate's card, then the opening of
the candidate's order. A candidate always names a queued order (R135, log 35). -/
def State.overrideLoad (s : State) (l : Lane) (c : Candidate) : State × TermReply :=
  match s.openingPermit l c.card with
  | .error code => s.overrideFailed l code
  | .ok p =>
    match s.order c.order with
    | none => s.overrideFailed l .noOrder
    | some o =>
      ((((s.openLoad l c.card p.driverRef o true).dropCandidate l).clearSlot l).raiseNotice .overrideApplied (.lane l)
        0x00#8).accept

/-- The second half reaches the slot (R151), with the reply an OVERRIDE message gets. -/
def State.completeOverride (s : State) (l : Lane) (t : Target) : State × TermReply :=
  match t with
  | .arm n => (s.overrideArm l n).accept
  | .load =>
    match (s.lane l).candidate with
    | none => (s.clearSlot l).refuse .noTarget
    | some c => s.overrideLoad l c

/-- The supervisor's permit is judged (R149): presence, state, expiry, and its own class last (log 25). -/
def State.supervisorFailure (s : State) (card : Nat) : Option DisplayCode :=
  match s.permit card with
  | none => some .unknownCard
  | some p =>
    match p.stateFailure with
    | some c => some c
    | none =>
      if p.expired s.today then some .expired
      else if p.cls ≠ .supervisor then some .notAllowed
      else none

/-- A supervisor card that passes finds an empty slot (R149). -/
def State.supervisorArms (s : State) (l : Lane) : State :=
  if (s.lane l).candidate.isSome then (s.armSlot l .load .supervisor).post l .overrideArmed
  else
    match allArms.find? fun n => s.armTarget l n with
    | some n => (s.armSlot l (.arm n) .supervisor).post l .overrideArmed
    | none => s.post l .noTarget

/-- The supervisor half (R149). -/
def State.supervisorHalf (s : State) (l : Lane) (card : Nat) : State :=
  match s.supervisorFailure card with
  | some c => s.post l c
  | none =>
    match (s.lane l).slot with
    | none => s.supervisorArms l
    | some x =>
      match x.half with
      | .supervisor => s
      | .terminal => (s.completeOverride l x.target).1

/-- The target byte of OVERRIDE (R150). -/
def targetOf (b : Byte) : Option Target := if b = 0xFF#8 then some .load else (armOf b).map .arm

/-- OVERRIDE, the terminal half (R150). -/
def State.overrideRequest (s : State) (p : List Byte) : State × TermReply :=
  if p.length ≠ 2 then s.refuse .badFormat
  else
    match laneOf (byteAt p 0), targetOf (byteAt p 1) with
    | some l, some t =>
      match (s.lane l).slot with
      | none => if s.targetExists l t then (s.armSlot l t .terminal).accept else s.refuse .noTarget
      | some x =>
        if x.target ≠ t then s.refuse .noTarget
        else
          match x.half with
          | .supervisor => s.completeOverride l t
          | .terminal => s.accept
    | _, _ => s.refuse .badValue

/-! ### Cards (R139) and LOAD CLOSE (R145) -/

/-- A DRIVER card (R139). -/
def State.driverCard (s : State) (l : Lane) (card : Nat) : State :=
  match (s.lane l).state with
  | .none => s.openingAttempt l card
  | .opened => if s.loadHasCard l card then s.enterEnding l .driver else s.post l .wrongCard
  | .ending | .closing => s.post l .loadClosing

/-- A SUPERVISOR card (R139). -/
def State.supervisorCard (s : State) (l : Lane) (card : Nat) : State :=
  match (s.lane l).state with
  | .none | .opened => s.supervisorHalf l card
  | .ending | .closing => s.post l .loadClosing

/-- A CARD event with the class it carries (R139). -/
def State.cardEvent (s : State) (l : Lane) (digits : BitVec 40) (cls : Byte) : State :=
  let card := bcdNat (cardBytes digits)
  if cls = 0x00#8 then s.driverCard l card else s.supervisorCard l card

/-- LOAD CLOSE (R145). -/
def State.loadClose (s : State) (p : List Byte) : State × TermReply :=
  if p.length ≠ 1 then s.refuse .badFormat
  else
    match laneOf (byteAt p 0) with
    | none => s.refuse .badValue
    | some l =>
      match (s.lane l).state with
      | .none => s.refuse .notFound
      | .ending | .closing => s.refuse .busy
      | .opened => (s.enterEnding l .aborted).accept

/-- One event of a station event list, with the station's lane (R34). -/
def State.stationEvent (s : State) (l : Lane) : StationEvent → State
  | .card digits cls => s.cardEvent l digits cls
  | .start arm comp => s.startEvent l arm comp
  | .stop arm => s.stopEvent l arm
  | .estop => s.estop l

/-- The events of a list, oldest first, each handled before the next (R34). -/
def State.stationEvents (s : State) (l : Lane) (es : List StationEvent) : State :=
  es.foldl (fun s e => s.stationEvent l e) s

/-! ### Timers (R81, R142, R152) -/

/-- A pending start's lapse timer expires (R81). -/
def State.pendingLapse (s : State) (n : Arm) (l : Lane) : State :=
  if (s.arm n).starts.any fun p => p.lane = l then (s.dropStart n l).post l .armBusy else s

/-- A refusal candidate's timer expires (R142). -/
def State.candidateExpires (s : State) (l : Lane) : State :=
  if (s.lane l).candidate.isSome then s.dropCandidate l else s

/-- The override slot's deadline expires (R152). -/
def State.overrideExpires (s : State) (l : Lane) : State :=
  if (s.lane l).slot.isSome then (s.clearSlot l).post l .overrideExpired else s

end Sys2Proof.Machine
end

