-- ==== Sys2Proof/Machine/Samples.lean ====
section
/-! DEFINITION. A meter sample from the meter computer through the batch controller to the additive scheduler (R56 to R58, R68
to R70, R84, R85, R89, R101, R102, R113, R114). -/

namespace Sys2Proof.Machine

/-! ### The batch controller adds and decides -/

/-- The increments are added and the exceptions of the flags set (R63, R65, R69). The free-value counter advances when a total
leaves its number format (log 22). -/
def State.addResult (s : State) (n : Arm) (b : Batch) (r : SampleResult) : State :=
  let s1 := s.modBatch n fun b => b.addIncrements r s.free
  let s2 := if b.incrementsFit r then s1 else { s1 with free := s1.free + 4 }
  let s3 := if r.tempHeld then s2.setBatchExc n .tempHeld else s2
  if r.vcfClamp then s3.setBatchExc n .vcfClamp else s3

/-- Remaining volume at or below a volume in litres. -/
def Batch.remainingWithin (b : Batch) (litres : Nat) : Bool := b.remaining ≤ (litres : Int) * 1000000

/-- The overspeed test (R84 order 7, R85). -/
def State.overspeedTest (s : State) (n : Arm) (e : ArmEntry) (b : Batch) (rate : Nat) : State :=
  if rate ≤ e.maxFlow then s.modBatch n fun b => { b with overspeed := 0 }
  else if 2 ≤ b.overspeed then s.degradeBatch n
  else s.modBatch n fun b => { b with overspeed := b.overspeed + 1 }

/-- STARTUP is over: TOPOFF or FULL, and the streams open (R84 order 5, R112). -/
def State.leaveStartup (s : State) (n : Arm) (e : ArmEntry) (b : Batch) : State :=
  if b.remainingWithin e.slowdown then (s.setBatchState n .topoff).openStreams n
  else ((s.setBatchState n .full).modBatch n fun b => { b with overspeed := 0 }).openStreams n

/-- The batch has reached its startup volume (R84 orders 4 and 5). -/
def Batch.startupDone (b : Batch) (e : ArmEntry) : Bool := e.startup * 1000000 ≤ b.gross

/-- The decisions of R84 on the totals that include the sample: `b` is the batch after the increments. -/
def State.decide (s : State) (n : Arm) (e : ArmEntry) (b : Batch) (r : SampleResult) : State :=
  if r.pulseFault then s.haltBatch n .pulseFault
  else if r.holdExhausted then s.haltBatch n .tempLost
  else if s.atStopLead n b then s.enterStopping n .preset
  else
    match b.state with
    | .startup =>
      if b.startupDone e then (if r.noTemp then s.haltBatch n .tempLost else s.leaveStartup n e b) else s
    | .full =>
      if b.remainingWithin e.slowdown then s.setBatchState n .topoff
      else if b.degraded then s
      else s.overspeedTest n e b r.rate
    | .topoff | .armed | .stopping | .halted | .done => s

/-- A batch still flowing has its no-flow timer restarted by a sample above the leak threshold while the stage is reported
open (R84, R86). -/
def State.feedNoFlow (s : State) (n : Arm) (pulses leak : Nat) : State :=
  if leak < pulses ∧ s.reportsOpen n ∧ (s.holder n).any fun b => b.state.flowing then s.startNoFlowTimer n else s

/-- A STOPPING batch counts the samples without flow (R89). -/
def State.countStop (s : State) (n : Arm) (b : Batch) (r : SampleResult) (leak : Nat) : State :=
  if r.pulseFault then s
  else if leak < r.pulses then s.modBatch n fun b => { b with noFlow := 0 }
  else if 2 ≤ b.noFlow then s.endStopping n
  else s.modBatch n fun b => { b with noFlow := b.noFlow + 1 }

/-! ### The additive scheduler takes the increment -/

/-- The deviation check of a SHOT schedule (R114). -/
def Schedule.deviates (c : Schedule) : Bool :=
  let settled : Int := c.settled * c.shotSize
  5 * (c.shotSize : Int) ≤ settled && c.tolerance * settled < (settled - c.delivered).natAbs * 100

/-- The check, and the fault that follows (R114, R116). -/
def State.checkDeviation (s : State) (n : Arm) (i : DevIx) : State × List AddRequest :=
  if (s.schedule n i).any Schedule.deviates then s.faultSchedule n i .deviation else (s, [])

/-- A due shot (R102). -/
def State.shotDue (s : State) (n : Arm) (i : DevIx) (c : Schedule) : State × List AddRequest :=
  if c.pending < 2 then
    ((s.modSchedule n i fun c => { c with pending := c.pending + 1 }).joinQueue n i, [])
  else
    let r := (s.modSchedule n i fun c => { c with settled := addSettled c.settled 1 }).checkDeviation n i
    (r.1, r.2 ++ [.degrade n])

/-- The due shots of one increment, each handled in turn while the countdown is 0 or less and the schedule is ACTIVE (R101,
log 31). The first argument is a bound on their number. -/
def State.shotsDue : Nat → State → Arm → DevIx → State × List AddRequest
  | 0, s, _, _ => (s, [])
  | k + 1, s, n, i =>
    match s.schedule n i with
    | none => (s, [])
    | some c =>
      if c.state = .active ∧ c.countdown ≤ 0 then
        let r := (s.modSchedule n i fun c => { c with countdown := c.countdown + c.interval }).shotDue n i c
        let rest := State.shotsDue k r.1 n i
        (rest.1, r.2 ++ rest.2)
      else (s, [])

/-- How many shots an overdrawn countdown brings due. -/
def dueCount (countdown : Int) (interval : Nat) : Nat :=
  if countdown ≤ 0 then countdown.natAbs / interval + 1 else 0

/-- A SHOT schedule takes a gross increment (R101). -/
def State.shotIncrement (s : State) (n : Arm) (c : Schedule) (gross : Nat) : State × List AddRequest :=
  if c.state = .active then
    State.shotsDue (dueCount (c.countdown - gross) c.interval)
      (s.modSchedule n c.injector fun c => { c with countdown := c.countdown - gross }) n c.injector
  else (s, [])

/-- The injector's stream is RUNNING for the arm's live schedule. -/
def State.streamRunning (s : State) (i : DevIx) : Bool :=
  (s.slot i).any fun x => x.stream.state = .running && x.stream.owned

/-- A STREAM schedule adds the increment to its streamed gross while its stream is RUNNING and the batch is in FULL or TOPOFF
(R113). -/
def State.streamIncrement (s : State) (n : Arm) (c : Schedule) (gross : Nat) : State :=
  if s.streamRunning c.injector ∧ s.inFullOrTopoff n then
    s.modSchedule n c.injector fun c => { c with streamed := c.streamed + gross }
  else s

/-- The remaining gross exceeds the arm's additive cut-off volume (R101). -/
def State.aboveCutoff (s : State) (n : Arm) (cutoff : Nat) : Bool :=
  (s.holder n).any fun b => b.state.flowing && (cutoff : Int) * 1000000 < b.remaining

/-- One schedule of the batch takes the increment; requests gather behind those already raised (R101, R113). -/
def State.scheduleIncrement (n : Arm) (above : Bool) (gross : Nat) (r : State × List AddRequest) (c : Schedule) :
    State × List AddRequest :=
  match c.mode with
  | .stream => (r.1.streamIncrement n c gross, r.2)
  | .shot =>
    if above then
      let t := r.1.shotIncrement n c gross
      (t.1, r.2 ++ t.2)
    else r

/-- The batch controller passes the gross increment on; the schedules take it in slot order, and their halt and degrade
requests follow when every one has (R101). -/
def State.passIncrement (s : State) (n : Arm) (e : ArmEntry) (gross : Nat) : State :=
  let r := (s.schedules n).foldl (State.scheduleIncrement n (s.aboveCutoff n e.cutoff) gross) (s, [])
  r.1.applyRequests r.2

/-! ### The sample -/

/-- A sample result reaches the batch that holds the arm (R68, R69). A batch that was halted in ARMED and never entered STARTUP is
given its samples in STOPPING and HALTED like any other (log 53, the model's choice beside R96). -/
def State.takeResult (s : State) (n : Arm) (e : ArmEntry) (b0 : Batch) (r : SampleResult) : State :=
  let s1 := s.addResult n b0 r
  match s1.holder n with
  | none => s1
  | some b =>
    match b0.state with
    | .startup | .full | .topoff => ((s1.decide n e b r).feedNoFlow n r.pulses e.leak).passIncrement n e r.gross
    | .stopping => s1.countStop n b r e.leak
    | .halted | .armed | .done => s1

/-- Stages run for a batch in this state (R56). -/
def BatchState.measured : BatchState → Bool
  | .startup | .full | .topoff | .stopping | .halted => true
  | .armed | .done => false

/-- The α of the product of the batch; the product of an open load's compartment is always present (R51). -/
def State.alphaOf (s : State) (b : Batch) : Nat := (s.product b.product).elim 0 fun p => p.alpha

/-- A FRESH sample: the pulse count and the temperature are recorded (R57). -/
def Metering.takeFresh (m : Metering) (pulses : BitVec 32) (valid : Bool) (reading : Int) (tref : Nat) : Metering :=
  { (tempStage m valid reading tref).2 with lastPulses := pulses, history := .tracking }

/-- A sample on an idle or ARMED arm: the record is kept and the flow watched (R56, R58, R70). -/
def State.idleSample (s : State) (n : Arm) (e : ArmEntry) (m : Metering) (delta : Nat) (valid : Bool) (reading : Int) : State :=
  let s1 := s.setMetering n (tempStage m valid reading s.batch.settings.tref).2
  if e.maxPulses < delta then s1 else s1.watchFlow n delta e.leak

/-- A sample taken for an arm (R56 to R58). -/
def State.takeSample (s : State) (n : Arm) (e : ArmEntry) (pulses : BitVec 32) (interval : Nat) (valid : Bool) (reading : Int) :
    State :=
  let m := s.metering n
  let tref := s.batch.settings.tref
  match m.history with
  | .fresh => s.setMetering n (m.takeFresh pulses valid reading tref)
  | .tracking =>
    let delta := pulseDelta pulses m.lastPulses
    let m1 := { m with lastPulses := pulses }
    match (s.holder n).filter fun b => b.state.measured with
    | none => s.idleSample n e m1 delta valid reading
    | some b =>
      let fault : Bool := e.maxPulses < delta
      let r := runStages e (s.alphaOf b) tref m1 (if fault then 0 else delta) fault interval valid reading
      (s.setMetering n r.2).takeResult n e b r.1

/-- A METER SAMPLE reaches the meter computer with the arm and the device index (R56). -/
def State.meterSample (s : State) (i : DevIx) (n : Arm) (pulses : BitVec 32) (interval temperature : BitVec 16) (flags : Byte) :
    State :=
  match s.armEntry n with
  | none => s
  | some e =>
    if e.meter = i then s.takeSample n e pulses interval.toNat (flag flags 0) temperature.toInt else s

end Sys2Proof.Machine
end

