-- ==== Sys2Proof/Machine/Devices.lean ====
section
/-! DEFINITION. Device states and what their changes do (R20 to R24, R55, R77, R87, R90, R110, R111), the lane permissives (R77),
valve replies (R86, R91), and the timers of arm and batch (R86, R90, R91). -/

namespace Sys2Proof.Machine

/-! ### Lane permissives (R77) -/

/-- A PERMISSIVE notice when a lane's permissive changes (R77). -/
def State.noticePermissive (s : State) (l : Lane) (before after : Bool) : State :=
  if before = after then s else s.raiseNotice .permissive (.lane l) (if after then 0x01#8 else 0x00#8)

/-- The batches of the lanes that lost their permissive are halted in ascending order of arm (R77). -/
def State.haltPermissive (s : State) (lost : Lanes Bool) : State :=
  allArms.foldl (fun s n => if (s.holder n).any fun b => lost.get b.lane then s.haltBatch n .permissive else s) s

/-- Both lane permissives are set: notices, lane A's first, then the halts (R77). -/
def State.setPermissives (s : State) (a b : Bool) : State :=
  let old := s.batch.permissive
  let s1 := { s with batch.permissive := ⟨a, b⟩ }
  ((s1.noticePermissive .a old.a a).noticePermissive .b old.b b).haltPermissive ⟨old.a && !a, old.b && !b⟩

/-- A routed PERMISSIVE STATE (R77). -/
def State.permissiveState (s : State) (flags : Byte) : State :=
  if 1 < (s.devicesOfKind .permissive).length then s.setPermissives false false
  else s.setPermissives (flag flags 0 && flag flags 1) (flag flags 2 && flag flags 3)

/-! ### Changes at the batch controller (R83, R87, R90) -/

/-- The meter of an arm has come ONLINE (R83, R87, R90). -/
def State.meterUp (s : State) (n : Arm) : State :=
  let s1 := if (s.holder n).any fun b => b.state = .stopping then
      s.modBatch n fun b => { b with stopTimer := none, noFlow := 0 }
    else s
  s1.tryStartup n

/-- The meter of an arm has gone SILENT, FAULTED or UNKNOWN, or is REMOVED (R87, R90). -/
def State.meterDown (s : State) (n : Arm) (before : DeviceState) (halts : Bool) : State :=
  if (s.holder n).any fun b => b.state = .stopping then
    if before = .online then s.modBatch n fun b => { b with stopTimer := some s.batch.settings.noFlowTimeout } else s
  else if halts then s.haltBatch n .meterLost
  else s

/-- The new state is one that halts a batch: SILENT or FAULTED (R87). -/
def DeviceState.lost : DeviceState → Bool
  | .silent | .faulted _ => true
  | .unknown | .online => false

/-- The batch controller is told of the meter of one arm (R87). -/
def State.batchMeter (s : State) (n : Arm) (before : DeviceState) (after : Option DeviceState) : State :=
  if after = some .online then s.meterUp n else s.meterDown n before (after.any DeviceState.lost)

/-- The batch controller is told of the valve of one arm (R83, R87). -/
def State.batchValve (s : State) (n : Arm) (after : Option DeviceState) : State :=
  if after = some .online then s.tryStartup n
  else if after.any DeviceState.lost then s.haltBatch n .valveLost
  else s

/-- A change of a METER entry: the meter computer, then the batch controller (R24, R55, R87). -/
def State.meterHanded (s : State) (i : DevIx) (before : DeviceState) (after : Option DeviceState) : State :=
  allArms.foldl (fun s n => if (s.armEntry n).any fun e => e.meter = i then s.batchMeter n before after else s)
    (s.meterChanged i)

/-- A change of a VALVE entry (R24, R87). -/
def State.valveHanded (s : State) (i : DevIx) (after : Option DeviceState) : State :=
  allArms.foldl (fun s n => if (s.armEntry n).any fun e => e.valve = i then s.batchValve n after else s) s

/-! ### Handing a change on (R24) -/

/-- A change of device state is handed to the blocks that depend on the kind; `after` is none for REMOVED (R24). The load
manager changes nothing for a STATION (section 8.3). -/
def State.handOn (s : State) (i : DevIx) (kind : DeviceKind) (before : DeviceState) (after : Option DeviceState) : State :=
  match kind with
  | .meter => s.meterHanded i before after
  | .valve => s.valveHanded i after
  | .injector => s.injectorChanged i before (after.getD .unknown)
  | .station => s
  | .permissive => if after = some .online then s else s.setPermissives false false

/-- The code of a DEVICE notice (R24). -/
def changeCode : Option DeviceState → Byte
  | none => removedCode
  | some st => st.noticeCode

/-- A change is noticed and handed on; the notice comes first (R24, log 18). -/
def State.announce (s : State) (i : DevIx) (kind : DeviceKind) (before : DeviceState) (after : Option DeviceState) : State :=
  (s.raiseNotice .device (.device i) (changeCode after)).handOn i kind before after

/-- A device moves to a state. No change is no event; a change of a VALVE makes its set stage absent (R24, R30). -/
def State.moveDevice (s : State) (i : DevIx) (after : DeviceState) : State :=
  match s.device i with
  | none => s
  | some d =>
    if d.state = after then s
    else (s.setDevice i (some { d with state := after, setStage := none })).announce i d.kind d.state (some after)

/-- The state after a valid reply (R21). -/
def DeviceState.afterReply (st : DeviceState) (fault : Bool) : DeviceState :=
  match st with
  | .faulted .part => .faulted .part
  | .unknown | .online | .silent | .faulted .device => if fault then .faulted .device else .online

/-- The state when the miss count has reached the limit (R22). -/
def DeviceState.afterMisses : DeviceState → DeviceState
  | .faulted .part => .faulted .part
  | .unknown | .online | .silent | .faulted .device => .silent

/-- A valid reply at steps 1 to 4: miss count 0, then the state moves (R21, R33 steps 1 to 3). -/
def State.deviceReplied (s : State) (i : DevIx) (fault : Bool) : State :=
  match s.device i with
  | none => s
  | some d => (s.setDevice i (some { d with misses := 0 })).moveDevice i (d.state.afterReply fault)

/-- A miss at steps 1 to 4 (R22). -/
def State.deviceMissed (s : State) (i : DevIx) : State :=
  match s.device i with
  | none => s
  | some d =>
    let misses := min d.missLimit (d.misses + 1)
    let s1 := s.setDevice i (some { d with misses := misses })
    if misses = d.missLimit then s1.moveDevice i d.state.afterMisses else s1

/-! ### Valve replies (R86, R91) -/

/-- The no-flow timer follows the reported stage: it starts when the stage becomes LOW or HIGH in a flowing state and stops
when the stage becomes CLOSED (R86, log 21). -/
def State.followStage (s : State) (n : Arm) (before : Option Stage) (after : Stage) : State :=
  if after = .closed then s.modBatch n fun b => { b with noFlowTimer := none }
  else if (before = none ∨ before = some .closed) ∧ (s.holder n).any fun b => b.state.flowing then s.startNoFlowTimer n
  else s

/-- The excess count is set. -/
def State.setExcess (s : State) (n : Arm) (k : Nat) : State := s.setArm n { s.arm n with excess := k }

/-- A valve's reply is judged against the desired stage after the travel allowance (R91). A travel timer that was never started counts
as one that has expired (log 52, the model's choice). -/
def State.judgeStage (s : State) (n : Arm) (st : Stage) : State :=
  if (s.arm n).travelTimer = none ∧ (s.holder n).any (fun b => b.state.haltable) ∧ (s.arm n).desired.rank < st.rank then
    if 1 ≤ (s.arm n).excess then (s.setExcess n 0).haltBatch n .valveLost
    else s.setExcess n ((s.arm n).excess + 1)
  else s.setExcess n 0

/-- A routed VALVE STATE (R91). -/
def State.valveReply (s : State) (i : DevIx) (n : Arm) (stage : Byte) : State :=
  match s.armEntry n with
  | none => s
  | some e =>
    if e.valve = i then
      let st := stageOf stage
      let before := (s.arm n).reported
      ((s.setArm n { s.arm n with reported := some st }).followStage n before st).judgeStage n st
    else s

/-! ### Timers of arm and batch -/

/-- The travel timer expires (R91). -/
def State.travelExpires (s : State) (n : Arm) : State := s.setArm n { s.arm n with travelTimer := none }

/-- The no-flow timer expires (R86). -/
def State.noFlowExpires (s : State) (n : Arm) : State :=
  if (s.holder n).any fun b => b.noFlowTimer.isSome then
    (s.modBatch n fun b => { b with noFlowTimer := none }).haltBatch n .noFlow
  else s

/-- The stop timer expires: METER LOST, and the batch ends (R90). -/
def State.stopExpires (s : State) (n : Arm) : State :=
  if (s.holder n).any fun b => b.stopTimer.isSome then
    ((s.modBatch n fun b => { b with stopTimer := none }).setBatchExc n .meterLost).endStopping n
  else s

end Sys2Proof.Machine
end

