-- ==== Sys2Proof/Machine/Injectors.lean ====
section
/-! DEFINITION. What injector replies, outcomes and the shot timer do at the additive scheduler (R104 to R107, R109, R112, R113,
R115). -/

namespace Sys2Proof.Machine

/-- The outcome of a step-3 transaction (R31). -/
inductive InjOutcome where
  | reply (r : DeviceReply)
  | fault
  | miss
  deriving DecidableEq, Repr

/-- The shot in flight takes a new value. -/
def State.setFlight (s : State) (i : DevIx) (f : Flight) : State := s.modSlot i fun x => { x with flight := some f }

/-! ### Shots -/

/-- The shot waits for its report with the shot timer running (R104, R106). -/
def State.awaitReport (s : State) (i : DevIx) (f : Flight) : State :=
  s.setFlight i { f with phase := .awaiting, timer := some f.timeout }

/-- A SHOT QUERY is posted for the shot (R105, R106). -/
def State.queryShot (s : State) (i : DevIx) (f : Flight) : State :=
  (s.setFlight i { f with phase := .querying, timer := none }).postRequest i .shotQuery

/-- A shot settled by a report: credit, settlement, an untaken query withdrawn, the head leaves, the deviation check, the next
turn (R105, R114, R103). -/
def State.settleShot (s : State) (i : DevIx) (f : Flight) (dose : Nat) : State :=
  let s1 := match s.schedule f.arm i with
    | none => s
    | some c => (s.setDelivered f.arm i c.delivered dose).modSchedule f.arm i fun c =>
        { c with settled := addSettled c.settled 1, pending := c.pending - 1 }
  let r := ((s1.dropFlight i).withdrawRequest i).checkDeviation f.arm i
  ((r.1.applyRequests r.2).joinQueue f.arm i).issueHead i

/-- A report that names the shot's outlet is taken (R105); one for an unowned shot ends it, whatever its status (R109). -/
def State.takeReport (s : State) (i : DevIx) (f : Flight) (dose : Nat) (status : Byte) : State :=
  if f.owned then (if status = 0x02#8 then s.queryShot i f else s.settleShot i f dose)
  else s.endUnowned i

/-- The reply that ends the shot's own SHOT transaction (R104). -/
def State.shotReply (s : State) (i : DevIx) (f : Flight) (r : DeviceReply) : State :=
  match r with
  | .shotReport outlet dose status =>
    if outlet.toNat = f.outlet then s.takeReport i f dose.toNat status else s.awaitReport i f
  | _ => s.awaitReport i f

/-- The outcome of a SHOT (R104). It belongs to the shot in SENDING whose request has been taken; any other is discarded. -/
def State.shotOutcome (s : State) (i : DevIx) (x : InjectorSlot) (o : InjOutcome) : State :=
  match x.flight with
  | none => s
  | some f =>
    if f.phase = .sending ∧ x.request = none then
      match o with
      | .reply r => s.shotReply i f r
      | .miss => s.awaitReport i f
      | .fault => s
    else s

/-- An INJECTOR STATE answer to SHOT QUERY (R106). -/
def State.queryState (s : State) (i : DevIx) (f : Flight) (state : Byte) : State :=
  if state = 0x01#8 ∧ f.busy < 2 then s.awaitReport i { f with busy := f.busy + 1 } else s.attemptFailed i

/-- The reply to a SHOT QUERY (R106). -/
def State.queryReply (s : State) (i : DevIx) (f : Flight) (r : DeviceReply) : State :=
  match r with
  | .shotReport outlet dose status =>
    if outlet.toNat = f.outlet ∧ status ≠ 0x02#8 then s.settleShot i f dose.toNat else s.attemptFailed i
  | .injectorState state _ _ => s.queryState i f state
  | _ => s

/-- The outcome of a SHOT QUERY (R106). It belongs to the shot in QUERYING whose query has been taken; any other is
discarded. -/
def State.queryOutcome (s : State) (i : DevIx) (x : InjectorSlot) (o : InjOutcome) : State :=
  match x.flight with
  | none => s
  | some f =>
    if f.phase = .querying ∧ f.owned ∧ x.request = none then
      match o with
      | .reply r => s.queryReply i f r
      | .miss => s.attemptFailed i
      | .fault => s
    else s

/-- A SHOT REPORT by poll (R105): taken in AWAITING or QUERYING when it names the shot's outlet. -/
def State.polledReport (s : State) (i : DevIx) (x : InjectorSlot) (outlet : Byte) (dose : Nat) (status : Byte) : State :=
  match x.flight with
  | none => s
  | some f => if f.phase ≠ .sending ∧ outlet.toNat = f.outlet then s.takeReport i f dose status else s

/-- The shot timer expires (R106); an unowned shot ends (R109). -/
def State.shotExpires (s : State) (i : DevIx) : State :=
  match (s.slot i).bind fun x => x.flight with
  | none => s
  | some f =>
    if f.phase = .awaiting ∧ f.timer.isSome then (if f.owned then s.queryShot i f else s.endUnowned i) else s

/-! ### Streams -/

/-- The schedule's delivered dose follows the injector's cumulative dose (R113); a closed schedule is not credited (R118). -/
def State.creditStream (s : State) (i : DevIx) (x : InjectorSlot) (dose : BitVec 32) : State :=
  match x.entry.servedArm with
  | none => s
  | some n => if x.stream.owned then s.setDelivered n i x.stream.startDose (dose - x.stream.baseline).toNat else s

/-- The deviation check of a STREAM schedule fails (R115). -/
def Schedule.strays (c : Schedule) : Bool :=
  let target := doseTarget c.streamed c.ratio
  c.streamMin ≤ target && c.tolerance * target < ((target : Int) - c.delivered).natAbs * 100

/-- The deviation check of a STREAM schedule, while its stream is RUNNING (R115). -/
def State.checkStream (s : State) (i : DevIx) (x : InjectorSlot) : State :=
  match x.entry.servedArm with
  | none => s
  | some n =>
    if x.stream.state = .running ∧ x.stream.owned ∧ (s.schedule n i).any Schedule.strays then
      s.faultScheduleNow n i .deviation
    else s

/-- An INJECTOR STATE by poll at a STREAM injector (R113, R115). -/
def State.polledState (s : State) (i : DevIx) (x : InjectorSlot) (dose : BitVec 32) : State :=
  match x.stream.state with
  | .running => (s.creditStream i x dose).checkStream i x
  | .stopping => s.creditStream i x dose
  | .idle | .starting => s

/-- STREAM START is posted a second time (R112). -/
def State.repeatStart (s : State) (i : DevIx) (x : InjectorSlot) : State :=
  match x.entry.servedArm.bind fun n => s.schedule n i with
  | none => s.streamIdle i
  | some c => (s.modStream i fun t => { t with attempt := 2, taken := false }).postRequest i (.streamStart c.outlet c.ratio)

/-- STREAM START ended without a busy injector (R112). -/
def State.startFailed (s : State) (i : DevIx) (x : InjectorSlot) : State :=
  if x.stream.stopWanted then s.streamIdle i
  else if x.stream.attempt = 1 then s.repeatStart i x
  else (s.streamFailed i).declareFailed i

/-- STREAM START ended by a busy injector: RUNNING with the reply's dose as baseline, and on to the stop row when a stop is
wanted (R112). -/
def State.streamOpened (s : State) (i : DevIx) (x : InjectorSlot) (dose : BitVec 32) : State :=
  let s1 := s.modStream i fun t => { t with state := .running, baseline := dose, stopWanted := false }
  if x.stream.stopWanted then s1.postStreamStop i 1 false else s1

/-- The outcome of a STREAM START (R112). -/
def State.startOutcome (s : State) (i : DevIx) (x : InjectorSlot) (o : InjOutcome) : State :=
  if x.stream.state = .starting ∧ x.stream.taken then
    match o with
    | .reply (.injectorState state dose _) => if state = 0x01#8 then s.streamOpened i x dose else s.startFailed i x
    | .reply _ => s.startFailed i x
    | .miss => s.startFailed i x
    | .fault => s.streamIdle i
  else s

/-- The outcome of a STREAM STOP of a healthy injector (R112, R113). -/
def State.stopEnded (s : State) (i : DevIx) (x : InjectorSlot) (o : InjOutcome) : State :=
  match o with
  | .reply (.injectorState _ dose _) => (s.creditStream i x dose).streamIdle i
  | .reply _ => s.streamIdle i
  | .fault => s.streamIdle i
  | .miss => if x.stream.attempt = 1 then s.postStreamStop i 2 false else (s.streamFailed i).declareFailed i

/-- The outcome of a STREAM STOP; one sent once ends the stream whatever it brings (R112). -/
def State.stopOutcome (s : State) (i : DevIx) (x : InjectorSlot) (o : InjOutcome) : State :=
  if x.stream.state = .stopping ∧ x.stream.taken then
    (if x.stream.once then s.streamIdle i else s.stopEnded i x o)
  else s

/-! ### What the scanner gives (R31, R33) -/

/-- The outcome of a step-3 transaction reaches the scheduler (R31). -/
def State.injectorOutcome (s : State) (i : DevIx) (t : Telegram) (o : InjOutcome) : State :=
  match s.slot i with
  | none => s
  | some x =>
    match t with
    | .shot _ _ => s.shotOutcome i x o
    | .shotQuery => s.queryOutcome i x o
    | .streamStart _ _ => s.startOutcome i x o
    | .streamStop => s.stopOutcome i x o
    | .poll | .valveSet _ | .stationShow _ | .diagnostic _ _ => s

/-- A reply by poll reaches the scheduler: reports at SHOT injectors, states at STREAM injectors, the rest discarded (R104,
R105, R113). -/
def State.injectorPolled (s : State) (i : DevIx) (r : DeviceReply) : State :=
  match s.slot i with
  | none => s
  | some x =>
    match x.entry.mode, r with
    | .shot, .shotReport outlet dose status => s.polledReport i x outlet dose.toNat status
    | .stream, .injectorState _ dose _ => s.polledState i x dose
    | _, _ => s

/-- The scanner takes a posted request (R31); the stream learns that its START or STOP has been taken (R112). -/
def State.takeRequest (s : State) (i : DevIx) : State :=
  s.modSlot i fun x => { x with request := none, stream := { x.stream with taken := x.stream.state ≠ .idle } }

/-- The telegram of a request (R12, R31). -/
def InjRequest.telegram : InjRequest → Telegram
  | .shot outlet dose => .shot outlet dose
  | .streamStart outlet ratio => .streamStart outlet ratio
  | .streamStop => .streamStop
  | .shotQuery => .shotQuery

/-- The injector's shot queue is not empty or its stream is active (R19, R36, R37). -/
def State.injectorBusy (s : State) (i : DevIx) : Bool :=
  (s.slot i).any fun x => !x.queue.isEmpty || x.stream.state ≠ .idle

end Sys2Proof.Machine
end

