-- ==== Sys2Proof/Machine/Bus.lean ====
section
/-! DEFINITION. The Bay Bus scanner (chapter 2 and R13): the arbiter's pick, the ends of a transaction, the routing of replies,
the receiver's characters, the passthrough slot. -/

namespace Sys2Proof.Machine

/-! ### Valve work (R29 steps 1 and 2, R30) -/

/-- A VALVE entry is eligible for a VALVE SET of a stage (R30). -/
def Device.eligible (d : Device) (st : Stage) : Bool :=
  d.setStage ≠ some st && !d.retryHold && (d.state = .unknown || d.state = .online || st = .closed)

/-- The present VALVE entry that an arm's entry names (R29). -/
def State.valveOf (s : State) (n : Arm) : Option (DevIx × Device) :=
  (s.armEntry n).bind fun e => (s.deviceOfKind e.valve .valve).map fun d => (e.valve, d)

/-- The arm wants its desired stage sent: the reported stage differs and the valve is eligible (R29, R30). -/
def State.wantsSet (s : State) (n : Arm) : Bool :=
  (s.arm n).reported ≠ some (s.arm n).desired && (s.valveOf n).any fun v => v.2.eligible (s.arm n).desired

/-- The lowest arm that wants an urgent close (R29 step 1). -/
def State.urgentArm (s : State) : Option Arm := allArms.find? fun n => (s.arm n).desired = .closed && s.wantsSet n

/-- The lowest arm that wants LOW or HIGH (R29 step 2). -/
def State.openArm (s : State) : Option Arm := allArms.find? fun n => (s.arm n).desired ≠ .closed && s.wantsSet n

/-- The lowest injector with a posted request and its device present (R29 step 3, R31). -/
def State.workInjector (s : State) : Option (DevIx × InjRequest) :=
  allDevIx.findSome? fun i =>
    if (s.deviceOfKind i .injector).isSome then ((s.slot i).bind fun x => x.request).map fun r => (i, r) else none

/-! ### Beginning a transaction (R27) -/

/-- The scanner starts sending a telegram to a present device (R12, R27); BDE is asserted. -/
def State.beginTransaction (s : State) (i : DevIx) (t : Telegram) (step : PickStep) : State :=
  match s.device i with
  | none => s
  | some d =>
    { s with
      scan.transaction := some ⟨i, d.address, t, step, d.timeout, false, false, false⟩
      scan.rx.buffer := []
      scan.rx.broken := false
      pads.bde := true }

/-- A VALVE SET of the arm's desired stage. -/
def State.sendStage (s : State) (n : Arm) (step : PickStep) : State :=
  match s.valveOf n with
  | none => s
  | some v => s.beginTransaction v.1 (.valveSet (s.arm n).desired) step

/-! ### The scan list (R26, R29 step 4) -/

/-- The pointer moves past the entry it names; at the end of the list it returns to 0 and the wrap mark is set (R26). -/
def Scanner.advance (c : Scanner) : Scanner :=
  if c.pointer + 1 = c.list.length then { c with pointer := 0, wrap := true } else { c with pointer := c.pointer + 1 }

/-- The entry at the pointer names a present device. -/
def Scanner.presentHere (c : Scanner) : Bool := (c.list[c.pointer]?).any fun i => (c.devices[i]).isSome

/-- Stepping over empty indices, each entry of the list at most once (R26). -/
def Scanner.stepOver : Nat → Scanner → Scanner
  | 0, c => c
  | k + 1, c => if c.presentHere then c else Scanner.stepOver k c.advance

/-- Step 4 is reached: an empty list sets the wrap mark, else empty indices are stepped over (R26). -/
def Scanner.reach (c : Scanner) : Scanner :=
  if c.list = [] then { c with wrap := true } else Scanner.stepOver c.list.length c

/-- The telegram of a scan-list visit (R32). -/
def Device.visit (d : Device) : Telegram :=
  match d.display with
  | none => .poll
  | some c => if d.kind = .station then .stationShow c else .poll

/-- The entry at the pointer is served: the wrap mark is cleared and the pointer moves on (R26, R32). -/
def State.serveEntry (s : State) : State × Bool :=
  match s.scan.list[s.scan.pointer]? with
  | none => (s, false)
  | some i =>
    match s.device i with
    | none => (s, false)
    | some d =>
      (({ s with scan := ({ s.scan with wrap := false }).advance } : State).beginTransaction i d.visit .scan, true)

/-! ### The passthrough slot (R36, R37) -/

/-- A diagnostic kind is in the pass filter set of a device kind (R35). -/
def State.passes (s : State) (k : DeviceKind) (kind : Byte) : Bool :=
  0x60 ≤ kind.toNat && kind.toNat ≤ 0x7F && (s.scan.filter[k.index]).getLsbD (kind.toNat - 0x60)

/-- The device is in use: a METER or VALVE whose arm is held, or a busy injector (R19 step 4, R36 step 5). -/
def State.deviceInUse (s : State) (i : DevIx) (d : Device) : Bool :=
  match d.kind, d.assoc with
  | .meter, .arm n => (s.holder n).isSome
  | .valve, .arm n => (s.holder n).isSome
  | .injector, _ => s.injectorBusy i
  | _, _ => false

/-- The stored passthrough may still be sent (R37). -/
def State.passStands (s : State) (p : PassSlot) : Bool :=
  (s.device p.device).any fun d => s.passes d.kind p.kind && !s.deviceInUse p.device d

/-- A PASSTHROUGH notice (R37, R179). -/
def State.noticePass (s : State) (i : DevIx) (code : Byte) (extra : Option (Byte × List Byte)) : State :=
  s.raiseNoticeAt .passthrough (.device i) code s.time.record extra

/-- The slot empties. -/
def State.emptyPass (s : State) : State := { s with scan.slot := none }

/-- The passthrough is withdrawn without a transaction: slot empty, wrap mark clear, notice (R37). -/
def State.withdrawPass (s : State) (p : PassSlot) : State :=
  State.noticePass { s with scan.slot := none, scan.wrap := false } p.device 0x02#8 none

/-- Step 4 for an empty slot, after a withdrawal (R37). -/
def State.serveScan (s : State) : State × Bool := State.serveEntry { s with scan := s.scan.reach }

/-- Step 5: the stored telegram is sent, or withdrawn and the pick goes on at step 4 (R37). -/
def State.servePass (s : State) (p : PassSlot) : State × Bool :=
  if s.passStands p then
    (State.beginTransaction { s with scan.wrap := false } p.device (.diagnostic p.kind p.payload) .passthrough, true)
  else (s.withdrawPass p).serveScan

/-- Steps 4 and 5 of the arbiter: step 4 is passed over while the wrap mark is set and the slot occupied, also when stepping
over empty indices sets the mark (R29, log 13). -/
def State.pickScan (s : State) : State × Bool :=
  match s.scan.slot with
  | none => s.serveScan
  | some p =>
    if s.scan.wrap then s.servePass p
    else
      let s1 := { s with scan := s.scan.reach }
      if s1.scan.wrap then s1.servePass p else s1.serveEntry

/-! ### The pick (R29, R30) -/

/-- One pass through the arbiter's five steps; the mark says that a transaction has begun (R29). -/
def State.pickOnce (s : State) : State × Bool :=
  match s.urgentArm with
  | some n => (s.sendStage n .urgentClose, true)
  | none =>
    match s.openArm with
    | some n => (s.sendStage n .valve, true)
    | none =>
      match s.workInjector with
      | some (i, r) => ((s.takeRequest i).beginTransaction i r.telegram .injector, true)
      | none => s.pickScan

/-- Some valve's retry hold is set. -/
def State.holding (s : State) : Bool := allDevIx.any fun i => (s.device i).any fun d => d.retryHold

/-- Every valve's retry hold is cleared (R30). -/
def State.clearHolds (s : State) : State :=
  { s with scan.devices := s.scan.devices.map fun d => d.map fun d => { d with retryHold := false } }

/-- The pick: when nothing is found the retry holds are cleared, and if one was set the scanner picks again at once (R30). -/
def State.pick (s : State) : State :=
  let r := s.pickOnce
  if r.2 then r.1
  else if r.1.holding then r.1.clearHolds.pickOnce.1
  else r.1

/-- The end of every event: when work has arrived or the bus has fallen free, and no transaction is in flight, the scanner
picks (R27, log 12); it keeps quiet for 100 ms after RESTART (R38). -/
def State.settle (s : State) : State :=
  if s.scan.wake then
    let s1 : State := { s with scan.wake := false }
    if s1.scan.transaction.isNone && !s1.scan.quiet then s1.pick else s1
  else s

/-! ### The end of a transaction (R20 to R22, R27, R28, R30, R33, R37) -/

/-- A transaction at step 3, 4 or 5 clears the retry holds when it ends (R30). -/
def PickStep.clearsHolds : PickStep → Bool
  | .injector | .scan | .passthrough => true
  | .urgentClose | .valve => false

/-- The bus falls free: no transaction, BDE released, the reply buffer free, the holds cleared as the step gives (R27, R30). -/
def State.freeBus (s : State) (t : Transaction) : State :=
  let s1 : State :=
    { s with
      scan.transaction := none
      scan.rx.buffer := []
      scan.rx.broken := false
      scan.wake := true
      pads.bde := false }
  if t.step.clearsHolds then s1.clearHolds else s1

/-- The VALVE entry's retry hold is set (R30). -/
def State.holdValve (s : State) (i : DevIx) : State :=
  s.setDevice i ((s.device i).map fun d => { d with retryHold := true })

/-- A transaction ends as a miss (R22). One whose entry was written meanwhile changes no state, and its asker is told a miss
(R20, log 15). -/
def State.missEnd (s : State) (t : Transaction) : State :=
  let s1 := s.freeBus t
  match t.step with
  | .passthrough => (s1.noticePass t.device 0x01#8 none).emptyPass
  | .urgentClose | .valve => if t.written then s1 else (s1.deviceMissed t.device).holdValve t.device
  | .injector => (if t.written then s1 else s1.deviceMissed t.device).injectorOutcome t.device t.telegram .miss
  | .scan => if t.written then s1 else s1.deviceMissed t.device

/-- The valve has answered a VALVE SET: its set stage is the stage sent (R30, log 14). -/
def State.noteSet (s : State) (t : Transaction) : State :=
  match t.telegram with
  | .valveSet st => s.setDevice t.device ((s.device t.device).map fun d => { d with setStage := some st })
  | .poll | .shot _ _ | .streamStart _ _ | .streamStop | .stationShow _ | .shotQuery | .diagnostic _ _ => s

/-- The station has answered a STATION SHOW: its display pending is cleared unless a newer code stands (R32). -/
def State.noteShown (s : State) (t : Transaction) : State :=
  match t.telegram with
  | .stationShow _ =>
    if t.newerCode then s else s.setDevice t.device ((s.device t.device).map fun d => { d with display := none })
  | .poll | .valveSet _ | .shot _ _ | .streamStart _ _ | .streamStop | .shotQuery | .diagnostic _ _ => s

/-- A reply with its fault flag clear goes to its owner (R33, R34); that of a step-3 request is the scheduler's outcome. -/
def State.route (s : State) (t : Transaction) (d : Device) (r : DeviceReply) : State :=
  match r, d.assoc with
  | .meterSample pulses interval temp flags, .arm n => s.meterSample t.device n pulses interval temp flags
  | .valveState stage _, .arm n => s.valveReply t.device n stage
  | .stationEvents es, .lane l => s.stationEvents l es
  | .permissiveState flags, _ => s.permissiveState flags
  | .shotReport outlet dose status, _ =>
    if t.step = .injector then s.injectorOutcome t.device t.telegram (.reply (.shotReport outlet dose status))
    else s.injectorPolled t.device (.shotReport outlet dose status)
  | .injectorState state dose flags, _ =>
    if t.step = .injector then s.injectorOutcome t.device t.telegram (.reply (.injectorState state dose flags))
    else s.injectorPolled t.device (.injectorState state dose flags)
  | _, _ => s

/-- A reply with its fault flag set goes to no block; a step-3 transaction gives the outcome fault (R31, R33). -/
def State.routeFault (s : State) (t : Transaction) : State :=
  if t.step = .injector then s.injectorOutcome t.device t.telegram .fault else s

/-- An accepted reply at steps 1 to 4 (R33): miss count, state, hand-on and notice, then the payload to its owner. -/
def State.acceptReply (s : State) (t : Transaction) (d : Device) (r : DeviceReply) : State :=
  let s1 := (((s.freeBus t).deviceReplied t.device (replyFault r)).noteSet t).noteShown t
  if replyFault r then s1.routeFault t else s1.route t d r

/-- The reply of a passthrough transaction (R28, R37). -/
def State.passReply (s : State) (t : Transaction) (r : DeviceReply) : State :=
  match r with
  | .diagnostic kind payload =>
    ((s.freeBus t).noticePass t.device 0x00#8 (some (kind, payload))).emptyPass
  | _ => s.missEnd t

/-- A valid reply ends the transaction (R13, R20, R28, R33, R37). -/
def State.replyEnd (s : State) (t : Transaction) (r : DeviceReply) : State :=
  if t.written then s.missEnd t
  else if t.step = .passthrough then s.passReply t r
  else
    match s.device t.device with
    | none => s.missEnd t
    | some d => if d.kind.accepts r then s.acceptReply t d r else s.missEnd t

/-- The response timeout expires (R27). -/
def State.responseExpires (s : State) : State :=
  match s.scan.transaction with
  | none => s
  | some t => if t.sent then s.missEnd t else s

/-! ### Characters on the Bay Bus (R3, R4, R13) -/

/-- The reply is broken and counted in CHECK (R13). -/
def State.breakReply (s : State) : State := State.countBusCheck { s with scan.rx.broken := true }

/-- The kinds a reply may have (R13). -/
def replyKindOk (kind : Byte) (diagnostic : Bool) : Bool :=
  (0x41 ≤ kind.toNat && kind.toNat ≤ 0x46) || (diagnostic && 0x60 ≤ kind.toNat && kind.toNat ≤ 0x7F)

/-- The bytes so far break the reply at the byte just added (R13). -/
def headBroken (t : Transaction) (bs : List Byte) : Bool :=
  (bs.length = 1 && byteAt bs 0 ≠ t.address) || (bs.length = 2 && !replyKindOk (byteAt bs 1) t.telegram.isDiagnostic) ||
    (bs.length = 3 && 64 < (byteAt bs 2).toNat)

/-- A complete reply is judged at its last check byte (R6, R13). -/
def State.completeReply (s : State) (t : Transaction) (bs : List Byte) : State :=
  if crc bs ≠ 0#16 then s.breakReply
  else
    match parseReply (byteAt bs 1) ((bs.drop 3).take (byteAt bs 2).toNat) with
    | none => s.breakReply
    | some r => s.replyEnd t r

/-- A good byte joins the reply (R13). -/
def State.addReplyByte (s : State) (t : Transaction) (b : Byte) : State :=
  let bs := s.scan.rx.buffer ++ [b]
  let s1 : State := { s with scan.rx.buffer := bs }
  if headBroken t bs then s1.breakReply
  else if 3 ≤ bs.length ∧ bs.length = 5 + (byteAt bs 2).toNat then s1.completeReply t bs
  else s1

/-- The scanner takes a character: with no transaction in flight, or in a broken reply, it is discarded and its error counted
(R13). A break taken first after the telegram breaks the reply that follows it (log 43). -/
def State.takeBusChar (s : State) (c : BusChar) : State :=
  match s.scan.transaction.filter fun t => t.sent with
  | none => s.countBusError (BusChar.error c)
  | some t =>
    if s.scan.rx.broken then s.countBusError (BusChar.error c)
    else if BusChar.error c ≠ CharError.none then
      State.countBusError { s with scan.rx.broken := true } (BusChar.error c)
    else if c.ninth then s.breakReply
    else s.addReplyByte t c.data

/-- The held character is taken (R4). -/
def State.takeBusHeld (s : State) : State :=
  match s.scan.rx.held with
  | none => s
  | some c => State.takeBusChar { s with scan.rx.held := none } c

/-- A character is lost to an occupied held stage. An overrun breaks the reply in progress (R13); where no transaction waits for a
reply the character belongs to no frame, and the overrun is only counted (R4). -/
def State.busOverrun (s : State) : State :=
  if s.scan.transaction.any fun t => t.sent then State.countBusOverrun { s with scan.rx.broken := true } else s.countBusOverrun

/-- The receiver is gated off while BDE is asserted (R2). A character marked `gap` completes before the telegram picked last has
begun, and is not (R27, log 7). -/
def State.busGatesOff (s : State) (c : BusChar) : Bool := s.pads.bde && !c.gap

/-- A character completes while the buffer cannot accept it: it is held, or lost to an occupied held stage (R4). -/
def State.holdBusChar (s : State) (c : BusChar) : State :=
  if s.scan.rx.held.isSome then s.busOverrun else { s with scan.rx.held := some c }

/-- A character completes (R3, R4): gated off; held or lost while the buffer cannot accept it, and the held one taken when the buffer
frees (log 11); else taken behind a held one. A break passes into the held stage as any character does (log 42), and a lost
character counts as overrun alone, whatever error it carries (log 44). -/
def State.busChar (s : State) (c : BusChar) : State :=
  if s.busGatesOff c then s
  else if c.blocked then
    (if c.frees then (s.holdBusChar c).takeBusHeld else s.holdBusChar c)
  else s.takeBusHeld.takeBusChar c

/-- The last stop bit of the telegram is sent: BDE is released and the response timeout starts (R12). -/
def State.telegramSent (s : State) : State :=
  match s.scan.transaction with
  | none => s
  | some t =>
    if t.sent then s
    else { s.takeBusHeld with scan.transaction := some { t with sent := true }, pads.bde := false }

/-- The characters of a device's reply, good in every bit. -/
def replyChars (address : Byte) (r : DeviceReply) : List BusChar :=
  (frame address (replyKind r) (replyPayload r)).map fun b => ⟨b, false, true, false, false, false⟩

/-- A whole reply of the polled device arrives (R13). As the first characters of the reply it is judged as one; behind other
characters it goes through the receiver character by character (log 10). -/
def State.deliverReply (s : State) (r : DeviceReply) : State :=
  let s1 := s.takeBusHeld
  match s1.scan.transaction.filter fun t => t.sent with
  | none => s1
  | some t =>
    if s1.scan.rx.buffer = [] ∧ s1.scan.rx.broken = false then
      if replyFits r ∧ replyKindOk (replyKind r) t.telegram.isDiagnostic then s1.replyEnd t r else s1.breakReply
    else (replyChars t.address r).foldl State.takeBusChar s1

/-! ### PASSTHROUGH (R36) and the quiet time (R38) -/

/-- PASSTHROUGH (R36). -/
def State.passthroughRequest (s : State) (p : List Byte) : State × TermReply :=
  if ¬ (2 ≤ p.length ∧ p.length ≤ 66) then s.refuse .badFormat
  else
    match devIxOf (byteAt p 0) with
    | none => s.refuse .badValue
    | some i =>
      match s.device i with
      | none => s.refuse .notFound
      | some d =>
        if ¬ s.passes d.kind (byteAt p 1) then s.refuse .notAllowed
        else if s.deviceInUse i d then s.refuse .inUse
        else if s.scan.slot.isSome then s.refuse .busy
        else (State.wakeBus { s with scan.slot := some ⟨i, byteAt p 1, p.drop 2⟩ }).accept

/-- The 100 ms after RESTART are over and the scanner picks (R38). -/
def State.quietEnds (s : State) : State :=
  if s.scan.quiet then State.wakeBus { s with scan.quiet := false } else s

end Sys2Proof.Machine
end

