-- ==== Sys2Proof/Machine/Time.lean ====
section
/-! DEFINITION. The time counter (chapter 10): validity, the second tick, TIME SET, its broadcast, TIME READ. -/

namespace Sys2Proof.Machine

/-! ### Validity (R166) -/

/-- The days of the months before a month (R166). -/
def daysBefore (year month : Nat) : Nat := ((List.range (month - 1)).map fun m => daysInMonth year (m + 1)).sum

/-- The weekday of a date: 6 + the days from 2000-01-01, mod 7 (R166). -/
def weekdayOf (year month day : Nat) : Nat :=
  (6 + (365 * year + (year + 3) / 4 + daysBefore year month + (day - 1))) % 7

/-- Every digit is 0..9 (R169 step 2). -/
def TimeRec.digitsOk (t : TimeRec) : Bool := t.bytes.all bcdOk

/-- Every field lies in its range, the day within its month (R169 step 3). -/
def TimeRec.inRange (t : TimeRec) : Bool :=
  realDate t.year t.month t.day && bcdVal t.weekday ≤ 6 && bcdVal t.hour ≤ 23 && bcdVal t.minute ≤ 59 && bcdVal t.second ≤ 59

/-- The weekday is that of the date (R169 step 4). -/
def TimeRec.weekdayOk (t : TimeRec) : Bool := bcdVal t.weekday = weekdayOf (bcdVal t.year) (bcdVal t.month) (bcdVal t.day)

/-- A valid record (R166). -/
def TimeRec.valid (t : TimeRec) : Bool := t.digitsOk && t.inRange && t.weekdayOk

/-! ### Counting (R167) -/

/-- A BCD field adds one: a units digit that passes 9 returns to 0 and adds one to the tens digit (R167). -/
def bcdInc (b : Byte) : Byte := if b.toNat % 16 = 9 then b + 0x07#8 else b + 0x01#8

/-- The carry into the year; 99 returns to 00, whose first day is a Saturday (R167). -/
def TimeRec.nextYear (t : TimeRec) : TimeRec :=
  if t.year = 0x99#8 then { t with year := 0x00#8, weekday := 0x06#8 } else { t with year := bcdInc t.year }

/-- The carry into the month (R167). -/
def TimeRec.nextMonth (t : TimeRec) : TimeRec :=
  if t.month = 0x12#8 then { t with month := 0x01#8 }.nextYear else { t with month := bcdInc t.month }

/-- The carry into the day and the weekday (R167). -/
def TimeRec.nextDay (t : TimeRec) : TimeRec :=
  let t1 := { t with weekday := if t.weekday = 0x06#8 then 0x00#8 else t.weekday + 0x01#8 }
  if bcdVal t.day = daysInMonth (bcdVal t.year) (bcdVal t.month) then { t1 with day := 0x01#8 }.nextMonth
  else { t1 with day := bcdInc t.day }

/-- The carry into the hour (R167). -/
def TimeRec.nextHour (t : TimeRec) : TimeRec :=
  if t.hour = 0x23#8 then { t with hour := 0x00#8 }.nextDay else { t with hour := bcdInc t.hour }

/-- The carry into the minute (R167). -/
def TimeRec.nextMinute (t : TimeRec) : TimeRec :=
  if t.minute = 0x59#8 then { t with minute := 0x00#8 }.nextHour else { t with minute := bcdInc t.minute }

/-- The record advances by one second (R167). -/
def TimeRec.nextSecond (t : TimeRec) : TimeRec :=
  if t.second = 0x59#8 then { t with second := 0x00#8 }.nextMinute else { t with second := bcdInc t.second }

/-- The second tick: the divider has counted 32768 cycles and returns to 0 (R167, log 3). -/
def State.tick (s : State) : State := { s with time.record := s.time.record.nextSecond, time.divider := 0 }

/-! ### TIME SET and TIME READ (R169 to R171) -/

/-- The record of a seven-byte payload (R16). -/
def parseTime (p : List Byte) : TimeRec :=
  ⟨byteAt p 0, byteAt p 1, byteAt p 2, byteAt p 3, byteAt p 4, byteAt p 5, byteAt p 6⟩

/-- The steps of R169: the first failure. -/
def timeFailure (p : List Byte) : Option Reason :=
  if p.length ≠ 7 then some .badFormat
  else if (parseTime p).valid then none
  else some .badValue

/-- The effects of R169: record, divider, flag, notice with the record just loaded. -/
def State.loadTime (s : State) (t : TimeRec) (code : Byte) : State :=
  State.raiseNotice { s with time := ⟨t, 0, true⟩ } .timeSet .none code

/-- TIME SET at the strapped address (R169). -/
def State.timeSet (s : State) (p : List Byte) : State × TermReply :=
  match timeFailure p with
  | some r => s.refuse r
  | none => (s.loadTime (parseTime p) 0x00#8).accept

/-- A broadcast TIME SET (R170). -/
def State.timeBroadcast (s : State) (p : List Byte) : State :=
  if timeFailure p = none then s.loadTime (parseTime p) 0x01#8 else s

/-- TIME READ (R171). -/
def State.timeRead (s : State) (p : List Byte) : State × TermReply :=
  if p ≠ [] then s.refuse .badFormat
  else s.answer (s.time.record.bytes ++ [if s.time.timeSet then 0x01#8 else 0x00#8])

end Sys2Proof.Machine
end

