-- ==== Sys2Proof/Machine/Tables.lean ====
section
/-! DEFINITION. The tables 01H to 08H (chapters 2 and 3): layouts, the judgement of TABLE WRITE, its effects, the consistency
check, TABLE READ. -/

namespace Sys2Proof.Machine

/-! ### Device table (R18 to R20) -/

/-- The entry of a device TABLE WRITE, freshly written: UNKNOWN, nothing counted, nothing pending (R20). -/
def newDevice (address : Byte) (kind : DeviceKind) (assoc : Association) (timeout missLimit : Nat) : Device where
  address := address
  kind := kind
  assoc := assoc
  timeout := timeout
  missLimit := missLimit
  state := .unknown
  misses := 0
  setStage := none
  retryHold := false
  display := none

/-- The bay mode is IN SERVICE or DRAINING (R19 step 3, R40 step 5). -/
def State.serving (s : State) : Bool := s.port.mode = .inService || s.port.mode = .draining

/-- A transaction in flight to the written index learns of the write (R20). -/
def State.markWritten (s : State) (i : DevIx) : State :=
  { s with scan.transaction := s.scan.transaction.map fun t => if t.device = i then { t with written := true } else t }

/-- A rewritten INJECTOR entry keeps no request and no unowned shot, whatever its state was (R31, R111, log 17). -/
def State.injectorRewritten (s : State) (i : DevIx) (kind : DeviceKind) : State :=
  if kind = .injector then s.injectorUnknown i else s

/-- A rewritten entry that was not UNKNOWN is noticed and handed on; where the kind changes, both kinds' owners are told (R20,
R24, log 16). -/
def State.announceRewrite (s : State) (i : DevIx) (old new : Device) : State :=
  if old.state = .unknown then s
  else
    let s1 := s.announce i old.kind old.state (some .unknown)
    if old.kind = new.kind then s1 else s1.handOn i new.kind old.state (some .unknown)

/-- An accepted write fills or rewrites an entry (R20). Filling an empty one is no noticed change and is handed to no owner
(log 45). -/
def State.putDevice (s : State) (i : DevIx) (d : Device) : State :=
  let s1 := ((s.setDevice i (some d)).markWritten i).wakeBus
  match s.device i with
  | none => s1
  | some old => (s1.announceRewrite i old d).injectorRewritten i old.kind

/-- An accepted write empties an entry (R20). -/
def State.removeDevice (s : State) (i : DevIx) : State :=
  let s1 := ((s.setDevice i none).markWritten i).wakeBus
  match s.device i with
  | none => s1
  | some old => s1.announce i old.kind old.state none

/-- R19 step 3: what a write may not do while the bay is in service. -/
def wrongModeWrite (old : Option Device) (new : Option Device) : Bool :=
  match old, new with
  | some _, none => true
  | some o, some d => o.kind ≠ d.kind || o.assoc ≠ d.assoc
  | none, some d => d.kind = .station || d.kind = .permissive
  | none, none => false

/-- Another present entry holds the address (R19 step 5). -/
def State.addressTaken (s : State) (i : DevIx) (address : Byte) : Bool :=
  allDevIx.any fun j => j ≠ i && (s.device j).any fun d => d.address = address

/-- Steps 3 to 5 of R19 and the effect; `new` is none for an emptying write. -/
def State.writeDevice (s : State) (i : DevIx) (new : Option Device) : State × TermReply :=
  if s.serving && wrongModeWrite (s.device i) new then s.refuse .wrongMode
  else if (s.device i).any fun d => s.deviceInUse i d then s.refuse .inUse
  else
    match new with
    | none => (s.removeDevice i).accept
    | some d => if s.addressTaken i d.address then s.refuse .duplicate else (s.putDevice i d).accept

/-- The entry a device write gives after its index, none where a value lies outside its range (R18, R19 step 2). -/
def parseDevice (address : Byte) (kind : DeviceKind) (assoc timeout missLimit : Byte) : Option Device :=
  match assocOf kind assoc with
  | none => none
  | some a =>
    if address.toNat ≤ 126 ∧ 5 ≤ timeout.toNat ∧ timeout.toNat ≤ 100 ∧ 1 ≤ missLimit.toNat ∧ missLimit.toNat ≤ 10 then
      some (newDevice address kind a timeout.toNat missLimit.toNat)
    else none

/-- TABLE WRITE 01H, the bytes after the table id (R19). -/
def State.deviceWrite (s : State) (p : List Byte) : State × TermReply :=
  if p.length ≠ 6 then s.refuse .badFormat
  else if byteAt p 1 = 0x00#8 then
    match devIxOf (byteAt p 0) with
    | none => s.refuse .badValue
    | some i => s.writeDevice i none
  else
    match deviceKindOf (byteAt p 2) with
    | none => s.refuse .badFormat
    | some kind =>
      match devIxOf (byteAt p 0), parseDevice (byteAt p 1) kind (byteAt p 3) (byteAt p 4) (byteAt p 5) with
      | some i, some d => s.writeDevice i (some d)
      | _, _ => s.refuse .badValue

/-- The eight bytes of TABLE READ 01H (R18). -/
def Device.bytes (d : Device) : List Byte :=
  [d.address, d.kind.code, d.assoc.code, BitVec.ofNat 8 d.timeout, BitVec.ofNat 8 d.missLimit, d.state.code,
    BitVec.ofNat 8 d.misses, d.state.sourceCode]

/-- TABLE READ 01H (R18); an index above 31 is BAD VALUE (log 27). -/
def State.deviceRead (s : State) (p : List Byte) : State × TermReply :=
  if p.length ≠ 1 then s.refuse .badFormat
  else
    match devIxOf (byteAt p 0) with
    | none => s.refuse .badValue
    | some i =>
      match s.device i with
      | none => s.refuse .notFound
      | some d => s.answer d.bytes

/-! ### Scan list and pass filter (R25, R35) -/

/-- TABLE WRITE 02H (R25). -/
def State.scanListWrite (s : State) (p : List Byte) : State × TermReply :=
  let n := (byteAt p 0).toNat
  let ix := (p.drop 1).filterMap devIxOf
  if p = [] ∨ p.length ≠ 1 + n then s.refuse .badFormat
  else if 64 < n ∨ ix.length ≠ n then s.refuse .badValue
  else (State.wakeBus { s with scan.list := ix, scan.pointer := 0, scan.wrap := true }).accept

/-- TABLE READ 02H (R25); its index byte is not read (log 27). -/
def State.scanListRead (s : State) (p : List Byte) : State × TermReply :=
  if p.length ≠ 1 then s.refuse .badFormat
  else s.answer ([BitVec.ofNat 8 s.scan.list.length, BitVec.ofNat 8 s.scan.pointer,
      if s.scan.wrap then 0x01#8 else 0x00#8] ++ s.scan.list.map fun i => BitVec.ofNat 8 i.val)

/-- TABLE WRITE 03H (R35). -/
def State.passFilterWrite (s : State) (p : List Byte) : State × TermReply :=
  if p.length ≠ 5 then s.refuse .badFormat
  else
    match deviceKindOf (byteAt p 0) with
    | none => s.refuse .badValue
    | some k => State.accept { s with scan.filter := s.scan.filter.set k.index (BitVec.ofNat 32 (fieldAt p 1 4)) }

/-- TABLE READ 03H (R35). -/
def State.passFilterRead (s : State) (p : List Byte) : State × TermReply :=
  if p.length ≠ 1 then s.refuse .badFormat
  else
    match deviceKindOf (byteAt p 0) with
    | none => s.refuse .badValue
    | some k => s.answer (beBytes 4 (s.scan.filter[k.index]).toNat)

/-! ### The consistency check (R52) -/

/-- Condition 2 holds for a present arm entry. -/
def State.armConsistent (s : State) (n : Arm) (e : ArmEntry) : Bool :=
  (s.deviceOfKind e.meter .meter).any (fun d => d.assoc = .arm n) &&
    (s.deviceOfKind e.valve .valve).any fun d => d.assoc = .arm n

/-- Condition 3 holds for a lane. -/
def State.laneConsistent (s : State) (l : Lane) : Bool :=
  ((s.devicesOfKind .station).filter fun i => (s.device i).any fun d => d.assoc = .lane l).length = 1

/-- Condition 5 holds for one recipe slot of a product. -/
def State.slotConsistent (s : State) (code : Byte) (r : RecipeSlot) : Bool :=
  (s.deviceOfKind r.injector .injector).isSome &&
    (s.slot r.injector).any fun x => allArms.all fun n =>
      (s.armEntry n).all fun e => !e.allowed.getLsbD code.toNat || (x.entry.outlets[n]).isSome

/-- The first condition that fails, with where it fails (R52); conditions 1 and 4 name no place and show FFH (log 28). -/
def State.inconsistency (s : State) : Option (Byte × Byte) :=
  if allArms.all fun n => (s.armEntry n).isNone then some (0x01#8, 0xFF#8)
  else
    match allArms.find? fun n => (s.armEntry n).any fun e => !s.armConsistent n e with
    | some n => some (0x02#8, BitVec.ofNat 8 n.val)
    | none =>
      match [Lane.a, Lane.b].find? fun l => !s.laneConsistent l with
      | some l => some (0x03#8, laneCode l)
      | none =>
        if (s.devicesOfKind .permissive).length ≠ 1 then some (0x04#8, 0xFF#8)
        else (s.batch.products.find? fun p => !p.recipe.all (s.slotConsistent p.code)).map fun p => (0x05#8, p.code)

/-- TABLE READ 08H (R52, log 28). -/
def State.consistencyRead (s : State) (p : List Byte) : State × TermReply :=
  if p.length ≠ 1 then s.refuse .badFormat
  else if byteAt p 0 ≠ 0x00#8 then s.refuse .badValue
  else
    match s.inconsistency with
    | none => s.answer [0x00#8, 0xFF#8]
    | some (c, w) => s.answer [c, w]

/-! ### The shared judgement of tables 04H to 07H (R40, R50) -/

/-- A calibration request and a CALIBRATION notice for an accepted metrological change (R50 steps 2 and 3). -/
def State.calibrate (s : State) (subject : Subject) (table : Byte) : State :=
  State.raiseNotice { s with note := s.note.calibrate } .calibration subject table

/-- Steps 4 to 6 of R40 and the effect: `after` is the state with the entry stored and its table's effects made. -/
def State.commit (s after : State) (used metro : Bool) (subject : Subject) (table : Byte) : State × TermReply :=
  if used then s.refuse .inUse
  else if s.serving && after.inconsistency.isSome then s.refuse .wrongMode
  else if metro then (if s.pads.calEnable then (after.calibrate subject table).accept else s.refuse .calLocked)
  else after.accept

/-! ### Bay settings (R41) -/

/-- The record a bay settings entry gives (R41). -/
def parseSettings (e : List Byte) : Settings := ⟨fieldAt e 0 2, fieldAt e 2 2, (byteAt e 4).toNat, (byteAt e 5).toNat⟩

/-- The ranges of R41. -/
def Settings.valid (x : Settings) : Bool :=
  (x.tref = 1500 || x.tref = 2000) && 30 ≤ x.overrideWindow && x.overrideWindow ≤ 300 && 2 ≤ x.startWait && x.startWait ≤ 30 &&
    5 ≤ x.noFlowTimeout && x.noFlowTimeout ≤ 120

/-- TABLE WRITE 04H (R40, R41). -/
def State.settingsWrite (s : State) (p : List Byte) : State × TermReply :=
  let x := parseSettings (p.drop 1)
  if p.length ≠ 7 then s.refuse .badFormat
  else if ¬ (byteAt p 0 = 0x00#8 ∧ x.valid) then s.refuse .badValue
  else s.commit { s with batch.settings := x } false (x.tref ≠ s.batch.settings.tref) .none 0x04#8

def Settings.bytes (x : Settings) : List Byte :=
  beBytes 2 x.tref ++ beBytes 2 x.overrideWindow ++ [BitVec.ofNat 8 x.startWait, BitVec.ofNat 8 x.noFlowTimeout]

/-- TABLE READ 04H (R41). -/
def State.settingsRead (s : State) (p : List Byte) : State × TermReply :=
  if p.length ≠ 1 then s.refuse .badFormat
  else if byteAt p 0 ≠ 0x00#8 then s.refuse .badValue
  else s.answer s.batch.settings.bytes

/-! ### Product table (R42, R43, R51) -/

/-- One recipe slot, five bytes; none for a device index above 31 (R42). -/
def parseSlot (bs : List Byte) : Option RecipeSlot :=
  (devIxOf (byteAt bs 1)).map fun i => ⟨byteAt bs 0, i, fieldAt bs 2 2, byteAt bs 4 = 0x00#8⟩

/-- The recipe slots' bytes, five for each slot (R42). -/
def slotBytes : Nat → List Byte → List (List Byte)
  | 0, _ => []
  | k + 1, bs => bs.take 5 :: slotBytes k (bs.drop 5)

/-- The flag of a slot holds a listed code (R40 step 1, R42). -/
def flagListed (bs : List Byte) : Bool := (byteAt bs 4).toNat ≤ 1

/-- The ranges of a slot (R42). -/
def RecipeSlot.valid (r : RecipeSlot) : Bool := r.additive ≠ 0x00#8 && 1 ≤ r.ratio && r.ratio ≤ 20000

/-- The product that an entry of good form gives, none where a value is bad (R42, R43). -/
def parseProduct (code : Byte) (e : List Byte) : Option Product :=
  let k := (byteAt e 3).toNat
  let recipe := (slotBytes k (e.drop 4)).filterMap parseSlot
  let x : Product := ⟨code, (byteAt e 0).toNat, fieldAt e 1 2, recipe⟩
  if code ≠ 0x00#8 ∧ x.cls ≤ 15 ∧ 100 ≤ x.alpha ∧ x.alpha ≤ 2000 ∧ k ≤ 3 ∧ recipe.length = k ∧ recipe.all RecipeSlot.valid ∧
      distinct (recipe.map fun r => r.additive) ∧ distinct (recipe.map fun r => r.injector) then some x
  else none

/-- A product takes its place in the ascending order of codes (R42). -/
def insertProduct (x : Product) : List Product → List Product
  | [] => [x]
  | y :: rest =>
    if x.code.toNat < y.code.toNat then x :: y :: rest
    else if x.code = y.code then x :: rest
    else y :: insertProduct x rest

/-- A compartment of the load of a lane that holds one names the product (R51). -/
def State.productLoaded (s : State) (code : Byte) : Bool :=
  [Lane.a, Lane.b].any fun l => s.holdsLoad l && (s.lane l).load.any fun x => x.entries.any fun e => e.product = code

/-- A compartment of a queued order names the product (R51). -/
def State.productOrdered (s : State) (code : Byte) : Bool :=
  s.load.orders.any fun o => o.lines.any fun x => x.product = code

/-- A product write alters α, or fills an entry (R49). -/
def State.productMetro (s : State) (x : Product) : Bool := (s.product x.code).all fun y => y.alpha ≠ x.alpha

/-- A product entry of good form is written (R40 steps 2 to 6). -/
def State.putProduct (s : State) (code : Byte) (e : List Byte) : State × TermReply :=
  match parseProduct code e with
  | none => s.refuse .badValue
  | some x =>
    if (s.product code).isNone ∧ 32 ≤ s.batch.products.length then s.refuse .tableFull
    else s.commit { s with batch.products := insertProduct x s.batch.products } (s.productLoaded code) (s.productMetro x) .none
      0x05#8

/-- The entry of a code is emptied (R42, R51). -/
def State.emptyProduct (s : State) (code : Byte) : State × TermReply :=
  if code = 0x00#8 then s.refuse .badValue
  else s.commit { s with batch.products := s.batch.products.filter fun y => y.code ≠ code }
    (s.productLoaded code || s.productOrdered code) false .none 0x05#8

/-- A product entry has the length its slot count gives and listed flags (R40 step 1, R42). A count above 3 with the length it would
give passes here and fails its range (log 26). -/
def productForm (e : List Byte) : Bool :=
  let k := (byteAt e 3).toNat
  4 ≤ e.length && e.length = 4 + 5 * k && (slotBytes k (e.drop 4)).all flagListed

/-- TABLE WRITE 05H (R40, R42). -/
def State.productWrite (s : State) (p : List Byte) : State × TermReply :=
  match p with
  | [] => s.refuse .badFormat
  | code :: e =>
    if byteAt e 0 = 0xFF#8 then (if e.length = 1 then s.emptyProduct code else s.refuse .badFormat)
    else if productForm e then s.putProduct code e
    else s.refuse .badFormat

def RecipeSlot.bytes (r : RecipeSlot) : List Byte :=
  [r.additive, BitVec.ofNat 8 r.injector.val] ++ beBytes 2 r.ratio ++ [if r.required then 0x00#8 else 0x01#8]

def Product.bytes (x : Product) : List Byte :=
  BitVec.ofNat 8 x.cls :: beBytes 2 x.alpha ++ [BitVec.ofNat 8 x.recipe.length] ++ x.recipe.flatMap RecipeSlot.bytes

/-- TABLE READ 05H: one entry, or the codes for index 00H (R42). -/
def State.productRead (s : State) (p : List Byte) : State × TermReply :=
  if p.length ≠ 1 then s.refuse .badFormat
  else if byteAt p 0 = 0x00#8 then
    s.answer (BitVec.ofNat 8 s.batch.products.length :: s.batch.products.map fun x => x.code)
  else
    match s.product (byteAt p 0) with
    | none => s.refuse .notFound
    | some x => s.answer x.bytes

/-! ### Arm table (R44 to R46) -/

def reachOf (b : Byte) : Option Reach :=
  if b = 0x00#8 then some .a else if b = 0x01#8 then some .b else if b = 0x02#8 then some .both else none

def Reach.code : Reach → Byte
  | .a => 0x00#8
  | .b => 0x01#8
  | .both => 0x02#8

/-- The curve points, five bytes each (R44). -/
def parseCurve : Nat → List Byte → List (Nat × Nat)
  | 0, _ => []
  | k + 1, bs => (fieldAt bs 0 2, fieldAt bs 2 3) :: parseCurve k (bs.drop 5)

/-- The number of bytes, least significant first: bit b of byte j stands for code 8j + b (R44). -/
def leNat (bs : List Byte) : Nat := bs.foldr (fun b n => n * 256 + b.toNat) 0

/-- The flow rates rise strictly (R45). -/
def rising : List (Nat × Nat) → Bool
  | a :: b :: rest => a.1 < b.1 && rising (b :: rest)
  | _ => true

/-- A curve point lies in its ranges (R44). -/
def pointOk (q : Nat × Nat) : Bool := 1 ≤ q.1 && q.1 ≤ 9999 && 90000 ≤ q.2 && q.2 ≤ 110000

/-- The ranges and conditions of an arm entry (R44, R45). -/
def ArmEntry.valid (e : ArmEntry) : Bool :=
  1000 ≤ e.km && e.km ≤ 9999999 && 1 ≤ e.curve.length && e.curve.length ≤ 4 && e.curve.all pointOk && rising e.curve &&
    1 ≤ e.maxPulses && 1 ≤ e.maxFlow && e.maxFlow ≤ 9999 && e.startup ≤ 2000 && e.slowdown ≤ 5000 && e.leadInitial ≤ 5000 &&
    e.leadMin ≤ 5000 && e.leadMax ≤ 5000 && e.cutoff ≤ 2000 && e.leadMin ≤ e.leadInitial && e.leadInitial ≤ e.leadMax

/-- The arm entry of good form that the bytes give, none where a device index is above 31 (R44). -/
def parseArm (reach : Reach) (e : List Byte) : Option ArmEntry :=
  let c := (byteAt e 7).toNat
  let r := e.drop (8 + 5 * c)
  match devIxOf (byteAt e 1), devIxOf (byteAt e 2) with
  | some meter, some valve => some {
      reach := reach
      meter := meter
      valve := valve
      km := fieldAt e 3 4
      curve := parseCurve c (e.drop 8)
      maxPulses := fieldAt r 0 3
      maxFlow := fieldAt r 3 2
      startup := fieldAt r 5 2
      slowdown := fieldAt r 7 2
      leadInitial := fieldAt r 9 2
      leadMin := fieldAt r 11 2
      leadMax := fieldAt r 13 2
      cutoff := fieldAt r 15 2
      leak := fieldAt r 17 2
      allowed := BitVec.ofNat 256 (leNat ((r.drop 19).take 32)) }
  | _, _ => none

/-- An arm write alters Km or the curve, or fills an entry (R49). -/
def State.armMetro (s : State) (n : Arm) (e : ArmEntry) : Bool :=
  (s.armEntry n).all fun o => o.km ≠ e.km || o.curve ≠ e.curve

def State.setArmEntry (s : State) (n : Arm) (e : Option ArmEntry) : State :=
  { s with batch.armTable := s.batch.armTable.set n e }

/-- A filled or rewritten arm entry takes effect (R46): stop lead, reported stage where the valve is another, sample history. -/
def State.putArm (s : State) (n : Arm) (e : ArmEntry) : State :=
  (((s.setArmEntry n (some e)).setArm n { s.arm n with
      stopLead := some e.leadInitial
      reported := if (s.armEntry n).any fun o => o.valve = e.valve then (s.arm n).reported else none }).setMetering n
    Metering.start).wakeBus

/-- An emptied arm entry takes effect (R46). -/
def State.clearArm (s : State) (n : Arm) : State :=
  (((s.setArmEntry n none).setArm n { s.arm n with stopLead := none, reported := none }).setMetering n Metering.start).wakeBus

/-- An arm entry of good form is written (R40 steps 2 to 6). -/
def State.writeArm (s : State) (ix : Byte) (reach : Reach) (e : List Byte) : State × TermReply :=
  match armOf ix, (parseArm reach e).filter ArmEntry.valid with
  | some n, some x => s.commit (s.putArm n x) (s.holder n).isSome (s.armMetro n x) (.arm n) 0x06#8
  | _, _ => s.refuse .badValue

/-- The entry of an arm is emptied (R44, R51). -/
def State.emptyArm (s : State) (ix : Byte) : State × TermReply :=
  match armOf ix with
  | none => s.refuse .badValue
  | some n => s.commit (s.clearArm n) (s.holder n).isSome false (.arm n) 0x06#8

/-- TABLE WRITE 06H (R40, R44). A curve count of 0 or above 4 with the length it would give passes the form and fails its range
(log 26). -/
def State.armWrite (s : State) (p : List Byte) : State × TermReply :=
  match p with
  | [] => s.refuse .badFormat
  | ix :: e =>
    if byteAt e 0 = 0xFF#8 then (if e.length = 1 then s.emptyArm ix else s.refuse .badFormat)
    else
      match reachOf (byteAt e 0) with
      | none => s.refuse .badFormat
      | some reach =>
        if 8 ≤ e.length ∧ e.length = 59 + 5 * (byteAt e 7).toNat then s.writeArm ix reach e else s.refuse .badFormat

/-- The 32 bytes of an allowed product set (R44). -/
def allowedBytes (x : BitVec 256) : List Byte := (List.range 32).map fun j => (x >>> (8 * j)).setWidth 8

def ArmEntry.bytes (e : ArmEntry) : List Byte :=
  [e.reach.code, BitVec.ofNat 8 e.meter.val, BitVec.ofNat 8 e.valve.val] ++ beBytes 4 e.km ++
    [BitVec.ofNat 8 e.curve.length] ++ (e.curve.flatMap fun q => beBytes 2 q.1 ++ beBytes 3 q.2) ++ beBytes 3 e.maxPulses ++
    beBytes 2 e.maxFlow ++ beBytes 2 e.startup ++ beBytes 2 e.slowdown ++ beBytes 2 e.leadInitial ++ beBytes 2 e.leadMin ++
    beBytes 2 e.leadMax ++ beBytes 2 e.cutoff ++ beBytes 2 e.leak ++ allowedBytes e.allowed

/-- TABLE READ 06H: the entry and the arm's current stop lead (R44). -/
def State.armRead (s : State) (p : List Byte) : State × TermReply :=
  if p.length ≠ 1 then s.refuse .badFormat
  else
    match armOf (byteAt p 0) with
    | none => s.refuse .badValue
    | some n =>
      match s.armEntry n with
      | none => s.refuse .notFound
      | some e => s.answer (e.bytes ++ beBytes 2 ((s.arm n).stopLead.getD 0))

/-! ### Injector table (R47, R48) -/

def injModeOf (b : Byte) : Option InjMode := if b = 0x00#8 then some .shot else if b = 0x01#8 then some .stream else none

def InjMode.code : InjMode → Byte
  | .shot => 0x00#8
  | .stream => 0x01#8

/-- An outlet map byte: an outlet, FFH for an arm not served, none outside these (R47). -/
def outletOf (b : Byte) : Option (Option Nat) :=
  if b = 0xFF#8 then some none else if b.toNat ≤ 5 then some (some b.toNat) else none

/-- The arms an entry serves. -/
def InjectorEntry.served (e : InjectorEntry) : List Nat := e.outlets.toList.filterMap id

/-- The ranges and conditions of an injector entry (R47). -/
def InjectorEntry.valid (e : InjectorEntry) : Bool :=
  1 ≤ e.shotSize && e.shotSize ≤ 5000 && 1 ≤ e.tolerance && e.tolerance ≤ 20 && 200 ≤ e.shotTimeout && e.shotTimeout ≤ 5000 &&
    1 ≤ e.streamMin && e.streamMin ≤ 50000 && 1 ≤ e.served.length && distinct e.served &&
    (e.mode = .shot || e.served.length = 1)

/-- The outlet map of six bytes, none where one is out of range (R47). -/
def parseOutlets (e : List Byte) : Option (Vector (Option Nat) 6) :=
  match outletOf (byteAt e 3), outletOf (byteAt e 4), outletOf (byteAt e 5), outletOf (byteAt e 6), outletOf (byteAt e 7),
    outletOf (byteAt e 8) with
  | some a, some b, some c, some d, some x, some y => some #v[a, b, c, d, x, y]
  | _, _, _, _, _, _ => none

/-- The injector entry that fourteen bytes give (R47). -/
def parseInjector (mode : InjMode) (e : List Byte) : Option InjectorEntry :=
  (parseOutlets e).map fun m => ⟨mode, fieldAt e 1 2, m, (byteAt e 9).toNat, fieldAt e 10 2, fieldAt e 12 2⟩

/-- A schedule of a batch not yet DONE names the injector (R51). -/
def State.scheduleNames (s : State) (i : DevIx) : Bool :=
  allArms.any fun n => (s.schedules n).any fun c => c.injector = i

/-- The injector entry is in use (R51). -/
def State.injectorUsed (s : State) (i : DevIx) : Bool :=
  s.injectorBusy i || (s.slot i).any (fun x => x.flight.isSome) || s.scheduleNames i

/-- The number of present injector entries (R47). -/
def State.injectorCount (s : State) : Nat := (allDevIx.filter fun i => (s.slot i).isSome).length

/-- An accepted entry is stored for schedules created later (R48). A request that still waits is kept (log 51, the model's choice). -/
def State.putInjector (s : State) (i : DevIx) (e : InjectorEntry) : State :=
  match s.slot i with
  | none => s.setSlot i (some ⟨e, [], none, none, Stream.idle⟩)
  | some x => s.setSlot i (some { x with entry := e })

/-- An injector entry of good form is written (R40 steps 2 to 6). -/
def State.writeInjector (s : State) (ix : Byte) (mode : InjMode) (e : List Byte) : State × TermReply :=
  match devIxOf ix, (parseInjector mode e).filter InjectorEntry.valid with
  | some i, some x =>
    if (s.slot i).isNone ∧ 8 ≤ s.injectorCount then s.refuse .tableFull
    else s.commit (s.putInjector i x) (s.injectorUsed i) false .none 0x07#8
  | _, _ => s.refuse .badValue

/-- The entry is emptied, and with it any posted request (R48). -/
def State.emptyInjector (s : State) (ix : Byte) : State × TermReply :=
  match devIxOf ix with
  | none => s.refuse .badValue
  | some i => s.commit (s.setSlot i none) (s.injectorUsed i) false .none 0x07#8

/-- TABLE WRITE 07H (R40, R47). -/
def State.injectorWrite (s : State) (p : List Byte) : State × TermReply :=
  match p with
  | [] => s.refuse .badFormat
  | ix :: e =>
    if byteAt e 0 = 0xFF#8 then (if e.length = 1 then s.emptyInjector ix else s.refuse .badFormat)
    else
      match injModeOf (byteAt e 0) with
      | none => s.refuse .badFormat
      | some mode => if e.length = 14 then s.writeInjector ix mode e else s.refuse .badFormat

/-- An outlet map byte in TABLE READ (R47). -/
def outletByte : Option Nat → Byte
  | none => 0xFF#8
  | some k => BitVec.ofNat 8 k

def InjectorEntry.bytes (e : InjectorEntry) : List Byte :=
  e.mode.code :: beBytes 2 e.shotSize ++ e.outlets.toList.map outletByte ++ [BitVec.ofNat 8 e.tolerance] ++
    beBytes 2 e.shotTimeout ++ beBytes 2 e.streamMin

/-- TABLE READ 07H (R47). -/
def State.injectorRead (s : State) (p : List Byte) : State × TermReply :=
  if p.length ≠ 1 then s.refuse .badFormat
  else
    match devIxOf (byteAt p 0) with
    | none => s.refuse .badValue
    | some i =>
      match s.slot i with
      | none => s.refuse .notFound
      | some x => s.answer x.entry.bytes

/-! ### TABLE WRITE and TABLE READ by table id (R39, log 27) -/

/-- TABLE WRITE (R39). -/
def State.tableWrite (s : State) (p : List Byte) : State × TermReply :=
  match p with
  | [] => s.refuse .badFormat
  | id :: rest =>
    if id = 0x01#8 then s.deviceWrite rest
    else if id = 0x02#8 then s.scanListWrite rest
    else if id = 0x03#8 then s.passFilterWrite rest
    else if id = 0x04#8 then s.settingsWrite rest
    else if id = 0x05#8 then s.productWrite rest
    else if id = 0x06#8 then s.armWrite rest
    else if id = 0x07#8 then s.injectorWrite rest
    else s.refuse .badValue

/-- TABLE READ (R39). -/
def State.tableRead (s : State) (p : List Byte) : State × TermReply :=
  match p with
  | [] => s.refuse .badFormat
  | id :: rest =>
    if rest.length ≠ 1 then s.refuse .badFormat
    else if id = 0x01#8 then s.deviceRead rest
    else if id = 0x02#8 then s.scanListRead rest
    else if id = 0x03#8 then s.passFilterRead rest
    else if id = 0x04#8 then s.settingsRead rest
    else if id = 0x05#8 then s.productRead rest
    else if id = 0x06#8 then s.armRead rest
    else if id = 0x07#8 then s.injectorRead rest
    else if id = 0x08#8 then s.consistencyRead rest
    else s.refuse .badValue

end Sys2Proof.Machine
end

