-- ==== Sys2Proof/Machine/Port.lean ====
section
/-! DEFINITION. The terminal port's own requests (chapter 11): STATUS READ, NOTICE POLL, NOTICE MASK, BAY MODE, RESTART; and the
two resets. -/

namespace Sys2Proof.Machine

/-! ### STATUS READ (R183, R184) -/

/-- The two bytes of one arm (R184); an arm without entry shows none and absent. -/
def State.armStatus (s : State) (n : Arm) : List Byte :=
  if (s.armEntry n).isNone then [0x00#8, 0xFF#8]
  else [((s.holder n).map fun b => b.state.code).getD 0x00#8, stageByte (s.arm n).reported]

/-- The number of present device entries whose state has a code (R184). -/
def State.deviceCount (s : State) (code : Byte) : Byte :=
  BitVec.ofNat 8 (allDevIx.filter fun i => (s.device i).any fun d => d.state.code = code).length

/-- One bit of a flags byte. -/
def bitIf (b : Bool) (i : Nat) : Byte := if b then 1#8 <<< i else 0#8

/-- The 42 bytes of STATUS READ (R184). -/
def State.status (s : State) : List Byte :=
  [s.port.mode.code, (s.lane .a).state.code, (s.lane .b).state.code] ++ allArms.flatMap s.armStatus ++
    [s.deviceCount 0x00#8, s.deviceCount 0x01#8, s.deviceCount 0x02#8, s.deviceCount 0x03#8,
      BitVec.ofNat 8 s.note.notes.length, BitVec.ofNat 8 s.port.notices.length,
      bitIf s.note.writing.isSome 0 ||| bitIf s.time.timeSet 1 ||| bitIf s.pads.calEnable 2] ++
    beBytes 2 s.port.pendingSet.toNat ++ beBytes 2 s.port.counters.parity ++ beBytes 2 s.port.counters.framing ++
    beBytes 2 s.port.counters.brk ++ beBytes 2 s.port.counters.overrun ++ beBytes 2 s.port.counters.check ++
    beBytes 2 s.scan.counters.framing ++ beBytes 2 s.scan.counters.brk ++ beBytes 2 s.scan.counters.overrun ++
    beBytes 2 s.scan.counters.check

/-- The nine link error counters are set to 0 (R5, R183). -/
def State.clearCounters (s : State) : State :=
  { s with port.counters := ⟨0, 0, 0, 0, 0⟩, scan.counters := ⟨0, 0, 0, 0⟩ }

/-- STATUS READ (R183): the reply shows the state before the clearing. -/
def State.statusRead (s : State) (p : List Byte) : State × TermReply :=
  if p.length ≠ 1 then s.refuse .badFormat
  else
    let s1 : State := { s with port.pendingSet := 0#16 }
    (if flag (byteAt p 0) 0 then s1.clearCounters else s1).answer s.status

/-! ### Notices (R181, R182) -/

/-- The extra bytes of a PASSTHROUGH notice with outcome REPLY (R181). -/
def Notice.extraBytes (x : Notice) : List Byte :=
  match x.extra with
  | none => []
  | some (kind, payload) => kind :: payload

/-- A notice in the form of R181. -/
def Notice.bytes (x : Notice) : List Byte :=
  [BitVec.ofNat 8 x.kind.number, x.subject.code, x.code] ++ x.time.bytes ++ BitVec.ofNat 8 x.extraBytes.length :: x.extraBytes

/-- NOTICE POLL (R181). -/
def State.noticePoll (s : State) (p : List Byte) : State × TermReply :=
  if p ≠ [] then s.refuse .badFormat
  else
    let out := s.port.notices.take 4
    State.answer { s with port.notices := s.port.notices.drop 4 }
      (BitVec.ofNat 8 out.length :: out.flatMap Notice.bytes)

/-- NOTICE MASK (R182): bits 14 and 15 are ignored. -/
def State.noticeMask (s : State) (p : List Byte) : State × TermReply :=
  if p.length ≠ 2 then s.refuse .badFormat
  else State.accept { s with port.mask := BitVec.ofNat 16 (fieldAt p 0 2) &&& 0x3FFF#16 }

/-! ### BAY MODE (R176) -/

/-- The checks before IN SERVICE (R176). -/
def State.enterService (s : State) : State × TermReply :=
  if s.inconsistency.isSome then s.refuse .wrongMode
  else if ¬ s.time.timeSet then s.refuse .timeNotSet
  else (s.setMode .inService).accept

/-- BAY MODE IN SERVICE (R176). -/
def State.modeIn (s : State) : State × TermReply :=
  match s.port.mode with
  | .inService => s.accept
  | .outOfService | .draining => s.enterService

/-- BAY MODE OUT OF SERVICE (R176). -/
def State.modeOut (s : State) : State × TermReply :=
  match s.port.mode with
  | .outOfService | .draining => s.accept
  | .inService =>
    if s.holdsLoad .a || s.holdsLoad .b then (s.setMode .draining).accept else (s.setMode .outOfService).accept

/-- BAY MODE (R176). -/
def State.bayMode (s : State) (p : List Byte) : State × TermReply :=
  if p.length ≠ 1 then s.refuse .badFormat
  else if byteAt p 0 = 0x01#8 then s.modeIn
  else if byteAt p 0 = 0x00#8 then s.modeOut
  else s.refuse .badFormat

/-! ### RESTART (R178) -/

/-- A device entry at RESTART (R38). -/
def Device.restart (d : Device) : Device :=
  { d with state := .unknown, misses := 0, setStage := none, retryHold := false, display := none }

/-- The scanner at RESTART (R13, R38). -/
def Scanner.restart (c : Scanner) : Scanner :=
  { c with
    devices := c.devices.map fun d => d.map Device.restart
    pointer := 0
    wrap := true
    slot := none
    transaction := none
    rx := .empty
    quiet := true
    wake := false }

/-- An arm record at RESTART: the stop lead is kept (R98). -/
def ArmRec.restart (r : ArmRec) : ArmRec := { ArmRec.reset with stopLead := r.stopLead }

/-- The batch controller at RESTART: its tables are kept (R53, R98). -/
def BatchController.restart (b : BatchController) : BatchController :=
  { b with arms := b.arms.map ArmRec.restart, permissive := ⟨false, false⟩ }

/-- An injector's records at RESTART: its table entry is kept (R53, R119). -/
def InjectorSlot.restart (x : InjectorSlot) : InjectorSlot := ⟨x.entry, [], none, none, Stream.idle⟩

/-- The additive scheduler at RESTART (R119). -/
def AdditiveScheduler.restart (a : AdditiveScheduler) : AdditiveScheduler :=
  ⟨a.slots.map fun x => x.map InjectorSlot.restart, Vector.replicate 6 []⟩

/-- What RESTART does to the blocks (R38, R54, R98, R119, R133, R153, R165, R173, R178). A telegram being sent is cut off, with BDE
released at once (log 46). -/
def State.restartBlocks (s : State) : State :=
  { s with
    port.notices := []
    port.pendingSet := 0#16
    scan := s.scan.restart
    pads.bde := false
    meter := Vector.replicate 6 Metering.start
    batch := s.batch.restart
    additive := s.additive.restart
    load := ⟨[], ⟨.reset, .reset⟩⟩ }

/-- RESTART (R178). -/
def State.restartRequest (s : State) (p : List Byte) : State × TermReply :=
  if p ≠ [] then s.refuse .badFormat
  else if s.holdsLoad .a || s.holdsLoad .b then s.refuse .busy
  else ((s.setMode .outOfService).restartBlocks).accept

/-! ### Hard reset (R185) -/

/-- A hard reset: the straps are sampled, the retained words are read again, the rest takes its hard reset values (R160, R164,
R185, log 32). -/
def State.hardReset (s : State) (addr : BitVec 5) (trate brate : BitVec 2) : State :=
  State.afterHardReset addr trate brate s.pads.calEnable s.note.nextNote s.note.calCounter s.free s.pending

end Sys2Proof.Machine
end

