-- ==== Sys2Proof/Machine/Requests.lean ====
section
/-! DEFINITION. Messages on the Terminal Link (R4, R7 to R11): the gate before an owner, the dispatch by kind, the characters of a
message and its judgement. -/

namespace Sys2Proof.Machine

/-- A kind that only a reply carries (R8 step 6). -/
def isReplyKind (kind : Byte) : Bool := kind = 0xA0#8 || kind = 0xA1#8 || kind = 0xA2#8

/-- The owner judges the request and its reply becomes pending; the bus settles at the end of the event (R10, R174, log 12). -/
def State.answered (s : State) (owner : State → State × TermReply) : State :=
  let r := owner s
  (r.1.reply r.2).settle

/-- An intact message at the strapped address, by R8 steps 2, 5 and 8 (log 8): `n` is the length of its payload. A part strapped
to 0 has no unicast address (R14). -/
def State.request (s : State) (n : Nat) (owner : State → State × TermReply) : State :=
  if 240 < n then s.countTermCheck
  else if s.pads.addr = 0#5 then s
  else if s.port.reply.isSome then s
  else s.answered owner

/-- The CAL ENABLE pad shows a level (R50, R184, log 5). -/
def State.withCal (s : State) (cal : Bool) : State := { s with pads.calEnable := cal }

/-- PERMIT READ by its selector (R124). -/
def State.permitRead (s : State) (p : List Byte) : State × TermReply :=
  match p with
  | [] => s.refuse .badFormat
  | sel :: rest =>
    if sel = 0x00#8 then s.permitReadByCard rest
    else if sel = 0x01#8 then s.permitReadByPosition rest
    else s.refuse .badFormat

/-- An accepted message goes to the owner of its kind; an unlisted kind is refused by the port itself (R11). -/
def State.dispatch (kind : Byte) (p : List Byte) (s : State) : State × TermReply :=
  if kind = 0x10#8 then s.statusRead p
  else if kind = 0x11#8 then s.noticePoll p
  else if kind = 0x12#8 then s.noticeMask p
  else if kind = 0x20#8 then s.tableWrite p
  else if kind = 0x21#8 then s.tableRead p
  else if kind = 0x22#8 then s.permitWrite p
  else if kind = 0x23#8 then s.permitDelete p
  else if kind = 0x24#8 then s.permitRead p
  else if kind = 0x30#8 then s.orderPlace p
  else if kind = 0x31#8 then s.orderCancel p
  else if kind = 0x32#8 then s.loadClose p
  else if kind = 0x33#8 then s.batchAbort p
  else if kind = 0x34#8 then s.overrideRequest p
  else if kind = 0x40#8 then s.noteTake p
  else if kind = 0x41#8 then s.noteRelease p
  else if kind = 0x50#8 then s.timeSet p
  else if kind = 0x51#8 then s.timeRead p
  else if kind = 0x60#8 then s.bayMode p
  else if kind = 0x61#8 then s.restartRequest p
  else if kind = 0x70#8 then s.passthroughRequest p
  else s.refuse .badFormat

/-- A message of any kind at the strapped address (R8 steps 2 and 5 to 8, R11). -/
def State.anyRequest (s : State) (kind : Byte) (p : List Byte) : State :=
  if 240 < p.length then s.countTermCheck
  else if isReplyKind kind then s
  else s.request p.length (State.dispatch kind p)

/-- A broadcast TIME SET (R8 step 8, R170): no reply; one that ends while a reply is pending is discarded. -/
def State.broadcastSet (s : State) (p : List Byte) : State :=
  if 240 < p.length then s.countTermCheck
  else if s.port.reply.isSome then s
  else s.timeBroadcast p

/-! ### Characters of a message (R3, R4, R8) -/

/-- A character error is counted and breaks the message (R5, R8 step 1). -/
def State.noteTermError (s : State) (e : CharError) : State :=
  { s with port.counters := s.port.counters.countError e, port.rx.broken := true }

/-- The frame logic takes a character: past the 245th it is counted and not stored (R8). A break taken first after a gap begins the
message that it breaks (log 43). -/
def State.takeTermChar (s : State) (c : TermChar) : State :=
  let s1 : State := if TermChar.error c = CharError.none then s else s.noteTermError (TermChar.error c)
  { s1 with
    port.rx.buffer := if s.port.rx.buffer.length < 245 then s.port.rx.buffer ++ [c.data] else s.port.rx.buffer
    port.rx.count := s.port.rx.count + 1 }

/-- The held character is taken (R4). -/
def State.takeTermHeld (s : State) : State :=
  match s.port.rx.held with
  | none => s
  | some c => State.takeTermChar { s with port.rx.held := none } c

/-- A character is lost to an occupied held stage: the message it belongs to is broken (R4, R5). -/
def State.termOverrun (s : State) : State :=
  { s with port.counters.overrun := satInc s.port.counters.overrun, port.rx.broken := true }

/-- The receiver is gated off while TDE is asserted (R1). A character marked `early` completes in the answer time, before the
pending reply's first start bit, and is not (R9, log 6). -/
def State.gatesOff (s : State) (c : TermChar) : Bool := s.pads.tde && !(s.port.reply.isSome && c.early)

/-- A character completes on the Terminal Link: gated off (R1), held while the buffer cannot accept it, lost to an occupied held
stage, else taken (R4). A break passes into the held stage as any character does (log 42), and a lost character counts as
overrun alone, whatever error it carries (log 44). -/
def State.termChar (s : State) (c : TermChar) : State :=
  if s.gatesOff c then s
  else if c.blocked then
    (if s.port.rx.held.isSome then s.termOverrun else { s with port.rx.held := some c })
  else s.takeTermHeld.takeTermChar c

/-- The receive buffer is free for the next message (R4, R9). -/
def State.freeRx (s : State) : State :=
  { s with port.rx.buffer := [], port.rx.count := 0, port.rx.broken := false }

/-- An intact message by its address (R8 steps 5 to 9): bytes are address, kind, length, payload, check. -/
def State.addressed (s : State) (bs : List Byte) : State :=
  let kind := byteAt bs 1
  let p := (bs.drop 3).take (bs.length - 5)
  if byteAt bs 0 = 0x00#8 then (if kind = 0x50#8 then s.broadcastSet p else s)
  else if byteAt bs 0 = s.pads.addr.setWidth 8 then s.anyRequest kind p
  else s

/-- The end of a message (R8): its judgement, steps 1 to 4 here. -/
def State.messageEnd (s : State) : State :=
  let rx := s.port.rx
  let s1 := s.freeRx
  if rx.broken then s1
  else if rx.count = 0 then s1
  else if rx.count < 5 ∨ 245 < rx.count then s1.countTermCheck
  else if crc rx.buffer ≠ 0#16 then s1.countTermCheck
  else if (byteAt rx.buffer 2).toNat ≠ rx.count - 5 then s1.countTermCheck
  else s1.addressed rx.buffer

/-- A message arrives as characters and ends by its gap (R7, R8, log 9). -/
def State.message (s : State) (chars : List TermChar) : State :=
  (chars.foldl State.termChar s).takeTermHeld.messageEnd

/-- The last stop bit of a reply has been sent (R9). -/
def State.replySent (s : State) : State := { s with port.reply := none, pads.tde := false }

end Sys2Proof.Machine
end

