-- ==== Sys2Proof/Machine/BayCommands.lean ====
section
/-! DEFINITION. Permits, orders, loads, notes and time: one meaning per terminal request. -/

namespace Sys2Proof.Machine

/-- PERMIT_WRITE (R121, R122). -/
def execPermitWrite (payload : List Byte) (s : State) : Host.Outcome State Fault Refusal :=
  .next (s.request payload.length fun s => s.permitWrite payload)

/-- PERMIT_DELETE (R123). -/
def execPermitDelete (payload : List Byte) (s : State) : Host.Outcome State Fault Refusal :=
  .next (s.request payload.length fun s => s.permitDelete payload)

/-- PERMIT_READ_BY_CARD: PERMIT READ with selector 00H (R124). -/
def execPermitReadByCard (rest : List Byte) (s : State) : Host.Outcome State Fault Refusal :=
  .next (s.request (1 + rest.length) fun s => s.permitReadByCard rest)

/-- PERMIT_READ_BY_POSITION: PERMIT READ with selector 01H (R124). -/
def execPermitReadByPosition (rest : List Byte) (s : State) : Host.Outcome State Fault Refusal :=
  .next (s.request (1 + rest.length) fun s => s.permitReadByPosition rest)

/-- ORDER_PLACE (R134). -/
def execOrderPlace (payload : List Byte) (s : State) : Host.Outcome State Fault Refusal :=
  .next (s.request payload.length fun s => s.orderPlace payload)

/-- ORDER_CANCEL (R135). -/
def execOrderCancel (payload : List Byte) (s : State) : Host.Outcome State Fault Refusal :=
  .next (s.request payload.length fun s => s.orderCancel payload)

/-- LOAD_CLOSE (R145). -/
def execLoadClose (payload : List Byte) (s : State) : Host.Outcome State Fault Refusal :=
  .next (s.request payload.length fun s => s.loadClose payload)

/-- BATCH_ABORT (R94). -/
def execBatchAbort (payload : List Byte) (s : State) : Host.Outcome State Fault Refusal :=
  .next (s.request payload.length fun s => s.batchAbort payload)

/-- OVERRIDE (R150, R151). -/
def execOverride (payload : List Byte) (s : State) : Host.Outcome State Fault Refusal :=
  .next (s.request payload.length fun s => s.overrideRequest payload)

/-- NOTE_TAKE (R158). -/
def execNoteTake (payload : List Byte) (s : State) : Host.Outcome State Fault Refusal :=
  .next (s.request payload.length fun s => s.noteTake payload)

/-- NOTE_RELEASE (R159). -/
def execNoteRelease (payload : List Byte) (s : State) : Host.Outcome State Fault Refusal :=
  .next (s.request payload.length fun s => s.noteRelease payload)

/-- TIME_SET (R169). -/
def execTimeSet (payload : List Byte) (s : State) : Host.Outcome State Fault Refusal :=
  .next (s.request payload.length fun s => s.timeSet payload)

/-- TIME_SET_BROADCAST (R170). -/
def execTimeSetBroadcast (payload : List Byte) (s : State) : Host.Outcome State Fault Refusal :=
  .next (s.broadcastSet payload)

/-- TIME_READ (R171). -/
def execTimeRead (payload : List Byte) (s : State) : Host.Outcome State Fault Refusal :=
  .next (s.request payload.length fun s => s.timeRead payload)

end Sys2Proof.Machine
end

