-- ==== Sys2Proof/Machine/BusCommands.lean ====
section
/-! DEFINITION. The Bay Bus: telegram, timeout, replies and characters, one meaning per command. -/

namespace Sys2Proof.Machine

/-- PASSTHROUGH (R36). -/
def execPassthrough (payload : List Byte) (s : State) : Host.Outcome State Fault Refusal :=
  .next (s.request payload.length fun s => s.passthroughRequest payload)

/-- TELEGRAM_SENT (R12). -/
def execTelegramSent (s : State) : Host.Outcome State Fault Refusal :=
  .next s.telegramSent

/-- RESPONSE_TIMEOUT (R22, R27). -/
def execResponseTimeout (s : State) : Host.Outcome State Fault Refusal :=
  .next s.responseExpires.settle

/-- RESTART_QUIET_END (R38). -/
def execRestartQuietEnd (s : State) : Host.Outcome State Fault Refusal :=
  .next s.quietEnds.settle

/-- UNACCEPTED_REPLY: a valid reply of any kind, which R28 judges (R13, R28). -/
def execUnacceptedReply (reply : DeviceReply) (s : State) : Host.Outcome State Fault Refusal :=
  .next (s.deliverReply reply).settle

/-- METER_SAMPLE (R13, R33, R56). -/
def execMeterSample (pulses : BitVec 32) (interval temperature : BitVec 16) (flags : Byte) (s : State) :
    Host.Outcome State Fault Refusal :=
  .next (s.deliverReply (.meterSample pulses interval temperature flags)).settle

/-- VALVE_STATE (R13, R33, R91). -/
def execValveState (stage flags : Byte) (s : State) : Host.Outcome State Fault Refusal :=
  .next (s.deliverReply (.valveState stage flags)).settle

/-- SHOT_REPORT (R13, R33, R105). -/
def execShotReport (outlet : Byte) (dose : BitVec 16) (status : Byte) (s : State) : Host.Outcome State Fault Refusal :=
  .next (s.deliverReply (.shotReport outlet dose status)).settle

/-- INJECTOR_STATE (R13, R33, R106, R112, R113). -/
def execInjectorState (state : Byte) (dose : BitVec 32) (flags : Byte) (s : State) : Host.Outcome State Fault Refusal :=
  .next (s.deliverReply (.injectorState state dose flags)).settle

/-- PERMISSIVE_STATE (R13, R33, R77). -/
def execPermissiveState (flags : Byte) (s : State) : Host.Outcome State Fault Refusal :=
  .next (s.deliverReply (.permissiveState flags)).settle

/-- DIAGNOSTIC_REPLY (R13, R37). -/
def execDiagnosticReply (kind : Byte) (payload : List Byte) (s : State) : Host.Outcome State Fault Refusal :=
  .next (s.deliverReply (.diagnostic kind payload)).settle

/-- STATION_EVENT_LIST (R13, R33, R34). -/
def execStationEventList (events : List StationEvent) (s : State) : Host.Outcome State Fault Refusal :=
  .next (s.deliverReply (.stationEvents events)).settle

/-- BAY_BUS_CHARACTER (R3, R4, R13). -/
def execBusCharacter (char : BusChar) (s : State) : Host.Outcome State Fault Refusal :=
  .next (s.busChar char).settle

end Sys2Proof.Machine
end

