-- ==== Sys2Proof/Machine/TableCommands.lean ====
section
/-! DEFINITION. TABLE WRITE and TABLE READ of every table: one meaning per command. -/

namespace Sys2Proof.Machine

/-- TABLE_WRITE_DEVICE: TABLE WRITE 01H (R19, R20). -/
def execTableWriteDevice (rest : List Byte) (s : State) : Host.Outcome State Fault Refusal :=
  .next (s.request (1 + rest.length) fun s => s.deviceWrite rest)

/-- TABLE_WRITE_SCAN_LIST: TABLE WRITE 02H (R25). -/
def execTableWriteScanList (rest : List Byte) (s : State) : Host.Outcome State Fault Refusal :=
  .next (s.request (1 + rest.length) fun s => s.scanListWrite rest)

/-- TABLE_WRITE_PASS_FILTER: TABLE WRITE 03H (R35). -/
def execTableWritePassFilter (rest : List Byte) (s : State) : Host.Outcome State Fault Refusal :=
  .next (s.request (1 + rest.length) fun s => s.passFilterWrite rest)

/-- TABLE_WRITE_BAY_SETTINGS: TABLE WRITE 04H (R40, R41). -/
def execTableWriteBaySettings (cal : Bool) (rest : List Byte) (s : State) : Host.Outcome State Fault Refusal :=
  .next ((s.withCal cal).request (1 + rest.length) fun s => s.settingsWrite rest)

/-- TABLE_WRITE_PRODUCT: TABLE WRITE 05H (R40, R42). -/
def execTableWriteProduct (cal : Bool) (rest : List Byte) (s : State) : Host.Outcome State Fault Refusal :=
  .next ((s.withCal cal).request (1 + rest.length) fun s => s.productWrite rest)

/-- TABLE_WRITE_ARM: TABLE WRITE 06H (R40, R44, R46). -/
def execTableWriteArm (cal : Bool) (rest : List Byte) (s : State) : Host.Outcome State Fault Refusal :=
  .next ((s.withCal cal).request (1 + rest.length) fun s => s.armWrite rest)

/-- TABLE_WRITE_INJECTOR: TABLE WRITE 07H (R40, R47, R48). -/
def execTableWriteInjector (rest : List Byte) (s : State) : Host.Outcome State Fault Refusal :=
  .next (s.request (1 + rest.length) fun s => s.injectorWrite rest)

/-- DEVICE_ENTRY_EMPTY: TABLE WRITE 01H with address 00H (R19, R20). -/
def execDeviceEntryEmpty (index : Byte) (rest : List Byte) (s : State) : Host.Outcome State Fault Refusal :=
  .next (s.request (3 + rest.length) fun s => s.deviceWrite (index :: 0x00#8 :: rest))

/-- PRODUCT_EMPTY: TABLE WRITE 05H with class byte FFH (R42). -/
def execProductEmpty (code : Byte) (rest : List Byte) (s : State) : Host.Outcome State Fault Refusal :=
  .next (s.request (3 + rest.length) fun s => s.productWrite (code :: 0xFF#8 :: rest))

/-- ARM_EMPTY: TABLE WRITE 06H with byte 0 FFH (R44, R46). -/
def execArmEmpty (arm : Byte) (rest : List Byte) (s : State) : Host.Outcome State Fault Refusal :=
  .next (s.request (3 + rest.length) fun s => s.armWrite (arm :: 0xFF#8 :: rest))

/-- INJECTOR_EMPTY: TABLE WRITE 07H with mode byte FFH (R47, R48). -/
def execInjectorEmpty (index : Byte) (rest : List Byte) (s : State) : Host.Outcome State Fault Refusal :=
  .next (s.request (3 + rest.length) fun s => s.injectorWrite (index :: 0xFF#8 :: rest))

/-- TABLE_READ_DEVICE: TABLE READ 01H (R18). -/
def execTableReadDevice (rest : List Byte) (s : State) : Host.Outcome State Fault Refusal :=
  .next (s.request (1 + rest.length) fun s => s.deviceRead rest)

/-- TABLE_READ_SCAN_LIST: TABLE READ 02H (R25). -/
def execTableReadScanList (rest : List Byte) (s : State) : Host.Outcome State Fault Refusal :=
  .next (s.request (1 + rest.length) fun s => s.scanListRead rest)

/-- TABLE_READ_PASS_FILTER: TABLE READ 03H (R35). -/
def execTableReadPassFilter (rest : List Byte) (s : State) : Host.Outcome State Fault Refusal :=
  .next (s.request (1 + rest.length) fun s => s.passFilterRead rest)

/-- TABLE_READ_BAY_SETTINGS: TABLE READ 04H (R39, R41). -/
def execTableReadBaySettings (rest : List Byte) (s : State) : Host.Outcome State Fault Refusal :=
  .next (s.request (1 + rest.length) fun s => s.settingsRead rest)

/-- TABLE_READ_PRODUCT: TABLE READ 05H (R39, R42). -/
def execTableReadProduct (rest : List Byte) (s : State) : Host.Outcome State Fault Refusal :=
  .next (s.request (1 + rest.length) fun s => s.productRead rest)

/-- TABLE_READ_ARM: TABLE READ 06H (R39, R44). -/
def execTableReadArm (rest : List Byte) (s : State) : Host.Outcome State Fault Refusal :=
  .next (s.request (1 + rest.length) fun s => s.armRead rest)

/-- TABLE_READ_INJECTOR: TABLE READ 07H (R39, R47). -/
def execTableReadInjector (rest : List Byte) (s : State) : Host.Outcome State Fault Refusal :=
  .next (s.request (1 + rest.length) fun s => s.injectorRead rest)

/-- CONSISTENCY_REPORT: TABLE READ 08H (R52). -/
def execConsistencyReport (rest : List Byte) (s : State) : Host.Outcome State Fault Refusal :=
  .next (s.request (1 + rest.length) fun s => s.consistencyRead rest)

end Sys2Proof.Machine
end

