-- ==== Sys2Proof/Machine/Terminal.lean ====
section
/-! DEFINITION. The resets, the frames of the Terminal Link and the terminal port's own requests: one meaning per command. -/

namespace Sys2Proof.Machine

/-- HARD_RESET (R185). -/
def execHardReset (addr : BitVec 5) (trate brate : BitVec 2) (s : State) : Host.Outcome State Fault Refusal :=
  .next (s.hardReset addr trate brate)

/-- MESSAGE_DISCARDED: the characters of a message that ends by its gap (R3, R4, R7, R8, log 9). -/
def execMessageDiscarded (chars : List TermChar) (s : State) : Host.Outcome State Fault Refusal :=
  .next (s.message chars)

/-- UNKNOWN_KIND: a message of any kind at the strapped address (R11, log 9). -/
def execUnknownKind (kind : Byte) (payload : List Byte) (s : State) : Host.Outcome State Fault Refusal :=
  .next (s.anyRequest kind payload)

/-- REPLY_SENT (R9). -/
def execReplySent (s : State) : Host.Outcome State Fault Refusal :=
  .next s.replySent

/-- STATUS_READ (R183, R184). -/
def execStatusRead (cal : Bool) (payload : List Byte) (s : State) : Host.Outcome State Fault Refusal :=
  .next ((s.withCal cal).request payload.length fun s => s.statusRead payload)

/-- NOTICE_POLL (R181). -/
def execNoticePoll (payload : List Byte) (s : State) : Host.Outcome State Fault Refusal :=
  .next (s.request payload.length fun s => s.noticePoll payload)

/-- NOTICE_MASK (R182). -/
def execNoticeMask (payload : List Byte) (s : State) : Host.Outcome State Fault Refusal :=
  .next (s.request payload.length fun s => s.noticeMask payload)

/-- BAY_MODE_IN_SERVICE: BAY MODE with mode byte 01H (R176). -/
def execBayModeInService (rest : List Byte) (s : State) : Host.Outcome State Fault Refusal :=
  .next (s.request (1 + rest.length) fun s => s.bayMode (0x01#8 :: rest))

/-- BAY_MODE_OUT_OF_SERVICE: BAY MODE with mode byte 00H (R176). -/
def execBayModeOutOfService (rest : List Byte) (s : State) : Host.Outcome State Fault Refusal :=
  .next (s.request (1 + rest.length) fun s => s.bayMode (0x00#8 :: rest))

/-- RESTART (R178). -/
def execRestart (payload : List Byte) (s : State) : Host.Outcome State Fault Refusal :=
  .next (s.request payload.length fun s => s.restartRequest payload)

end Sys2Proof.Machine
end

