-- ==== Sys2Proof/Machine/TimerCommands.lean ====
section
/-! DEFINITION. The part's own timers, the store's completions and the second tick: one meaning per command. -/

namespace Sys2Proof.Machine

/-- PENDING_START_LAPSE (R81). -/
def execPendingStartLapse (arm : Arm) (lane : Lane) (s : State) : Host.Outcome State Fault Refusal :=
  .next (s.pendingLapse arm lane).settle

/-- NO_FLOW_TIMEOUT (R86). -/
def execNoFlowTimeout (arm : Arm) (s : State) : Host.Outcome State Fault Refusal :=
  .next (s.noFlowExpires arm).settle

/-- STOP_TIMEOUT (R90). -/
def execStopTimeout (arm : Arm) (s : State) : Host.Outcome State Fault Refusal :=
  .next (s.stopExpires arm).settle

/-- TRAVEL_TIMER_EXPIRY (R91). -/
def execTravelTimerExpiry (arm : Arm) (s : State) : Host.Outcome State Fault Refusal :=
  .next (s.travelExpires arm)

/-- SHOT_TIMEOUT (R106, R109). -/
def execShotTimeout (injector : DevIx) (s : State) : Host.Outcome State Fault Refusal :=
  .next (s.shotExpires injector).settle

/-- CANDIDATE_EXPIRY (R142, R148). -/
def execCandidateExpiry (lane : Lane) (s : State) : Host.Outcome State Fault Refusal :=
  .next (s.candidateExpires lane)

/-- OVERRIDE_DEADLINE (R152). -/
def execOverrideDeadline (lane : Lane) (s : State) : Host.Outcome State Fault Refusal :=
  .next (s.overrideExpires lane).settle

/-- A write of the store completes when the one in progress is a note-number write (R157, R161, R162). -/
def State.noteWriteDone (s : State) : State :=
  match s.note.writing with
  | some ⟨.note l, n⟩ => (State.noteQueued { s with note := s.note.storeWord ⟨.note l, n⟩ } l n).startNextWrite
  | some ⟨.calibration _, _⟩ => s
  | none => s

/-- A write of the store completes when the one in progress is a calibration write (R161, R163). -/
def State.calibrationWriteDone (s : State) : State :=
  match s.note.writing with
  | some ⟨.calibration k, n⟩ => State.startNextWrite { s with note := s.note.storeWord ⟨.calibration k, n⟩ }
  | some ⟨.note _, _⟩ => s
  | none => s

/-- NOTE_NUMBER_WRITE_DONE (R157). -/
def execNoteNumberWriteDone (s : State) : Host.Outcome State Fault Refusal :=
  .next s.noteWriteDone.settle

/-- CALIBRATION_WRITE_DONE (R163). -/
def execCalibrationWriteDone (s : State) : Host.Outcome State Fault Refusal :=
  .next s.calibrationWriteDone

/-- SECOND_TICK (R167). -/
def execSecondTick (s : State) : Host.Outcome State Fault Refusal :=
  .next s.tick

end Sys2Proof.Machine
end

