-- ==== Sys2Proof/Machine/Dispatch.lean ====
section
/-! DEFINITION. One arm per command: each a direct call of the command's meaning. -/

namespace Sys2Proof.Machine

/-- A command's effect on everything but the queue. -/
def exec (i : Instr) (s : State) : Host.Outcome State Fault Refusal :=
  match i with
  | .hardReset addr trate brate => Sys2Proof.Machine.execHardReset addr trate brate s
  | .messageDiscarded chars => Sys2Proof.Machine.execMessageDiscarded chars s
  | .unknownKind kind payload => Sys2Proof.Machine.execUnknownKind kind payload s
  | .replySent => Sys2Proof.Machine.execReplySent s
  | .statusRead cal payload => Sys2Proof.Machine.execStatusRead cal payload s
  | .noticePoll payload => Sys2Proof.Machine.execNoticePoll payload s
  | .noticeMask payload => Sys2Proof.Machine.execNoticeMask payload s
  | .tableWriteDevice rest => Sys2Proof.Machine.execTableWriteDevice rest s
  | .deviceEntryEmpty index rest => Sys2Proof.Machine.execDeviceEntryEmpty index rest s
  | .tableWriteScanList rest => Sys2Proof.Machine.execTableWriteScanList rest s
  | .tableWritePassFilter rest => Sys2Proof.Machine.execTableWritePassFilter rest s
  | .tableWriteBaySettings cal rest => Sys2Proof.Machine.execTableWriteBaySettings cal rest s
  | .tableWriteProduct cal rest => Sys2Proof.Machine.execTableWriteProduct cal rest s
  | .productEmpty code rest => Sys2Proof.Machine.execProductEmpty code rest s
  | .tableWriteArm cal rest => Sys2Proof.Machine.execTableWriteArm cal rest s
  | .armEmpty arm rest => Sys2Proof.Machine.execArmEmpty arm rest s
  | .tableWriteInjector rest => Sys2Proof.Machine.execTableWriteInjector rest s
  | .injectorEmpty index rest => Sys2Proof.Machine.execInjectorEmpty index rest s
  | .tableReadDevice rest => Sys2Proof.Machine.execTableReadDevice rest s
  | .tableReadScanList rest => Sys2Proof.Machine.execTableReadScanList rest s
  | .tableReadPassFilter rest => Sys2Proof.Machine.execTableReadPassFilter rest s
  | .tableReadBaySettings rest => Sys2Proof.Machine.execTableReadBaySettings rest s
  | .tableReadProduct rest => Sys2Proof.Machine.execTableReadProduct rest s
  | .tableReadArm rest => Sys2Proof.Machine.execTableReadArm rest s
  | .tableReadInjector rest => Sys2Proof.Machine.execTableReadInjector rest s
  | .consistencyReport rest => Sys2Proof.Machine.execConsistencyReport rest s
  | .permitWrite payload => Sys2Proof.Machine.execPermitWrite payload s
  | .permitDelete payload => Sys2Proof.Machine.execPermitDelete payload s
  | .permitReadByCard rest => Sys2Proof.Machine.execPermitReadByCard rest s
  | .permitReadByPosition rest => Sys2Proof.Machine.execPermitReadByPosition rest s
  | .orderPlace payload => Sys2Proof.Machine.execOrderPlace payload s
  | .orderCancel payload => Sys2Proof.Machine.execOrderCancel payload s
  | .loadClose payload => Sys2Proof.Machine.execLoadClose payload s
  | .batchAbort payload => Sys2Proof.Machine.execBatchAbort payload s
  | .override payload => Sys2Proof.Machine.execOverride payload s
  | .noteTake payload => Sys2Proof.Machine.execNoteTake payload s
  | .noteRelease payload => Sys2Proof.Machine.execNoteRelease payload s
  | .timeSet payload => Sys2Proof.Machine.execTimeSet payload s
  | .timeSetBroadcast payload => Sys2Proof.Machine.execTimeSetBroadcast payload s
  | .timeRead payload => Sys2Proof.Machine.execTimeRead payload s
  | .bayModeInService rest => Sys2Proof.Machine.execBayModeInService rest s
  | .bayModeOutOfService rest => Sys2Proof.Machine.execBayModeOutOfService rest s
  | .restart payload => Sys2Proof.Machine.execRestart payload s
  | .passthrough payload => Sys2Proof.Machine.execPassthrough payload s
  | .telegramSent => Sys2Proof.Machine.execTelegramSent s
  | .responseTimeout => Sys2Proof.Machine.execResponseTimeout s
  | .restartQuietEnd => Sys2Proof.Machine.execRestartQuietEnd s
  | .unacceptedReply reply => Sys2Proof.Machine.execUnacceptedReply reply s
  | .meterSample pulses interval temperature flags => Sys2Proof.Machine.execMeterSample pulses interval temperature flags s
  | .valveState stage flags => Sys2Proof.Machine.execValveState stage flags s
  | .shotReport outlet dose status => Sys2Proof.Machine.execShotReport outlet dose status s
  | .injectorState state dose flags => Sys2Proof.Machine.execInjectorState state dose flags s
  | .permissiveState flags => Sys2Proof.Machine.execPermissiveState flags s
  | .diagnosticReply kind payload => Sys2Proof.Machine.execDiagnosticReply kind payload s
  | .stationEventList events => Sys2Proof.Machine.execStationEventList events s
  | .pendingStartLapse arm lane => Sys2Proof.Machine.execPendingStartLapse arm lane s
  | .noFlowTimeout arm => Sys2Proof.Machine.execNoFlowTimeout arm s
  | .stopTimeout arm => Sys2Proof.Machine.execStopTimeout arm s
  | .travelTimerExpiry arm => Sys2Proof.Machine.execTravelTimerExpiry arm s
  | .shotTimeout injector => Sys2Proof.Machine.execShotTimeout injector s
  | .candidateExpiry lane => Sys2Proof.Machine.execCandidateExpiry lane s
  | .overrideDeadline lane => Sys2Proof.Machine.execOverrideDeadline lane s
  | .noteNumberWriteDone => Sys2Proof.Machine.execNoteNumberWriteDone s
  | .calibrationWriteDone => Sys2Proof.Machine.execCalibrationWriteDone s
  | .secondTick => Sys2Proof.Machine.execSecondTick s
  | .busCharacter char => Sys2Proof.Machine.execBusCharacter char s

end Sys2Proof.Machine
end

