-- ==== Sys2Proof/WellFormed.lean ====
section
/-! DEFINITION. Which commands can stand on the lines: the payload bounds of R8 and R13 and the reply layouts of R15. exec
gives every command a meaning, the ill-formed ones too (a message over 245 bytes and a misfitting reply are judged as the
spec judges them). -/

namespace Sys2Proof

/-- A message's payload is 0..240 bytes (section 1.4); `k` counts the payload bytes that the row fixes. -/
def payloadFits (k : Nat) (p : List Byte) : Bool := k + p.length ≤ 240

/-- The command is one that its line can carry. -/
def Instr.wf : Instr → Bool
  | .hardReset _ _ _ | .replySent | .telegramSent | .responseTimeout | .restartQuietEnd => true
  | .messageDiscarded chars => !chars.isEmpty
  | .unknownKind _ p => payloadFits 0 p
  | .statusRead _ p | .noticePoll p | .noticeMask p => payloadFits 0 p
  | .tableWriteDevice p | .tableWriteScanList p | .tableWritePassFilter p | .tableWriteInjector p => payloadFits 1 p
  | .tableWriteBaySettings _ p | .tableWriteProduct _ p | .tableWriteArm _ p => payloadFits 1 p
  | .deviceEntryEmpty _ p | .productEmpty _ p | .armEmpty _ p | .injectorEmpty _ p => payloadFits 3 p
  | .tableReadDevice p | .tableReadScanList p | .tableReadPassFilter p | .tableReadBaySettings p => payloadFits 1 p
  | .tableReadProduct p | .tableReadArm p | .tableReadInjector p | .consistencyReport p => payloadFits 1 p
  | .permitWrite p | .permitDelete p => payloadFits 0 p
  | .permitReadByCard p | .permitReadByPosition p => payloadFits 1 p
  | .orderPlace p | .orderCancel p | .loadClose p | .batchAbort p | .override p => payloadFits 0 p
  | .noteTake p | .noteRelease p | .timeSet p | .timeSetBroadcast p | .timeRead p => payloadFits 0 p
  | .bayModeInService p | .bayModeOutOfService p => payloadFits 1 p
  | .restart p | .passthrough p => payloadFits 0 p
  | .unacceptedReply r => Machine.replyFits r
  | .meterSample _ _ _ _ => true
  | .valveState stage flags => Machine.replyFits (.valveState stage flags)
  | .shotReport outlet dose status => Machine.replyFits (.shotReport outlet dose status)
  | .injectorState state dose flags => Machine.replyFits (.injectorState state dose flags)
  | .permissiveState _ => true
  | .diagnosticReply kind payload => Machine.replyFits (.diagnostic kind payload)
  | .stationEventList events => Machine.replyFits (.stationEvents events)
  | .pendingStartLapse _ _ | .noFlowTimeout _ | .stopTimeout _ | .travelTimerExpiry _ | .shotTimeout _ => true
  | .candidateExpiry _ | .overrideDeadline _ | .noteNumberWriteDone | .calibrationWriteDone | .secondTick => true
  | .busCharacter _ => true

end Sys2Proof
end

