-- ==== Sys2Proof/Safety.lean ====
section
/-! DEFINITION. What claims about the part are said in: when a request reaches its owner, and what a state must
satisfy to be safe. -/

namespace Sys2Proof.Machine

/-! ### Requests that reach their owner -/

/-- An intact message with `n` payload bytes at the strapped address is accepted (R8 steps 2, 5 and 8, R14). -/
def State.Reaches (s : State) (n : Nat) : Prop := n ≤ 240 ∧ s.pads.addr ≠ 0#5 ∧ s.port.reply = none

/-- No work for the bus has been left over from an earlier event: the model's own mark is clear (log 36). -/
def State.Settled (s : State) : Prop := s.scan.wake = false

/-- The state in which a reply is pending and the driver enable is taken as asserted, all else as it was (R9, R10, log 6). -/
def State.shows (s : State) (r : TermReply) : State :=
  { s with port := { s.port with reply := some r }, pads := { s.pads with tde := true } }

/-- The length of the payload of a command that is an intact terminal request at the strapped address. -/
def requestLength : Instr → Option Nat
  | .unknownKind _ p | .statusRead _ p | .noticePoll p | .noticeMask p => some p.length
  | .tableWriteDevice p | .tableWriteScanList p | .tableWritePassFilter p | .tableWriteInjector p => some (1 + p.length)
  | .tableWriteBaySettings _ p | .tableWriteProduct _ p | .tableWriteArm _ p => some (1 + p.length)
  | .deviceEntryEmpty _ p | .productEmpty _ p | .armEmpty _ p | .injectorEmpty _ p => some (3 + p.length)
  | .tableReadDevice p | .tableReadScanList p | .tableReadPassFilter p | .tableReadBaySettings p => some (1 + p.length)
  | .tableReadProduct p | .tableReadArm p | .tableReadInjector p | .consistencyReport p => some (1 + p.length)
  | .permitWrite p | .permitDelete p | .orderPlace p | .orderCancel p | .loadClose p | .batchAbort p => some p.length
  | .permitReadByCard p | .permitReadByPosition p | .bayModeInService p | .bayModeOutOfService p => some (1 + p.length)
  | .override p | .noteTake p | .noteRelease p | .timeSet p | .timeRead p | .restart p | .passthrough p => some p.length
  | _ => none

/-- The CAL ENABLE level a command shows (log 5). -/
def calLevel : Instr → Option Bool
  | .statusRead cal _ | .tableWriteBaySettings cal _ | .tableWriteProduct cal _ | .tableWriteArm cal _ => some cal
  | _ => none

/-! ### Replies on the Bay Bus -/

/-- A transaction waits for its reply: telegram sent, the entry not written meanwhile, no character of a reply taken and none
held, the device present (R12, R13, R20). -/
def State.AwaitsReply (s : State) (t : Transaction) (d : Device) : Prop :=
  s.scan.transaction = some t ∧ t.sent = true ∧ t.written = false ∧ s.scan.rx = ⟨[], false, none⟩ ∧
    s.device t.device = some d

/-- The same for a device in state ONLINE polled or asked at steps 1 to 4 of the arbiter (R21, R29). -/
def State.AwaitsOnline (s : State) (t : Transaction) (d : Device) : Prop :=
  s.AwaitsReply t d ∧ t.step ≠ .passthrough ∧ d.state = .online

/-- The state in which the bus has fallen free after a valid reply, fault flag clear, of an ONLINE device polled or asked at step 3
or 4: no transaction, every retry hold clear, the device's miss count 0 (R21, R27, R30). -/
def State.polled (s : State) (i : DevIx) (d : Device) : State :=
  { s with
    scan := { s.scan with
      devices := (s.scan.devices.map fun e => e.map fun e => { e with retryHold := false }).set i
        (some { d with retryHold := false, misses := 0 })
      transaction := none
      wake := true }
    pads := { s.pads with bde := false } }

/-- The state in which the bus has fallen free after a transaction at a step: the retry holds go unless the step was 1 or 2 (R27,
R30). -/
def State.freed (s : State) (step : PickStep) : State :=
  { s with
    scan := { s.scan with
      devices := if step = .urgentClose ∨ step = .valve then s.scan.devices
        else s.scan.devices.map fun e => e.map fun e => { e with retryHold := false }
      transaction := none
      rx := { s.scan.rx with buffer := [], broken := false }
      wake := true }
    pads := { s.pads with bde := false } }

/-! ### Reset -/

/-- The values the chapters give for hard reset, but for the straps, the CAL ENABLE level and the retained words (R11, R38, R53,
R54, R98, R119, R133, R153, R165, R173, R185). -/
def State.AtHardReset (s : State) : Prop :=
  (s.port.mode = .outOfService ∧ s.pads.run = false ∧ s.pads.tde = false ∧ s.pads.bde = false) ∧
  (s.port.rx = ⟨[], 0, false, none⟩ ∧ s.port.reply = none ∧ s.port.notices = [] ∧ s.port.mask = 0x3FFF#16 ∧
    s.port.pendingSet = 0#16 ∧ s.port.counters = ⟨0, 0, 0, 0, 0⟩) ∧
  (s.time.record = ⟨0x00#8, 0x01#8, 0x01#8, 0x06#8, 0x00#8, 0x00#8, 0x00#8⟩ ∧ s.time.divider = 0 ∧ s.time.timeSet = false) ∧
  s.permits = [] ∧
  (s.load.orders = [] ∧ s.load.lanes.a = ⟨.none, none, none, none, none⟩ ∧ s.load.lanes.b = ⟨.none, none, none, none, none⟩) ∧
  (s.batch.settings = ⟨1500, 120, 10, 30⟩ ∧ s.batch.products = [] ∧ s.batch.permissive = ⟨false, false⟩ ∧
    ∀ n : Arm, s.batch.armTable[n] = none ∧ s.batch.arms[n] = ⟨none, .closed, none, [], none, none, 0⟩) ∧
  (∀ n : Arm, s.meter[n] = ⟨.fresh, 0#32, none, 0, 0, 0, 0, 0⟩ ∧ s.additive.schedules[n] = []) ∧
  (∀ i : DevIx, s.additive.slots[i] = none ∧ s.scan.devices[i] = none) ∧
  (s.note.notes = [] ∧ s.note.closing = ⟨none, none⟩ ∧ s.note.queue = [] ∧ s.note.writing = none ∧
    s.note.calDue = s.note.calCounter) ∧
  (s.scan.list = [] ∧ s.scan.pointer = 0 ∧ s.scan.wrap = true ∧ (∀ k : Fin 5, s.scan.filter[k] = 0#32) ∧ s.scan.slot = none ∧
    s.scan.transaction = none ∧ s.scan.rx = ⟨[], false, none⟩ ∧ s.scan.counters = ⟨0, 0, 0, 0⟩)

/-! ### Invariants -/

/-- RUN is high exactly in IN SERVICE (R175). -/
def State.RunTracksMode (s : State) : Prop := s.pads.run = true ↔ s.port.mode = .inService

/-- TDE is high exactly while a reply is pending, and BDE exactly while a telegram is being sent (R9, R12, logs 6, 7). -/
def State.DriversTrackLines (s : State) : Prop :=
  (s.pads.tde = true ↔ s.port.reply.isSome) ∧
    (s.pads.bde = true ↔ ∃ t, s.scan.transaction = some t ∧ t.sent = false)

/-- The table of R76 and its last sentences: a free arm wants CLOSED, a held one the stage of its holder's state, and a batch
flows only while its lane permissive is true. -/
def State.ValvesSafe (s : State) : Prop :=
  ∀ n : Arm,
    match (s.arm n).holder with
    | none => (s.arm n).desired = .closed
    | some b =>
      (s.arm n).desired = (match b.state, b.degraded with
        | .startup, _ => .low
        | .full, false => .high
        | .full, true => .low
        | .topoff, _ => .low
        | .armed, _ | .stopping, _ | .halted, _ | .done, _ => .closed) ∧
      ((b.state = .startup ∨ b.state = .full ∨ b.state = .topoff) → s.batch.permissive.get b.lane = true)

/-- The number of lanes that hold a load (R136). -/
def State.loadsHeld (s : State) : Nat :=
  (if s.load.lanes.a.state = .none then 0 else 1) + (if s.load.lanes.b.state = .none then 0 else 1)

/-- The law of the note reservation with what carries it: a closing record stands only for a CLOSING lane (R155), a refusal
candidate only at a lane with no load (R136). -/
def State.NotesReserved (s : State) : Prop :=
  s.note.notes.length + s.loadsHeld ≤ 16 ∧
    ∀ l : Lane,
      ((s.note.closing.get l).isSome → (s.lane l).state = .closing) ∧
        ((s.lane l).candidate.isSome → (s.lane l).state = .none)

/-- The permit table is in ascending order of card number, one permit a card, at most 256 of them (R120). -/
def State.PermitsOrdered (s : State) : Prop :=
  s.permits.Pairwise (fun p q => p.card < q.card) ∧ s.permits.length ≤ 256

/-- The nine link error counters are 16-bit and the notice queue holds at most 32 (R5, R180). -/
def State.CountsBounded (s : State) : Prop :=
  s.port.counters.parity ≤ 65535 ∧ s.port.counters.framing ≤ 65535 ∧ s.port.counters.brk ≤ 65535 ∧
    s.port.counters.overrun ≤ 65535 ∧ s.port.counters.check ≤ 65535 ∧ s.scan.counters.framing ≤ 65535 ∧
    s.scan.counters.brk ≤ 65535 ∧ s.scan.counters.overrun ≤ 65535 ∧ s.scan.counters.check ≤ 65535 ∧
    s.port.notices.length ≤ 32

/-- The two retained words lie in their ranges, with the calibration due value and the word that a write in progress has read (R160 to
R163). -/
def State.WordsInRange (s : State) : Prop :=
  (1 ≤ s.note.nextNote ∧ s.note.nextNote ≤ 99999999) ∧ s.note.calCounter ≤ 999999 ∧ s.note.calDue ≤ 999999 ∧
    ∀ l n, s.note.writing = some ⟨.note l, n⟩ → 1 ≤ n ∧ n ≤ 99999999

/-- The record that the time counter holds is valid (R166). -/
def State.TimeValid (s : State) : Prop := s.time.record.valid = true

/-- A step from `s` that answers a next state. -/
def Stepped (s t : State) : Prop := step s = .next t

/-- A metering record with its three remainders below their divisors (R54). -/
def Metering.InRange (m : Metering) (km : Nat) : Prop := m.r1 < km ∧ m.r2 < 100000 ∧ m.r3 < 100000

end Sys2Proof.Machine
end

