-- ==== Sys2Proof/Certificates/Slice0/Obligations.lean ====
section
/-! DEFINITION. The statements for the provers, from the rules of spec/. -/

open Sys2Proof Sys2Proof.Machine

/-! ### The step and the resets -/

/-- Tier 1. The command at the front of the queue runs on the state with the queue's rest; on an empty queue the part idles (the
model's choice, log 1). -/
def Obligations.StepRunsFrontCommand : Prop :=
  (∀ (c : Instr) (rest : List Instr) (s : State), step { s with pending := c :: rest } = exec c { s with pending := rest }) ∧
  (∀ s : State, s.pending = [] → step s = .next s)

/-- Tier 1. State.reset: every value the chapters give for hard reset, and the retained words as manufactured (R160). That State.reset is
the first hard reset of a part as manufactured is the model's reading (log 33), and that its command queue is empty is the model's
choice (log 34). -/
def Obligations.ResetValues : Prop :=
  State.reset.AtHardReset ∧ State.reset.note.nextNote = 1 ∧ State.reset.note.calCounter = 0 ∧ State.reset.pending = []

/-- Tier 1. HARD_RESET takes every state to the hard reset values, samples the straps and keeps the two retained words, whatever write
is in progress (R160, R164, R185). The permit table is emptied and with it every charge (R133; the model's reading beside R153 and
R164, log 54). The queue is kept (log 32). -/
def Obligations.HardResetEffect : Prop :=
  ∀ (addr : BitVec 5) (trate brate : BitVec 2) (s : State),
    ∃ t : State, exec (.hardReset addr trate brate) s = .next t ∧ t.AtHardReset ∧
      t.pads.addr = addr ∧ t.pads.trate = trate ∧ t.pads.brate = brate ∧ t.pads.calEnable = s.pads.calEnable ∧
      t.note.nextNote = s.note.nextNote ∧ t.note.calCounter = s.note.calCounter ∧ t.pending = s.pending

/-- Tier 1. The invariants of this file hold right after reset. -/
def Obligations.InvariantsAtReset : Prop :=
  State.reset.ValvesSafe ∧ State.reset.RunTracksMode ∧ State.reset.DriversTrackLines ∧ State.reset.Settled ∧
    State.reset.NotesReserved ∧ State.reset.WordsInRange ∧ State.reset.PermitsOrdered ∧ State.reset.CountsBounded ∧
    State.reset.TimeValid

/-! ### The Terminal Link -/

/-- Tier 2. A request that arrives intact while a reply is pending is discarded: only the CAL ENABLE level shown with it is new.
The same for a part strapped to address 0, which no unicast message reaches (R8 step 8, R9, R14). -/
def Obligations.RequestsDiscarded : Prop :=
  ∀ (c : Instr) (n : Nat) (s : State), requestLength c = some n → n ≤ 240 → (s.port.reply.isSome ∨ s.pads.addr = 0#5) →
    exec c s = .next { s with pads := { s.pads with calEnable := (calLevel c).getD s.pads.calEnable } }

/-- Tier 2. The end of a message of characters on an idle link. Taken one by one, none held back: a character error is counted in its
own counter and in no other (R3, R5, R8 step 1), that a break as the first character breaks the message behind it too being the
model's reading (log 43); a message with good characters that is short, long, of a wrong check or of a wrong length counts in CHECK
(R8 steps 2 to 4); one at a foreign address, of a reply kind, or a broadcast of another kind than TIME SET is discarded without count
(R8 steps 5 to 7). The receive buffer is empty afterwards. A character that the buffer cannot accept yet (the mark `blocked`, log 11)
waits in the held stage and is taken before the next one or at the message's end: where no two in a row are blocked, the message is
judged as if none were; a second one in a row is lost, counts as overrun alone whatever its own error (log 44, the model's choice),
and the message is discarded (R4, R8 step 1). -/
def Obligations.MessageDiscarded : Prop :=
  ∀ s : State, s.pads.tde = false → s.port.reply = none → s.port.rx = ⟨[], 0, false, none⟩ →
    (∀ chars : List TermChar, chars ≠ [] → (∀ c ∈ chars, c.blocked = false) →
      ((∃ c ∈ chars, TermChar.error c ≠ .none) →
        exec (.messageDiscarded chars) s = .next { s with port := { s.port with
          counters := chars.foldl (fun k c => k.countError (TermChar.error c)) s.port.counters } }) ∧
      ((∀ c ∈ chars, TermChar.error c = .none) →
        (chars.length < 5 ∨ 245 < chars.length ∨ crc (chars.map TermChar.data) ≠ 0#16 ∨
          (byteAt (chars.map TermChar.data) 2).toNat ≠ chars.length - 5) →
        exec (.messageDiscarded chars) s = .next { s with port := { s.port with
          counters := { s.port.counters with check := min 65535 (s.port.counters.check + 1) } } }) ∧
      ((∀ c ∈ chars, TermChar.error c = .none) → 5 ≤ chars.length → chars.length ≤ 245 → crc (chars.map TermChar.data) = 0#16 →
        (byteAt (chars.map TermChar.data) 2).toNat = chars.length - 5 →
        ((byteAt (chars.map TermChar.data) 0 ≠ 0#8 ∧ byteAt (chars.map TermChar.data) 0 ≠ s.pads.addr.setWidth 8) ∨
          (byteAt (chars.map TermChar.data) 0 ≠ 0#8 ∧ byteAt (chars.map TermChar.data) 1 ∈ [0xA0#8, 0xA1#8, 0xA2#8]) ∨
          (byteAt (chars.map TermChar.data) 0 = 0#8 ∧ byteAt (chars.map TermChar.data) 1 ≠ 0x50#8)) →
        exec (.messageDiscarded chars) s = .next s)) ∧
    (∀ chars : List TermChar, (∀ (before after : List TermChar) (a b : TermChar), chars = before ++ a :: b :: after →
        a.blocked = false ∨ b.blocked = false) →
      exec (.messageDiscarded chars) s = exec (.messageDiscarded (chars.map fun c => { c with blocked := false })) s) ∧
    ∀ (before after : List TermChar) (held lost : TermChar), (∀ c ∈ before ++ after, c.blocked = false) →
      held.blocked = true → lost.blocked = true →
      let counted : TermCounters :=
        (before ++ held :: after).foldl (fun k c => k.countError (TermChar.error c)) s.port.counters
      exec (.messageDiscarded (before ++ held :: lost :: after)) s = .next { s with port := { s.port with
        counters := { counted with overrun := min 65535 (s.port.counters.overrun + 1) } } }

/-- Tier 1. An accepted message of a kind that R11 does not list is answered REFUSE BAD FORMAT and changes nothing else; one of a
reply kind is discarded without reply (R8 step 6, R11). -/
def Obligations.UnknownKindRefused : Prop :=
  ∀ (kind : Byte) (p : List Byte) (s : State), s.Settled → s.Reaches p.length →
    (kind ∉ [0x10#8, 0x11#8, 0x12#8, 0x20#8, 0x21#8, 0x22#8, 0x23#8, 0x24#8, 0x30#8, 0x31#8, 0x32#8, 0x33#8, 0x34#8, 0x40#8,
        0x41#8, 0x50#8, 0x51#8, 0x60#8, 0x61#8, 0x70#8] → kind ∉ [0xA0#8, 0xA1#8, 0xA2#8] →
      exec (.unknownKind kind p) s = .next (s.shows (.refuse .badFormat))) ∧
    (kind ∈ [0xA0#8, 0xA1#8, 0xA2#8] → exec (.unknownKind kind p) s = .next s)

/-! ### The terminal port -/

/-- Tier 1. STATUS READ answers 42 bytes, shows pending set, counters and the CAL ENABLE level as they stand at the event, then
clears the pending set, and the nine counters when CLEAR COUNTERS is set; another length is refused BAD FORMAT (R5, R183, R184). -/
def Obligations.StatusReadAnswers : Prop :=
  ∀ (cal : Bool) (s : State), s.Settled →
    let devices := fun code : Byte => BitVec.ofNat 8 (allDevIx.filter fun i => (s.device i).any fun d => d.state.code = code).length
    let p : List Byte := [s.port.mode.code, (s.lane .a).state.code, (s.lane .b).state.code] ++
      (allArms.flatMap fun n => if (s.armEntry n).isNone then [0x00#8, 0xFF#8]
        else [((s.holder n).map fun b => b.state.code).getD 0x00#8, stageByte (s.arm n).reported]) ++
      [devices 0x00#8, devices 0x01#8, devices 0x02#8, devices 0x03#8, BitVec.ofNat 8 s.note.notes.length,
        BitVec.ofNat 8 s.port.notices.length, (if s.note.writing.isSome then 1#8 else 0#8) |||
          (if s.time.timeSet then 2#8 else 0#8) ||| (if cal then 4#8 else 0#8)] ++
      beBytes 2 s.port.pendingSet.toNat ++ beBytes 2 s.port.counters.parity ++ beBytes 2 s.port.counters.framing ++
      beBytes 2 s.port.counters.brk ++ beBytes 2 s.port.counters.overrun ++ beBytes 2 s.port.counters.check ++
      beBytes 2 s.scan.counters.framing ++ beBytes 2 s.scan.counters.brk ++ beBytes 2 s.scan.counters.overrun ++
      beBytes 2 s.scan.counters.check
    p.length = 42 ∧
    (∀ f : Byte, s.Reaches 1 → exec (.statusRead cal [f]) s = .next (State.shows { s with
        pads := { s.pads with calEnable := cal }
        port := { s.port with
          pendingSet := 0#16
          counters := if f.getLsbD 0 then ⟨0, 0, 0, 0, 0⟩ else s.port.counters }
        scan := { s.scan with counters := if f.getLsbD 0 then ⟨0, 0, 0, 0⟩ else s.scan.counters } } (.data p))) ∧
    (∀ q : List Byte, q.length ≠ 1 → s.Reaches q.length →
      exec (.statusRead cal q) s = .next (State.shows { s with pads := { s.pads with calEnable := cal } } (.refuse .badFormat)))

/-- Tier 1. NOTICE POLL answers up to four of the oldest notices in the form of R181, and those leave the queue; a payload is
refused BAD FORMAT (R181). -/
def Obligations.NoticePollAnswers : Prop :=
  ∀ s : State, s.Settled →
    (s.Reaches 0 → exec (.noticePoll []) s = .next (State.shows { s with port := { s.port with
        notices := s.port.notices.drop 4 } } (.data (BitVec.ofNat 8 (min 4 s.port.notices.length) ::
          (s.port.notices.take 4).flatMap fun x => [BitVec.ofNat 8 x.kind.number, match x.subject with
              | .lane .a => 0x00#8
              | .lane .b => 0x01#8
              | .arm n => BitVec.ofNat 8 n.val
              | .device i => BitVec.ofNat 8 i.val
              | .none => 0xFF#8, x.code, x.time.year, x.time.month, x.time.day,
               x.time.weekday, x.time.hour, x.time.minute, x.time.second] ++
            match x.extra with
            | none => [0#8]
            | some (kind, payload) => BitVec.ofNat 8 (1 + payload.length) :: kind :: payload)))) ∧
    (∀ q : List Byte, q ≠ [] → s.Reaches q.length → exec (.noticePoll q) s = .next (s.shows (.refuse .badFormat)))

/-- Tier 1. NOTICE MASK takes bits 0 to 13 of its two bytes, in every bay mode, and leaves queue and pending set as they are;
another length is refused BAD FORMAT. A notice raised afterwards is queued when its bit is set and fewer than 32 wait, and marked in
the pending set whatever its bit (R180, R182). -/
def Obligations.NoticeMaskGates : Prop :=
  (∀ s : State, s.Settled →
    (∀ hi lo : Byte, s.Reaches 2 → ∃ mask : BitVec 16, mask = (hi ++ lo) &&& 0x3FFF#16 ∧
      exec (.noticeMask [hi, lo]) s = .next (State.shows { s with port := { s.port with mask := mask } } .accept)) ∧
    (∀ q : List Byte, q.length ≠ 2 → s.Reaches q.length → exec (.noticeMask q) s = .next (s.shows (.refuse .badFormat)))) ∧
  (∀ (s : State) (kind : NoticeKind) (subject : Subject) (code : Byte),
    let t := s.raiseNotice kind subject code
    t.port.pendingSet = s.port.pendingSet ||| (1#16 <<< kind.number) ∧
      (s.port.mask.getLsbD kind.number = true → s.port.notices.length < 32 →
        t.port.notices = s.port.notices ++ [⟨kind, subject, code, s.time.record, none⟩]) ∧
      (s.port.mask.getLsbD kind.number = false ∨ 32 ≤ s.port.notices.length → t.port.notices = s.port.notices) ∧
      t = { s with port := { s.port with notices := t.port.notices, pendingSet := t.port.pendingSet } })

/-- Tier 1. BAY MODE: its table by the present mode, and BAD FORMAT for another length or another code; a refused request leaves the
mode and the pad as they were, and an accepted one changes nothing else (R176). -/
def Obligations.BayModeTable : Prop :=
  ∀ s : State, s.Settled → s.Reaches 1 →
    (s.port.mode = .inService → exec (.bayModeInService []) s = .next (s.shows .accept)) ∧
    (s.port.mode ≠ .inService → s.inconsistency.isSome → exec (.bayModeInService []) s = .next (s.shows (.refuse .wrongMode))) ∧
    (s.port.mode ≠ .inService → s.inconsistency = none → s.time.timeSet = false →
      exec (.bayModeInService []) s = .next (s.shows (.refuse .timeNotSet))) ∧
    (s.port.mode ≠ .inService → s.inconsistency = none → s.time.timeSet = true →
      exec (.bayModeInService []) s = .next (State.shows { s with
        port := { s.port with mode := .inService }, pads := { s.pads with run := true } } .accept)) ∧
    (s.port.mode ≠ .inService → exec (.bayModeOutOfService []) s = .next (s.shows .accept)) ∧
    (s.port.mode = .inService → 0 < s.loadsHeld → exec (.bayModeOutOfService []) s = .next (State.shows { s with
      port := { s.port with mode := .draining }, pads := { s.pads with run := false } } .accept)) ∧
    (s.port.mode = .inService → s.loadsHeld = 0 → exec (.bayModeOutOfService []) s = .next (State.shows { s with
      port := { s.port with mode := .outOfService }, pads := { s.pads with run := false } } .accept)) ∧
    (∀ q : List Byte, q ≠ [] → s.Reaches (1 + q.length) →
      exec (.bayModeInService q) s = .next (s.shows (.refuse .badFormat)) ∧
        exec (.bayModeOutOfService q) s = .next (s.shows (.refuse .badFormat))) ∧
    (s.Reaches 0 → exec (.unknownKind 0x60#8 []) s = .next (s.shows (.refuse .badFormat))) ∧
    (∀ c : Byte, c ≠ 0x00#8 → c ≠ 0x01#8 → exec (.unknownKind 0x60#8 [c]) s = .next (s.shows (.refuse .badFormat)))

/-- Tier 1. RESTART with both lanes NONE returns every block to the RESTART values of its chapter and keeps tables, permits, time,
stop leads, notes, store, mask and counters; with a load it is refused BUSY, with a payload BAD FORMAT (R38, R54, R98, R119, R133,
R153, R165, R173, R178, R185). That a telegram being sent is cut off is the model's choice (log 46), and so are a stream record's
baseline and start dose of 0 (log 41); its three marks are the model's reading (log 29). -/
def Obligations.RestartEffect : Prop :=
  ∀ s : State, s.Settled →
    (s.Reaches 0 → s.loadsHeld = 0 → ∃ t : State, exec (.restart []) s = .next (t.shows .accept) ∧
      t.port = { s.port with mode := .outOfService, notices := [], pendingSet := 0#16 } ∧
      t.pads = { s.pads with run := false, bde := false } ∧ t.time = s.time ∧ t.permits = s.permits ∧ t.note = s.note ∧
      t.load = ⟨[], ⟨.none, none, none, none, none⟩, ⟨.none, none, none, none, none⟩⟩ ∧
      t.batch.settings = s.batch.settings ∧ t.batch.products = s.batch.products ∧ t.batch.armTable = s.batch.armTable ∧
      t.batch.permissive = ⟨false, false⟩ ∧
      (∀ n : Arm, t.arm n = ⟨none, .closed, none, [], (s.arm n).stopLead, none, 0⟩) ∧
      (∀ n : Arm, t.metering n = ⟨.fresh, 0#32, none, 0, 0, 0, 0, 0⟩ ∧ t.schedules n = []) ∧
      (∀ i : DevIx, t.slot i = (s.slot i).map fun x => ⟨x.entry, [], none, none, ⟨.idle, 1, false, 0#32, 0, false, false, false⟩⟩) ∧
      (∀ i : DevIx, t.device i = (s.device i).map fun d => { d with
        state := .unknown, misses := 0, setStage := none, retryHold := false, display := none }) ∧
      t.scan.list = s.scan.list ∧ t.scan.filter = s.scan.filter ∧ t.scan.counters = s.scan.counters ∧ t.scan.pointer = 0 ∧
      t.scan.wrap = true ∧ t.scan.slot = none ∧ t.scan.transaction = none ∧ t.scan.rx = ⟨[], false, none⟩ ∧
      t.scan.quiet = true ∧ t.pending = s.pending) ∧
    (s.Reaches 0 → 0 < s.loadsHeld → exec (.restart []) s = .next (s.shows (.refuse .busy))) ∧
    (∀ q : List Byte, q ≠ [] → s.Reaches q.length → exec (.restart q) s = .next (s.shows (.refuse .badFormat)))

/-! ### The time counter -/

/-- Tier 1. TIME SET at the strapped address: a valid record is loaded, the divider restarts, the flag is set and a TIME SET notice
with code 00H carries the record; else BAD FORMAT or BAD VALUE and no effect. A broadcast does the same with code 01H and no reply
(R169, R170). TIME READ answers the record and the flag and changes nothing; a payload is refused BAD FORMAT (R171). -/
def Obligations.TimeSetAndRead : Prop :=
  (∀ (p : List Byte) (s : State), s.Settled →
    let t : TimeRec := ⟨byteAt p 0, byteAt p 1, byteAt p 2, byteAt p 3, byteAt p 4, byteAt p 5, byteAt p 6⟩
    let loaded : State := { s with time := ⟨t, 0, true⟩ }
    (p.length = 7 → t.valid = true → s.Reaches 7 →
      exec (.timeSet p) s = .next ((loaded.raiseNotice .timeSet .none 0x00#8).shows .accept)) ∧
    (p.length = 7 → t.valid = false → s.Reaches 7 → exec (.timeSet p) s = .next (s.shows (.refuse .badValue))) ∧
    (p.length ≠ 7 → s.Reaches p.length → exec (.timeSet p) s = .next (s.shows (.refuse .badFormat))) ∧
    (p.length = 7 → t.valid = true → s.port.reply = none →
      exec (.timeSetBroadcast p) s = .next (loaded.raiseNotice .timeSet .none 0x01#8)) ∧
    (p.length ≤ 240 → (p.length ≠ 7 ∨ t.valid = false ∨ s.port.reply.isSome) → exec (.timeSetBroadcast p) s = .next s)) ∧
  (∀ s : State, s.Settled →
    (s.Reaches 0 → exec (.timeRead []) s = .next (s.shows (.data [s.time.record.year, s.time.record.month, s.time.record.day,
      s.time.record.weekday, s.time.record.hour, s.time.record.minute, s.time.record.second,
      if s.time.timeSet then 0x01#8 else 0x00#8]))) ∧
    (∀ q : List Byte, q ≠ [] → s.Reaches q.length → exec (.timeRead q) s = .next (s.shows (.refuse .badFormat))))

/-- Tier 1. The second tick advances the record by one second and changes nothing but record and divider; the carries of R167,
field by field, on a record as the tick finds it. -/
def Obligations.SecondTickCounts : Prop :=
  (∀ s : State, exec .secondTick s = .next { s with time := { s.time with record := s.time.record.nextSecond, divider := 0 } }) ∧
  (∀ t : TimeRec, t.valid = true →
    (t.second ≠ 0x59#8 → t.nextSecond = { t with second := toBcd (bcdVal t.second + 1) }) ∧
    (t.second = 0x59#8 → t.minute ≠ 0x59#8 →
      t.nextSecond = { t with second := 0x00#8, minute := toBcd (bcdVal t.minute + 1) }) ∧
    (t.second = 0x59#8 → t.minute = 0x59#8 → t.hour ≠ 0x23#8 →
      t.nextSecond = { t with second := 0x00#8, minute := 0x00#8, hour := toBcd (bcdVal t.hour + 1) }) ∧
    (t.second = 0x59#8 → t.minute = 0x59#8 → t.hour = 0x23#8 →
      bcdVal t.day < daysInMonth (bcdVal t.year) (bcdVal t.month) →
      t.nextSecond = { t with
        second := 0x00#8, minute := 0x00#8, hour := 0x00#8, day := toBcd (bcdVal t.day + 1)
        weekday := toBcd ((bcdVal t.weekday + 1) % 7) }) ∧
    (t.second = 0x59#8 → t.minute = 0x59#8 → t.hour = 0x23#8 →
      bcdVal t.day = daysInMonth (bcdVal t.year) (bcdVal t.month) → t.month ≠ 0x12#8 →
      t.nextSecond = { t with
        second := 0x00#8, minute := 0x00#8, hour := 0x00#8, day := 0x01#8, month := toBcd (bcdVal t.month + 1)
        weekday := toBcd ((bcdVal t.weekday + 1) % 7) }) ∧
    (t.second = 0x59#8 → t.minute = 0x59#8 → t.hour = 0x23#8 → t.day = 0x31#8 → t.month = 0x12#8 → t.year ≠ 0x99#8 →
      t.nextSecond = ⟨toBcd (bcdVal t.year + 1), 0x01#8, 0x01#8, toBcd ((bcdVal t.weekday + 1) % 7), 0x00#8, 0x00#8, 0x00#8⟩) ∧
    (t = ⟨0x99#8, 0x12#8, 0x31#8, t.weekday, 0x23#8, 0x59#8, 0x59#8⟩ →
      t.nextSecond = ⟨0x00#8, 0x01#8, 0x01#8, 0x06#8, 0x00#8, 0x00#8, 0x00#8⟩))

/-! ### Permits -/

/-- Tier 2. PERMIT WRITE: the form and value checks of R121 in order, then a known card's permit is replaced in place (usage kept
unless RESET USAGE), a new card's permit is inserted at its place in the ascending order, and a full table is refused (R120, R121,
R122). -/
def Obligations.PermitWriteEffect : Prop :=
  ∀ (p : List Byte) (s : State), s.Settled → s.PermitsOrdered → s.Reaches p.length →
    ((p.length ≠ 21 ∨ permitClassOf (byteAt p 5) = none ∨ permitStateOf (byteAt p 6) = none ∨ restrictionOf (byteAt p 19) = none) →
      exec (.permitWrite p) s = .next (s.shows (.refuse .badFormat))) ∧
    ∀ (cls : PermitClass) (st : PermitState) (lane : Option Lane), p.length = 21 → permitClassOf (byteAt p 5) = some cls →
      permitStateOf (byteAt p 6) = some st → restrictionOf (byteAt p 19) = some lane →
      let n : Permit := ⟨bcdNat (p.take 5), cls, st, byteAt p 7 ++ byteAt p 8, byteAt p 9 ++ byteAt p 10,
        ⟨byteAt p 11, byteAt p 12, byteAt p 13⟩, byteAt p 14 ++ byteAt p 15, beNat [byteAt p 16, byteAt p 17, byteAt p 18], 0,
        none, lane⟩
      let good := (p.take 5).all bcdOk = true ∧ realDate (byteAt p 11) (byteAt p 12) (byteAt p 13) = true ∧ n.dailyLimit ≤ 999999
      (¬ good → exec (.permitWrite p) s = .next (s.shows (.refuse .badValue))) ∧
      (good → (∃ q ∈ s.permits, q.card = n.card) → exec (.permitWrite p) s = .next (State.shows { s with
        permits := s.permits.map fun q => if q.card = n.card then
          (if (byteAt p 20).getLsbD 0 then n else { n with usedToday := q.usedToday, lastLoad := q.lastLoad }) else q } .accept)) ∧
      (good → (∀ q ∈ s.permits, q.card ≠ n.card) → s.permits.length < 256 → exec (.permitWrite p) s = .next (State.shows { s with
        permits := (s.permits.filter fun q => q.card < n.card) ++ n :: s.permits.filter fun q => n.card < q.card } .accept)) ∧
      (good → (∀ q ∈ s.permits, q.card ≠ n.card) → s.permits.length = 256 →
        exec (.permitWrite p) s = .next (s.shows (.refuse .tableFull)))

/-- Tier 1. PERMIT DELETE: BAD FORMAT, BAD VALUE, NOT FOUND, IN USE while the card is the permit of the load of a lane in OPEN,
ENDING or CLOSING or the card of a lane's candidate; otherwise the permit is removed and the rest keeps its order (R123). -/
def Obligations.PermitDeleteEffect : Prop :=
  ∀ (p : List Byte) (s : State), s.Settled → s.Reaches p.length →
    let inUse : Prop := ∃ l : Lane, ((s.lane l).state ≠ .none ∧ ∃ x, (s.lane l).load = some x ∧ x.card = bcdNat p) ∨
      ∃ c, (s.lane l).candidate = some c ∧ c.card = bcdNat p
    (p.length ≠ 5 → exec (.permitDelete p) s = .next (s.shows (.refuse .badFormat))) ∧
    (p.length = 5 → p.all bcdOk = false → exec (.permitDelete p) s = .next (s.shows (.refuse .badValue))) ∧
    (p.length = 5 → p.all bcdOk = true → (∀ q ∈ s.permits, q.card ≠ bcdNat p) →
      exec (.permitDelete p) s = .next (s.shows (.refuse .notFound))) ∧
    (p.length = 5 → p.all bcdOk = true → (∃ q ∈ s.permits, q.card = bcdNat p) → inUse →
      exec (.permitDelete p) s = .next (s.shows (.refuse .inUse))) ∧
    (p.length = 5 → p.all bcdOk = true → (∃ q ∈ s.permits, q.card = bcdNat p) → ¬ inUse →
      exec (.permitDelete p) s = .next (State.shows { s with permits := s.permits.filter fun q => q.card ≠ bcdNat p } .accept))

/-- Tier 2. PERMIT READ by card and by position: the permit at position `i` is rolled to today and its 32 bytes answered, the table
otherwise as it was; the refusals of R124 (R124, R125, R127). -/
def Obligations.PermitReadAnswers : Prop :=
  ∀ s : State, s.Settled → s.PermitsOrdered →
    (∀ (i : Nat) (p : Permit), s.permits[i]? = some p →
      let rolled : Permit := if p.lastLoad = some s.today then p else { p with usedToday := 0 }
      let load := fun l : Lane => (s.lane l).state ≠ .none ∧ ∃ x, (s.lane l).load = some x ∧ x.card = p.card
      let cand := fun l : Lane => ∃ c, (s.lane l).candidate = some c ∧ c.card = p.card
      ∃ use standing : Byte,
        ((use.getLsbD 0 = true ↔ load .a) ∧ (use.getLsbD 1 = true ↔ load .b) ∧ (use.getLsbD 2 = true ↔ cand .a) ∧
          (use.getLsbD 3 = true ↔ cand .b) ∧ use.toNat < 16) ∧
        standing = (match p.state with
          | .revoked => 0x02#8
          | .suspended => 0x03#8
          | .active => if p.expiry.key < s.today.key then 0x04#8 else 0x00#8) ∧
        let t : State := State.shows { s with permits := s.permits.set i rolled } (.data (bcdBytes 5 p.card ++
          [p.cls.code, p.state.code] ++ beBytes 2 p.driverRef.toNat ++ beBytes 2 p.carrier.toNat ++
          [p.expiry.year, p.expiry.month, p.expiry.day] ++ beBytes 2 p.endorsed.toNat ++ beBytes 3 p.dailyLimit ++
          [match p.lane with
            | none => 0xFF#8
            | some .a => 0x00#8
            | some .b => 0x01#8] ++ beBytes 4 rolled.usedToday ++
          (match p.lastLoad with
            | none => [0xFF#8, 0xFF#8, 0xFF#8]
            | some d => [d.year, d.month, d.day]) ++
          [BitVec.ofNat 8 i] ++ beBytes 2 s.permits.length ++ [standing, use]))
        (∀ q : List Byte, q.length = 5 → q.all bcdOk = true → bcdNat q = p.card → s.Reaches 6 →
          exec (.permitReadByCard q) s = .next t) ∧
        (s.Reaches 2 → exec (.permitReadByPosition [BitVec.ofNat 8 i]) s = .next t)) ∧
    (∀ q : List Byte, s.Reaches (1 + q.length) →
      (q.length ≠ 5 → exec (.permitReadByCard q) s = .next (s.shows (.refuse .badFormat))) ∧
      (q.length = 5 → q.all bcdOk = false → exec (.permitReadByCard q) s = .next (s.shows (.refuse .badValue))) ∧
      (q.length = 5 → q.all bcdOk = true → (∀ p ∈ s.permits, p.card ≠ bcdNat q) →
        exec (.permitReadByCard q) s = .next (s.shows (.refuse .notFound))) ∧
      (q.length ≠ 1 → exec (.permitReadByPosition q) s = .next (s.shows (.refuse .badFormat))) ∧
      (q.length = 1 → s.permits.length ≤ (byteAt q 0).toNat →
        exec (.permitReadByPosition q) s = .next (s.shows (.refuse .notFound))))

/-! ### Orders -/

/-- Tier 2. ORDER PLACE: the five checks of R134 in order, then the order joins the back of the queue with its compartments in the
order of the message (R134). ORDER CANCEL: the order leaves the queue, and at either lane a candidate that names it leaves with a LOAD
override slot, while a slot of another target stays; another length is refused BAD FORMAT and an unknown reference NOT FOUND (R135,
R142, R148). -/
def Obligations.OrdersPlacedAndCancelled : Prop :=
  (∀ (p : List Byte) (s : State), s.Settled → s.Reaches p.length →
    let n := (byteAt p 15).toNat
    ((p.length ≠ 16 + 4 * n ∨ restrictionOf (byteAt p 14) = none) →
      exec (.orderPlace p) s = .next (s.shows (.refuse .badFormat))) ∧
    ∀ lane : Option Lane, p.length = 16 + 4 * n → restrictionOf (byteAt p 14) = some lane →
      let ref : BitVec 32 := byteAt p 0 ++ byteAt p 1 ++ byteAt p 2 ++ byteAt p 3
      let comp := fun k : Nat => byteAt p (16 + 4 * k)
      let code := fun k : Nat => byteAt p (17 + 4 * k)
      let preset := fun k : Nat => (byteAt p (18 + 4 * k)).toNat * 256 + (byteAt p (19 + 4 * k)).toNat
      let valid : Prop := 1 ≤ n ∧ n ≤ 8 ∧ (∀ k < n, 1 ≤ (comp k).toNat ∧ (comp k).toNat ≤ 8 ∧ 1 ≤ preset k) ∧
        (∀ j k, j < k → k < n → comp j ≠ comp k) ∧ ∀ b ∈ (p.drop 6).take 8, 0x20 ≤ b.toNat ∧ b.toNat ≤ 0x7E
      let known : Prop := ∀ k < n, ∃ x ∈ s.batch.products, x.code = code k
      let used : Prop := (∃ o ∈ s.load.orders, o.reference = ref) ∨
        ∃ l : Lane, (s.lane l).state ≠ .none ∧ ∃ x, (s.lane l).load = some x ∧ x.reference = ref
      (¬ valid → exec (.orderPlace p) s = .next (s.shows (.refuse .badValue))) ∧
      (valid → ¬ known → exec (.orderPlace p) s = .next (s.shows (.refuse .notFound))) ∧
      (valid → known → used → exec (.orderPlace p) s = .next (s.shows (.refuse .duplicate))) ∧
      (valid → known → ¬ used → 8 ≤ s.load.orders.length → exec (.orderPlace p) s = .next (s.shows (.refuse .tableFull))) ∧
      (valid → known → ¬ used → s.load.orders.length < 8 → exec (.orderPlace p) s = .next (State.shows { s with
        load := { s.load with orders := s.load.orders ++ [⟨ref, byteAt p 4 ++ byteAt p 5, (p.drop 6).take 8, lane,
          (List.range n).map fun k => ⟨(comp k).toNat, code k, preset k⟩⟩] } } .accept))) ∧
  (∀ (p : List Byte) (s : State), s.Settled → s.Reaches p.length →
    let ref : BitVec 32 := byteAt p 0 ++ byteAt p 1 ++ byteAt p 2 ++ byteAt p 3
    let after := fun r : LaneRec =>
      if r.candidate.any fun c => c.order = ref then
        { r with candidate := none, slot := r.slot.filter fun x => x.target ≠ .load }
      else r
    (p.length ≠ 4 → exec (.orderCancel p) s = .next (s.shows (.refuse .badFormat))) ∧
    (p.length = 4 → (∀ o ∈ s.load.orders, o.reference ≠ ref) → exec (.orderCancel p) s = .next (s.shows (.refuse .notFound))) ∧
    (p.length = 4 → (∃ o ∈ s.load.orders, o.reference = ref) → exec (.orderCancel p) s = .next (State.shows { s with
      load := ⟨s.load.orders.filter fun o => o.reference ≠ ref, after s.load.lanes.a, after s.load.lanes.b⟩ } .accept)))

/-! ### Loads and batches from the terminal -/

/-- Tier 2. LOAD CLOSE: the refusals of R145. An OPEN load goes to ENDING with reason ABORTED, the lane's pending starts go from every
arm, and each batch of the lane is stopped or ended by the table of R95: flowing to STOPPING with its ending mark, STOPPING takes reason
and mark, ARMED and HALTED are DONE at once; other lanes' batches stand. With none left to stop the load is CLOSING; with no batch of
the lane at all the whole effect is spelled out: end time, closing record with the calibration due value of this moment, and a
note-number request that starts at once when the store is free (R95, R145, R146, R155, R156, R161). -/
def Obligations.LoadCloseEffect : Prop :=
  ∀ (p : List Byte) (s : State), s.Settled → s.Reaches p.length →
    (p.length ≠ 1 → exec (.loadClose p) s = .next (s.shows (.refuse .badFormat))) ∧
    (p.length = 1 → 1 < (byteAt p 0).toNat → exec (.loadClose p) s = .next (s.shows (.refuse .badValue))) ∧
    ∀ l : Lane, p = [match l with
        | .a => 0x00#8
        | .b => 0x01#8] →
      ((s.lane l).state = .none → exec (.loadClose p) s = .next (s.shows (.refuse .notFound))) ∧
      ((s.lane l).state = .ending ∨ (s.lane l).state = .closing → exec (.loadClose p) s = .next (s.shows (.refuse .busy))) ∧
      ((s.lane l).state = .opened → ∃ t : State, exec (.loadClose p) s = .next (State.settle (t.shows .accept)) ∧
        (t.lane l).endReason = some .aborted ∧ ((t.lane l).state = .ending ∨ (t.lane l).state = .closing) ∧
        (∀ (n : Arm), ∀ q ∈ (t.arm n).starts, q.lane ≠ l) ∧
        (∀ n : Arm, (∀ b, s.holder n = some b → b.lane = l → b.state ≠ .armed ∧ b.state ≠ .halted) →
          (t.arm n).starts = (s.arm n).starts.filter fun q => q.lane ≠ l) ∧
        (∀ (n : Arm) (b : Batch), s.holder n = some b →
          (b.lane ≠ l → t.holder n = some b) ∧
          (b.lane = l → b.state.flowing = true → (t.arm n).desired = .closed ∧ t.holder n = some { b with
            state := .stopping, stopReason := some .aborted, ending := true, noFlow := 0, overspeed := 0, noFlowTimer := none
            stopTimer := if s.meterOnline n then b.stopTimer else some s.batch.settings.noFlowTimeout }) ∧
          (b.lane = l → b.state = .stopping → t.holder n = some { b with stopReason := some .aborted, ending := true }) ∧
          (b.lane = l → b.state = .armed ∨ b.state = .halted →
            ((∀ q ∈ (s.arm n).starts, q.lane = l) → t.holder n = none) ∧ (∀ c, t.holder n = some c → c.lane ≠ l) ∧
              ∀ x, (s.lane l).load = some x → ∃ y, (t.lane l).load = some y ∧
                ∀ e ∈ y.entries, e.compartment = b.compartment → e.state = .done)) ∧
        ((∃ n b, s.holder n = some b ∧ b.lane = l ∧ (b.state.flowing = true ∨ b.state = .stopping)) →
          (t.lane l).state = .ending) ∧
        (∀ x : Load, (s.lane l).load = some x →
          (∀ n b, s.holder n = some b → b.lane = l → b.state = .armed ∨ b.state = .halted) → (t.lane l).state = .closing) ∧
        ∀ x : Load, (s.lane l).load = some x → (∀ n b, s.holder n = some b → b.lane ≠ l) →
          t = { s with
            load := { s.load with lanes := s.load.lanes.set l { s.lane l with
              state := .closing, load := some { x with endTime := some s.time.record }, endReason := some .aborted } }
            batch := { s.batch with arms := s.batch.arms.map fun r => { r with starts := r.starts.filter fun q => q.lane ≠ l } }
            note := { s.note with
              closing := s.note.closing.set l (some ⟨l, x.reference, x.tanker, x.driverRef, x.carrier, x.startTime, s.time.record,
                s.note.calDue, x.permitOverridden, x.entries, (x.entries.map CompEntry.gross).sum, (x.entries.map CompEntry.net).sum⟩)
              writing := if s.note.writing.isNone then some ⟨.note l, s.note.nextNote⟩ else s.note.writing
              queue := if s.note.writing.isNone then s.note.queue else s.note.queue ++ [.note l] }
            scan := (s.post l .loadClosing).scan })

/-- Tier 2. BATCH ABORT: the refusals of R94 and its table. A flowing batch goes to STOPPING as R88 gives, a STOPPING one changes
reason and ending mark, an ARMED or HALTED one is DONE at once: compartment result, charge, notice, arm released (R94, R88, R96). -/
def Obligations.BatchAbortEffect : Prop :=
  ∀ (p : List Byte) (s : State), s.Settled → s.Reaches p.length →
    (p.length ≠ 1 → exec (.batchAbort p) s = .next (s.shows (.refuse .badFormat))) ∧
    (p.length = 1 → 5 < (byteAt p 0).toNat → exec (.batchAbort p) s = .next (s.shows (.refuse .badValue))) ∧
    ∀ n : Arm, p = [BitVec.ofNat 8 n.val] →
      (s.holder n = none → (s.arm n).starts = [] → exec (.batchAbort p) s = .next (s.shows (.refuse .notFound))) ∧
      (s.holder n = none → (s.arm n).starts ≠ [] → exec (.batchAbort p) s = .next (State.shows { s with
        batch := { s.batch with arms := s.batch.arms.set n { s.arm n with starts := [] } } } .accept)) ∧
      ∀ b : Batch, s.holder n = some b →
        (b.state = .stopping → exec (.batchAbort p) s = .next (State.shows { s with
          batch := { s.batch with arms := s.batch.arms.set n { s.arm n with
            starts := [], holder := some { b with stopReason := some .aborted, ending := true } } } } .accept)) ∧
        (b.state = .startup ∨ b.state = .full ∨ b.state = .topoff →
          ∃ t : State, exec (.batchAbort p) s = .next (State.settle (t.shows .accept)) ∧
            t.holder n = some { b with
              state := .stopping, stopReason := some .aborted, ending := true, noFlow := 0, overspeed := 0, noFlowTimer := none
              stopTimer := if s.meterOnline n then b.stopTimer else some s.batch.settings.noFlowTimeout } ∧
            (t.arm n).desired = .closed ∧ (t.arm n).starts = [] ∧ (t.arm n).reported = (s.arm n).reported ∧
            (t.arm n).stopLead = (s.arm n).stopLead ∧ (∀ m : Arm, m ≠ n → t.arm m = s.arm m ∧ t.schedules m = s.schedules m) ∧
            t.port = (s.raiseNotice .batchHalted (.arm n) 0x0A#8).port ∧ t.load = s.load ∧ t.permits = s.permits ∧
            t.note = s.note ∧ t.time = s.time ∧ t.meter = s.meter ∧ t.pads = s.pads) ∧
        (b.state = .armed ∨ b.state = .halted →
          ∃ t : State, exec (.batchAbort p) s = .next (State.settle (t.shows .accept)) ∧
            t.holder n = none ∧ (t.arm n).desired = .closed ∧ (t.arm n).starts = [] ∧ (t.arm n).excess = 0 ∧
            (t.arm n).stopLead = (s.arm n).stopLead ∧ t.schedules n = [] ∧
            (∀ m : Arm, m ≠ n → t.holder m = s.holder m ∧ (t.arm m).desired = (s.arm m).desired ∧ t.schedules m = s.schedules m) ∧
            t.port = (s.raiseNotice .batchDone (.arm n) 0x0A#8).port ∧ t.time = s.time ∧ t.meter = s.meter ∧ t.pads = s.pads ∧
            t.note.notes = s.note.notes ∧ t.note.nextNote = s.note.nextNote ∧ t.note.calCounter = s.note.calCounter ∧
            ∀ x : Load, (s.lane b.lane).load = some x →
              (t.permits = s.permits.map fun q => if q.card = x.card then q.charge s.today (toDl b.gross) else q) ∧
              ∃ x' : Load, (t.lane b.lane).load = some x' ∧ x'.entries = x.entries.map fun e =>
                if e.compartment = b.compartment then
                  let results := (s.schedules n).map fun c => c.result b.gross
                  { e with
                    arm := some n, state := .done, gross := toDl b.gross, net := toDl b.net, avgTemp := b.avgTemp
                    vcf := b.reportedVcf, reason := some .aborted, additives := results
                    exceptions := if results.any fun r => r.status = .short then setExc .additiveShort b.exceptions
                      else b.exceptions }
                else e)

/-- Tier 2. OVERRIDE, the terminal half: its refusals and the table of R150. An override of an ADDITIVE halt completes by setting the
batch's additive override, suspending its FAULTED schedules and emptying the slot (R150, R151, R117); one of a refused card opens the
candidate's order with the permit override when the checks of R140 steps 1 to 7 pass, and is refused NOT ALLOWED otherwise. -/
def Obligations.OverrideEffect : Prop :=
  ∀ (p : List Byte) (s : State), s.Settled → s.Reaches p.length →
    (p.length ≠ 2 → exec (.override p) s = .next (s.shows (.refuse .badFormat))) ∧
    (p.length = 2 → (laneOf (byteAt p 0) = none ∨ targetOf (byteAt p 1) = none) →
      exec (.override p) s = .next (s.shows (.refuse .badValue))) ∧
    ∀ (l : Lane) (g : Target), p.length = 2 → laneOf (byteAt p 0) = some l → targetOf (byteAt p 1) = some g →
      let there : Prop := match g with
        | .load => (s.lane l).candidate.isSome
        | .arm n => ∃ b, s.holder n = some b ∧ b.lane = l ∧ b.state = .halted ∧ b.stopReason = some .additive
      ((s.lane l).slot = none → there → exec (.override p) s = .next (State.shows { s with
        load := { s.load with lanes := s.load.lanes.set l { s.lane l with
          slot := some ⟨g, .terminal, s.batch.settings.overrideWindow⟩ } } } .accept)) ∧
      ((s.lane l).slot = none → ¬ there → exec (.override p) s = .next (s.shows (.refuse .noTarget))) ∧
      ∀ x : OverrideSlot, (s.lane l).slot = some x →
        (x.target ≠ g → exec (.override p) s = .next (s.shows (.refuse .noTarget))) ∧
        (x.target = g → x.half = .terminal → exec (.override p) s = .next (s.shows .accept)) ∧
        (∀ (n : Arm) (b : Batch), x.target = g → x.half = .supervisor → g = .arm n → s.holder n = some b →
          ∃ t : State, exec (.override p) s = .next (State.settle (t.shows .accept)) ∧
            t.holder n = some { b with additiveOverride := true, exceptions := setExc .additiveOverridden b.exceptions } ∧
            (t.schedules n = (s.schedules n).map fun c => if c.state = .faulted then { c with state := .suspended } else c) ∧
            t.lane l = { s.lane l with slot := none } ∧ t.lane (Lane.other l) = s.lane (Lane.other l) ∧
            t.port = (s.raiseNotice .overrideApplied (.arm n) 0x01#8).port ∧ t.scan = (s.post l .overrideApplied).scan ∧
            (∀ m : Arm, m ≠ n → t.arm m = s.arm m ∧ t.schedules m = s.schedules m) ∧ t.permits = s.permits ∧ t.note = s.note ∧
            t.time = s.time ∧ t.meter = s.meter ∧ t.pads = s.pads ∧ t.load.orders = s.load.orders) ∧
        (∀ (c : Candidate) (o : Order), x.target = g → x.half = .supervisor → g = .load → (s.lane l).candidate = some c →
          s.load.orders.find? (fun o => o.reference = c.order) = some o →
          (∀ d, s.openingPermit l c.card = .error d → ∃ t : State, exec (.override p) s =
              .next (State.settle (t.shows (.refuse .notAllowed))) ∧
            t.lane l = { s.lane l with candidate := none, slot := none } ∧ t.lane (Lane.other l) = s.lane (Lane.other l) ∧
            t.load.orders = s.load.orders ∧ t.port = (s.raiseNotice .loadRefused (.lane l) d.code).port ∧
            t.scan = (s.post l d).scan) ∧
          (∀ q, s.openingPermit l c.card = .ok q → ∃ t : State, exec (.override p) s = .next (State.settle (t.shows .accept)) ∧
            (t.lane l).state = .opened ∧ (t.lane l).candidate = none ∧ (t.lane l).slot = none ∧
            (t.lane l).load = some ⟨o.reference, o.carrier, o.tanker, c.card, q.driverRef, s.time.record, none, true, true,
              o.lines.map OrderLine.entry⟩ ∧
            (t.load.orders = s.load.orders.filter fun o' => o'.reference ≠ o.reference) ∧
            t.port = ((s.raiseNotice .loadOpened (.lane l) 0x01#8).raiseNotice .overrideApplied (.lane l) 0x00#8).port ∧
            t.scan = (s.post l .opened).scan))

/-! ### Notes -/

/-- Tier 1. NOTE TAKE: the three checks of R158 in order; part 0 is the note head and part n the n-th compartment entry of the oldest
note, in the layouts of R17, for figures that fit their fields; the queue stands as it is (R17, R158). -/
def Obligations.NoteTakeAnswers : Prop :=
  ∀ s : State, s.Settled →
    (∀ q : List Byte, q.length ≠ 1 → s.Reaches q.length → exec (.noteTake q) s = .next (s.shows (.refuse .badFormat))) ∧
    (∀ k : Byte, s.Reaches 1 → s.note.notes = [] → exec (.noteTake [k]) s = .next (s.shows (.refuse .notFound))) ∧
    ∀ (k : Byte) (n : Note) (rest : List Note), s.Reaches 1 → s.note.notes = n :: rest →
      (n.body.entries.length < k.toNat → exec (.noteTake [k]) s = .next (s.shows (.refuse .badValue))) ∧
      (k = 0#8 → n.body.calAtClose < 256 ^ 3 → n.body.gross < 256 ^ 4 → n.body.net < 256 ^ 4 →
        exec (.noteTake [k]) s = .next (s.shows (.data (bcdBytes 4 n.number ++ [0x00#8] ++ [match n.body.lane with
            | .a => 0x00#8
            | .b => 0x01#8] ++ beBytes 4 n.body.reference.toNat ++ n.body.tanker ++ beBytes 2 n.body.driverRef.toNat ++
          beBytes 2 n.body.carrier.toNat ++ n.body.startTime.bytes ++ n.body.endTime.bytes ++ beBytes 3 n.body.calAtClose ++
          [if n.body.permitOverridden then 0x01#8 else 0x00#8] ++ beBytes 4 n.body.gross ++ beBytes 4 n.body.net ++
          [BitVec.ofNat 8 n.body.entries.length])))) ∧
      (∀ e : CompEntry, k ≠ 0#8 → n.body.entries[k.toNat - 1]? = some e → e.preset < 256 ^ 3 →
        (e.state ≠ .done → exec (.noteTake [k]) s = .next (s.shows (.data (bcdBytes 4 n.number ++ [k] ++
          [BitVec.ofNat 8 e.compartment, e.product] ++ beBytes 3 e.preset ++ [0xFF#8, 0x00#8, 0#8, 0#8, 0#8, 0#8, 0#8, 0#8, 0#8,
            0#8, 0#8, 0#8, 0xFF#8, 0xFF#8, 0xFF#8, 0x00#8, 0#8, 0#8, 0#8])))) ∧
        (e.state = .done → e.gross < 256 ^ 4 → e.net < 256 ^ 4 → -32768 ≤ e.avgTemp → e.avgTemp ≤ 32767 →
          (∀ v, e.vcf = some v → v < 256 ^ 3) → (∀ r ∈ e.additives, r.target < 256 ^ 4 ∧ r.delivered < 256 ^ 4) →
          exec (.noteTake [k]) s = .next (s.shows (.data (bcdBytes 4 n.number ++ [k] ++
            [BitVec.ofNat 8 e.compartment, e.product] ++ beBytes 3 e.preset ++ [match e.arm with
              | none => 0xFF#8
              | some a => BitVec.ofNat 8 a.val, 0x01#8] ++ beBytes 4 e.gross ++ beBytes 4 e.net ++
            beBytes 2 (BitVec.ofInt 16 e.avgTemp).toNat ++ (match e.vcf with
              | none => [0xFF#8, 0xFF#8, 0xFF#8]
              | some v => beBytes 3 v) ++ [stopCode e.reason] ++ beBytes 2 e.exceptions.toNat ++
            [BitVec.ofNat 8 e.additives.length] ++ e.additives.flatMap fun r =>
              [r.additive] ++ beBytes 4 r.target ++ beBytes 4 r.delivered ++ [r.status.code])))))

/-- Tier 1. NOTE RELEASE: the four checks of R159 in order; a release that passes removes the oldest note and changes nothing else. -/
def Obligations.NoteReleaseEffect : Prop :=
  ∀ (p : List Byte) (s : State), s.Settled → s.Reaches p.length →
    let good : Prop := (∀ b ∈ p, b.toNat / 16 ≤ 9 ∧ b.toNat % 16 ≤ 9) ∧ bcdNat p ≠ 0
    (p.length ≠ 4 → exec (.noteRelease p) s = .next (s.shows (.refuse .badFormat))) ∧
    (p.length = 4 → ¬ good → exec (.noteRelease p) s = .next (s.shows (.refuse .badValue))) ∧
    (p.length = 4 → good → s.note.notes = [] → exec (.noteRelease p) s = .next (s.shows (.refuse .notFound))) ∧
    ∀ (n : Note) (rest : List Note), p.length = 4 → good → s.note.notes = n :: rest →
      (n.number ≠ bcdNat p → exec (.noteRelease p) s = .next (s.shows (.refuse .notOldest))) ∧
      (n.number = bcdNat p →
        exec (.noteRelease p) s = .next (State.shows { s with note := { s.note with notes := rest } } .accept))

/-! ### Tables -/

/-- Tier 2. TABLE WRITE 01H: the checks of R19 in order; an accepted write leaves the entry UNKNOWN with nothing counted and nothing
pending and marks a transaction in flight to it; filling an empty entry is no noticed change (the model's choice, log 45). A rewrite of
an entry that was not UNKNOWN is noticed and handed on: a meter's change starts the sample history of every arm that names it afresh
(R55), a monitor's makes both lane permissives false, noticed lane A's first, with the halts of R77, an injector keeps no request and
no unowned shot (R31, R111, log 17); where the kind changes, the owners of both kinds are told (the model's choice, log 16). The whole
effect is stated for arms, monitor and shot queue at rest (R18, R19, R20, R24, R55, R77, R111). -/
def Obligations.DeviceWriteEffect : Prop :=
  ∀ s : State, s.Settled →
    (∀ q : List Byte, s.Reaches (1 + q.length) → (q.length ≠ 6 ∨ (byteAt q 1 ≠ 0#8 ∧ deviceKindOf (byteAt q 2) = none)) →
      exec (.tableWriteDevice q) s = .next (s.shows (.refuse .badFormat))) ∧
    ∀ (ix addr kindCode assocCode tmo lim : Byte) (kind : DeviceKind), s.Reaches 7 → addr ≠ 0#8 →
      deviceKindOf kindCode = some kind →
      let q := [ix, addr, kindCode, assocCode, tmo, lim]
      ((31 < ix.toNat ∨ 126 < addr.toNat ∨ assocOf kind assocCode = none ∨ tmo.toNat < 5 ∨ 100 < tmo.toNat ∨ lim.toNat < 1 ∨
          10 < lim.toNat) → exec (.tableWriteDevice q) s = .next (s.shows (.refuse .badValue))) ∧
      ∀ (i : DevIx) (assoc : Association), ix = BitVec.ofNat 8 i.val → addr.toNat ≤ 126 → assocOf kind assocCode = some assoc →
        5 ≤ tmo.toNat → tmo.toNat ≤ 100 → 1 ≤ lim.toNat → lim.toNat ≤ 10 →
        let d : Device := ⟨addr, kind, assoc, tmo.toNat, lim.toNat, .unknown, 0, none, false, none⟩
        let wrongMode : Prop := s.port.mode ≠ .outOfService ∧
          match s.device i with
          | none => kind = .station ∨ kind = .permissive
          | some o => o.kind ≠ kind ∨ o.assoc ≠ assoc
        let inUse : Prop := ∃ o, s.device i = some o ∧ s.deviceInUse i o = true
        let taken : Prop := ∃ (j : DevIx) (o : Device), j ≠ i ∧ s.device j = some o ∧ o.address = addr
        let u : State := { s with scan := { s.scan with
          devices := s.scan.devices.set i (some d)
          transaction := s.scan.transaction.map fun t => if t.device = i then { t with written := true } else t
          wake := true } }
        (wrongMode → exec (.tableWriteDevice q) s = .next (s.shows (.refuse .wrongMode))) ∧
        (¬ wrongMode → inUse → exec (.tableWriteDevice q) s = .next (s.shows (.refuse .inUse))) ∧
        (¬ wrongMode → ¬ inUse → taken → exec (.tableWriteDevice q) s = .next (s.shows (.refuse .duplicate))) ∧
        (¬ wrongMode → ¬ inUse → ¬ taken →
          (∃ t : State, exec (.tableWriteDevice q) s = .next (State.settle (t.shows .accept)) ∧
            ∀ j : DevIx, t.device j = if j = i then some d else s.device j) ∧
          (s.device i = none → exec (.tableWriteDevice q) s = .next (State.settle (u.shows .accept))) ∧
          ∀ o, s.device i = some o →
            let told := fun k : DeviceKind => o.state ≠ .unknown ∧ (o.kind = k ∨ kind = k)
            let v : State := if o.state = .unknown then u else u.raiseNotice .device (.device i) 0x00#8
            let off := fun (x : State) (l : Lane) => if s.batch.permissive.get l then
              x.raiseNotice .permissive (.lane l) 0x00#8 else x
            let dark : State := off (off { v with batch := { v.batch with permissive := ⟨false, false⟩ } } .a) .b
            ((told .meter → ∀ n a, s.armEntry n = some a → a.meter = i → s.holder n = none) →
              (told .permissive → ∀ n b, s.holder n = some b → b.state.haltable = false) →
              (∀ x, s.slot i = some x → x.queue = []) →
              ∃ t : State, exec (.tableWriteDevice q) s = .next (State.settle (t.shows .accept)) ∧
                (¬ told .permissive → t = { v with
                  meter := t.meter, additive := { s.additive with slots := t.additive.slots } }) ∧
                (told .permissive → t = { dark with
                  meter := t.meter, additive := { s.additive with slots := t.additive.slots } }) ∧
                (∀ n a, s.armEntry n = some a → told .meter → a.meter = i →
                  t.metering n = { s.metering n with history := .fresh, lastTemp := none, hold := 0, unauthorised := 0 }) ∧
                (∀ n, (∀ a, s.armEntry n = some a → ¬ told .meter ∨ a.meter ≠ i) → t.metering n = s.metering n) ∧
                (∀ j, j ≠ i → t.slot j = s.slot j) ∧
                (o.kind = .injector ∨ told .injector → t.slot i = (s.slot i).map fun x =>
                  { x with request := none, flight := x.flight.filter fun f => f.owned }) ∧
                (o.kind ≠ .injector → ¬ told .injector → t.slot i = s.slot i)) ∧
            (told .permissive → ∃ t : State, exec (.tableWriteDevice q) s = .next (State.settle (t.shows .accept)) ∧
              t.batch.permissive = ⟨false, false⟩ ∧
              ∀ n b, s.holder n = some b → b.state.haltable = true → s.batch.permissive.get b.lane = true →
                ∃ c, t.holder n = some c ∧ c.state = .stopping ∧ c.stopReason = some .permissive ∧ (t.arm n).desired = .closed))

/-- Tier 2. TABLE WRITE 01H with address 00H: refused as R19 gives, else the entry is emptied. An empty entry is no change; one that was
present is noticed REMOVED and its owners are told: the sample history of every arm that names a meter starts afresh (R55), both lane
permissives become false without the monitor, with the notices and halts of R77, an injector's request and unowned shot end (R111).
The whole effect is stated for arms, monitor and shot queue at rest (R19, R20, R24, R55, R77, R111). -/
def Obligations.DeviceEmptyEffect : Prop :=
  ∀ s : State, s.Settled →
    (∀ (ix : Byte) (q : List Byte), s.Reaches (3 + q.length) → q.length ≠ 4 →
      exec (.deviceEntryEmpty ix q) s = .next (s.shows (.refuse .badFormat))) ∧
    (∀ (ix : Byte) (q : List Byte), s.Reaches 7 → q.length = 4 → 31 < ix.toNat →
      exec (.deviceEntryEmpty ix q) s = .next (s.shows (.refuse .badValue))) ∧
    ∀ (i : DevIx) (q : List Byte), s.Reaches 7 → q.length = 4 →
      let ix : Byte := BitVec.ofNat 8 i.val
      let u : State := { s with scan := { s.scan with
        devices := s.scan.devices.set i none
        transaction := s.scan.transaction.map fun t => if t.device = i then { t with written := true } else t
        wake := true } }
      (s.device i = none → exec (.deviceEntryEmpty ix q) s = .next (State.settle (u.shows .accept))) ∧
      ∀ o, s.device i = some o →
        (s.port.mode ≠ .outOfService → exec (.deviceEntryEmpty ix q) s = .next (s.shows (.refuse .wrongMode))) ∧
        (s.port.mode = .outOfService → s.deviceInUse i o = true →
          exec (.deviceEntryEmpty ix q) s = .next (s.shows (.refuse .inUse))) ∧
        (s.port.mode = .outOfService → s.deviceInUse i o = false →
          let v : State := u.raiseNotice .device (.device i) 0x05#8
          let off := fun (x : State) (l : Lane) => if s.batch.permissive.get l then
            x.raiseNotice .permissive (.lane l) 0x00#8 else x
          let dark : State := off (off { v with batch := { v.batch with permissive := ⟨false, false⟩ } } .a) .b
          (∃ t : State, exec (.deviceEntryEmpty ix q) s = .next (State.settle (t.shows .accept)) ∧
            ∀ j : DevIx, t.device j = if j = i then none else s.device j) ∧
          ((o.kind = .meter → ∀ n a, s.armEntry n = some a → a.meter = i → s.holder n = none) →
            (o.kind = .permissive → ∀ n b, s.holder n = some b → b.state.haltable = false) →
            ∃ t : State, exec (.deviceEntryEmpty ix q) s = .next (State.settle (t.shows .accept)) ∧
              (o.kind ≠ .permissive → t = { v with
                meter := t.meter, additive := { s.additive with slots := t.additive.slots } }) ∧
              (o.kind = .permissive → t = { dark with
                meter := t.meter, additive := { s.additive with slots := t.additive.slots } }) ∧
              (∀ n a, s.armEntry n = some a → o.kind = .meter → a.meter = i →
                t.metering n = { s.metering n with history := .fresh, lastTemp := none, hold := 0, unauthorised := 0 }) ∧
              (∀ n, (∀ a, s.armEntry n = some a → o.kind ≠ .meter ∨ a.meter ≠ i) → t.metering n = s.metering n) ∧
              (∀ j, j ≠ i → t.slot j = s.slot j) ∧
              (o.kind = .injector → t.slot i = (s.slot i).map fun x =>
                { x with request := none, flight := x.flight.filter fun f => f.owned }) ∧
              (o.kind ≠ .injector → t.slot i = s.slot i)) ∧
          (o.kind = .permissive → ∃ t : State, exec (.deviceEntryEmpty ix q) s = .next (State.settle (t.shows .accept)) ∧
            t.batch.permissive = ⟨false, false⟩ ∧
            ∀ n b, s.holder n = some b → b.state.haltable = true → s.batch.permissive.get b.lane = true →
              ∃ c, t.holder n = some c ∧ c.state = .stopping ∧ c.stopReason = some .permissive ∧ (t.arm n).desired = .closed))

/-- Tier 1. A scan list write replaces the list, sets the pointer to 0 and the wrap mark, in every bay mode (R25); a pass filter write
replaces one kind's set (R35). Their refusals. -/
def Obligations.ScanListAndFilterWrite : Prop :=
  ∀ s : State, s.Settled →
    (∀ l : List DevIx, l.length ≤ 64 → s.Reaches (2 + l.length) →
      exec (.tableWriteScanList (BitVec.ofNat 8 l.length :: l.map fun i => BitVec.ofNat 8 i.val)) s =
        .next (State.settle (State.shows { s with scan := { s.scan with
          list := l, pointer := 0, wrap := true, wake := true } } .accept))) ∧
    (∀ (n : Byte) (l : List Byte), s.Reaches (2 + l.length) →
      (l.length ≠ n.toNat → exec (.tableWriteScanList (n :: l)) s = .next (s.shows (.refuse .badFormat))) ∧
      (l.length = n.toNat → 64 < n.toNat ∨ (∃ b ∈ l, 31 < b.toNat) →
        exec (.tableWriteScanList (n :: l)) s = .next (s.shows (.refuse .badValue)))) ∧
    (s.Reaches 1 → exec (.tableWriteScanList []) s = .next (s.shows (.refuse .badFormat))) ∧
    (∀ k e0 e1 e2 e3 : Byte, s.Reaches 6 →
      (∀ h : k.toNat < 5, exec (.tableWritePassFilter [k, e0, e1, e2, e3]) s = .next (State.shows { s with
        scan := { s.scan with filter := s.scan.filter.set k.toNat (e0 ++ e1 ++ e2 ++ e3) } } .accept)) ∧
      (5 ≤ k.toNat → exec (.tableWritePassFilter [k, e0, e1, e2, e3]) s = .next (s.shows (.refuse .badValue)))) ∧
    (∀ q : List Byte, s.Reaches (1 + q.length) → q.length ≠ 5 →
      exec (.tableWritePassFilter q) s = .next (s.shows (.refuse .badFormat)))

/-- Tier 2. A bay settings write: form and ranges, WRONG MODE while the bay serves with inconsistent tables, CAL LOCKED for a new Tref
with the pad low; else the record is stored, and a new Tref raises the calibration due value, makes or joins a calibration request
and is noticed (R40, R41, R49, R50, R163). -/
def Obligations.BaySettingsWrite : Prop :=
  ∀ (cal : Bool) (s0 : State), s0.Settled →
    let s : State := { s0 with pads := { s0.pads with calEnable := cal } }
    (∀ q : List Byte, s0.Reaches (1 + q.length) → q.length ≠ 7 →
      exec (.tableWriteBaySettings cal q) s0 = .next (s.shows (.refuse .badFormat))) ∧
    ∀ ix e0 e1 e2 e3 e4 e5 : Byte, s0.Reaches 8 →
      let q := [ix, e0, e1, e2, e3, e4, e5]
      let x : Settings := ⟨e0.toNat * 256 + e1.toNat, e2.toNat * 256 + e3.toNat, e4.toNat, e5.toNat⟩
      let good : Prop := ix = 0#8 ∧ (x.tref = 1500 ∨ x.tref = 2000) ∧ 30 ≤ x.overrideWindow ∧ x.overrideWindow ≤ 300 ∧
        2 ≤ x.startWait ∧ x.startWait ≤ 30 ∧ 5 ≤ x.noFlowTimeout ∧ x.noFlowTimeout ≤ 120
      let wrongMode : Prop := s.port.mode ≠ .outOfService ∧ s.inconsistency.isSome
      let u : State := { s with batch := { s.batch with settings := x } }
      let counted : State := { u with note := { u.note with
        calDue := min 999999 (s.note.calDue + 1)
        queue := if s.note.queue.any WriteReq.isCalibration then s.note.queue.map fun r => match r with
            | .note l => .note l
            | .calibration k => .calibration (k + 1)
          else if s.note.writing.isNone then s.note.queue
          else s.note.queue ++ [.calibration 1]
        writing := if s.note.queue.any WriteReq.isCalibration = false ∧ s.note.writing = none then
            some ⟨.calibration 1, s.note.calCounter⟩
          else s.note.writing } }
      (¬ good → exec (.tableWriteBaySettings cal q) s0 = .next (s.shows (.refuse .badValue))) ∧
      (good → wrongMode → exec (.tableWriteBaySettings cal q) s0 = .next (s.shows (.refuse .wrongMode))) ∧
      (good → ¬ wrongMode → x.tref = s.batch.settings.tref → exec (.tableWriteBaySettings cal q) s0 = .next (u.shows .accept)) ∧
      (good → ¬ wrongMode → x.tref ≠ s.batch.settings.tref → cal = false →
        exec (.tableWriteBaySettings cal q) s0 = .next (s.shows (.refuse .calLocked))) ∧
      (good → ¬ wrongMode → x.tref ≠ s.batch.settings.tref → cal = true →
        exec (.tableWriteBaySettings cal q) s0 = .next (State.shows (counted.raiseNotice .calibration .none 0x04#8) .accept))

/-- Tier 2. A product write by the steps of R40: the entry as R42 lays it out is stored for its code when it is in range, the table has
room, the code is in no load, the tables stay consistent while the bay serves, and CAL ENABLE is high where α changes; emptying. An
entry of the wrong length or with an unlisted flag is BAD FORMAT, one with a slot's device index above 31 BAD VALUE; that a slot count
above 3 with the length 4 + 5k is BAD VALUE is the model's choice (log 26) (R40, R42, R43, R49, R50, R51). -/
def Obligations.ProductWriteEffect : Prop :=
  ∀ (cal : Bool) (s0 : State), s0.Settled →
    let s : State := { s0 with pads := { s0.pads with calEnable := cal } }
    let loaded := fun code : Byte => ∃ (l : Lane) (x : Load), (s.lane l).state ≠ .none ∧ (s.lane l).load = some x ∧
      ∃ e ∈ x.entries, e.product = code
    (∀ x : Product, s0.Reaches (2 + x.bytes.length) → x.cls ≤ 254 → x.alpha ≤ 65535 → (∀ r ∈ x.recipe, r.ratio ≤ 65535) →
      let valid : Prop := x.code ≠ 0#8 ∧ x.cls ≤ 15 ∧ 100 ≤ x.alpha ∧ x.alpha ≤ 2000 ∧ x.recipe.length ≤ 3 ∧
        (∀ r ∈ x.recipe, r.additive ≠ 0#8 ∧ 1 ≤ r.ratio ∧ r.ratio ≤ 20000) ∧
        (x.recipe.map fun r => r.additive).Nodup ∧ (x.recipe.map fun r => r.injector).Nodup
      let q := x.code :: x.bytes
      (¬ valid → exec (.tableWriteProduct cal q) s0 = .next (s.shows (.refuse .badValue))) ∧
      (valid → s.product x.code = none → 32 ≤ s.batch.products.length →
        exec (.tableWriteProduct cal q) s0 = .next (s.shows (.refuse .tableFull))) ∧
      (valid → s.product x.code ≠ none ∨ s.batch.products.length < 32 →
        ∃ l : List Product, (∀ c : Byte, (l.find? fun y => y.code = c) = if x.code = c then some x else s.product c) ∧
          (s.batch.products.Pairwise (fun y z => y.code.toNat < z.code.toNat) → l.Pairwise fun y z => y.code.toNat < z.code.toNat) ∧
          let u : State := { s with batch := { s.batch with products := l } }
          let wrongMode : Prop := s.port.mode ≠ .outOfService ∧ u.inconsistency.isSome
          let metro : Prop := ∀ y, s.product x.code = some y → y.alpha ≠ x.alpha
          (loaded x.code → exec (.tableWriteProduct cal q) s0 = .next (s.shows (.refuse .inUse))) ∧
          (¬ loaded x.code → wrongMode → exec (.tableWriteProduct cal q) s0 = .next (s.shows (.refuse .wrongMode))) ∧
          (¬ loaded x.code → ¬ wrongMode → ¬ metro → exec (.tableWriteProduct cal q) s0 = .next (u.shows .accept)) ∧
          (¬ loaded x.code → ¬ wrongMode → metro → cal = false →
            exec (.tableWriteProduct cal q) s0 = .next (s.shows (.refuse .calLocked))) ∧
          (¬ loaded x.code → ¬ wrongMode → metro → cal = true →
            exec (.tableWriteProduct cal q) s0 = .next ((u.calibrate .none 0x05#8).shows .accept)))) ∧
    (∀ code : Byte, s0.Reaches 3 →
      let used : Prop := loaded code ∨ ∃ o ∈ s0.load.orders, ∃ x ∈ o.lines, x.product = code
      let u : State := { s0 with batch := { s0.batch with products := s0.batch.products.filter fun y => y.code ≠ code } }
      let wrongMode : Prop := s0.port.mode ≠ .outOfService ∧ u.inconsistency.isSome
      (code = 0#8 → exec (.productEmpty code []) s0 = .next (s0.shows (.refuse .badValue))) ∧
      (code ≠ 0#8 → used → exec (.productEmpty code []) s0 = .next (s0.shows (.refuse .inUse))) ∧
      (code ≠ 0#8 → ¬ used → wrongMode → exec (.productEmpty code []) s0 = .next (s0.shows (.refuse .wrongMode))) ∧
      (code ≠ 0#8 → ¬ used → ¬ wrongMode → exec (.productEmpty code []) s0 = .next (u.shows .accept)) ∧
      ∀ q : List Byte, q ≠ [] → s0.Reaches (3 + q.length) →
        exec (.productEmpty code q) s0 = .next (s0.shows (.refuse .badFormat))) ∧
    (∀ q : List Byte, s0.Reaches (1 + q.length) →
      let k := (byteAt q 4).toNat
      let listed : Prop := ∀ j, j < k → (byteAt q (9 + 5 * j)).toNat ≤ 1
      (byteAt q 1 = 0xFF#8 → q.length ≠ 2 → exec (.tableWriteProduct cal q) s0 = .next (s.shows (.refuse .badFormat))) ∧
      (byteAt q 1 ≠ 0xFF#8 → (q.length < 5 ∨ q.length ≠ 5 + 5 * k ∨ ¬ listed) →
        exec (.tableWriteProduct cal q) s0 = .next (s.shows (.refuse .badFormat))) ∧
      (byteAt q 1 ≠ 0xFF#8 → q.length = 5 + 5 * k → listed → (∃ j, j < k ∧ 31 < (byteAt q (6 + 5 * j)).toNat) →
        exec (.tableWriteProduct cal q) s0 = .next (s.shows (.refuse .badValue))))

/-- Tier 2. An arm write by the steps of R40: the entry as R44 lays it out is stored when it is valid, the arm is free, the tables stay
consistent while the bay serves, and CAL ENABLE is high where Km or curve change; the stop lead becomes the initial one, the reported
stage becomes absent with another valve, the metering record starts afresh; emptying. An entry of the wrong length or with an unlisted
lane reach is BAD FORMAT, one with an arm above 5 or a device index above 31 BAD VALUE; that a curve count of 0 or above 4 with the
length 59 + 5c is BAD VALUE is the model's choice (log 26) (R40, R44, R45, R46, R49, R50, R51, R54). -/
def Obligations.ArmWriteEffect : Prop :=
  ∀ (cal : Bool) (s0 : State), s0.Settled →
    let s : State := { s0 with pads := { s0.pads with calEnable := cal } }
    (∀ (n : Arm) (e : ArmEntry), s0.Reaches (2 + e.bytes.length) → e.km < 2 ^ 32 → e.maxPulses < 2 ^ 24 →
      (∀ x ∈ [e.maxFlow, e.startup, e.slowdown, e.leadInitial, e.leadMin, e.leadMax, e.cutoff, e.leak], x < 2 ^ 16) →
      (∀ x ∈ e.curve, x.1 < 2 ^ 16 ∧ x.2 < 2 ^ 24) →
      let valid : Prop := 1000 ≤ e.km ∧ e.km ≤ 9999999 ∧ 1 ≤ e.curve.length ∧ e.curve.length ≤ 4 ∧
        (∀ x ∈ e.curve, 1 ≤ x.1 ∧ x.1 ≤ 9999 ∧ 90000 ≤ x.2 ∧ x.2 ≤ 110000) ∧ e.curve.Pairwise (fun x y => x.1 < y.1) ∧
        1 ≤ e.maxPulses ∧ 1 ≤ e.maxFlow ∧ e.maxFlow ≤ 9999 ∧ e.startup ≤ 2000 ∧ e.slowdown ≤ 5000 ∧ e.leadMax ≤ 5000 ∧
        e.cutoff ≤ 2000 ∧ e.leadMin ≤ e.leadInitial ∧ e.leadInitial ≤ e.leadMax
      let q := BitVec.ofNat 8 n.val :: e.bytes
      let u : State := { s with
        batch := { s.batch with
          armTable := s.batch.armTable.set n (some e)
          arms := s.batch.arms.set n { s.arm n with
            stopLead := some e.leadInitial
            reported := if (s.armEntry n).any fun o => o.valve = e.valve then (s.arm n).reported else none } }
        meter := s.meter.set n ⟨.fresh, 0#32, none, 0, 0, 0, 0, 0⟩
        scan := { s.scan with wake := true } }
      let wrongMode : Prop := s.port.mode ≠ .outOfService ∧ u.inconsistency.isSome
      let metro : Prop := ∀ o, s.armEntry n = some o → o.km ≠ e.km ∨ o.curve ≠ e.curve
      (¬ valid → exec (.tableWriteArm cal q) s0 = .next (s.shows (.refuse .badValue))) ∧
      (valid → (s.holder n).isSome → exec (.tableWriteArm cal q) s0 = .next (s.shows (.refuse .inUse))) ∧
      (valid → s.holder n = none → wrongMode → exec (.tableWriteArm cal q) s0 = .next (s.shows (.refuse .wrongMode))) ∧
      (valid → s.holder n = none → ¬ wrongMode → ¬ metro →
        exec (.tableWriteArm cal q) s0 = .next (State.settle (u.shows .accept))) ∧
      (valid → s.holder n = none → ¬ wrongMode → metro → cal = false →
        exec (.tableWriteArm cal q) s0 = .next (s.shows (.refuse .calLocked))) ∧
      (valid → s.holder n = none → ¬ wrongMode → metro → cal = true →
        exec (.tableWriteArm cal q) s0 = .next (State.settle ((u.calibrate (.arm n) 0x06#8).shows .accept)))) ∧
    (∀ n : Arm, s0.Reaches 3 →
      let ix : Byte := BitVec.ofNat 8 n.val
      let u : State := { s0 with
        batch := { s0.batch with
          armTable := s0.batch.armTable.set n none
          arms := s0.batch.arms.set n { s0.arm n with stopLead := none, reported := none } }
        meter := s0.meter.set n ⟨.fresh, 0#32, none, 0, 0, 0, 0, 0⟩
        scan := { s0.scan with wake := true } }
      let wrongMode : Prop := s0.port.mode ≠ .outOfService ∧ u.inconsistency.isSome
      ((s0.holder n).isSome → exec (.armEmpty ix []) s0 = .next (s0.shows (.refuse .inUse))) ∧
      (s0.holder n = none → wrongMode → exec (.armEmpty ix []) s0 = .next (s0.shows (.refuse .wrongMode))) ∧
      (s0.holder n = none → ¬ wrongMode → exec (.armEmpty ix []) s0 = .next (State.settle (u.shows .accept)))) ∧
    (∀ (ix : Byte) (q : List Byte), s0.Reaches (3 + q.length) →
      (q ≠ [] → exec (.armEmpty ix q) s0 = .next (s0.shows (.refuse .badFormat))) ∧
      (q = [] → 5 < ix.toNat → exec (.armEmpty ix q) s0 = .next (s0.shows (.refuse .badValue)))) ∧
    (∀ q : List Byte, s0.Reaches (1 + q.length) →
      let long : Prop := 9 ≤ q.length ∧ q.length = 60 + 5 * (byteAt q 8).toNat
      (byteAt q 1 = 0xFF#8 → q.length ≠ 2 → exec (.tableWriteArm cal q) s0 = .next (s.shows (.refuse .badFormat))) ∧
      (byteAt q 1 ≠ 0xFF#8 → (2 < (byteAt q 1).toNat ∨ ¬ long) →
        exec (.tableWriteArm cal q) s0 = .next (s.shows (.refuse .badFormat))) ∧
      ((byteAt q 1).toNat ≤ 2 → long → (5 < (byteAt q 0).toNat ∨ 31 < (byteAt q 2).toNat ∨ 31 < (byteAt q 3).toNat) →
        exec (.tableWriteArm cal q) s0 = .next (s.shows (.refuse .badValue))))

/-- Tier 2. An injector write by the steps of R40: the entry as R47 lays it out is stored beside the scheduler's records when it is
valid, the table has room, the injector is not in use and the tables stay consistent while the bay serves; no injector write is a
metrological change; emptying ends the scheduler's hold on the index and its request. An entry of the wrong length or with an unlisted
mode is BAD FORMAT, one with an index above 31 or an outlet above 5 BAD VALUE (that the outlet map byte is a range and not a coded
field is the model's choice, log 26). A rewrite leaves a request that still waits as it is (the model's choice, log 51). A new stream
record's baseline and start dose of 0 are the model's choice (log 41), its three marks the model's reading (log 29) (R40, R47, R48,
R49, R51, R112). -/
def Obligations.InjectorWriteEffect : Prop :=
  ∀ s : State, s.Settled →
    let used := fun i : DevIx => (∃ x, s.slot i = some x ∧ (x.queue ≠ [] ∨ x.stream.state ≠ .idle ∨ x.flight.isSome)) ∨
      ∃ n : Arm, ∃ c ∈ s.schedules n, c.injector = i
    let count := (allDevIx.filter fun j => (s.slot j).isSome).length
    (∀ (i : DevIx) (e : InjectorEntry), s.Reaches 16 → e.shotSize < 2 ^ 16 → e.tolerance < 256 → e.shotTimeout < 2 ^ 16 →
      e.streamMin < 2 ^ 16 → (∀ (n : Arm) (k : Nat), e.outlets[n] = some k → k ≤ 5) →
      let valid : Prop := 1 ≤ e.shotSize ∧ e.shotSize ≤ 5000 ∧ 1 ≤ e.tolerance ∧ e.tolerance ≤ 20 ∧ 200 ≤ e.shotTimeout ∧
        e.shotTimeout ≤ 5000 ∧ 1 ≤ e.streamMin ∧ e.streamMin ≤ 50000 ∧ (∃ n : Arm, (e.outlets[n]).isSome) ∧
        (∀ (m n : Arm) (k : Nat), e.outlets[m] = some k → e.outlets[n] = some k → m = n) ∧
        (e.mode = .stream → ∀ m n : Arm, (e.outlets[m]).isSome → (e.outlets[n]).isSome → m = n)
      let q := BitVec.ofNat 8 i.val :: e.bytes
      let u : State := { s with additive := { s.additive with slots := s.additive.slots.set i (some
        (match s.slot i with
          | none => ⟨e, [], none, none, ⟨.idle, 1, false, 0#32, 0, false, false, false⟩⟩
          | some x => { x with entry := e })) } }
      let wrongMode : Prop := s.port.mode ≠ .outOfService ∧ u.inconsistency.isSome
      (¬ valid → exec (.tableWriteInjector q) s = .next (s.shows (.refuse .badValue))) ∧
      (valid → s.slot i = none → 8 ≤ count → exec (.tableWriteInjector q) s = .next (s.shows (.refuse .tableFull))) ∧
      (valid → s.slot i ≠ none ∨ count < 8 → used i → exec (.tableWriteInjector q) s = .next (s.shows (.refuse .inUse))) ∧
      (valid → s.slot i ≠ none ∨ count < 8 → ¬ used i → wrongMode →
        exec (.tableWriteInjector q) s = .next (s.shows (.refuse .wrongMode))) ∧
      (valid → s.slot i ≠ none ∨ count < 8 → ¬ used i → ¬ wrongMode →
        exec (.tableWriteInjector q) s = .next (u.shows .accept))) ∧
    (∀ i : DevIx, s.Reaches 3 →
      let ix : Byte := BitVec.ofNat 8 i.val
      let u : State := { s with additive := { s.additive with slots := s.additive.slots.set i none } }
      let wrongMode : Prop := s.port.mode ≠ .outOfService ∧ u.inconsistency.isSome
      (used i → exec (.injectorEmpty ix []) s = .next (s.shows (.refuse .inUse))) ∧
      (¬ used i → wrongMode → exec (.injectorEmpty ix []) s = .next (s.shows (.refuse .wrongMode))) ∧
      (¬ used i → ¬ wrongMode → exec (.injectorEmpty ix []) s = .next (u.shows .accept))) ∧
    (∀ (ix : Byte) (q : List Byte), s.Reaches (3 + q.length) →
      (q ≠ [] → exec (.injectorEmpty ix q) s = .next (s.shows (.refuse .badFormat))) ∧
      (q = [] → 31 < ix.toNat → exec (.injectorEmpty ix q) s = .next (s.shows (.refuse .badValue)))) ∧
    (∀ q : List Byte, s.Reaches (1 + q.length) →
      (byteAt q 1 = 0xFF#8 → q.length ≠ 2 → exec (.tableWriteInjector q) s = .next (s.shows (.refuse .badFormat))) ∧
      (byteAt q 1 ≠ 0xFF#8 → (1 < (byteAt q 1).toNat ∨ q.length ≠ 15) →
        exec (.tableWriteInjector q) s = .next (s.shows (.refuse .badFormat))) ∧
      ((byteAt q 1).toNat ≤ 1 → q.length = 15 →
        (31 < (byteAt q 0).toNat ∨ ∃ j, j < 6 ∧ byteAt q (4 + j) ≠ 0xFF#8 ∧ 5 < (byteAt q (4 + j)).toNat) →
        exec (.tableWriteInjector q) s = .next (s.shows (.refuse .badValue))))

/-- Tier 1. TABLE READ of every table answers the entry in the form it is written with the extra fields of its chapter, is refused
NOT FOUND for an empty entry and BAD VALUE outside the index range, and changes nothing (R18, R25, R35, R39, R41, R42, R44, R47). Three
of its clauses are the model's choice (log 27): the scan list is answered at every index byte, an index above 31 of the device table is
BAD VALUE, and a payload of another length is BAD FORMAT. -/
def Obligations.TableReadAnswers : Prop :=
  ∀ (ix : Byte) (s : State), s.Settled → s.Reaches 2 →
    (31 < ix.toNat → exec (.tableReadDevice [ix]) s = .next (s.shows (.refuse .badValue)) ∧
      exec (.tableReadInjector [ix]) s = .next (s.shows (.refuse .badValue))) ∧
    (∀ i : DevIx, ix = BitVec.ofNat 8 i.val →
      (s.device i = none → exec (.tableReadDevice [ix]) s = .next (s.shows (.refuse .notFound))) ∧
      (∀ d, s.device i = some d → exec (.tableReadDevice [ix]) s = .next (s.shows (.data [d.address, d.kind.code, d.assoc.code,
        BitVec.ofNat 8 d.timeout, BitVec.ofNat 8 d.missLimit, d.state.code, BitVec.ofNat 8 d.misses,
        match d.state with
        | .faulted .device => 0x01#8
        | .faulted .part => 0x02#8
        | _ => 0x00#8]))) ∧
      (s.slot i = none → exec (.tableReadInjector [ix]) s = .next (s.shows (.refuse .notFound))) ∧
      (∀ x, s.slot i = some x → exec (.tableReadInjector [ix]) s = .next (s.shows (.data ([match x.entry.mode with
          | .shot => 0x00#8
          | .stream => 0x01#8] ++ beBytes 2 x.entry.shotSize ++
        (allArms.map fun n => match x.entry.outlets[n] with
          | none => 0xFF#8
          | some k => BitVec.ofNat 8 k) ++ [BitVec.ofNat 8 x.entry.tolerance] ++ beBytes 2 x.entry.shotTimeout ++
        beBytes 2 x.entry.streamMin))))) ∧
    exec (.tableReadScanList [ix]) s = .next (s.shows (.data ([BitVec.ofNat 8 s.scan.list.length, BitVec.ofNat 8 s.scan.pointer,
      if s.scan.wrap then 0x01#8 else 0x00#8] ++ s.scan.list.map fun i => BitVec.ofNat 8 i.val))) ∧
    (∀ h : ix.toNat < 5, exec (.tableReadPassFilter [ix]) s =
      .next (s.shows (.data (beBytes 4 (s.scan.filter[ix.toNat]).toNat)))) ∧
    (5 ≤ ix.toNat → exec (.tableReadPassFilter [ix]) s = .next (s.shows (.refuse .badValue))) ∧
    (ix = 0#8 → exec (.tableReadBaySettings [ix]) s = .next (s.shows (.data (beBytes 2 s.batch.settings.tref ++
      beBytes 2 s.batch.settings.overrideWindow ++ [BitVec.ofNat 8 s.batch.settings.startWait,
        BitVec.ofNat 8 s.batch.settings.noFlowTimeout])))) ∧
    (ix ≠ 0#8 → exec (.tableReadBaySettings [ix]) s = .next (s.shows (.refuse .badValue))) ∧
    (ix = 0#8 → exec (.tableReadProduct [ix]) s = .next (s.shows (.data (BitVec.ofNat 8 s.batch.products.length ::
      s.batch.products.map fun x => x.code)))) ∧
    (ix ≠ 0#8 → s.product ix = none → exec (.tableReadProduct [ix]) s = .next (s.shows (.refuse .notFound))) ∧
    (∀ x, ix ≠ 0#8 → s.product ix = some x → exec (.tableReadProduct [ix]) s = .next (s.shows (.data (
      [BitVec.ofNat 8 x.cls] ++ beBytes 2 x.alpha ++ [BitVec.ofNat 8 x.recipe.length] ++ x.recipe.flatMap fun r =>
        [r.additive, BitVec.ofNat 8 r.injector.val] ++ beBytes 2 r.ratio ++ [if r.required then 0x00#8 else 0x01#8])))) ∧
    (5 < ix.toNat → exec (.tableReadArm [ix]) s = .next (s.shows (.refuse .badValue))) ∧
    (∀ n : Arm, ix = BitVec.ofNat 8 n.val →
      (s.armEntry n = none → exec (.tableReadArm [ix]) s = .next (s.shows (.refuse .notFound))) ∧
      (∀ e lead, s.armEntry n = some e → (s.arm n).stopLead = some lead →
        exec (.tableReadArm [ix]) s = .next (s.shows (.data ([match e.reach with
            | .a => 0x00#8
            | .b => 0x01#8
            | .both => 0x02#8, BitVec.ofNat 8 e.meter.val, BitVec.ofNat 8 e.valve.val] ++ beBytes 4 e.km ++
          [BitVec.ofNat 8 e.curve.length] ++ (e.curve.flatMap fun x => beBytes 2 x.1 ++ beBytes 3 x.2) ++ beBytes 3 e.maxPulses ++
          beBytes 2 e.maxFlow ++ beBytes 2 e.startup ++ beBytes 2 e.slowdown ++ beBytes 2 e.leadInitial ++ beBytes 2 e.leadMin ++
          beBytes 2 e.leadMax ++ beBytes 2 e.cutoff ++ beBytes 2 e.leak ++
          ((List.range 32).map fun j => (e.allowed >>> (8 * j)).setWidth 8) ++ beBytes 2 lead))))) ∧
    (∀ q : List Byte, q.length ≠ 1 → s.Reaches (1 + q.length) →
      ∀ c ∈ [Instr.tableReadDevice q, .tableReadScanList q, .tableReadPassFilter q, .tableReadBaySettings q, .tableReadProduct q,
        .tableReadArm q, .tableReadInjector q, .consistencyReport q], exec c s = .next (s.shows (.refuse .badFormat)))

/-- Tier 2. The consistency report: 00H exactly when the five conditions of R52 hold, else the number of the first that fails with the
first arm, lane or product at which it fails (R52); another index than 00H is BAD VALUE, as the model reads R39 (log 27). What stands
for a condition without a place is the model's reading (log 28). -/
def Obligations.ConsistencyReported : Prop :=
  ∀ s : State, s.Settled → s.Reaches 2 →
    let c1 : Prop := ∃ n : Arm, (s.armEntry n).isSome
    let c2 := fun n : Arm => ∀ e, s.armEntry n = some e →
      (∃ d, s.device e.meter = some d ∧ d.kind = .meter ∧ d.assoc = .arm n) ∧
        ∃ d, s.device e.valve = some d ∧ d.kind = .valve ∧ d.assoc = .arm n
    let c3 := fun l : Lane => ∃ i : DevIx, ∀ j : DevIx,
      (∃ d, s.device j = some d ∧ d.kind = .station ∧ d.assoc = .lane l) ↔ j = i
    let c4 : Prop := ∃ i : DevIx, ∀ j : DevIx, (∃ d, s.device j = some d ∧ d.kind = .permissive) ↔ j = i
    let c5 := fun p : Product => ∀ r ∈ p.recipe, (∃ d, s.device r.injector = some d ∧ d.kind = .injector) ∧
      ∃ x, s.slot r.injector = some x ∧ ∀ (n : Arm) (e : ArmEntry), s.armEntry n = some e →
        e.allowed.getLsbD p.code.toNat = true → (x.entry.outlets[n]).isSome
    (s.inconsistency = none ↔ c1 ∧ (∀ n, c2 n) ∧ (∀ l, c3 l) ∧ c4 ∧ ∀ p ∈ s.batch.products, c5 p) ∧
    (s.inconsistency = none → exec (.consistencyReport [0x00#8]) s = .next (s.shows (.data [0x00#8, 0xFF#8]))) ∧
    (¬ c1 → exec (.consistencyReport [0x00#8]) s = .next (s.shows (.data [0x01#8, 0xFF#8]))) ∧
    (∀ n : Arm, c1 → ¬ c2 n → (∀ m : Arm, m < n → c2 m) →
      exec (.consistencyReport [0x00#8]) s = .next (s.shows (.data [0x02#8, BitVec.ofNat 8 n.val]))) ∧
    (c1 → (∀ n, c2 n) → ¬ c3 .a → exec (.consistencyReport [0x00#8]) s = .next (s.shows (.data [0x03#8, 0x00#8]))) ∧
    (c1 → (∀ n, c2 n) → c3 .a → ¬ c3 .b → exec (.consistencyReport [0x00#8]) s = .next (s.shows (.data [0x03#8, 0x01#8]))) ∧
    (c1 → (∀ n, c2 n) → (∀ l, c3 l) → ¬ c4 → exec (.consistencyReport [0x00#8]) s = .next (s.shows (.data [0x04#8, 0xFF#8]))) ∧
    (∀ (before : List Product) (p : Product) (after : List Product), c1 → (∀ n, c2 n) → (∀ l, c3 l) → c4 →
      s.batch.products = before ++ p :: after → (∀ q ∈ before, c5 q) → ¬ c5 p →
      exec (.consistencyReport [0x00#8]) s = .next (s.shows (.data [0x05#8, p.code]))) ∧
    (∀ ix : Byte, ix ≠ 0#8 → exec (.consistencyReport [ix]) s = .next (s.shows (.refuse .badValue)))

/-! ### The Bay Bus -/

/-- Tier 1. PASSTHROUGH: the six checks of R36 in order, then the slot holds the telegram. The reply of a passthrough transaction: slot
empty, PASSTHROUGH notice REPLY with kind and payload, device state and miss count as they were (R37). -/
def Obligations.PassthroughServed : Prop :=
  (∀ s : State, s.Settled →
    (∀ q : List Byte, s.Reaches q.length → (q.length < 2 ∨ 66 < q.length) →
      exec (.passthrough q) s = .next (s.shows (.refuse .badFormat))) ∧
    ∀ (ix kind : Byte) (payload : List Byte), payload.length ≤ 64 → s.Reaches (2 + payload.length) →
      let q := ix :: kind :: payload
      (31 < ix.toNat → exec (.passthrough q) s = .next (s.shows (.refuse .badValue))) ∧
      ∀ i : DevIx, ix = BitVec.ofNat 8 i.val →
        (s.device i = none → exec (.passthrough q) s = .next (s.shows (.refuse .notFound))) ∧
        ∀ d, s.device i = some d →
          let allowed : Prop := 0x60 ≤ kind.toNat ∧ kind.toNat ≤ 0x7F ∧
            (s.scan.filter[d.kind.index]).getLsbD (kind.toNat - 0x60) = true
          let inUse : Prop := (∃ n : Arm, (d.kind = .meter ∨ d.kind = .valve) ∧ d.assoc = .arm n ∧ (s.holder n).isSome) ∨
            (d.kind = .injector ∧ ∃ x, s.slot i = some x ∧ (x.queue ≠ [] ∨ x.stream.state ≠ .idle))
          (¬ allowed → exec (.passthrough q) s = .next (s.shows (.refuse .notAllowed))) ∧
          (allowed → inUse → exec (.passthrough q) s = .next (s.shows (.refuse .inUse))) ∧
          (allowed → ¬ inUse → s.scan.slot.isSome → exec (.passthrough q) s = .next (s.shows (.refuse .busy))) ∧
          (allowed → ¬ inUse → s.scan.slot = none → exec (.passthrough q) s = .next (State.settle (State.shows { s with
            scan := { s.scan with slot := some ⟨i, kind, payload⟩, wake := true } } .accept)))) ∧
  (∀ (kind : Byte) (payload : List Byte) (s : State) (t : Transaction) (d : Device), s.Settled → s.AwaitsReply t d →
    t.step = .passthrough → t.telegram.isDiagnostic = true → 0x60 ≤ kind.toNat → kind.toNat ≤ 0x7F → payload.length ≤ 32 →
    exec (.diagnosticReply kind payload) s = .next (State.settle (State.raiseNoticeAt { s with
      scan := { s.scan with
        devices := s.scan.devices.map fun e => e.map fun e => { e with retryHold := false }
        transaction := none
        slot := none
        wake := true }
      pads := { s.pads with bde := false } } .passthrough (.device t.device) 0x00#8 s.time.record (some (kind, payload)))))

/-- Tier 1. At the last stop bit of a reply TDE is released and the reply is no longer pending (R9). At the last stop bit of a
telegram BDE is released and the response timeout runs (R12); a character still held is then taken, which only counts its error (R4,
R13; that it is taken here at the latest, where no earlier command said that the buffer freed, is the model's choice, log 11). The end
of the 100 ms after RESTART makes the scanner pick (R38). That the two latter change nothing where no telegram is being sent, and
outside the quiet time, is the model's reading of a timer that does not run (log 2). -/
def Obligations.LinesReleased : Prop :=
  ∀ s : State, s.Settled →
    exec .replySent s = .next { s with port := { s.port with reply := none }, pads := { s.pads with tde := false } } ∧
    (∀ t, s.scan.transaction = some t → t.sent = false → exec .telegramSent s = .next { s with
      scan := { s.scan with
        transaction := some { t with sent := true }
        rx := { s.scan.rx with held := none }
        counters := match s.scan.rx.held with
          | none => s.scan.counters
          | some c => s.scan.counters.countError (BusChar.error c) }
      pads := { s.pads with bde := false } }) ∧
    ((∀ t, s.scan.transaction = some t → t.sent = true) → exec .telegramSent s = .next s) ∧
    (s.scan.quiet = true → exec .restartQuietEnd s = .next (State.settle { s with
      scan := { s.scan with quiet := false, wake := true } })) ∧
    (s.scan.quiet = false → exec .restartQuietEnd s = .next s)

/-- Tier 2. The response timeout is a miss: below the miss limit the count rises by one and the state stands; at the limit the device
goes SILENT unless its source is PART, noticed once, and a valve's silence halts the batches of its arms VALVE LOST (R22, R24, R87); a
VALVE SET sets the retry hold, steps 3 to 5 clear the holds (R30); a passthrough ends NO REPLY (R37). A missed request of step 3 is
told to the additive scheduler: a SHOT goes to AWAITING, a SHOT QUERY fails the attempt, which is reissued once and then declared
failed, a STREAM START or STOP is posted again on attempt 1, and counts as not taken until the scanner takes it (the model's reading,
log 29) (R31, R104, R106, R107, R112). An entry written meanwhile is left alone, and its asker is told the miss all the same (R20, log
15). A timeout without a telegram sent changes nothing (the model's reading, log 2). -/
def Obligations.ResponseTimeoutMiss : Prop :=
  ∀ s : State, s.Settled →
    ((∀ t, s.scan.transaction = some t → t.sent = false) → exec .responseTimeout s = .next s) ∧
    ∀ t, s.scan.transaction = some t → t.sent = true →
      let u := s.freed t.step
      let close : Prop := t.step = .urgentClose ∨ t.step = .valve
      (t.step = .passthrough → exec .responseTimeout s = .next (State.settle (State.raiseNotice { u with
        scan := { u.scan with slot := none } } .passthrough (.device t.device) 0x01#8))) ∧
      (t.step = .scan → t.written = true → exec .responseTimeout s = .next u.settle) ∧
      (close → t.written = true → exec .responseTimeout s = .next u.settle) ∧
      (∀ d, s.device t.device = some d → t.written = false →
        (d.misses + 1 < d.missLimit → t.step = .scan → exec .responseTimeout s = .next (State.settle { u with
          scan := { u.scan with devices := u.scan.devices.set t.device (some { d with
            misses := d.misses + 1, retryHold := false }) } })) ∧
        (d.misses + 1 < d.missLimit → close → exec .responseTimeout s = .next (State.settle { u with
          scan := { u.scan with devices := u.scan.devices.set t.device (some { d with
            misses := d.misses + 1, retryHold := true }) } })) ∧
        (d.missLimit ≤ d.misses + 1 → t.step = .scan ∨ close → ∃ v : State, exec .responseTimeout s = .next (State.settle v) ∧
          (∃ e, v.device t.device = some e ∧ e.misses = d.missLimit ∧ e.kind = d.kind ∧ e.assoc = d.assoc ∧ e.address = d.address ∧
            (close → e.retryHold = true) ∧ (e.state = if d.state = .faulted .part then .faulted .part else .silent)) ∧
          (d.kind = .station → d.state ≠ .silent → d.state ≠ .faulted .part →
            v.port = (s.raiseNotice .device (.device t.device) 0x02#8).port) ∧
          (d.kind = .valve → d.state ≠ .silent → d.state ≠ .faulted .part → ∀ n a b, s.armEntry n = some a →
            a.valve = t.device → s.holder n = some b → b.state.haltable = true →
            ∃ c, v.holder n = some c ∧ c.state = .stopping ∧ c.stopReason = some .valveLost ∧ (v.arm n).desired = .closed))) ∧
      (t.step = .injector → (t.written = false → ∀ d, s.device t.device = some d → d.misses + 1 < d.missLimit) →
        let m : State := match t.written, s.device t.device with
          | false, some d => { u with scan := { u.scan with devices := u.scan.devices.set t.device (some { d with
              misses := d.misses + 1, retryHold := false }) } }
          | _, _ => u
        let slotIs := fun y : InjectorSlot => { m with additive := { m.additive with
          slots := m.additive.slots.set t.device (some y) } }
        (s.slot t.device = none → exec .responseTimeout s = .next m.settle) ∧
        ∀ x, s.slot t.device = some x →
          (∀ f outlet dose, t.telegram = .shot outlet dose → x.flight = some f → f.phase = .sending → x.request = none →
            exec .responseTimeout s = .next (State.settle (slotIs { x with
              flight := some { f with phase := .awaiting, timer := some f.timeout } }))) ∧
          (∀ f c, t.telegram = .shotQuery → x.flight = some f → f.phase = .querying → f.owned = true → x.request = none →
            s.schedule f.arm t.device = some c → c.state = .active →
            (f.attempt = 1 → exec .responseTimeout s = .next (State.settle (slotIs { x with
              flight := some { f with attempt := 2, busy := 0, phase := .sending, timer := none }
              request := some (.shot f.outlet f.dose) }))) ∧
            (f.attempt = 2 → ∀ d, s.device t.device = some d → d.kind = .injector →
              ∃ v : State, exec .responseTimeout s = .next (State.settle v) ∧
                ∃ e, v.device t.device = some e ∧ e.state = .faulted .part)) ∧
          (∀ n c outlet ratio, t.telegram = .streamStart outlet ratio → x.stream.state = .starting → x.stream.taken = true →
            x.stream.stopWanted = false → x.stream.attempt = 1 → x.entry.servedArm = some n → s.schedule n t.device = some c →
            exec .responseTimeout s = .next (State.settle (slotIs { x with
              stream := { x.stream with attempt := 2, taken := false }, request := some (.streamStart c.outlet c.ratio) }))) ∧
          (t.telegram = .streamStop → x.stream.state = .stopping → x.stream.taken = true → x.stream.once = false →
            x.stream.attempt = 1 → exec .responseTimeout s = .next (State.settle (slotIs { x with
              stream := { x.stream with attempt := 2, taken := false, stopWanted := false }, request := some .streamStop })))) ∧
      (∀ d x f outlet dose, t.step = .injector → t.written = false → s.device t.device = some d → d.kind = .injector →
        d.missLimit ≤ d.misses + 1 → t.telegram = .shot outlet dose → s.slot t.device = some x → x.entry.mode = .shot →
        x.flight = some f → f.owned = true → f.phase = .sending → x.request = none →
        ∃ v : State, exec .responseTimeout s = .next (State.settle v) ∧
          (v.slot t.device = some { x with flight := some { f with phase := .awaiting, timer := some f.timeout } }) ∧
          ∃ e, v.device t.device = some e ∧ e.misses = d.missLimit ∧
            e.state = if d.state = .faulted .part then .faulted .part else .silent)

/-- Tier 2. A valid reply that R28 does not accept ends the transaction as a miss, as the response timeout would, and counts in no error
counter; one to an entry written meanwhile likewise (R20, R28). A reply of a diagnostic kind to a telegram of another kind breaks the
reply and counts in CHECK (R13); with no transaction in flight a reply changes nothing. -/
def Obligations.UnacceptedReplyIsMiss : Prop :=
  ∀ (r : DeviceReply) (s : State), s.Settled → replyFits r = true → s.scan.rx = ⟨[], false, none⟩ →
    ((∀ t, s.scan.transaction = some t → t.sent = false) → exec (.unacceptedReply r) s = .next s) ∧
    ∀ t d, s.AwaitsReply t d →
      let kinds : List Byte := match d.kind with
        | .meter => [0x41#8]
        | .valve => [0x42#8]
        | .injector => [0x43#8, 0x44#8]
        | .station => [0x45#8]
        | .permissive => [0x46#8]
      let diagnostic : Prop := 0x60 ≤ (replyKind r).toNat
      (diagnostic → t.telegram.isDiagnostic = false → exec (.unacceptedReply r) s = .next { s with scan := { s.scan with
        rx := ⟨[], true, none⟩, counters := { s.scan.counters with check := min 65535 (s.scan.counters.check + 1) } } }) ∧
      ((t.step ≠ .passthrough ∧ replyKind r ∉ kinds ∧ (diagnostic → t.telegram.isDiagnostic = true)) ∨
          (t.step = .passthrough ∧ ¬ diagnostic) →
        ∃ v : State, exec (.unacceptedReply r) s = .next v ∧ exec .responseTimeout s = .next v) ∧
      ((diagnostic → t.telegram.isDiagnostic = true) →
        exec (.unacceptedReply r) { s with scan := { s.scan with transaction := some { t with written := true } } } =
          exec .responseTimeout { s with scan := { s.scan with transaction := some { t with written := true } } })

/-- Tier 2. One character on the Bay Bus: gated off while BDE is asserted (R2), unless it completes in the 4 bit times before the
telegram picked last begins (R27, the mark `gap`, log 7); held while the buffer cannot accept it, and taken when the buffer frees
(R4); lost to an occupied held stage, which counts an overrun and breaks a reply in progress (R4, R5, R13); with no telegram sent, so
also in that gap behind a valid reply, or in a broken reply it only counts its error (R13). In a reply, at whatever place, a character
error or a set ninth bit breaks it; so do another address at the first place, an unlisted kind at the second, a length above 64 at the
third, and a failed check or a misfit payload at the last; any other good byte joins the buffer (R13, R15). The character that
completes a valid reply does what the command of that reply does (R13, log 10). A character that finds an untaken one held and can
itself be accepted comes behind it: the held one is judged first, as if it had come just then, and where that one completes the reply
the other, if good, leaves no trace (R4, R13). The marks `blocked` and `frees`, that a break waits in the held stage, and that a lost
character counts as overrun alone, are the model's choices (logs 11, 42, 44); that a break taken first after the telegram breaks the
reply behind it is the model's reading (log 43). -/
def Obligations.BusCharacterJudged : Prop :=
  ∀ (c : BusChar) (s : State), s.Settled →
    let shut : Prop := s.pads.bde = true ∧ c.gap = false
    (shut → exec (.busCharacter c) s = .next s) ∧
    (¬ shut → c.blocked = true → s.scan.rx.held = none →
      (c.frees = false →
        exec (.busCharacter c) s = .next { s with scan := { s.scan with rx := { s.scan.rx with held := some c } } }) ∧
      (c.frees = true → exec (.busCharacter c) s = exec (.busCharacter { c with blocked := false }) s)) ∧
    (¬ shut → c.blocked = true → ∀ held : BusChar, s.scan.rx.held = some held →
      let counted : BusCounters := { s.scan.counters with overrun := min 65535 (s.scan.counters.overrun + 1) }
      let lost (broken : Bool) (kept : Option BusChar) : State :=
        { s with scan := { s.scan with counters := counted, rx := ⟨s.scan.rx.buffer, broken, kept⟩ } }
      ((∀ t, s.scan.transaction = some t → t.sent = false) →
        (c.frees = false → exec (.busCharacter c) s = .next (lost s.scan.rx.broken (some held))) ∧
        (c.frees = true → exec (.busCharacter c) s = .next { lost s.scan.rx.broken none with
          scan := { (lost s.scan.rx.broken none).scan with counters := counted.countError (BusChar.error held) } })) ∧
      ∀ t, s.scan.transaction = some t → t.sent = true →
        (c.frees = false → exec (.busCharacter c) s = .next (lost true (some held))) ∧
        (c.frees = true → exec (.busCharacter c) s = .next { lost true none with
          scan := { (lost true none).scan with counters := counted.countError (BusChar.error held) } })) ∧
    (¬ shut → c.blocked = false → s.scan.rx.held = none →
      let counted : BusCounters := s.scan.counters.countError (BusChar.error c)
      let checked : BusCounters := { s.scan.counters with check := min 65535 (s.scan.counters.check + 1) }
      (((∀ t, s.scan.transaction = some t → t.sent = false) ∨ s.scan.rx.broken = true) →
        exec (.busCharacter c) s = .next { s with scan := { s.scan with counters := counted } }) ∧
      ∀ (t : Transaction) (got : List Byte), s.scan.transaction = some t → t.sent = true → s.scan.rx = ⟨got, false, none⟩ →
        let all := got ++ [c.data]
        let wrong : Prop := (all.length = 1 ∧ c.data ≠ t.address) ∨
          (all.length = 2 ∧ ¬ (0x41 ≤ c.data.toNat ∧ c.data.toNat ≤ 0x46) ∧
            ¬ (t.telegram.isDiagnostic = true ∧ 0x60 ≤ c.data.toNat ∧ c.data.toNat ≤ 0x7F)) ∨
          (all.length = 3 ∧ 64 < c.data.toNat)
        let last : Prop := 3 ≤ all.length ∧ all.length = 5 + (byteAt all 2).toNat
        (BusChar.error c ≠ .none → exec (.busCharacter c) s =
          .next { s with scan := { s.scan with counters := counted, rx := ⟨got, true, none⟩ } }) ∧
        (BusChar.error c = .none → c.ninth = true → exec (.busCharacter c) s =
          .next { s with scan := { s.scan with counters := checked, rx := ⟨got, true, none⟩ } }) ∧
        (BusChar.error c = .none → c.ninth = false →
          (wrong ∨ (last ∧ (crc all ≠ 0#16 ∨ parseReply (byteAt all 1) ((all.drop 3).take (byteAt all 2).toNat) = none)) →
            exec (.busCharacter c) s =
              .next { s with scan := { s.scan with counters := checked, rx := ⟨all, true, none⟩ } }) ∧
          (¬ wrong → ¬ last → exec (.busCharacter c) s =
            .next { s with scan := { s.scan with rx := ⟨all, false, none⟩ } }) ∧
          ∀ r : DeviceReply, replyFits r = true → (0x60 ≤ (replyKind r).toNat → t.telegram.isDiagnostic = true) →
            frame t.address (replyKind r) (replyPayload r) = all →
            exec (.busCharacter c) s = exec (.unacceptedReply r) { s with scan := { s.scan with rx := ⟨[], false, none⟩ } })) ∧
    (¬ shut → c.blocked = false → ∀ held : BusChar, s.scan.rx.held = some held →
      let got := s.scan.rx.buffer ++ [held.data]
      let ends : Prop := (∃ t, s.scan.transaction = some t ∧ t.sent = true) ∧ s.scan.rx.broken = false ∧
        BusChar.error held = .none ∧ held.ninth = false ∧ 3 ≤ got.length ∧ got.length = 5 + (byteAt got 2).toNat
      let freed : State := { s with scan := { s.scan with rx := { s.scan.rx with held := none } } }
      let first : BusChar := { held with blocked := false, gap := true }
      (¬ ends → ∃ v : State, exec (.busCharacter first) freed = .next v ∧ v.scan.rx.held = none ∧
        exec (.busCharacter c) s = exec (.busCharacter c) v) ∧
      (ends → BusChar.error c = .none → exec (.busCharacter c) s = exec (.busCharacter first) freed))

/-! ### Replies of the devices -/

/-- Tier 2. A METER SAMPLE while no batch runs on the arm: the first sample after coming ONLINE is recorded and gives no volume (R57);
later ones record the pulse count, run stage 6, and feed the unauthorised-flow watch, whose third sample in a row above the leak
threshold raises the notice (R56, R58, R63, R64, R70). A sample with METER FAULT takes the meter to FAULTED with source DEVICE, noticed
once, starts the history of every arm that names the meter afresh, halts their batches METER LOST, and its payload goes to no block
(R21, R24, R33, R55, R87). -/
def Obligations.MeterSampleIdle : Prop :=
  ∀ (pulses : BitVec 32) (interval temperature : BitVec 16) (flags : Byte) (s : State) (t : Transaction) (d : Device) (n : Arm)
    (e : ArmEntry), s.Settled → s.AwaitsOnline t d → t.step = .scan → t.telegram = .poll → d.kind = .meter → d.assoc = .arm n →
    s.armEntry n = some e → e.meter = t.device →
    let m := s.metering n
    let u := s.polled t.device d
    let usable : Prop := flags.getLsbD 0 = true ∧ -4000 ≤ temperature.toInt ∧ temperature.toInt ≤ 6000
    let delta := (pulses - m.lastPulses).toNat
    let m1 : Metering := { m with lastPulses := pulses, history := .tracking }
    (∀ m2 : Metering,
      (usable → m2 = { m1 with lastTemp := some temperature.toInt, hold := 0 }) →
      (¬ usable → m2 = { m1 with hold := if m.lastTemp.isSome then min 6 (m.hold + 1) else m.hold }) →
      flags.getLsbD 1 = false →
      (m.history = .fresh → exec (.meterSample pulses interval temperature flags) s =
        .next (State.settle { u with meter := u.meter.set n m2 })) ∧
      (m.history = .tracking → (s.holder n = none ∨ ∃ b, s.holder n = some b ∧ b.state = .armed) →
        (e.maxPulses < delta → exec (.meterSample pulses interval temperature flags) s =
          .next (State.settle { u with meter := u.meter.set n m2 })) ∧
        (delta ≤ e.maxPulses → delta ≤ e.leak → exec (.meterSample pulses interval temperature flags) s =
          .next (State.settle { u with meter := u.meter.set n { m2 with unauthorised := 0 } })) ∧
        (delta ≤ e.maxPulses → e.leak < delta → m.unauthorised < 2 → exec (.meterSample pulses interval temperature flags) s =
          .next (State.settle { u with meter := u.meter.set n { m2 with unauthorised := m.unauthorised + 1 } })) ∧
        (delta ≤ e.maxPulses → e.leak < delta → 2 ≤ m.unauthorised → exec (.meterSample pulses interval temperature flags) s =
          .next (State.settle (State.raiseNotice { u with meter := u.meter.set n { m2 with unauthorised := 0 } }
            .unauthorisedFlow (.arm n) 0x00#8))))) ∧
    (flags.getLsbD 1 = true →
      ∃ v : State, exec (.meterSample pulses interval temperature flags) s = .next (State.settle v) ∧
        v.device t.device = some { d with state := .faulted .device, misses := 0, retryHold := false, setStage := none } ∧
        (∀ k a, s.armEntry k = some a → a.meter = t.device →
          v.metering k = { s.metering k with history := .fresh, lastTemp := none, hold := 0, unauthorised := 0 }) ∧
        (∀ k, (∀ a, s.armEntry k = some a → a.meter ≠ t.device) → v.metering k = s.metering k ∧ v.arm k = s.arm k) ∧
        (∀ k a b, s.armEntry k = some a → a.meter = t.device → s.holder k = some b → b.state.haltable = true →
          ∃ c, v.holder k = some c ∧ c.state = .stopping ∧ c.stopReason = some .meterLost ∧
            c.exceptions = setExc .meterLost b.exceptions ∧ c.gross = b.gross ∧ (v.arm k).desired = .closed) ∧
        ((∀ k a, s.armEntry k = some a → a.meter = t.device → s.holder k = none) →
          v.port = (s.raiseNotice .device (.device t.device) 0x03#8).port ∧ v.batch = s.batch ∧ v.load = s.load ∧
            v.additive = s.additive ∧ v.note = s.note ∧ v.permits = s.permits))

/-- Tier 2. A METER SAMPLE of a FULL batch that stays FULL: pulse delta, raw, gross and net increments with their carried remainders,
the temperature and correction factor, the five totals, the overspeed count back to 0 and the no-flow timer restarted by flow
(R57, R59 to R62, R63, R65, R66, R69, R84 to R86), for a batch without schedules and sums that fit their formats. -/
def Obligations.MeterSampleFlowing : Prop :=
  ∀ (pulses : BitVec 32) (interval temperature : BitVec 16) (flags : Byte) (s : State) (t : Transaction) (d : Device) (n : Arm)
    (e : ArmEntry) (b : Batch) (x : Product), s.Settled → s.AwaitsOnline t d → t.step = .scan → t.telegram = .poll →
    d.kind = .meter → d.assoc = .arm n → s.armEntry n = some e → e.meter = t.device → s.holder n = some b → b.state = .full →
    b.degraded = false → s.product b.product = some x → s.schedules n = [] → (s.metering n).history = .tracking →
    flags.getLsbD 0 = true → flags.getLsbD 1 = false → -4000 ≤ temperature.toInt → temperature.toInt ≤ 6000 →
    let m := s.metering n
    let delta := (pulses - m.lastPulses).toNat
    let raw := (delta * 1000000000 + m.r1) / e.km
    let rate := raw * 60 / (min 5000 (max 1 interval.toNat) * 1000)
    let gross := (raw * meterFactor rate e.curve + m.r2) / 100000
    let factor := vcf x.alpha temperature.toInt s.batch.settings.tref
    let net := (gross * factor + m.r3) / 100000
    let remaining : Int := (b.preset : Int) * 1000000 - ((b.gross + gross : Nat) : Int)
    delta ≤ e.maxPulses → rate ≤ e.maxFlow → ((((s.arm n).stopLead.getD 0 : Nat) : Int) * 100000 < remaining) →
    ((e.slowdown : Int) * 1000000 < remaining) → b.raw + raw < 2 ^ 48 → b.gross + gross < 2 ^ 48 → b.net + net < 2 ^ 48 →
    b.weightBase + gross < 2 ^ 48 → -(2 ^ 63) ≤ b.tempWeight + temperature.toInt * gross →
    b.tempWeight + temperature.toInt * gross < 2 ^ 63 →
    let u := s.polled t.device d
    exec (.meterSample pulses interval temperature flags) s = .next (State.settle { u with
      meter := u.meter.set n ⟨.tracking, pulses, some temperature.toInt, 0, (delta * 1000000000 + m.r1) % e.km,
        (raw * meterFactor rate e.curve + m.r2) % 100000, (gross * factor + m.r3) % 100000, m.unauthorised⟩
      batch := { u.batch with arms := u.batch.arms.set n { s.arm n with holder := some { b with
        raw := b.raw + raw, gross := b.gross + gross, net := b.net + net, weightBase := b.weightBase + gross
        tempWeight := b.tempWeight + temperature.toInt * gross, overspeed := 0
        exceptions := if vcfClamped x.alpha temperature.toInt s.batch.settings.tref then setExc .vcfClamp b.exceptions
          else b.exceptions
        noFlowTimer := if e.leak < delta ∧ ((s.arm n).reported = some .low ∨ (s.arm n).reported = some .high) then
            some s.batch.settings.noFlowTimeout
          else b.noFlowTimer } } } })

/-- Tier 2. A METER SAMPLE that ends the flow of a batch in STARTUP, FULL or TOPOFF. A pulse delta above the arm's maximum is a pulse
fault: the count is recorded, no volume is added, and the batch halts PULSE FAULT (R58, R84, R88). A sample that leaves at most the stop
lead to deliver is added and takes the batch to STOPPING with reason PRESET, without a notice (R69, R84). The desired stage is CLOSED
either way (R76). For a batch without schedules and sums that fit their formats. -/
def Obligations.SampleEndsFlow : Prop :=
  ∀ (pulses : BitVec 32) (interval temperature : BitVec 16) (flags : Byte) (s : State) (t : Transaction) (d : Device) (n : Arm)
    (e : ArmEntry) (b : Batch) (x : Product), s.Settled → s.AwaitsOnline t d → t.step = .scan → t.telegram = .poll →
    d.kind = .meter → d.assoc = .arm n → s.armEntry n = some e → e.meter = t.device → s.holder n = some b →
    b.state.flowing = true → s.product b.product = some x → s.schedules n = [] → (s.metering n).history = .tracking →
    (s.metering n).InRange e.km → flags.getLsbD 0 = true → flags.getLsbD 1 = false → -4000 ≤ temperature.toInt →
    temperature.toInt ≤ 6000 →
    let m := s.metering n
    let delta := (pulses - m.lastPulses).toNat
    let raw := (delta * 1000000000 + m.r1) / e.km
    let rate := raw * 60 / (min 5000 (max 1 interval.toNat) * 1000)
    let gross := (raw * meterFactor rate e.curve + m.r2) / 100000
    let net := (gross * vcf x.alpha temperature.toInt s.batch.settings.tref + m.r3) / 100000
    let fits := fun raw gross net : Nat => b.raw + raw < 2 ^ 48 ∧ b.gross + gross < 2 ^ 48 ∧ b.net + net < 2 ^ 48 ∧
      b.weightBase + gross < 2 ^ 48 ∧ -(2 ^ 63) ≤ b.tempWeight + temperature.toInt * gross ∧
      b.tempWeight + temperature.toInt * gross < 2 ^ 63
    let clamp := if vcfClamped x.alpha temperature.toInt s.batch.settings.tref then setExc .vcfClamp b.exceptions else b.exceptions
    let stopped : Batch := { b with
      state := .stopping, noFlowTimer := none, exceptions := clamp
      stopTimer := if s.meterOnline n then b.stopTimer else some s.batch.settings.noFlowTimeout }
    (e.maxPulses < delta → fits 0 0 0 → ∃ v : State,
      exec (.meterSample pulses interval temperature flags) s = .next (State.settle v) ∧
        v.holder n = some { stopped with stopReason := some .pulseFault, noFlow := 0, overspeed := 0 } ∧
        (v.arm n).desired = .closed ∧ v.port = (s.raiseNotice .batchHalted (.arm n) 0x02#8).port ∧
        v.metering n = { m with lastPulses := pulses, lastTemp := some temperature.toInt, hold := 0 } ∧
        ∀ k, k ≠ n → v.arm k = s.arm k ∧ v.metering k = s.metering k) ∧
    (delta ≤ e.maxPulses → fits raw gross net →
      (b.preset : Int) * 1000000 - ((b.gross + gross : Nat) : Int) ≤ (((s.arm n).stopLead.getD 0 : Nat) : Int) * 100000 →
      ∃ v : State, exec (.meterSample pulses interval temperature flags) s = .next (State.settle v) ∧
        v.holder n = some { stopped with
          stopReason := some .preset, raw := b.raw + raw, gross := b.gross + gross, net := b.net + net
          weightBase := b.weightBase + gross, tempWeight := b.tempWeight + temperature.toInt * gross } ∧
        (v.arm n).desired = .closed ∧ v.port = s.port ∧ (v.metering n).lastPulses = pulses ∧
        ∀ k, k ≠ n → v.arm k = s.arm k ∧ v.metering k = s.metering k)

/-- Tier 2. A METER SAMPLE of a STOPPING batch is added to its totals (R69), also where the batch never entered STARTUP (the model's
choice, log 53), and counts the end of flow (R89): above the leak threshold the count returns to 0, at or below it rises by one, a
pulse fault leaves it. The third in a row ends the batch: to HALTED, exception, compartment and code with it, its no-flow count as it
stood (the model's reading, log 37), or, with reason PRESET or the ending mark, to DONE: the compartment's result from the final
totals, the charge to the load's permit, the learned stop lead of the arm where the batch stopped for its preset, was never resumed
and kept its meter, the BATCH DONE notice, and the arm released (R71, R72, R73, R96, R97, R126). For a batch without schedules or
pending starts and sums that fit their formats. -/
def Obligations.StoppingSampleCounts : Prop :=
  ∀ (pulses : BitVec 32) (interval temperature : BitVec 16) (flags : Byte) (s : State) (t : Transaction) (d : Device) (n : Arm)
    (e : ArmEntry) (b : Batch) (x : Product), s.Settled → s.AwaitsOnline t d → t.step = .scan → t.telegram = .poll →
    d.kind = .meter → d.assoc = .arm n → s.armEntry n = some e → e.meter = t.device → s.holder n = some b →
    b.state = .stopping → s.product b.product = some x → s.schedules n = [] → (s.metering n).history = .tracking →
    (s.metering n).InRange e.km → flags.getLsbD 0 = true → flags.getLsbD 1 = false → -4000 ≤ temperature.toInt →
    temperature.toInt ≤ 6000 →
    let m := s.metering n
    let delta := (pulses - m.lastPulses).toNat
    let fault : Prop := e.maxPulses < delta
    let raw := ((if e.maxPulses < delta then 0 else delta) * 1000000000 + m.r1) / e.km
    let rate := raw * 60 / (min 5000 (max 1 interval.toNat) * 1000)
    let gross := (raw * meterFactor rate e.curve + m.r2) / 100000
    let net := (gross * vcf x.alpha temperature.toInt s.batch.settings.tref + m.r3) / 100000
    b.raw + raw < 2 ^ 48 → b.gross + gross < 2 ^ 48 → b.net + net < 2 ^ 48 → b.weightBase + gross < 2 ^ 48 →
    -(2 ^ 63) ≤ b.tempWeight + temperature.toInt * gross → b.tempWeight + temperature.toInt * gross < 2 ^ 63 →
    let b' : Batch := { b with
      raw := b.raw + raw, gross := b.gross + gross, net := b.net + net, weightBase := b.weightBase + gross
      tempWeight := b.tempWeight + temperature.toInt * gross
      exceptions := if vcfClamped x.alpha temperature.toInt s.batch.settings.tref then setExc .vcfClamp b.exceptions
        else b.exceptions }
    let cmd := Instr.meterSample pulses interval temperature flags
    let counts := fun k : Nat => ∃ v : State, exec cmd s = .next (State.settle v) ∧ v.holder n = some { b' with noFlow := k } ∧
      (v.arm n).desired = (s.arm n).desired ∧ v.port = s.port ∧ v.load = s.load
    (fault → counts b.noFlow) ∧
    (¬ fault → e.leak < delta → counts 0) ∧
    (delta ≤ e.leak → ¬ fault → b.noFlow < 2 → counts (b.noFlow + 1)) ∧
    (delta ≤ e.leak → ¬ fault → 2 ≤ b.noFlow → b.stopReason ≠ some .preset → b.ending = false →
      ∃ v : State, exec cmd s = .next (State.settle v) ∧
        v.holder n = some { b' with state := .halted, stopTimer := none, exceptions := setExc .halted b'.exceptions } ∧
        (v.arm n).desired = .closed ∧ v.port = s.port ∧
        ∀ y, (s.lane b.lane).load = some y → (v.lane b.lane).load = some { y with entries := y.entries.map fun c =>
          if c.compartment = b.compartment then { c with state := .halted } else c }) ∧
    (delta ≤ e.leak → ¬ fault → 2 ≤ b.noFlow → b.stopReason = some .preset ∨ b.ending = true → (s.arm n).starts = [] →
      ∃ v : State, exec cmd s = .next (State.settle v) ∧ v.holder n = none ∧ (v.arm n).desired = .closed ∧ (v.arm n).excess = 0 ∧
        ((v.arm n).stopLead = if b.stopReason = some .preset ∧ b.resumed = 0 ∧ hasExc .meterLost b.exceptions = false then
            (s.arm n).stopLead.map fun lead => (max (e.leadMin : Int) (min (e.leadMax : Int)
              (lead + roundAway ((toDl b'.gross : Int) - b.preset * 10) 2))).toNat
          else (s.arm n).stopLead) ∧
        (v.port = (s.raiseNotice .batchDone (.arm n) (match b.stopReason with
          | some r => r.code
          | none => 0x00#8)).port) ∧
        ∀ y, (s.lane b.lane).load = some y →
          (v.permits = s.permits.map fun q => if q.card = y.card then q.charge s.today (toDl b'.gross) else q) ∧
          ∃ z, (v.lane b.lane).load = some z ∧ z.entries = y.entries.map fun c =>
            if c.compartment = b.compartment then { c with
              arm := some n, state := .done, gross := toDl b'.gross, net := toDl b'.net, avgTemp := b'.avgTemp
              vcf := b'.reportedVcf, reason := b.stopReason, exceptions := b'.exceptions, additives := [] }
            else c)

/-- Tier 2. A VALVE STATE sets the arm's reported stage and, for a VALVE SET, the set stage (R30, R91); for a free arm the excess
count is 0; for a batch in ARMED, STARTUP, FULL or TOPOFF after the travel allowance, or where the travel timer was never started (the
model's choice, log 52), a stage above the desired one counts, and the second halts it VALVE LOST (R91). DEVICE FAULT takes the valve
to FAULTED and leaves the reported stage (R21, R33). -/
def Obligations.ValveStateReported : Prop :=
  ∀ (stage flags : Byte) (s : State) (t : Transaction) (d : Device) (n : Arm) (e : ArmEntry), s.Settled → s.AwaitsOnline t d →
    stage.toNat ≤ 2 → d.kind = .valve → d.assoc = .arm n → s.armEntry n = some e → e.valve = t.device →
    let st := stageOf stage
    let r := s.arm n
    (flags.getLsbD 0 = false → t.step = .scan → t.telegram = .poll → r.holder = none →
      let u := s.polled t.device d
      exec (.valveState stage flags) s = .next (State.settle { u with
        batch := { u.batch with arms := u.batch.arms.set n { r with reported := some st, excess := 0 } } })) ∧
    (∀ w, flags.getLsbD 0 = false → t.step = .urgentClose ∨ t.step = .valve → t.telegram = .valveSet w → r.holder = none →
      exec (.valveState stage flags) s = .next (State.settle { s with
        scan := { s.scan with
          devices := s.scan.devices.set t.device (some { d with misses := 0, setStage := some w })
          transaction := none
          wake := true }
        pads := { s.pads with bde := false }
        batch := { s.batch with arms := s.batch.arms.set n { r with reported := some st, excess := 0 } } })) ∧
    (∀ b, flags.getLsbD 0 = false → t.step = .scan → t.telegram = .poll → r.holder = some b → b.state.haltable = true →
      r.travelTimer = none → r.desired.rank < st.rank →
      (r.excess = 0 → ∃ v : State, exec (.valveState stage flags) s = .next (State.settle v) ∧ (v.arm n).excess = 1 ∧
        (v.arm n).reported = some st ∧ (v.arm n).desired = r.desired ∧ ∃ c, v.holder n = some c ∧ c.state = b.state) ∧
      (1 ≤ r.excess → ∃ v : State, exec (.valveState stage flags) s = .next (State.settle v) ∧ (v.arm n).excess = 0 ∧
        (v.arm n).reported = some st ∧ (v.arm n).desired = .closed ∧
        ∃ c, v.holder n = some c ∧ c.state = .stopping ∧ c.stopReason = some .valveLost)) ∧
    (flags.getLsbD 0 = true → t.step = .scan → t.telegram = .poll →
      (∀ m x, s.armEntry m = some x → x.valve = t.device → s.holder m = none) →
      ∃ v : State, exec (.valveState stage flags) s = .next (State.settle v) ∧
        v.device t.device = some { d with state := .faulted .device, misses := 0, retryHold := false, setStage := none } ∧
        v.arm n = r ∧ v.port = (s.raiseNotice .device (.device t.device) 0x03#8).port)

/-- Tier 2. A PERMISSIVE STATE of the one monitor sets both lane permissives, a change is noticed, lane A's first, and a lane that has
lost its permissive halts its batches (R77). -/
def Obligations.PermissiveStateSets : Prop :=
  ∀ (flags : Byte) (s : State) (t : Transaction) (d : Device), s.Settled → s.AwaitsOnline t d → t.step = .scan →
    t.telegram = .poll → d.kind = .permissive → flags.getLsbD 7 = false → (s.devicesOfKind .permissive).length = 1 →
    let a := flags.getLsbD 0 && flags.getLsbD 1
    let b := flags.getLsbD 2 && flags.getLsbD 3
    let u := s.polled t.device d
    let noticeFor := fun (v : State) (l : Lane) (was is : Bool) =>
      if was = is then v else v.raiseNotice .permissive (.lane l) (if is then 0x01#8 else 0x00#8)
    let v : State := noticeFor (noticeFor { u with batch := { u.batch with permissive := ⟨a, b⟩ } } .a s.batch.permissive.a a) .b
      s.batch.permissive.b b
    ((∀ n x, s.holder n = some x → x.state.haltable = true →
      s.batch.permissive.get x.lane = true → (Lanes.get ⟨a, b⟩ x.lane) = true) →
        exec (.permissiveState flags) s = .next v.settle) ∧
    ∃ w : State, exec (.permissiveState flags) s = .next w.settle ∧ w.batch.permissive = ⟨a, b⟩ ∧
      ∀ (n : Arm) (x : Batch), s.holder n = some x → x.state.haltable = true → s.batch.permissive.get x.lane = true →
        Lanes.get ⟨a, b⟩ x.lane = false →
        ∃ y, w.holder n = some y ∧ y.state = .stopping ∧ y.stopReason = some .permissive ∧ (w.arm n).desired = .closed

/-! ### Additives -/

/-- Tier 2. A SHOT REPORT by poll that names the outlet of the owned shot awaiting it, DONE or SHORT, whose schedule stays within its
tolerance: the dose is credited, the shot settled, the flight given up with its head entry and an untaken query (R104, R105, R114);
a FAIL report posts a SHOT QUERY instead; one that names another outlet is discarded (R105). -/
def Obligations.ShotReportSettles : Prop :=
  ∀ (outlet : Byte) (dose : BitVec 16) (status : Byte) (s : State) (t : Transaction) (d : Device) (x : InjectorSlot) (f : Flight)
    (c : Schedule) (before after : List Schedule), s.Settled → s.AwaitsOnline t d → t.step = .scan → t.telegram = .poll →
    d.kind = .injector → outlet.toNat ≤ 5 → status.toNat ≤ 2 → s.slot t.device = some x → x.entry.mode = .shot →
    x.flight = some f → f.phase = .awaiting → f.owned = true → x.queue = [f.arm] →
    s.schedules f.arm = before ++ c :: after → c.injector = t.device →
    (∀ k ∈ before, k.injector ≠ t.device) → (∀ k ∈ after, k.injector ≠ t.device) → c.state = .active → c.pending = 1 →
    c.delivered + dose.toNat < 2 ^ 32 → c.settled < 16777215 →
    let u := s.polled t.device d
    let c' : Schedule := { c with delivered := c.delivered + dose.toNat, settled := c.settled + 1, pending := 0 }
    let settledDose := c'.settled * c.shotSize
    let within : Prop := settledDose < 5 * c.shotSize ∨
      ((settledDose : Int) - c'.delivered).natAbs * 100 ≤ c.tolerance * settledDose
    (outlet.toNat = f.outlet → status ≠ 0x02#8 → within → exec (.shotReport outlet dose status) s = .next (State.settle { u with
      additive := {
        slots := u.additive.slots.set t.device (some { x with queue := [], flight := none, request := none })
        schedules := u.additive.schedules.set f.arm (before ++ c' :: after) } })) ∧
    (outlet.toNat = f.outlet → status = 0x02#8 → exec (.shotReport outlet dose status) s = .next (State.settle { u with
      additive := { u.additive with slots := u.additive.slots.set t.device (some { x with
        flight := some { f with phase := .querying, timer := none }, request := some .shotQuery }) } })) ∧
    (outlet.toNat ≠ f.outlet → exec (.shotReport outlet dose status) s = .next u.settle)

/-- Tier 2. An INJECTOR STATE by poll while the stream is RUNNING for its schedule credits the start dose plus the cumulative dose less
the baseline modulo 2³², when the deviation check passes (R113, R115); as the busy answer to STREAM START it takes STARTING to
RUNNING with its dose as the baseline (R112); at a SHOT injector it is discarded by poll (R104). -/
def Obligations.InjectorStateCredits : Prop :=
  ∀ (state : Byte) (dose : BitVec 32) (flags : Byte) (s : State) (t : Transaction) (d : Device) (x : InjectorSlot), s.Settled →
    s.AwaitsOnline t d → d.kind = .injector → state.toNat ≤ 1 → flags.getLsbD 0 = false → s.slot t.device = some x →
    let u := s.polled t.device d
    (x.entry.mode = .shot → t.step = .scan → t.telegram = .poll → exec (.injectorState state dose flags) s = .next u.settle) ∧
    (∀ (n : Arm) (c : Schedule) (before after : List Schedule), x.entry.mode = .stream → t.step = .scan → t.telegram = .poll →
      x.entry.servedArm = some n → x.stream.state = .running → x.stream.owned = true →
      s.schedules n = before ++ c :: after → c.injector = t.device → (∀ k ∈ before, k.injector ≠ t.device) →
      (∀ k ∈ after, k.injector ≠ t.device) → x.stream.startDose + (dose - x.stream.baseline).toNat < 2 ^ 32 →
      let delivered := x.stream.startDose + (dose - x.stream.baseline).toNat
      let target := (2 * (c.streamed * c.ratio) + 100000000) / 200000000
      (target < c.streamMin ∨ ((target : Int) - delivered).natAbs * 100 ≤ c.tolerance * target) →
      let credited : List Schedule := before ++ { c with delivered := delivered } :: after
      exec (.injectorState state dose flags) s = .next (State.settle { u with
        additive := { u.additive with schedules := u.additive.schedules.set n credited } })) ∧
    (∀ outlet ratio, t.step = .injector → t.telegram = .streamStart outlet ratio → state = 0x01#8 → x.stream.state = .starting →
      x.stream.taken = true → x.stream.stopWanted = false → exec (.injectorState state dose flags) s = .next (State.settle { u with
        additive := { u.additive with slots := u.additive.slots.set t.device (some { x with
          stream := { x.stream with state := .running, baseline := dose } }) } }))

/-- Tier 2. One gross increment at a SHOT schedule that brings one shot due with none pending: the countdown gains one interval, one
shot is pending, and on an idle injector it is issued at once with the schedule's outlet and shot size (R101 to R104). Within the
cut-off nothing comes due (R101). -/
def Obligations.IncrementOrdersShot : Prop :=
  ∀ (s : State) (n : Arm) (e : ArmEntry) (b : Batch) (c : Schedule) (x : InjectorSlot) (gross : Nat), s.holder n = some b →
    b.state.flowing = true → s.schedules n = [c] → c.mode = .shot → c.state = .active →
    ((b.preset : Int) * 1000000 - b.gross ≤ (e.cutoff : Int) * 1000000 → s.passIncrement n e gross = s) ∧
    (((e.cutoff : Int) * 1000000 < (b.preset : Int) * 1000000 - b.gross) → 0 < c.countdown - gross →
      s.passIncrement n e gross = { s with additive := { s.additive with
        schedules := s.additive.schedules.set n [{ c with countdown := c.countdown - gross }] } }) ∧
    (((e.cutoff : Int) * 1000000 < (b.preset : Int) * 1000000 - b.gross) → c.countdown - gross ≤ 0 →
      0 < c.countdown - gross + c.interval → c.pending = 0 → s.slot c.injector = some x → x.flight = none → x.queue = [] →
      s.passIncrement n e gross = { s with
        additive := {
          slots := s.additive.slots.set c.injector (some { x with
            queue := [n], request := some (.shot c.outlet c.shotSize)
            flight := some ⟨n, c.outlet, c.shotSize, c.shotTimeout, 1, .sending, none, 0, true⟩ })
          schedules := s.additive.schedules.set n [{ c with countdown := c.countdown - gross + c.interval, pending := 1 }] }
        scan := { s.scan with wake := true } })

/-! ### Station events -/

/-- Tier 2. A STATION EVENT LIST hands its events on one by one, oldest first, with the station's lane, after the station's own state
(R33, R34). An empty list changes nothing more; a START with no load posts NO LOAD and one at a closing load LOAD CLOSING (R143). A STOP
naming an arm removes the lane's pending start there and, by the batch that holds the arm, halts it DRIVER, leaves it, or ends a HALTED
one with DONE and reason DRIVER; a STOP naming all arms removes the lane's pending starts and halts what can be halted, leaving HALTED
batches (R93). An ESTOP removes the lane's pending starts and halts each batch of the lane that can be halted, with reason ESTOP
(R92). -/
def Obligations.StationEventsHandled : Prop :=
  ∀ (s : State) (t : Transaction) (d : Device) (l : Lane), s.Settled → s.AwaitsOnline t d → t.step = .scan → t.telegram = .poll →
    d.kind = .station → d.assoc = .lane l →
    let u := s.polled t.device d
    let without := fun n : Arm => (s.arm n).starts.filter fun p => p.lane ≠ l
    let halted := fun (v : State) (n : Arm) (r : StopReason) => ∃ c, v.holder n = some c ∧ c.state = .stopping ∧
      c.stopReason = some r ∧ (v.arm n).desired = .closed
    let haltsLane := fun (e : StationEvent) (r : StopReason) => ∃ v : State, exec (.stationEventList [e]) s = .next v.settle ∧
      ∀ n : Arm, (v.arm n).starts = without n ∧
        (∀ b, s.holder n = some b → b.lane = l → b.state.haltable = true → halted v n r) ∧
        ((∀ b, s.holder n = some b → b.lane ≠ l ∨ b.state.haltable = false) →
          v.holder n = s.holder n ∧ (v.arm n).desired = (s.arm n).desired)
    exec (.stationEventList []) s = .next u.settle ∧
    (∀ es : List StationEvent, es.length ≤ 4 → es.all StationEvent.fits = true →
      exec (.stationEventList es) s = .next (State.settle (es.foldl (fun v e => v.stationEvent l e) u))) ∧
    (∀ arm comp : Byte, StationEvent.fits (.start arm comp) = true →
      ((s.lane l).state = .none → exec (.stationEventList [.start arm comp]) s = .next (State.settle (u.post l .noLoad))) ∧
      ((s.lane l).state = .ending ∨ (s.lane l).state = .closing →
        exec (.stationEventList [.start arm comp]) s = .next (State.settle (u.post l .loadClosing)))) ∧
    haltsLane .estop .estop ∧ haltsLane (.stop 0xFF#8) .driver ∧
    ∀ n : Arm,
      let stop := Instr.stationEventList [.stop (BitVec.ofNat 8 n.val)]
      let dropped : State := { u with batch := { u.batch with arms := u.batch.arms.set n { s.arm n with starts := without n } } }
      (s.holder n = none → exec stop s = .next dropped.settle) ∧
      ∀ b, s.holder n = some b →
        (b.lane ≠ l ∨ b.state = .stopping → exec stop s = .next dropped.settle) ∧
        (b.lane = l → b.state.haltable = true → ∃ v : State, exec stop s = .next v.settle ∧ halted v n .driver ∧
          (v.arm n).starts = without n ∧ v.port = (s.raiseNotice .batchHalted (.arm n) 0x09#8).port ∧
          ∀ k, k ≠ n → v.arm k = s.arm k) ∧
        (b.lane = l → b.state = .halted → ∃ v : State, exec stop s = .next v.settle ∧ (without n = [] → v.holder n = none) ∧
          (∀ c, v.holder n = some c → c.lane ≠ l) ∧ (∀ k, k ≠ n → v.holder k = s.holder k) ∧
          (∀ k : NoticeKind, k = .batchDone → v.port.pendingSet.getLsbD k.number = true) ∧
          ∀ y, (s.lane l).load = some y → ∃ z, (v.lane l).load = some z ∧ z.entries = y.entries.map fun c =>
            if c.compartment = b.compartment then { c with
              arm := some n, state := .done, gross := toDl b.gross, net := toDl b.net, avgTemp := b.avgTemp, vcf := b.reportedVcf
              reason := some .driver, additives := (s.schedules n).map fun k => k.result b.gross
              exceptions := if ((s.schedules n).map fun k => k.result b.gross).any fun k => k.status = .short then
                  setExc .additiveShort b.exceptions
                else b.exceptions }
            else c)

/-- Tier 2. A START at a lane with an OPEN load is judged by the checks of R143 and then those of R78, each failure posting its code and
changing nothing else. One that passes resumes the HALTED batch of this compartment on this arm, with its totals kept, creates a batch
on a free arm, or becomes a pending start behind those that wait (R78, R79, R80, R137, R148). A batch whose meter and valve are ONLINE
goes on into STARTUP with desired stage LOW and a BATCH STARTED notice, the remainders at 0 on its first entry, unless it stands at its
stop lead or a REQUIRED schedule is FAULTED (R67, R76, R83, R116); that a batch resumed before it ever flowed counts as a first entry is
the model's choice (log 47). -/
def Obligations.StartJudged : Prop :=
  ∀ (s : State) (t : Transaction) (d : Device) (l : Lane) (n : Arm) (comp : Byte) (x : Load), s.Settled → s.AwaitsOnline t d →
    t.step = .scan → t.telegram = .poll → d.kind = .station → d.assoc = .lane l → 1 ≤ comp.toNat → comp.toNat ≤ 8 →
    (s.lane l).state = .opened → (s.lane l).load = some x →
    let u := s.polled t.device d
    let start := Instr.stationEventList [.start (BitVec.ofNat 8 n.val) comp]
    let refused := fun code : DisplayCode => exec start s = .next (State.settle (u.post l code))
    ((∀ e ∈ x.entries, e.compartment ≠ comp.toNat) → refused .noCompartment) ∧
    ∀ e, x.entries.find? (fun e => e.compartment = comp.toNat) = some e →
      let fresh : Prop := e.state = .pending ∨ e.state = .loading
      let permitCode : Option DisplayCode := match s.permits.find? (fun q => q.card = x.card) with
        | none => some .unknownCard
        | some q =>
          if q.state = .revoked then some .revoked
          else if q.state = .suspended then some .suspended
          else if x.permitOverride then none
          else if q.expiry.key < s.today.key then some .expired
          else if (s.product e.product).any fun y => !q.endorsed.getLsbD y.cls then some .endorsement
          else none
      (e.state = .done → refused .compartmentDone) ∧
      (∀ k, fresh → permitCode = some k → refused k) ∧
      (e.state = .halted ∨ (fresh ∧ permitCode = none) →
        let busy : Prop :=
          (∃ m b, s.holder m = some b ∧ b.lane = l ∧ b.compartment = e.compartment ∧ (m ≠ n ∨ b.state ≠ .halted)) ∨
            ∃ m, ∃ q ∈ (s.arm m).starts, m ≠ n ∧ q.lane = l ∧ q.compartment = e.compartment
        let here := fun b : Batch => s.holder n = some b ∧ b.lane = l ∧ b.compartment = e.compartment ∧ b.state = .halted
        let online : Prop := s.meterOnline n = true ∧ s.valveOnline n = true
        let loading : Load := { x with entries := x.entries.map fun c =>
          if c.compartment = e.compartment then { c with state := .loading, arm := some n } else c }
        (s.armEntry n = none → refused .wrongArm) ∧
        ∀ a, s.armEntry n = some a →
          let reaches : Prop := a.reach = .both ∨ (a.reach = .a ∧ l = .a) ∨ (a.reach = .b ∧ l = .b)
          (¬ reaches → refused .wrongArm) ∧
          (reaches → a.allowed.getLsbD e.product.toNat = false → refused .wrongProduct) ∧
          (reaches → a.allowed.getLsbD e.product.toNat = true → s.batch.permissive.get l = false → refused .noPermissive) ∧
          (reaches → a.allowed.getLsbD e.product.toNat = true → s.batch.permissive.get l = true →
            (busy → refused .compartmentBusy) ∧
            (∀ b, ¬ busy → here b →
              (b.stopReason = some .additive → b.additiveOverride = false → refused .additiveHalt) ∧
              (b.stopReason ≠ some .additive ∨ b.additiveOverride = true → (s.arm n).desired = .closed →
                let again : Batch := { b with
                  state := .armed, stopReason := none, ending := false, noFlow := 0, noFlowTimer := none, stopTimer := none
                  resumed := min 255 (b.resumed + 1), exceptions := setExc .resumed b.exceptions }
                (¬ online → exec start s = .next (State.settle (State.post { u with
                  batch := { u.batch with arms := u.batch.arms.set n { s.arm n with holder := some again } }
                  load := { u.load with lanes := u.load.lanes.set l { s.lane l with
                    load := some loading, slot := (s.lane l).slot.filter fun y => y.target ≠ .arm n } } } l .loading))) ∧
                (online → ∃ v : State, exec start s = .next v.settle ∧ (v.lane l).load = some loading ∧
                  (v.lane l).slot = (s.lane l).slot.filter (fun y => y.target ≠ .arm n) ∧
                  ∃ c, v.holder n = some c ∧ c.flowed = true ∧ c.raw = b.raw ∧ c.gross = b.gross ∧ c.net = b.net ∧
                    c.resumed = again.resumed ∧
                    (b.flowed = true → (∀ k ∈ s.schedules n, k.required = false ∨ k.state ≠ .faulted) →
                      (((s.arm n).stopLead.getD 0 : Nat) : Int) * 100000 < (b.preset : Int) * 1000000 - b.gross →
                        c.state = .startup ∧ (v.arm n).desired = .low ∧ v.metering n = s.metering n ∧
                          v.port = (s.raiseNotice .batchStarted (.arm n) 0x01#8).port) ∧
                    (b.flowed = true →
                      (b.preset : Int) * 1000000 - b.gross ≤ (((s.arm n).stopLead.getD 0 : Nat) : Int) * 100000 →
                        c.state = .stopping ∧ c.stopReason = some .preset ∧ (v.arm n).desired = .closed ∧
                          v.port = (s.raiseNotice .batchStarted (.arm n) 0x01#8).port)))) ∧
            (¬ busy → s.holder n = none → (s.arm n).desired = .closed →
              let made : Batch := Batch.new l e.compartment e.product e.preset
              (¬ online → exec start s = .next (State.settle (State.post { u with
                batch := { u.batch with arms := u.batch.arms.set n { s.arm n with holder := some made } }
                load := { u.load with lanes := u.load.lanes.set l { s.lane l with load := some loading } } } l .loading))) ∧
              (∀ y, online → s.product e.product = some y → y.recipe = [] →
                (((s.arm n).stopLead.getD 0 : Nat) : Int) * 100000 < (e.preset : Int) * 1000000 →
                ∃ v : State, exec start s = .next v.settle ∧ (v.lane l).load = some loading ∧ v.schedules n = [] ∧
                  v.metering n = { s.metering n with r1 := 0, r2 := 0, r3 := 0 } ∧ (v.arm n).desired = .low ∧
                  v.port = (s.raiseNotice .batchStarted (.arm n) 0x00#8).port ∧
                  v.holder n = some { made with
                    state := .startup, flowed := true, startTime := some s.time.record
                    noFlowTimer := if (s.arm n).reported = some .low ∨ (s.arm n).reported = some .high then
                        some s.batch.settings.noFlowTimeout
                      else none })) ∧
            (∀ b, ¬ busy → s.holder n = some b → ¬ here b → exec start s = .next (State.settle (State.post { u with
              batch := { u.batch with arms := u.batch.arms.set n { s.arm n with
                starts := ((s.arm n).starts.filter fun q => q.lane ≠ l) ++
                  [⟨l, e.compartment, s.batch.settings.startWait⟩] } } } l .waitArm)))))

/-- Tier 2. A driver card, by the lane's load state. With no load it is an opening attempt: the lane's candidate leaves first, then the
checks of R140 stand in order, and the first that fails is posted and noticed LOAD REFUSED with its code; EXPIRED, ENDORSEMENT and LIMIT
also roll the permit and keep a refusal candidate (R125, R139, R140, R142). With all passed the oldest order for the carrier at this
lane becomes the load: order out of the queue and out of the other lane's candidate, load record with every compartment PENDING, LOAD
OPENED noticed, OPEN posted (R135, R136, R137, R141). At an OPEN load its own card takes it to ENDING with reason DRIVER and another is
WRONG CARD; at a closing load any card is LOAD CLOSING (R139, R145). -/
def Obligations.OpeningAttemptOpens : Prop :=
  ∀ (s : State) (t : Transaction) (d : Device) (l : Lane) (digits : BitVec 40), s.Settled → s.AwaitsOnline t d → t.step = .scan →
    t.telegram = .poll → d.kind = .station → d.assoc = .lane l → StationEvent.fits (.card digits 0x00#8) = true →
    let u := s.polled t.device d
    let k := bcdNat (cardBytes digits)
    let card := Instr.stationEventList [.card digits 0x00#8]
    let cleared : State := { u with load := { u.load with lanes := u.load.lanes.set l { s.lane l with
      candidate := none, slot := (s.lane l).slot.filter fun y => y.target ≠ .load } } }
    let refusal := fun (v : State) (code : DisplayCode) => (v.post l code).raiseNotice .loadRefused (.lane l) code.code
    let orderFor := fun p : Permit => s.load.orders.find? fun o => o.carrier = p.carrier && (o.lane = none || o.lane = some l)
    let early : Option DisplayCode :=
      if s.port.mode ≠ .inService then some .wrongMode
      else if s.time.timeSet = false then some .timeNotSet
      else if 16 ≤ s.note.notes.length + s.loadsHeld then some .noteFull
      else match s.permits.find? (fun q => q.card = k) with
        | none => some .unknownCard
        | some p =>
          if p.cls ≠ .driver then some .notAllowed
          else if p.state = .revoked then some .revoked
          else if p.state = .suspended then some .suspended
          else if p.lane ≠ none ∧ p.lane ≠ some l then some .wrongLane
          else if orderFor p = none then some .noOrder
          else none
    ((s.lane l).state = .ending ∨ (s.lane l).state = .closing → exec card s = .next (State.settle (u.post l .loadClosing))) ∧
    (∀ x, (s.lane l).state = .opened → (s.lane l).load = some x →
      (x.card ≠ k → exec card s = .next (State.settle (u.post l .wrongCard))) ∧
      (x.card = k → ∃ v : State, exec card s = .next (State.settle v) ∧ (v.lane l).endReason = some .driver ∧
        ((v.lane l).state = .ending ∨ (v.lane l).state = .closing) ∧ v.permits.map Permit.card = s.permits.map Permit.card)) ∧
    ((s.lane l).state = .none →
      (∀ code, early = some code → exec card s = .next (State.settle (refusal cleared code))) ∧
      ∀ p o, early = none → s.permits.find? (fun q => q.card = k) = some p → orderFor p = some o →
        let used := if p.lastLoad = some s.today then p.usedToday else 0
        let rolled := s.permits.map fun q => if q.card = k then
          (if q.lastLoad = some s.today then q else { q with usedToday := 0 }) else q
        let late : Option DisplayCode :=
          if p.expiry.key < s.today.key then some .expired
          else if o.lines.any fun x => (s.product x.product).any fun y => !p.endorsed.getLsbD y.cls then some .endorsement
          else if p.dailyLimit ≠ 0 ∧ p.dailyLimit * 10 < used + (o.lines.map fun x => x.preset * 10).sum then some .limit
          else none
        (∀ code, late = some code →
          let r := refusal { cleared with permits := rolled } code
          exec card s = .next (State.settle { r with load := { r.load with lanes := r.load.lanes.set l { r.lane l with
            candidate := some ⟨k, o.reference, s.batch.settings.overrideWindow⟩ } } })) ∧
        (late = none → ∃ v : State, exec card s = .next (State.settle v) ∧
          (v.lane l).state = .opened ∧ (v.lane l).candidate = none ∧
          ((v.lane l).slot = (s.lane l).slot.filter fun y => y.target ≠ .load) ∧
          (v.lane l).load = some ⟨o.reference, o.carrier, o.tanker, k, p.driverRef, s.time.record, none, false, false,
            o.lines.map fun x => ⟨x.compartment, x.product, x.preset, none, .pending, 0, 0, 0, none, none, 0#16, []⟩⟩ ∧
          (v.lane (Lane.other l) = if (s.lane (Lane.other l)).candidate.any (fun c => c.order = o.reference) then
              { s.lane (Lane.other l) with
                candidate := none, slot := (s.lane (Lane.other l)).slot.filter fun y => y.target ≠ .load }
            else s.lane (Lane.other l)) ∧
          (v.load.orders = s.load.orders.filter fun o' => o'.reference ≠ o.reference) ∧ v.permits = rolled ∧
          v.port = (s.raiseNotice .loadOpened (.lane l) 0x00#8).port ∧ v.scan = (u.post l .opened).scan ∧
          v.batch = s.batch ∧ v.additive = s.additive ∧ v.note = s.note ∧ v.time = s.time ∧ v.meter = s.meter))

/-- Tier 2. A supervisor card, by the lane's load state (R139). With no load or an OPEN one it is the supervisor half: a failing card
posts the code of its first failure, in the order presence, state, expiry, class (that order of the last two is the model's choice, log
25). One that passes arms an empty slot with the refusal candidate, or with the lowest arm whose batch is HALTED for ADDITIVE, else
posts NO TARGET; repeats a half already seen; or completes the terminal's: at an ARM target the additive override is set, FAULTED
schedules are SUSPENDED, the slot empties with notice and code; at the LOAD target the candidate's order opens with the permit override,
or the refusal of the checks of R140 is posted and noticed (R117, R148, R149, R151). At a closing load it posts LOAD CLOSING. -/
def Obligations.SupervisorHalf : Prop :=
  ∀ (s : State) (t : Transaction) (d : Device) (l : Lane) (digits : BitVec 40), s.Settled → s.AwaitsOnline t d → t.step = .scan →
    t.telegram = .poll → d.kind = .station → d.assoc = .lane l → StationEvent.fits (.card digits 0x01#8) = true →
    let u := s.polled t.device d
    let card := Instr.stationEventList [.card digits 0x01#8]
    let fails : Option DisplayCode := match s.permits.find? (fun q => q.card = bcdNat (cardBytes digits)) with
      | none => some .unknownCard
      | some p =>
        if p.state = .revoked then some .revoked
        else if p.state = .suspended then some .suspended
        else if p.expiry.key < s.today.key then some .expired
        else if p.cls ≠ .supervisor then some .notAllowed
        else none
    let halted := fun n : Arm => ∃ b, s.holder n = some b ∧ b.lane = l ∧ b.state = .halted ∧ b.stopReason = some .additive
    let armed := fun g : Target => exec card s = .next (State.settle (State.post { u with
      load := { u.load with lanes := u.load.lanes.set l { s.lane l with
        slot := some ⟨g, .supervisor, s.batch.settings.overrideWindow⟩ } } } l .overrideArmed))
    ((s.lane l).state = .ending ∨ (s.lane l).state = .closing → exec card s = .next (State.settle (u.post l .loadClosing))) ∧
    ((s.lane l).state = .none ∨ (s.lane l).state = .opened →
      (∀ code, fails = some code → exec card s = .next (State.settle (u.post l code))) ∧
      (fails = none → (s.lane l).slot = none →
        ((s.lane l).candidate.isSome → armed .load) ∧
        (∀ n, (s.lane l).candidate = none → halted n → (∀ m, halted m → n ≤ m) → armed (.arm n)) ∧
        ((s.lane l).candidate = none → (∀ n, ¬ halted n) → exec card s = .next (State.settle (u.post l .noTarget)))) ∧
      ∀ x, fails = none → (s.lane l).slot = some x →
        (x.half = .supervisor → exec card s = .next u.settle) ∧
        (∀ n b, x.half = .terminal → x.target = .arm n → s.holder n = some b →
          exec card s = .next (State.settle (State.post (State.raiseNotice { u with
            batch := { u.batch with arms := u.batch.arms.set n { s.arm n with holder := some { b with
              additiveOverride := true, exceptions := setExc .additiveOverridden b.exceptions } } }
            additive := { u.additive with schedules := u.additive.schedules.set n ((s.schedules n).map fun c =>
              if c.state = .faulted then { c with state := .suspended } else c) }
            load := { u.load with lanes := u.load.lanes.set l { s.lane l with slot := none } } }
            .overrideApplied (.arm n) 0x01#8) l .overrideApplied))) ∧
        (∀ c o, x.half = .terminal → x.target = .load → (s.lane l).candidate = some c →
          s.load.orders.find? (fun o => o.reference = c.order) = some o →
          (∀ code, s.openingPermit l c.card = .error code →
            exec card s = .next (State.settle (State.raiseNotice (State.post { u with
              load := { u.load with lanes := u.load.lanes.set l { s.lane l with candidate := none, slot := none } } } l code)
              .loadRefused (.lane l) code.code))) ∧
          (∀ q, s.openingPermit l c.card = .ok q → ∃ v : State, exec card s = .next (State.settle v) ∧
            (v.lane l).state = .opened ∧ (v.lane l).candidate = none ∧ (v.lane l).slot = none ∧
            (v.lane l).load = some ⟨o.reference, o.carrier, o.tanker, c.card, q.driverRef, s.time.record, none, true, true,
              o.lines.map OrderLine.entry⟩ ∧
            (v.load.orders = s.load.orders.filter fun o' => o'.reference ≠ o.reference) ∧ v.permits = s.permits ∧
            v.port = ((s.raiseNotice .loadOpened (.lane l) 0x01#8).raiseNotice .overrideApplied (.lane l) 0x00#8).port ∧
            v.scan = (u.post l .opened).scan)))

/-! ### Timers -/

/-- Tier 1. The timers of arm and batch: a pending start that lapses is removed and ARM BUSY posted (R81); a running no-flow timer halts
its batch NO FLOW (R86); a running stop timer sets METER LOST and ends the batch, here to HALTED (R89, R90); the travel timer stops
(R91). Those of a lane: a candidate's timer removes it with an override slot that names it, and posts nothing (R142, R148, R152); the
slot's deadline empties the slot and posts OVERRIDE EXPIRED (R152). The shot timer of an owned shot in AWAITING: QUERYING with a SHOT
QUERY posted (R106); an unowned one ends (R109). A timer that does not run changes nothing (the model's reading, log 2). -/
def Obligations.TimersExpire : Prop :=
  (∀ (n : Arm) (s : State), s.Settled →
    (∀ l : Lane, (∃ p ∈ (s.arm n).starts, p.lane = l) → exec (.pendingStartLapse n l) s = .next (State.settle (State.post { s with
      batch := { s.batch with arms := s.batch.arms.set n { s.arm n with
        starts := (s.arm n).starts.filter fun p => p.lane ≠ l } } } l .armBusy))) ∧
    (∀ l : Lane, (∀ p ∈ (s.arm n).starts, p.lane ≠ l) → exec (.pendingStartLapse n l) s = .next s) ∧
    ((∀ b, s.holder n = some b → b.noFlowTimer = none) → exec (.noFlowTimeout n) s = .next s) ∧
    (∀ b, s.holder n = some b → b.noFlowTimer ≠ none → b.state.haltable = true →
      ∃ v : State, exec (.noFlowTimeout n) s = .next v.settle ∧ (v.arm n).desired = .closed ∧
        v.port = (s.raiseNotice .batchHalted (.arm n) 0x06#8).port ∧ (∀ m, m ≠ n → v.arm m = s.arm m) ∧
        v.holder n = some { b with
          state := .stopping, stopReason := some .noFlow, noFlow := 0, overspeed := 0, noFlowTimer := none
          stopTimer := if s.meterOnline n then b.stopTimer else some s.batch.settings.noFlowTimeout }) ∧
    ((∀ b, s.holder n = some b → b.stopTimer = none) → exec (.stopTimeout n) s = .next s) ∧
    (∀ b, s.holder n = some b → b.stopTimer ≠ none → b.state = .stopping → b.stopReason ≠ some .preset → b.ending = false →
      (s.arm n).desired = .closed → ∃ v : State, exec (.stopTimeout n) s = .next v.settle ∧
        v.holder n = some { b with
          state := .halted, stopTimer := none, exceptions := setExc .halted (setExc .meterLost b.exceptions) } ∧
        (v.arm n).desired = .closed ∧ v.scan = (s.post b.lane .halted).scan ∧ v.port = s.port) ∧
    exec (.travelTimerExpiry n) s = .next { s with
      batch := { s.batch with arms := s.batch.arms.set n { s.arm n with travelTimer := none } } }) ∧
  (∀ (l : Lane) (s : State), s.Settled →
    ((s.lane l).candidate.isSome → exec (.candidateExpiry l) s = .next { s with
      load := { s.load with lanes := s.load.lanes.set l { s.lane l with
        candidate := none, slot := (s.lane l).slot.filter fun x => x.target ≠ .load } } }) ∧
    ((s.lane l).candidate = none → exec (.candidateExpiry l) s = .next s) ∧
    ((s.lane l).slot.isSome → exec (.overrideDeadline l) s = .next (State.settle (State.post { s with
      load := { s.load with lanes := s.load.lanes.set l { s.lane l with slot := none } } } l .overrideExpired))) ∧
    ((s.lane l).slot = none → exec (.overrideDeadline l) s = .next s)) ∧
  (∀ (i : DevIx) (s : State), s.Settled →
    ((∀ x f, s.slot i = some x → x.flight = some f → f.phase ≠ .awaiting ∨ f.timer = none) →
      exec (.shotTimeout i) s = .next s) ∧
    ∀ x f, s.slot i = some x → x.flight = some f → f.phase = .awaiting → f.timer ≠ none →
      (f.owned = true → exec (.shotTimeout i) s = .next (State.settle { s with
        additive := { s.additive with slots := s.additive.slots.set i (some { x with
          flight := some { f with phase := .querying, timer := none }, request := some .shotQuery }) }
        scan := { s.scan with wake := true } })) ∧
      (f.owned = false → x.queue = [] → exec (.shotTimeout i) s = .next { s with
        additive := { s.additive with slots := s.additive.slots.set i (some { x with flight := none }) } }))

/-! ### The retained store -/

/-- Tier 2. A note-number write stores n + 1 (1 after 99,999,999), gives n to the note of its lane, which joins the queue while the
lane returns to NONE with LOAD CLOSED and CLOSED, and the next waiting request starts with the word as it now stands (R147, R157,
R161, R162, R177); a calibration write stores the sum held at 999,999 (R161, R163). The LOAD CLOSED notice carries the load's end time
(R147) or the time of this event (R172, R179), which of the two the model leaves free (log 19). That a completion which does not match
the write in progress changes nothing is the model's choice (logs 2 and 35). -/
def Obligations.StoreWriteCompletes : Prop :=
  ∀ s : State, s.Settled →
    ((∀ l k, s.note.writing ≠ some ⟨.note l, k⟩) → exec .noteNumberWriteDone s = .next s) ∧
    ((∀ j k, s.note.writing ≠ some ⟨.calibration j, k⟩) → exec .calibrationWriteDone s = .next s) ∧
    (∀ (l : Lane) (k : Nat) (body : NoteBody), s.note.writing = some ⟨.note l, k⟩ → s.note.closing.get l = some body →
      let word := if k = 99999999 then 1 else k + 1
      let r := s.lane l
      ∃ v : State, exec .noteNumberWriteDone s = .next v.settle ∧ v.note.nextNote = word ∧ v.note.calCounter = s.note.calCounter ∧
        v.note.notes = s.note.notes ++ [⟨k, body⟩] ∧ v.note.closing.get l = none ∧
        v.lane l = { r with state := .none, load := none, endReason := none } ∧ v.lane (Lane.other l) = s.lane (Lane.other l) ∧
        v.port.mode = (if s.port.mode = .draining ∧ (s.lane (Lane.other l)).state = .none then .outOfService else s.port.mode) ∧
        (∃ time : TimeRec, (time = body.endTime ∨ time = s.time.record) ∧
          v.port.notices = (s.raiseNoticeAt .loadClosed (.lane l) 0x00#8 time none).port.notices ∧
          v.port.pendingSet = (s.raiseNoticeAt .loadClosed (.lane l) 0x00#8 time none).port.pendingSet) ∧
        v.scan = (s.post l .closed).scan ∧
        (s.note.queue = [] → v.note.writing = none ∧ v.note.queue = []) ∧
        (∀ m q, s.note.queue = .note m :: q → v.note.writing = some ⟨.note m, word⟩ ∧ v.note.queue = q) ∧
        (∀ j q, s.note.queue = .calibration j :: q → v.note.writing = some ⟨.calibration j, s.note.calCounter⟩ ∧
          v.note.queue = q)) ∧
    (∀ j k : Nat, s.note.writing = some ⟨.calibration j, k⟩ →
      let word := min 999999 (k + j)
      let started := fun (w : Option WriteOp) (q : List WriteReq) => { s with note := { s.note with
        calCounter := word, writing := w, queue := q } }
      (s.note.queue = [] → exec .calibrationWriteDone s = .next (started none [])) ∧
      (∀ m q, s.note.queue = .note m :: q → exec .calibrationWriteDone s = .next (started (some ⟨.note m, s.note.nextNote⟩) q)) ∧
      (∀ i q, s.note.queue = .calibration i :: q →
        exec .calibrationWriteDone s = .next (started (some ⟨.calibration i, word⟩) q)))

/-! ### Figures -/

/-- Tier 2. The stages of a sample's volume: pulses to raw μL, flow rate, raw to gross and gross to net, each quotient truncated and its
remainder carried; a sample without pulses gives no volume and leaves the remainders; the meter factor and the correction factor stay
within 90000..110000 (R45, R59, R60, R61, R62, R65, R66). -/
def Obligations.VolumeStages : Prop :=
  (∀ (e : ArmEntry) (alpha tref : Nat) (m : Metering) (pulses : Nat) (fault : Bool) (interval : Nat) (valid : Bool) (reading : Int),
    e.valid = true → m.InRange e.km →
    let r := (runStages e alpha tref m pulses fault interval valid reading).1
    let k := (runStages e alpha tref m pulses fault interval valid reading).2
    let mf := meterFactor r.rate e.curve
    let f := vcf alpha r.temp tref
    (r.raw * e.km + k.r1 = pulses * 1000000000 + m.r1 ∧ k.r1 < e.km) ∧
    r.rate = r.raw * 60 / (min 5000 (max 1 interval) * 1000) ∧
    (r.gross * 100000 + k.r2 = r.raw * mf + m.r2 ∧ k.r2 < 100000) ∧
    (r.net * 100000 + k.r3 = r.gross * f + m.r3 ∧ k.r3 < 100000) ∧
    (pulses = 0 → r.raw = 0 ∧ r.gross = 0 ∧ r.net = 0 ∧ k.r1 = m.r1 ∧ k.r2 = m.r2 ∧ k.r3 = m.r3) ∧
    (90000 ≤ mf ∧ mf ≤ 110000) ∧ (90000 ≤ f ∧ f ≤ 110000)) ∧
  (∀ pulses : Nat, rawStage pulses 100000 0 = (pulses * 10000, 0)) ∧ rawStage 1 123456 0 = (8100, 6400)

/-- Tier 2. The reporting figures: decilitres, average temperature and reported VCF with their roundings (R71, R72, R73); the learned
stop lead within its bounds, with the two worked cases of R97; a charge rolls the day and is held at 99,999,999 (R125, R126); an
additive result's target and status (R118). -/
def Obligations.FiguresRounded : Prop :=
  (∀ v : Nat, toDl v * 100000 ≤ v + 50000 ∧ v + 50000 < (toDl v + 1) * 100000) ∧
  (toDl 49999 = 0 ∧ toDl 50000 = 1 ∧ toDl 149999 = 1) ∧
  (∀ b : Batch, (b.weightBase = 0 → b.avgTemp = 0) ∧
    (0 < b.weightBase → 2 * (b.avgTemp * b.weightBase - b.tempWeight).natAbs ≤ b.weightBase ∧
      (2 * (b.avgTemp * b.weightBase - b.tempWeight).natAbs = b.weightBase →
        b.tempWeight.natAbs < (b.avgTemp * b.weightBase).natAbs))) ∧
  (∀ b : Batch, (toDl b.gross = 0 → b.reportedVcf = none) ∧
    (toDl b.gross ≠ 0 → ∃ v, b.reportedVcf = some v ∧ v * (2 * b.gross) ≤ 2 * (b.net * 100000) + b.gross ∧
      2 * (b.net * 100000) + b.gross < (v + 1) * (2 * b.gross))) ∧
  (∀ lead gross preset low high : Nat, low ≤ high →
    low ≤ learnedLead lead gross preset low high ∧ learnedLead lead gross preset low high ≤ high) ∧
  (∀ preset : Nat, learnedLead 800 (preset * 10 + 146) preset 400 1500 = 873 ∧
    (4 ≤ preset → learnedLead 873 (preset * 10 - 35) preset 400 1500 = 855)) ∧
  (∀ (p : Permit) (today : Date) (dl : Nat), p.charge today dl = { p with
    usedToday := min 99999999 ((if p.lastLoad = some today then p.usedToday else 0) + dl), lastLoad := some today }) ∧
  (∀ (c : Schedule) (gross : Nat),
    let target := (2 * (gross * c.ratio) + 100000000) / 200000000
    (c.result gross).additive = c.additive ∧ (c.result gross).target = target ∧ (c.result gross).delivered = c.delivered ∧
      (c.state = .faulted → (c.result gross).status = .faulted) ∧ (c.state = .suspended → (c.result gross).status = .suspended) ∧
      (c.state = .active → c.delivered * 100 < target * (100 - c.tolerance) → (c.result gross).status = .short) ∧
      (c.state = .active → target * (100 - c.tolerance) ≤ c.delivered * 100 → (c.result gross).status = .ok))

/-! ### The arbiter -/

/-- Tier 2. The end of an event on the bus. That the pick stands at the end of the event, that BDE is asserted at the pick, and the mark
that says work has arrived are the model's (logs 12, 7 and 36). With a transaction in flight, or in the quiet time, nothing is picked. An urgent close of the
lowest arm comes before all other work, whatever the valve's state (R29, R30). With no valve or injector work and no passthrough the
entry at the pointer is polled or shown its code, and the pointer moves on (R26, R32). Whatever is picked, nothing changes but the
retry holds, pointer, wrap mark, slot, transaction, reply buffer, BDE, the posted requests taken, and a notice of a withdrawn
passthrough (R27, R37). -/
def Obligations.EventEndPicks : Prop :=
  (∀ s : State, s.scan.wake = true → s.scan.transaction.isSome ∨ s.scan.quiet = true →
    s.settle = { s with scan := { s.scan with wake := false } }) ∧
  (∀ (s : State) (n : Arm) (e : ArmEntry) (d : Device), s.scan.wake = true → s.scan.transaction = none → s.scan.quiet = false →
    s.armEntry n = some e → s.device e.valve = some d → d.kind = .valve → d.setStage ≠ some .closed → d.retryHold = false →
    (s.arm n).desired = .closed → (s.arm n).reported ≠ some .closed →
    (∀ m : Arm, m < n → (s.arm m).desired ≠ .closed ∨ (s.arm m).reported = some .closed) →
    s.settle = { s with
      scan := { s.scan with
        transaction := some ⟨e.valve, d.address, .valveSet .closed, .urgentClose, d.timeout, false, false, false⟩
        rx := { s.scan.rx with buffer := [], broken := false }
        wake := false }
      pads := { s.pads with bde := true } }) ∧
  (∀ (s : State) (i : DevIx) (d : Device), s.scan.wake = true → s.scan.transaction = none → s.scan.quiet = false →
    (∀ n : Arm, s.armEntry n = none ∨ (s.arm n).reported = some (s.arm n).desired) → (∀ j x, s.slot j = some x → x.request = none) →
    s.scan.slot = none → s.scan.list[s.scan.pointer]? = some i → s.device i = some d →
    let last := s.scan.pointer + 1 = s.scan.list.length
    s.settle = { s with
      scan := { s.scan with
        transaction := some ⟨i, d.address, if d.kind = .station then (d.display.elim .poll .stationShow) else .poll, .scan,
          d.timeout, false, false, false⟩
        rx := { s.scan.rx with buffer := [], broken := false }
        pointer := if last then 0 else s.scan.pointer + 1
        wrap := last
        wake := false }
      pads := { s.pads with bde := true } }) ∧
  (∀ s : State,
    let t := s.settle
    t = { s with
      scan := { s.scan with
        devices := t.scan.devices, pointer := t.scan.pointer, wrap := t.scan.wrap, slot := t.scan.slot
        transaction := t.scan.transaction, wake := false
        rx := { s.scan.rx with buffer := t.scan.rx.buffer, broken := t.scan.rx.broken } }
      pads := { s.pads with bde := t.pads.bde }
      port := { s.port with notices := t.port.notices, pendingSet := t.port.pendingSet }
      additive := { s.additive with slots := t.additive.slots } } ∧
    (∀ i : DevIx, (t.device i).map (fun d => { d with retryHold := false }) =
      (s.device i).map fun d => { d with retryHold := false }) ∧
    (∀ i : DevIx, (t.slot i).map (fun x => (x.entry, x.queue, x.flight, x.stream.state)) =
      (s.slot i).map fun x => (x.entry, x.queue, x.flight, x.stream.state)))

/-! ### What every step keeps -/

/-- Tier 3. Every step keeps the table of R76: a free arm wants CLOSED, a held one the stage of its holder's state, and a batch flows
only while its lane permissive is true (R76, R77, R83, R88). -/
def Obligations.StepKeepsValvesSafe : Prop :=
  ∀ s t : State, s.ValvesSafe → Stepped s t → t.ValvesSafe

/-- Tier 3. Every step keeps RUN high exactly in IN SERVICE (R175), TDE high exactly while a reply is pending and BDE high exactly while a
telegram is being sent (R9, R12; the driver levels are the model's reading, logs 6 and 7), and leaves no work for the bus behind (log 36). -/
def Obligations.StepKeepsLines : Prop :=
  ∀ s t : State, s.RunTracksMode → s.DriversTrackLines → s.Settled → Stepped s t →
    t.RunTracksMode ∧ t.DriversTrackLines ∧ t.Settled

/-- Tier 3. Every step keeps the note reservation: queued notes plus lanes holding a load are at most 16, so a closing load always finds
room for its note (R140, R155, R157). -/
def Obligations.StepKeepsNoteReservation : Prop :=
  ∀ s t : State, s.NotesReserved → Stepped s t → t.NotesReserved

/-- Tier 3. Every step keeps the retained words in their ranges, and a word changes only at the completion of a write of its own, to the
value of R162 or R163 (R160 to R164). -/
def Obligations.StepKeepsRetainedWords : Prop :=
  ∀ s t : State, s.WordsInRange → Stepped s t →
    t.WordsInRange ∧
    (t.note.nextNote ≠ s.note.nextNote → ∃ l k, s.note.writing = some ⟨.note l, k⟩ ∧
      s.pending.head? = some .noteNumberWriteDone ∧ t.note.nextNote = if k = 99999999 then 1 else k + 1) ∧
    (t.note.calCounter ≠ s.note.calCounter → ∃ j k, s.note.writing = some ⟨.calibration j, k⟩ ∧
      s.pending.head? = some .calibrationWriteDone ∧ t.note.calCounter = min 999999 (k + j))

/-- Tier 2. Every step keeps the permit table in ascending order with at most 256 permits (R120), the nine counters within 16 bits and at
most 32 notices in the queue (R5, R180), and the time record valid (R166, R167). -/
def Obligations.StepKeepsRecords : Prop :=
  ∀ s t : State, Stepped s t →
    (s.PermitsOrdered → t.PermitsOrdered) ∧ (s.CountsBounded → t.CountsBounded) ∧ (s.TimeValid → t.TimeValid)
end

