-- ==== Sys2Proof/Laws/State.lean ====
section
/-! SUPPORT. One lemma per field per update: what an update writes and what it leaves, so that no proof unfolds a record
update; and what reading back gives. -/

namespace Sys2Proof.Machine

/-! ### setLane -/

@[simp] theorem setLane_pads (s : State) (l : Lane) (r : LaneRec) : (s.setLane l r).pads = s.pads := rfl

@[simp] theorem setLane_port (s : State) (l : Lane) (r : LaneRec) : (s.setLane l r).port = s.port := rfl

@[simp] theorem setLane_time (s : State) (l : Lane) (r : LaneRec) : (s.setLane l r).time = s.time := rfl

@[simp] theorem setLane_permits (s : State) (l : Lane) (r : LaneRec) : (s.setLane l r).permits = s.permits := rfl

@[simp] theorem setLane_load (s : State) (l : Lane) (r : LaneRec) : (s.setLane l r).load = { s.load with lanes := s.load.lanes.set l r } := rfl

@[simp] theorem setLane_batch (s : State) (l : Lane) (r : LaneRec) : (s.setLane l r).batch = s.batch := rfl

@[simp] theorem setLane_meter (s : State) (l : Lane) (r : LaneRec) : (s.setLane l r).meter = s.meter := rfl

@[simp] theorem setLane_additive (s : State) (l : Lane) (r : LaneRec) : (s.setLane l r).additive = s.additive := rfl

@[simp] theorem setLane_note (s : State) (l : Lane) (r : LaneRec) : (s.setLane l r).note = s.note := rfl

@[simp] theorem setLane_scan (s : State) (l : Lane) (r : LaneRec) : (s.setLane l r).scan = s.scan := rfl

@[simp] theorem setLane_free (s : State) (l : Lane) (r : LaneRec) : (s.setLane l r).free = s.free := rfl

@[simp] theorem setLane_pending (s : State) (l : Lane) (r : LaneRec) : (s.setLane l r).pending = s.pending := rfl

/-! ### setArm -/

@[simp] theorem setArm_pads (s : State) (n : Arm) (r : ArmRec) : (s.setArm n r).pads = s.pads := rfl

@[simp] theorem setArm_port (s : State) (n : Arm) (r : ArmRec) : (s.setArm n r).port = s.port := rfl

@[simp] theorem setArm_time (s : State) (n : Arm) (r : ArmRec) : (s.setArm n r).time = s.time := rfl

@[simp] theorem setArm_permits (s : State) (n : Arm) (r : ArmRec) : (s.setArm n r).permits = s.permits := rfl

@[simp] theorem setArm_load (s : State) (n : Arm) (r : ArmRec) : (s.setArm n r).load = s.load := rfl

@[simp] theorem setArm_batch (s : State) (n : Arm) (r : ArmRec) : (s.setArm n r).batch = { s.batch with arms := s.batch.arms.set n r } := rfl

@[simp] theorem setArm_meter (s : State) (n : Arm) (r : ArmRec) : (s.setArm n r).meter = s.meter := rfl

@[simp] theorem setArm_additive (s : State) (n : Arm) (r : ArmRec) : (s.setArm n r).additive = s.additive := rfl

@[simp] theorem setArm_note (s : State) (n : Arm) (r : ArmRec) : (s.setArm n r).note = s.note := rfl

@[simp] theorem setArm_scan (s : State) (n : Arm) (r : ArmRec) : (s.setArm n r).scan = s.scan := rfl

@[simp] theorem setArm_free (s : State) (n : Arm) (r : ArmRec) : (s.setArm n r).free = s.free := rfl

@[simp] theorem setArm_pending (s : State) (n : Arm) (r : ArmRec) : (s.setArm n r).pending = s.pending := rfl

/-! ### modBatch -/

@[simp] theorem modBatch_pads (s : State) (n : Arm) (f : Batch → Batch) : (s.modBatch n f).pads = s.pads := rfl

@[simp] theorem modBatch_port (s : State) (n : Arm) (f : Batch → Batch) : (s.modBatch n f).port = s.port := rfl

@[simp] theorem modBatch_time (s : State) (n : Arm) (f : Batch → Batch) : (s.modBatch n f).time = s.time := rfl

@[simp] theorem modBatch_permits (s : State) (n : Arm) (f : Batch → Batch) : (s.modBatch n f).permits = s.permits := rfl

@[simp] theorem modBatch_load (s : State) (n : Arm) (f : Batch → Batch) : (s.modBatch n f).load = s.load := rfl

@[simp] theorem modBatch_batch (s : State) (n : Arm) (f : Batch → Batch) : (s.modBatch n f).batch = { s.batch with arms := s.batch.arms.set n { s.arm n with holder := (s.holder n).map f } } := rfl

@[simp] theorem modBatch_meter (s : State) (n : Arm) (f : Batch → Batch) : (s.modBatch n f).meter = s.meter := rfl

@[simp] theorem modBatch_additive (s : State) (n : Arm) (f : Batch → Batch) : (s.modBatch n f).additive = s.additive := rfl

@[simp] theorem modBatch_note (s : State) (n : Arm) (f : Batch → Batch) : (s.modBatch n f).note = s.note := rfl

@[simp] theorem modBatch_scan (s : State) (n : Arm) (f : Batch → Batch) : (s.modBatch n f).scan = s.scan := rfl

@[simp] theorem modBatch_free (s : State) (n : Arm) (f : Batch → Batch) : (s.modBatch n f).free = s.free := rfl

@[simp] theorem modBatch_pending (s : State) (n : Arm) (f : Batch → Batch) : (s.modBatch n f).pending = s.pending := rfl

/-! ### setBatchExc -/

@[simp] theorem setBatchExc_pads (s : State) (n : Arm) (e : Exc) : (s.setBatchExc n e).pads = s.pads := rfl

@[simp] theorem setBatchExc_port (s : State) (n : Arm) (e : Exc) : (s.setBatchExc n e).port = s.port := rfl

@[simp] theorem setBatchExc_time (s : State) (n : Arm) (e : Exc) : (s.setBatchExc n e).time = s.time := rfl

@[simp] theorem setBatchExc_permits (s : State) (n : Arm) (e : Exc) : (s.setBatchExc n e).permits = s.permits := rfl

@[simp] theorem setBatchExc_load (s : State) (n : Arm) (e : Exc) : (s.setBatchExc n e).load = s.load := rfl

@[simp] theorem setBatchExc_meter (s : State) (n : Arm) (e : Exc) : (s.setBatchExc n e).meter = s.meter := rfl

@[simp] theorem setBatchExc_additive (s : State) (n : Arm) (e : Exc) : (s.setBatchExc n e).additive = s.additive := rfl

@[simp] theorem setBatchExc_note (s : State) (n : Arm) (e : Exc) : (s.setBatchExc n e).note = s.note := rfl

@[simp] theorem setBatchExc_scan (s : State) (n : Arm) (e : Exc) : (s.setBatchExc n e).scan = s.scan := rfl

@[simp] theorem setBatchExc_free (s : State) (n : Arm) (e : Exc) : (s.setBatchExc n e).free = s.free := rfl

@[simp] theorem setBatchExc_pending (s : State) (n : Arm) (e : Exc) : (s.setBatchExc n e).pending = s.pending := rfl

/-! ### setDevice -/

@[simp] theorem setDevice_pads (s : State) (i : DevIx) (d : Option Device) : (s.setDevice i d).pads = s.pads := rfl

@[simp] theorem setDevice_port (s : State) (i : DevIx) (d : Option Device) : (s.setDevice i d).port = s.port := rfl

@[simp] theorem setDevice_time (s : State) (i : DevIx) (d : Option Device) : (s.setDevice i d).time = s.time := rfl

@[simp] theorem setDevice_permits (s : State) (i : DevIx) (d : Option Device) : (s.setDevice i d).permits = s.permits := rfl

@[simp] theorem setDevice_load (s : State) (i : DevIx) (d : Option Device) : (s.setDevice i d).load = s.load := rfl

@[simp] theorem setDevice_batch (s : State) (i : DevIx) (d : Option Device) : (s.setDevice i d).batch = s.batch := rfl

@[simp] theorem setDevice_meter (s : State) (i : DevIx) (d : Option Device) : (s.setDevice i d).meter = s.meter := rfl

@[simp] theorem setDevice_additive (s : State) (i : DevIx) (d : Option Device) : (s.setDevice i d).additive = s.additive := rfl

@[simp] theorem setDevice_note (s : State) (i : DevIx) (d : Option Device) : (s.setDevice i d).note = s.note := rfl

@[simp] theorem setDevice_scan (s : State) (i : DevIx) (d : Option Device) : (s.setDevice i d).scan = { s.scan with devices := s.scan.devices.set i d } := rfl

@[simp] theorem setDevice_free (s : State) (i : DevIx) (d : Option Device) : (s.setDevice i d).free = s.free := rfl

@[simp] theorem setDevice_pending (s : State) (i : DevIx) (d : Option Device) : (s.setDevice i d).pending = s.pending := rfl

/-! ### setSlot -/

@[simp] theorem setSlot_pads (s : State) (i : DevIx) (x : Option InjectorSlot) : (s.setSlot i x).pads = s.pads := rfl

@[simp] theorem setSlot_port (s : State) (i : DevIx) (x : Option InjectorSlot) : (s.setSlot i x).port = s.port := rfl

@[simp] theorem setSlot_time (s : State) (i : DevIx) (x : Option InjectorSlot) : (s.setSlot i x).time = s.time := rfl

@[simp] theorem setSlot_permits (s : State) (i : DevIx) (x : Option InjectorSlot) : (s.setSlot i x).permits = s.permits := rfl

@[simp] theorem setSlot_load (s : State) (i : DevIx) (x : Option InjectorSlot) : (s.setSlot i x).load = s.load := rfl

@[simp] theorem setSlot_batch (s : State) (i : DevIx) (x : Option InjectorSlot) : (s.setSlot i x).batch = s.batch := rfl

@[simp] theorem setSlot_meter (s : State) (i : DevIx) (x : Option InjectorSlot) : (s.setSlot i x).meter = s.meter := rfl

@[simp] theorem setSlot_additive (s : State) (i : DevIx) (x : Option InjectorSlot) : (s.setSlot i x).additive = { s.additive with slots := s.additive.slots.set i x } := rfl

@[simp] theorem setSlot_note (s : State) (i : DevIx) (x : Option InjectorSlot) : (s.setSlot i x).note = s.note := rfl

@[simp] theorem setSlot_scan (s : State) (i : DevIx) (x : Option InjectorSlot) : (s.setSlot i x).scan = s.scan := rfl

@[simp] theorem setSlot_free (s : State) (i : DevIx) (x : Option InjectorSlot) : (s.setSlot i x).free = s.free := rfl

@[simp] theorem setSlot_pending (s : State) (i : DevIx) (x : Option InjectorSlot) : (s.setSlot i x).pending = s.pending := rfl

/-! ### modSlot -/

@[simp] theorem modSlot_pads (s : State) (i : DevIx) (f : InjectorSlot → InjectorSlot) : (s.modSlot i f).pads = s.pads := rfl

@[simp] theorem modSlot_port (s : State) (i : DevIx) (f : InjectorSlot → InjectorSlot) : (s.modSlot i f).port = s.port := rfl

@[simp] theorem modSlot_time (s : State) (i : DevIx) (f : InjectorSlot → InjectorSlot) : (s.modSlot i f).time = s.time := rfl

@[simp] theorem modSlot_permits (s : State) (i : DevIx) (f : InjectorSlot → InjectorSlot) : (s.modSlot i f).permits = s.permits := rfl

@[simp] theorem modSlot_load (s : State) (i : DevIx) (f : InjectorSlot → InjectorSlot) : (s.modSlot i f).load = s.load := rfl

@[simp] theorem modSlot_batch (s : State) (i : DevIx) (f : InjectorSlot → InjectorSlot) : (s.modSlot i f).batch = s.batch := rfl

@[simp] theorem modSlot_meter (s : State) (i : DevIx) (f : InjectorSlot → InjectorSlot) : (s.modSlot i f).meter = s.meter := rfl

@[simp] theorem modSlot_additive (s : State) (i : DevIx) (f : InjectorSlot → InjectorSlot) : (s.modSlot i f).additive = { s.additive with slots := s.additive.slots.set i ((s.slot i).map f) } := rfl

@[simp] theorem modSlot_note (s : State) (i : DevIx) (f : InjectorSlot → InjectorSlot) : (s.modSlot i f).note = s.note := rfl

@[simp] theorem modSlot_scan (s : State) (i : DevIx) (f : InjectorSlot → InjectorSlot) : (s.modSlot i f).scan = s.scan := rfl

@[simp] theorem modSlot_free (s : State) (i : DevIx) (f : InjectorSlot → InjectorSlot) : (s.modSlot i f).free = s.free := rfl

@[simp] theorem modSlot_pending (s : State) (i : DevIx) (f : InjectorSlot → InjectorSlot) : (s.modSlot i f).pending = s.pending := rfl

/-! ### setSchedules -/

@[simp] theorem setSchedules_pads (s : State) (n : Arm) (l : List Schedule) : (s.setSchedules n l).pads = s.pads := rfl

@[simp] theorem setSchedules_port (s : State) (n : Arm) (l : List Schedule) : (s.setSchedules n l).port = s.port := rfl

@[simp] theorem setSchedules_time (s : State) (n : Arm) (l : List Schedule) : (s.setSchedules n l).time = s.time := rfl

@[simp] theorem setSchedules_permits (s : State) (n : Arm) (l : List Schedule) : (s.setSchedules n l).permits = s.permits := rfl

@[simp] theorem setSchedules_load (s : State) (n : Arm) (l : List Schedule) : (s.setSchedules n l).load = s.load := rfl

@[simp] theorem setSchedules_batch (s : State) (n : Arm) (l : List Schedule) : (s.setSchedules n l).batch = s.batch := rfl

@[simp] theorem setSchedules_meter (s : State) (n : Arm) (l : List Schedule) : (s.setSchedules n l).meter = s.meter := rfl

@[simp] theorem setSchedules_additive (s : State) (n : Arm) (l : List Schedule) : (s.setSchedules n l).additive = { s.additive with schedules := s.additive.schedules.set n l } := rfl

@[simp] theorem setSchedules_note (s : State) (n : Arm) (l : List Schedule) : (s.setSchedules n l).note = s.note := rfl

@[simp] theorem setSchedules_scan (s : State) (n : Arm) (l : List Schedule) : (s.setSchedules n l).scan = s.scan := rfl

@[simp] theorem setSchedules_free (s : State) (n : Arm) (l : List Schedule) : (s.setSchedules n l).free = s.free := rfl

@[simp] theorem setSchedules_pending (s : State) (n : Arm) (l : List Schedule) : (s.setSchedules n l).pending = s.pending := rfl

/-! ### modSchedule -/

@[simp] theorem modSchedule_pads (s : State) (n : Arm) (i : DevIx) (f : Schedule → Schedule) : (s.modSchedule n i f).pads = s.pads := rfl

@[simp] theorem modSchedule_port (s : State) (n : Arm) (i : DevIx) (f : Schedule → Schedule) : (s.modSchedule n i f).port = s.port := rfl

@[simp] theorem modSchedule_time (s : State) (n : Arm) (i : DevIx) (f : Schedule → Schedule) : (s.modSchedule n i f).time = s.time := rfl

@[simp] theorem modSchedule_permits (s : State) (n : Arm) (i : DevIx) (f : Schedule → Schedule) : (s.modSchedule n i f).permits = s.permits := rfl

@[simp] theorem modSchedule_load (s : State) (n : Arm) (i : DevIx) (f : Schedule → Schedule) : (s.modSchedule n i f).load = s.load := rfl

@[simp] theorem modSchedule_batch (s : State) (n : Arm) (i : DevIx) (f : Schedule → Schedule) : (s.modSchedule n i f).batch = s.batch := rfl

@[simp] theorem modSchedule_meter (s : State) (n : Arm) (i : DevIx) (f : Schedule → Schedule) : (s.modSchedule n i f).meter = s.meter := rfl

@[simp] theorem modSchedule_note (s : State) (n : Arm) (i : DevIx) (f : Schedule → Schedule) : (s.modSchedule n i f).note = s.note := rfl

@[simp] theorem modSchedule_scan (s : State) (n : Arm) (i : DevIx) (f : Schedule → Schedule) : (s.modSchedule n i f).scan = s.scan := rfl

@[simp] theorem modSchedule_free (s : State) (n : Arm) (i : DevIx) (f : Schedule → Schedule) : (s.modSchedule n i f).free = s.free := rfl

@[simp] theorem modSchedule_pending (s : State) (n : Arm) (i : DevIx) (f : Schedule → Schedule) : (s.modSchedule n i f).pending = s.pending := rfl

/-! ### setMetering -/

@[simp] theorem setMetering_pads (s : State) (n : Arm) (m : Metering) : (s.setMetering n m).pads = s.pads := rfl

@[simp] theorem setMetering_port (s : State) (n : Arm) (m : Metering) : (s.setMetering n m).port = s.port := rfl

@[simp] theorem setMetering_time (s : State) (n : Arm) (m : Metering) : (s.setMetering n m).time = s.time := rfl

@[simp] theorem setMetering_permits (s : State) (n : Arm) (m : Metering) : (s.setMetering n m).permits = s.permits := rfl

@[simp] theorem setMetering_load (s : State) (n : Arm) (m : Metering) : (s.setMetering n m).load = s.load := rfl

@[simp] theorem setMetering_batch (s : State) (n : Arm) (m : Metering) : (s.setMetering n m).batch = s.batch := rfl

@[simp] theorem setMetering_meter (s : State) (n : Arm) (m : Metering) : (s.setMetering n m).meter = s.meter.set n m := rfl

@[simp] theorem setMetering_additive (s : State) (n : Arm) (m : Metering) : (s.setMetering n m).additive = s.additive := rfl

@[simp] theorem setMetering_note (s : State) (n : Arm) (m : Metering) : (s.setMetering n m).note = s.note := rfl

@[simp] theorem setMetering_scan (s : State) (n : Arm) (m : Metering) : (s.setMetering n m).scan = s.scan := rfl

@[simp] theorem setMetering_free (s : State) (n : Arm) (m : Metering) : (s.setMetering n m).free = s.free := rfl

@[simp] theorem setMetering_pending (s : State) (n : Arm) (m : Metering) : (s.setMetering n m).pending = s.pending := rfl

/-! ### wakeBus -/

@[simp] theorem wakeBus_pads (s : State) : (s.wakeBus).pads = s.pads := rfl

@[simp] theorem wakeBus_port (s : State) : (s.wakeBus).port = s.port := rfl

@[simp] theorem wakeBus_time (s : State) : (s.wakeBus).time = s.time := rfl

@[simp] theorem wakeBus_permits (s : State) : (s.wakeBus).permits = s.permits := rfl

@[simp] theorem wakeBus_load (s : State) : (s.wakeBus).load = s.load := rfl

@[simp] theorem wakeBus_batch (s : State) : (s.wakeBus).batch = s.batch := rfl

@[simp] theorem wakeBus_meter (s : State) : (s.wakeBus).meter = s.meter := rfl

@[simp] theorem wakeBus_additive (s : State) : (s.wakeBus).additive = s.additive := rfl

@[simp] theorem wakeBus_note (s : State) : (s.wakeBus).note = s.note := rfl

@[simp] theorem wakeBus_scan (s : State) : (s.wakeBus).scan = { s.scan with wake := true } := rfl

@[simp] theorem wakeBus_free (s : State) : (s.wakeBus).free = s.free := rfl

@[simp] theorem wakeBus_pending (s : State) : (s.wakeBus).pending = s.pending := rfl

/-! ### setMode -/

@[simp] theorem setMode_pads (s : State) (m : BayMode) : (s.setMode m).pads = { s.pads with run := m == .inService } := rfl

@[simp] theorem setMode_port (s : State) (m : BayMode) : (s.setMode m).port = { s.port with mode := m } := rfl

@[simp] theorem setMode_time (s : State) (m : BayMode) : (s.setMode m).time = s.time := rfl

@[simp] theorem setMode_permits (s : State) (m : BayMode) : (s.setMode m).permits = s.permits := rfl

@[simp] theorem setMode_load (s : State) (m : BayMode) : (s.setMode m).load = s.load := rfl

@[simp] theorem setMode_batch (s : State) (m : BayMode) : (s.setMode m).batch = s.batch := rfl

@[simp] theorem setMode_meter (s : State) (m : BayMode) : (s.setMode m).meter = s.meter := rfl

@[simp] theorem setMode_additive (s : State) (m : BayMode) : (s.setMode m).additive = s.additive := rfl

@[simp] theorem setMode_note (s : State) (m : BayMode) : (s.setMode m).note = s.note := rfl

@[simp] theorem setMode_scan (s : State) (m : BayMode) : (s.setMode m).scan = s.scan := rfl

@[simp] theorem setMode_free (s : State) (m : BayMode) : (s.setMode m).free = s.free := rfl

@[simp] theorem setMode_pending (s : State) (m : BayMode) : (s.setMode m).pending = s.pending := rfl

/-! ### reply -/

@[simp] theorem reply_pads (s : State) (r : TermReply) : (s.reply r).pads = { s.pads with tde := true } := rfl

@[simp] theorem reply_port (s : State) (r : TermReply) : (s.reply r).port = { s.port with reply := some r } := rfl

@[simp] theorem reply_time (s : State) (r : TermReply) : (s.reply r).time = s.time := rfl

@[simp] theorem reply_permits (s : State) (r : TermReply) : (s.reply r).permits = s.permits := rfl

@[simp] theorem reply_load (s : State) (r : TermReply) : (s.reply r).load = s.load := rfl

@[simp] theorem reply_batch (s : State) (r : TermReply) : (s.reply r).batch = s.batch := rfl

@[simp] theorem reply_meter (s : State) (r : TermReply) : (s.reply r).meter = s.meter := rfl

@[simp] theorem reply_additive (s : State) (r : TermReply) : (s.reply r).additive = s.additive := rfl

@[simp] theorem reply_note (s : State) (r : TermReply) : (s.reply r).note = s.note := rfl

@[simp] theorem reply_scan (s : State) (r : TermReply) : (s.reply r).scan = s.scan := rfl

@[simp] theorem reply_free (s : State) (r : TermReply) : (s.reply r).free = s.free := rfl

@[simp] theorem reply_pending (s : State) (r : TermReply) : (s.reply r).pending = s.pending := rfl

/-! ### raiseNoticeAt -/

@[simp] theorem raiseNoticeAt_pads (s : State) (kind : NoticeKind) (subject : Subject) (code : Byte) (time : TimeRec) (extra : Option (Byte × List Byte)) : (s.raiseNoticeAt kind subject code time extra).pads = s.pads := rfl

@[simp] theorem raiseNoticeAt_time (s : State) (kind : NoticeKind) (subject : Subject) (code : Byte) (time : TimeRec) (extra : Option (Byte × List Byte)) : (s.raiseNoticeAt kind subject code time extra).time = s.time := rfl

@[simp] theorem raiseNoticeAt_permits (s : State) (kind : NoticeKind) (subject : Subject) (code : Byte) (time : TimeRec) (extra : Option (Byte × List Byte)) : (s.raiseNoticeAt kind subject code time extra).permits = s.permits := rfl

@[simp] theorem raiseNoticeAt_load (s : State) (kind : NoticeKind) (subject : Subject) (code : Byte) (time : TimeRec) (extra : Option (Byte × List Byte)) : (s.raiseNoticeAt kind subject code time extra).load = s.load := rfl

@[simp] theorem raiseNoticeAt_batch (s : State) (kind : NoticeKind) (subject : Subject) (code : Byte) (time : TimeRec) (extra : Option (Byte × List Byte)) : (s.raiseNoticeAt kind subject code time extra).batch = s.batch := rfl

@[simp] theorem raiseNoticeAt_meter (s : State) (kind : NoticeKind) (subject : Subject) (code : Byte) (time : TimeRec) (extra : Option (Byte × List Byte)) : (s.raiseNoticeAt kind subject code time extra).meter = s.meter := rfl

@[simp] theorem raiseNoticeAt_additive (s : State) (kind : NoticeKind) (subject : Subject) (code : Byte) (time : TimeRec) (extra : Option (Byte × List Byte)) : (s.raiseNoticeAt kind subject code time extra).additive = s.additive := rfl

@[simp] theorem raiseNoticeAt_note (s : State) (kind : NoticeKind) (subject : Subject) (code : Byte) (time : TimeRec) (extra : Option (Byte × List Byte)) : (s.raiseNoticeAt kind subject code time extra).note = s.note := rfl

@[simp] theorem raiseNoticeAt_scan (s : State) (kind : NoticeKind) (subject : Subject) (code : Byte) (time : TimeRec) (extra : Option (Byte × List Byte)) : (s.raiseNoticeAt kind subject code time extra).scan = s.scan := rfl

@[simp] theorem raiseNoticeAt_free (s : State) (kind : NoticeKind) (subject : Subject) (code : Byte) (time : TimeRec) (extra : Option (Byte × List Byte)) : (s.raiseNoticeAt kind subject code time extra).free = s.free := rfl

@[simp] theorem raiseNoticeAt_pending (s : State) (kind : NoticeKind) (subject : Subject) (code : Byte) (time : TimeRec) (extra : Option (Byte × List Byte)) : (s.raiseNoticeAt kind subject code time extra).pending = s.pending := rfl

/-! ### raiseNotice -/

@[simp] theorem raiseNotice_pads (s : State) (kind : NoticeKind) (subject : Subject) (code : Byte) : (s.raiseNotice kind subject code).pads = s.pads := rfl

@[simp] theorem raiseNotice_time (s : State) (kind : NoticeKind) (subject : Subject) (code : Byte) : (s.raiseNotice kind subject code).time = s.time := rfl

@[simp] theorem raiseNotice_permits (s : State) (kind : NoticeKind) (subject : Subject) (code : Byte) : (s.raiseNotice kind subject code).permits = s.permits := rfl

@[simp] theorem raiseNotice_load (s : State) (kind : NoticeKind) (subject : Subject) (code : Byte) : (s.raiseNotice kind subject code).load = s.load := rfl

@[simp] theorem raiseNotice_batch (s : State) (kind : NoticeKind) (subject : Subject) (code : Byte) : (s.raiseNotice kind subject code).batch = s.batch := rfl

@[simp] theorem raiseNotice_meter (s : State) (kind : NoticeKind) (subject : Subject) (code : Byte) : (s.raiseNotice kind subject code).meter = s.meter := rfl

@[simp] theorem raiseNotice_additive (s : State) (kind : NoticeKind) (subject : Subject) (code : Byte) : (s.raiseNotice kind subject code).additive = s.additive := rfl

@[simp] theorem raiseNotice_note (s : State) (kind : NoticeKind) (subject : Subject) (code : Byte) : (s.raiseNotice kind subject code).note = s.note := rfl

@[simp] theorem raiseNotice_scan (s : State) (kind : NoticeKind) (subject : Subject) (code : Byte) : (s.raiseNotice kind subject code).scan = s.scan := rfl

@[simp] theorem raiseNotice_free (s : State) (kind : NoticeKind) (subject : Subject) (code : Byte) : (s.raiseNotice kind subject code).free = s.free := rfl

@[simp] theorem raiseNotice_pending (s : State) (kind : NoticeKind) (subject : Subject) (code : Byte) : (s.raiseNotice kind subject code).pending = s.pending := rfl

/-! ### withdrawRequest -/

@[simp] theorem withdrawRequest_pads (s : State) (i : DevIx) : (s.withdrawRequest i).pads = s.pads := rfl

@[simp] theorem withdrawRequest_port (s : State) (i : DevIx) : (s.withdrawRequest i).port = s.port := rfl

@[simp] theorem withdrawRequest_time (s : State) (i : DevIx) : (s.withdrawRequest i).time = s.time := rfl

@[simp] theorem withdrawRequest_permits (s : State) (i : DevIx) : (s.withdrawRequest i).permits = s.permits := rfl

@[simp] theorem withdrawRequest_load (s : State) (i : DevIx) : (s.withdrawRequest i).load = s.load := rfl

@[simp] theorem withdrawRequest_batch (s : State) (i : DevIx) : (s.withdrawRequest i).batch = s.batch := rfl

@[simp] theorem withdrawRequest_meter (s : State) (i : DevIx) : (s.withdrawRequest i).meter = s.meter := rfl

@[simp] theorem withdrawRequest_note (s : State) (i : DevIx) : (s.withdrawRequest i).note = s.note := rfl

@[simp] theorem withdrawRequest_scan (s : State) (i : DevIx) : (s.withdrawRequest i).scan = s.scan := rfl

@[simp] theorem withdrawRequest_free (s : State) (i : DevIx) : (s.withdrawRequest i).free = s.free := rfl

@[simp] theorem withdrawRequest_pending (s : State) (i : DevIx) : (s.withdrawRequest i).pending = s.pending := rfl

/-! ### postRequest -/

@[simp] theorem postRequest_pads (s : State) (i : DevIx) (r : InjRequest) : (s.postRequest i r).pads = s.pads := rfl

@[simp] theorem postRequest_port (s : State) (i : DevIx) (r : InjRequest) : (s.postRequest i r).port = s.port := rfl

@[simp] theorem postRequest_time (s : State) (i : DevIx) (r : InjRequest) : (s.postRequest i r).time = s.time := rfl

@[simp] theorem postRequest_permits (s : State) (i : DevIx) (r : InjRequest) : (s.postRequest i r).permits = s.permits := rfl

@[simp] theorem postRequest_load (s : State) (i : DevIx) (r : InjRequest) : (s.postRequest i r).load = s.load := rfl

@[simp] theorem postRequest_batch (s : State) (i : DevIx) (r : InjRequest) : (s.postRequest i r).batch = s.batch := rfl

@[simp] theorem postRequest_meter (s : State) (i : DevIx) (r : InjRequest) : (s.postRequest i r).meter = s.meter := rfl

@[simp] theorem postRequest_note (s : State) (i : DevIx) (r : InjRequest) : (s.postRequest i r).note = s.note := rfl

@[simp] theorem postRequest_scan (s : State) (i : DevIx) (r : InjRequest) : (s.postRequest i r).scan = { s.scan with wake := true } := rfl

@[simp] theorem postRequest_free (s : State) (i : DevIx) (r : InjRequest) : (s.postRequest i r).free = s.free := rfl

@[simp] theorem postRequest_pending (s : State) (i : DevIx) (r : InjRequest) : (s.postRequest i r).pending = s.pending := rfl

/-! ### modPermit -/

@[simp] theorem modPermit_pads (s : State) (card : Nat) (f : Permit → Permit) : (s.modPermit card f).pads = s.pads := rfl

@[simp] theorem modPermit_port (s : State) (card : Nat) (f : Permit → Permit) : (s.modPermit card f).port = s.port := rfl

@[simp] theorem modPermit_time (s : State) (card : Nat) (f : Permit → Permit) : (s.modPermit card f).time = s.time := rfl

@[simp] theorem modPermit_permits (s : State) (card : Nat) (f : Permit → Permit) : (s.modPermit card f).permits = s.permits.map fun p => if p.card = card then f p else p := rfl

@[simp] theorem modPermit_load (s : State) (card : Nat) (f : Permit → Permit) : (s.modPermit card f).load = s.load := rfl

@[simp] theorem modPermit_batch (s : State) (card : Nat) (f : Permit → Permit) : (s.modPermit card f).batch = s.batch := rfl

@[simp] theorem modPermit_meter (s : State) (card : Nat) (f : Permit → Permit) : (s.modPermit card f).meter = s.meter := rfl

@[simp] theorem modPermit_additive (s : State) (card : Nat) (f : Permit → Permit) : (s.modPermit card f).additive = s.additive := rfl

@[simp] theorem modPermit_note (s : State) (card : Nat) (f : Permit → Permit) : (s.modPermit card f).note = s.note := rfl

@[simp] theorem modPermit_scan (s : State) (card : Nat) (f : Permit → Permit) : (s.modPermit card f).scan = s.scan := rfl

@[simp] theorem modPermit_free (s : State) (card : Nat) (f : Permit → Permit) : (s.modPermit card f).free = s.free := rfl

@[simp] theorem modPermit_pending (s : State) (card : Nat) (f : Permit → Permit) : (s.modPermit card f).pending = s.pending := rfl

/-! ### modEntry -/

@[simp] theorem modEntry_pads (s : State) (l : Lane) (comp : Nat) (f : CompEntry → CompEntry) : (s.modEntry l comp f).pads = s.pads := rfl

@[simp] theorem modEntry_port (s : State) (l : Lane) (comp : Nat) (f : CompEntry → CompEntry) : (s.modEntry l comp f).port = s.port := rfl

@[simp] theorem modEntry_time (s : State) (l : Lane) (comp : Nat) (f : CompEntry → CompEntry) : (s.modEntry l comp f).time = s.time := rfl

@[simp] theorem modEntry_permits (s : State) (l : Lane) (comp : Nat) (f : CompEntry → CompEntry) : (s.modEntry l comp f).permits = s.permits := rfl

@[simp] theorem modEntry_batch (s : State) (l : Lane) (comp : Nat) (f : CompEntry → CompEntry) : (s.modEntry l comp f).batch = s.batch := rfl

@[simp] theorem modEntry_meter (s : State) (l : Lane) (comp : Nat) (f : CompEntry → CompEntry) : (s.modEntry l comp f).meter = s.meter := rfl

@[simp] theorem modEntry_additive (s : State) (l : Lane) (comp : Nat) (f : CompEntry → CompEntry) : (s.modEntry l comp f).additive = s.additive := rfl

@[simp] theorem modEntry_note (s : State) (l : Lane) (comp : Nat) (f : CompEntry → CompEntry) : (s.modEntry l comp f).note = s.note := rfl

@[simp] theorem modEntry_scan (s : State) (l : Lane) (comp : Nat) (f : CompEntry → CompEntry) : (s.modEntry l comp f).scan = s.scan := rfl

@[simp] theorem modEntry_free (s : State) (l : Lane) (comp : Nat) (f : CompEntry → CompEntry) : (s.modEntry l comp f).free = s.free := rfl

@[simp] theorem modEntry_pending (s : State) (l : Lane) (comp : Nat) (f : CompEntry → CompEntry) : (s.modEntry l comp f).pending = s.pending := rfl

/-! ### Display codes -/

/-- A posted code touches the scanner only (R32). -/
theorem post_eq (s : State) (l : Lane) (c : DisplayCode) : s.post l c = { s with scan := (s.post l c).scan } := by
  unfold State.post
  split <;> rfl

@[simp] theorem post_pads (s : State) (l : Lane) (c : DisplayCode) : (s.post l c).pads = s.pads := by
  rw [post_eq]

@[simp] theorem post_port (s : State) (l : Lane) (c : DisplayCode) : (s.post l c).port = s.port := by
  rw [post_eq]

@[simp] theorem post_time (s : State) (l : Lane) (c : DisplayCode) : (s.post l c).time = s.time := by
  rw [post_eq]

@[simp] theorem post_permits (s : State) (l : Lane) (c : DisplayCode) : (s.post l c).permits = s.permits := by
  rw [post_eq]

@[simp] theorem post_load (s : State) (l : Lane) (c : DisplayCode) : (s.post l c).load = s.load := by
  rw [post_eq]

@[simp] theorem post_batch (s : State) (l : Lane) (c : DisplayCode) : (s.post l c).batch = s.batch := by
  rw [post_eq]

@[simp] theorem post_meter (s : State) (l : Lane) (c : DisplayCode) : (s.post l c).meter = s.meter := by
  rw [post_eq]

@[simp] theorem post_additive (s : State) (l : Lane) (c : DisplayCode) : (s.post l c).additive = s.additive := by
  rw [post_eq]

@[simp] theorem post_note (s : State) (l : Lane) (c : DisplayCode) : (s.post l c).note = s.note := by
  rw [post_eq]

@[simp] theorem post_free (s : State) (l : Lane) (c : DisplayCode) : (s.post l c).free = s.free := by
  rw [post_eq]

@[simp] theorem post_pending (s : State) (l : Lane) (c : DisplayCode) : (s.post l c).pending = s.pending := by
  rw [post_eq]

/-! ### Reading back -/

@[simp] theorem lanes_get_set_self {α : Type} (v : Lanes α) (l : Lane) (x : α) : (v.set l x).get l = x := by cases l <;> rfl

@[simp] theorem lanes_get_set_other {α : Type} (v : Lanes α) {k l : Lane} (h : k ≠ l) (x : α) : (v.set l x).get k = v.get k := by
  cases k <;> cases l <;> first | rfl | exact absurd rfl h

@[simp] theorem lanes_set_get {α : Type} (v : Lanes α) (l : Lane) : v.set l (v.get l) = v := by cases l <;> rfl

@[simp] theorem lanes_set_set {α : Type} (v : Lanes α) (l : Lane) (x y : α) : (v.set l x).set l y = v.set l y := by
  cases l <;> rfl

@[simp] theorem lane_other_ne (l : Lane) : Lane.other l ≠ l := by cases l <;> decide

@[simp] theorem lane_setLane_self (s : State) (l : Lane) (r : LaneRec) : (s.setLane l r).lane l = r := lanes_get_set_self ..

@[simp] theorem lane_setLane_other (s : State) {k l : Lane} (h : k ≠ l) (r : LaneRec) : (s.setLane l r).lane k = s.lane k :=
  lanes_get_set_other _ h r

@[simp] theorem arm_setArm_self (s : State) (n : Arm) (r : ArmRec) : (s.setArm n r).arm n = r := by
  simp [State.arm, State.setArm]

theorem arm_setArm_other (s : State) {m n : Arm} (h : m ≠ n) (r : ArmRec) : (s.setArm n r).arm m = s.arm m := by
  have h' : n.val ≠ m.val := fun e => h (Fin.ext e.symm)
  simp [State.arm, State.setArm, h']

theorem arm_setArm (s : State) (m n : Arm) (r : ArmRec) : (s.setArm n r).arm m = if m = n then r else s.arm m := by
  by_cases h : m = n
  · subst h; simp
  · simp [h, arm_setArm_other]

@[simp] theorem setArm_setArm (s : State) (n : Arm) (r q : ArmRec) : (s.setArm n r).setArm n q = s.setArm n q := by
  simp [State.setArm]

@[simp] theorem setArm_arm (s : State) (n : Arm) : s.setArm n (s.arm n) = s := by
  simp [State.setArm, State.arm]

@[simp] theorem holder_setArm_self (s : State) (n : Arm) (r : ArmRec) : (s.setArm n r).holder n = r.holder := by
  simp [State.holder]

theorem holder_setArm_other (s : State) {m n : Arm} (h : m ≠ n) (r : ArmRec) : (s.setArm n r).holder m = s.holder m := by
  simp [State.holder, arm_setArm_other s h]

@[simp] theorem holder_modBatch_self (s : State) (n : Arm) (f : Batch → Batch) : (s.modBatch n f).holder n = (s.holder n).map f := by
  simp [State.modBatch]

theorem holder_modBatch_other (s : State) {m n : Arm} (h : m ≠ n) (f : Batch → Batch) : (s.modBatch n f).holder m = s.holder m := by
  simp [State.modBatch, holder_setArm_other s h]

theorem arm_modBatch_self (s : State) (n : Arm) (f : Batch → Batch) :
    (s.modBatch n f).arm n = { s.arm n with holder := (s.holder n).map f } := by
  simp [State.modBatch]

theorem arm_modBatch_other (s : State) {m n : Arm} (h : m ≠ n) (f : Batch → Batch) : (s.modBatch n f).arm m = s.arm m := by
  simp [State.modBatch, arm_setArm_other s h]

@[simp] theorem device_setDevice_self (s : State) (i : DevIx) (d : Option Device) : (s.setDevice i d).device i = d := by
  simp [State.device, State.setDevice]

theorem device_setDevice_other (s : State) {i j : DevIx} (h : j ≠ i) (d : Option Device) :
    (s.setDevice i d).device j = s.device j := by
  have h' : i.val ≠ j.val := fun e => h (Fin.ext e.symm)
  simp [State.device, State.setDevice, h']

@[simp] theorem setDevice_setDevice (s : State) (i : DevIx) (d e : Option Device) :
    (s.setDevice i d).setDevice i e = s.setDevice i e := by
  simp [State.setDevice]

@[simp] theorem slot_setSlot_self (s : State) (i : DevIx) (x : Option InjectorSlot) : (s.setSlot i x).slot i = x := by
  simp [State.slot, State.setSlot]

theorem slot_setSlot_other (s : State) {i j : DevIx} (h : j ≠ i) (x : Option InjectorSlot) : (s.setSlot i x).slot j = s.slot j := by
  have h' : i.val ≠ j.val := fun e => h (Fin.ext e.symm)
  simp [State.slot, State.setSlot, h']

@[simp] theorem setSlot_setSlot (s : State) (i : DevIx) (x y : Option InjectorSlot) :
    (s.setSlot i x).setSlot i y = s.setSlot i y := by
  simp [State.setSlot]

@[simp] theorem slot_modSlot_self (s : State) (i : DevIx) (f : InjectorSlot → InjectorSlot) :
    (s.modSlot i f).slot i = (s.slot i).map f := by
  simp [State.modSlot]

@[simp] theorem modSlot_modSlot (s : State) (i : DevIx) (f g : InjectorSlot → InjectorSlot) :
    (s.modSlot i f).modSlot i g = s.modSlot i fun x => g (f x) := by
  simp [State.modSlot, Function.comp_def]

@[simp] theorem schedules_setSchedules_self (s : State) (n : Arm) (l : List Schedule) : (s.setSchedules n l).schedules n = l := by
  simp [State.schedules, State.setSchedules]

theorem schedules_setSchedules_other (s : State) {m n : Arm} (h : m ≠ n) (l : List Schedule) :
    (s.setSchedules n l).schedules m = s.schedules m := by
  have h' : n.val ≠ m.val := fun e => h (Fin.ext e.symm)
  simp [State.schedules, State.setSchedules, h']

@[simp] theorem setSchedules_setSchedules (s : State) (n : Arm) (k l : List Schedule) :
    (s.setSchedules n k).setSchedules n l = s.setSchedules n l := by
  simp [State.setSchedules]

@[simp] theorem metering_setMetering_self (s : State) (n : Arm) (m : Metering) : (s.setMetering n m).metering n = m := by
  simp [State.metering, State.setMetering]

@[simp] theorem setMetering_setMetering (s : State) (n : Arm) (m k : Metering) :
    (s.setMetering n m).setMetering n k = s.setMetering n k := by
  simp [State.setMetering]

end Sys2Proof.Machine
end

