-- ==== Sys2Proof/Laws/Shots.lean ====
section
/-! SUPPORT. What the additive scheduler's operations touch: its own records, the scanner's wake mark and the free-value counter. -/

namespace Sys2Proof.Machine

/-- The state without the additive scheduler's records, the wake mark and the free-value counter. -/
def State.sansAdditive (s : State) : State :=
  { s with
    additive := ⟨Vector.replicate 32 none, Vector.replicate 6 []⟩
    scan := { s.scan with wake := false }
    free := 0 }

theorem foldl_keeps {α β γ : Type} (p : α → γ) (f : α → β → α) (h : ∀ s a, p (f s a) = p s) (l : List β) :
    ∀ s, p (l.foldl f s) = p s := by
  induction l with
  | nil => intro s; rfl
  | cons a l ih => intro s; rw [List.foldl_cons, ih, h]

@[simp] theorem setSlot_sans (s : State) (i : DevIx) (x : Option InjectorSlot) : (s.setSlot i x).sansAdditive = s.sansAdditive := rfl

@[simp] theorem modSlot_sans (s : State) (i : DevIx) (f : InjectorSlot → InjectorSlot) :
    (s.modSlot i f).sansAdditive = s.sansAdditive := rfl

@[simp] theorem setSchedules_sans (s : State) (n : Arm) (l : List Schedule) :
    (s.setSchedules n l).sansAdditive = s.sansAdditive := rfl

@[simp] theorem modSchedule_sans (s : State) (n : Arm) (i : DevIx) (f : Schedule → Schedule) :
    (s.modSchedule n i f).sansAdditive = s.sansAdditive := rfl

@[simp] theorem wakeBus_sans (s : State) : s.wakeBus.sansAdditive = s.sansAdditive := rfl

@[simp] theorem postRequest_sans (s : State) (i : DevIx) (r : InjRequest) :
    (s.postRequest i r).sansAdditive = s.sansAdditive := rfl

@[simp] theorem withdrawRequest_sans (s : State) (i : DevIx) : (s.withdrawRequest i).sansAdditive = s.sansAdditive := rfl

@[simp] theorem modStream_sans (s : State) (i : DevIx) (f : Stream → Stream) :
    (s.modStream i f).sansAdditive = s.sansAdditive := rfl

@[simp] theorem dropFlight_sans (s : State) (i : DevIx) : (s.dropFlight i).sansAdditive = s.sansAdditive := rfl

@[simp] theorem streamFailed_sans (s : State) (i : DevIx) : (s.streamFailed i).sansAdditive = s.sansAdditive := rfl

@[simp] theorem postStreamStop_sans (s : State) (i : DevIx) (k : Nat) (once : Bool) :
    (s.postStreamStop i k once).sansAdditive = s.sansAdditive := rfl

@[simp] theorem stopStreamOnce_sans (s : State) (i : DevIx) : (s.stopStreamOnce i).sansAdditive = s.sansAdditive := rfl

@[simp] theorem setFlight_sans (s : State) (i : DevIx) (f : Flight) : (s.setFlight i f).sansAdditive = s.sansAdditive := rfl

@[simp] theorem awaitReport_sans (s : State) (i : DevIx) (f : Flight) : (s.awaitReport i f).sansAdditive = s.sansAdditive := rfl

@[simp] theorem queryShot_sans (s : State) (i : DevIx) (f : Flight) : (s.queryShot i f).sansAdditive = s.sansAdditive := rfl

@[simp] theorem issueHead_sans (s : State) (i : DevIx) : (s.issueHead i).sansAdditive = s.sansAdditive := by
  unfold State.issueHead
  repeat' split
  all_goals simp

@[simp] theorem joinQueue_sans (s : State) (n : Arm) (i : DevIx) : (s.joinQueue n i).sansAdditive = s.sansAdditive := by
  unfold State.joinQueue
  split <;> simp

@[simp] theorem withdrawShots_sans (s : State) (n : Arm) (i : DevIx) :
    (s.withdrawShots n i).sansAdditive = s.sansAdditive := by
  unfold State.withdrawShots
  split <;> simp

@[simp] theorem startStream_sans (s : State) (n : Arm) (i : DevIx) : (s.startStream n i).sansAdditive = s.sansAdditive := by
  unfold State.startStream
  split <;> simp

@[simp] theorem streamIdle_sans (s : State) (i : DevIx) : (s.streamIdle i).sansAdditive = s.sansAdditive := by
  unfold State.streamIdle
  dsimp only
  repeat' split
  all_goals simp

@[simp] theorem stopStream_sans (s : State) (i : DevIx) : (s.stopStream i).sansAdditive = s.sansAdditive := by
  unfold State.stopStream
  repeat' split
  all_goals simp

@[simp] theorem openStreams_sans (s : State) (n : Arm) : (s.openStreams n).sansAdditive = s.sansAdditive := by
  unfold State.openStreams
  refine foldl_keeps State.sansAdditive _ (fun s c => ?_) _ s
  split <;> simp

@[simp] theorem leaveFlowing_sans (s : State) (n : Arm) : (s.leaveFlowing n).sansAdditive = s.sansAdditive := by
  unfold State.leaveFlowing
  refine foldl_keeps State.sansAdditive _ (fun s c => ?_) _ s
  repeat' split
  all_goals simp

@[simp] theorem disown_sans (s : State) (n : Arm) (i : DevIx) : (s.disown n i).sansAdditive = s.sansAdditive := by
  unfold State.disown
  dsimp only
  repeat' split
  all_goals simp

@[simp] theorem closeSchedules_sans (s : State) (n : Arm) : (s.closeSchedules n).sansAdditive = s.sansAdditive := by
  unfold State.closeSchedules
  rw [setSchedules_sans]
  refine foldl_keeps State.sansAdditive _ (fun s c => ?_) _ s
  split <;> simp

@[simp] theorem setDelivered_sans (s : State) (n : Arm) (i : DevIx) (base dose : Nat) :
    (s.setDelivered n i base dose).sansAdditive = s.sansAdditive := by
  unfold State.setDelivered
  dsimp only
  split <;> rfl

@[simp] theorem endUnowned_sans (s : State) (i : DevIx) : (s.endUnowned i).sansAdditive = s.sansAdditive := by
  unfold State.endUnowned
  split <;> simp

@[simp] theorem injectorUnknown_sans (s : State) (i : DevIx) : (s.injectorUnknown i).sansAdditive = s.sansAdditive := by
  simp [State.injectorUnknown]

@[simp] theorem takeRequest_sans (s : State) (i : DevIx) : (s.takeRequest i).sansAdditive = s.sansAdditive := rfl

@[simp] theorem streamIncrement_sans (s : State) (n : Arm) (c : Schedule) (gross : Nat) :
    (s.streamIncrement n c gross).sansAdditive = s.sansAdditive := by
  unfold State.streamIncrement
  split <;> simp

@[simp] theorem creditStream_sans (s : State) (i : DevIx) (x : InjectorSlot) (dose : BitVec 32) :
    (s.creditStream i x dose).sansAdditive = s.sansAdditive := by
  unfold State.creditStream
  repeat' split
  all_goals simp

@[simp] theorem repeatStart_sans (s : State) (i : DevIx) (x : InjectorSlot) :
    (s.repeatStart i x).sansAdditive = s.sansAdditive := by
  unfold State.repeatStart
  split <;> simp

@[simp] theorem streamOpened_sans (s : State) (i : DevIx) (x : InjectorSlot) (dose : BitVec 32) :
    (s.streamOpened i x dose).sansAdditive = s.sansAdditive := by
  unfold State.streamOpened
  dsimp only
  split <;> simp

@[simp] theorem shotExpires_sans (s : State) (i : DevIx) : (s.shotExpires i).sansAdditive = s.sansAdditive := by
  unfold State.shotExpires
  repeat' split
  all_goals simp

/-! ### What follows for the other blocks -/

theorem arm_of_sans {s t : State} (h : t.sansAdditive = s.sansAdditive) (n : Arm) : t.arm n = s.arm n := by
  have e := congrArg (fun u : State => u.arm n) h
  exact e

theorem holder_of_sans {s t : State} (h : t.sansAdditive = s.sansAdditive) (n : Arm) : t.holder n = s.holder n := by
  have e := congrArg (fun u : State => u.holder n) h
  exact e

theorem batch_of_sans {s t : State} (h : t.sansAdditive = s.sansAdditive) : t.batch = s.batch := by
  have e := congrArg State.batch h
  exact e

theorem load_of_sans {s t : State} (h : t.sansAdditive = s.sansAdditive) : t.load = s.load := by
  have e := congrArg State.load h
  exact e

theorem port_of_sans {s t : State} (h : t.sansAdditive = s.sansAdditive) : t.port = s.port := by
  have e := congrArg State.port h
  exact e

theorem pads_of_sans {s t : State} (h : t.sansAdditive = s.sansAdditive) : t.pads = s.pads := by
  have e := congrArg State.pads h
  exact e

theorem time_of_sans {s t : State} (h : t.sansAdditive = s.sansAdditive) : t.time = s.time := by
  have e := congrArg State.time h
  exact e

theorem permits_of_sans {s t : State} (h : t.sansAdditive = s.sansAdditive) : t.permits = s.permits := by
  have e := congrArg State.permits h
  exact e

theorem note_of_sans {s t : State} (h : t.sansAdditive = s.sansAdditive) : t.note = s.note := by
  have e := congrArg State.note h
  exact e

theorem meter_of_sans {s t : State} (h : t.sansAdditive = s.sansAdditive) : t.meter = s.meter := by
  have e := congrArg State.meter h
  exact e

theorem pending_of_sans {s t : State} (h : t.sansAdditive = s.sansAdditive) : t.pending = s.pending := by
  have e := congrArg State.pending h
  exact e

/-- The scanner but for its wake mark. -/
theorem scan_of_sans {s t : State} (h : t.sansAdditive = s.sansAdditive) : t.scan = { s.scan with wake := t.scan.wake } := by
  have e : { t.scan with wake := false } = { s.scan with wake := false } := by
    have e := congrArg State.scan h
    exact e
  have e2 := congrArg (fun c : Scanner => { c with wake := t.scan.wake }) e
  exact e2

theorem device_of_sans {s t : State} (h : t.sansAdditive = s.sansAdditive) (i : DevIx) : t.device i = s.device i := by
  have e := congrArg (fun u : State => u.device i) h
  exact e

end Sys2Proof.Machine
end

