-- ==== Sys2Proof/Laws/Kept.lean ====
section
/-! SUPPORT. What the operations inside an event keep: the lines, the time, the tables and the words outright, and the invariants of
Safety where they held. One lemma per operation; a proof chains them instead of unfolding. -/

namespace Sys2Proof.Machine

/-- What no operation inside an event changes, but for requests and writes of these very things. -/
structure Outer where
  time : TimeCounter
  pending : List Instr
  tde : Bool
  bde : Bool
  calEnable : Bool
  addr : BitVec 5
  trate : BitVec 2
  brate : BitVec 2
  termRx : TermRx
  reply : Option TermReply
  mask : BitVec 16
  termCounters : TermCounters
  busCounters : BusCounters
  busRx : BusRx
  list : List DevIx
  filter : Vector (BitVec 32) 5
  quiet : Bool
  slot : Option PassSlot
  pointer : Nat
  wrap : Bool
  transaction : Option Transaction
  nextNote : Nat
  calCounter : Nat
  cards : List Nat
  settings : Settings
  products : List Product
  armTable : Vector (Option ArmEntry) 6

/-- The transaction in flight, but for what a newer display code marks (R32). -/
def Transaction.sansCode (t : Transaction) : Transaction := { t with newerCode := false }

def State.outer (s : State) : Outer where
  time := s.time
  pending := s.pending
  tde := s.pads.tde
  bde := s.pads.bde
  calEnable := s.pads.calEnable
  addr := s.pads.addr
  trate := s.pads.trate
  brate := s.pads.brate
  termRx := s.port.rx
  reply := s.port.reply
  mask := s.port.mask
  termCounters := s.port.counters
  busCounters := s.scan.counters
  busRx := s.scan.rx
  list := s.scan.list
  filter := s.scan.filter
  quiet := s.scan.quiet
  slot := s.scan.slot
  pointer := s.scan.pointer
  wrap := s.scan.wrap
  transaction := s.scan.transaction.map Transaction.sansCode
  nextNote := s.note.nextNote
  calCounter := s.note.calCounter
  cards := s.permits.map fun p => p.card
  settings := s.batch.settings
  products := s.batch.products
  armTable := s.batch.armTable

/-- The notice queue stays bounded, RUN goes on tracking the mode, the retained words stay in range. -/
structure Sound (s u : State) : Prop where
  notices : s.port.notices.length ≤ 32 → u.port.notices.length ≤ 32
  run : s.RunTracksMode → u.RunTracksMode
  words : s.WordsInRange → u.WordsInRange

theorem Sound.refl (s : State) : Sound s s := ⟨id, id, id⟩

theorem Sound.trans {s u v : State} (h : Sound s u) (k : Sound u v) : Sound s v :=
  ⟨fun x => k.notices (h.notices x), fun x => k.run (h.run x), fun x => k.words (h.words x)⟩

/-- `u` stands later in the event that `s` began. -/
structure Kept (s u : State) : Prop where
  outer : u.outer = s.outer
  sound : Sound s u
  valves : s.ValvesSafe → u.ValvesSafe
  notes : s.NotesReserved → u.NotesReserved

@[simp] theorem Kept.refl (s : State) : Kept s s := ⟨rfl, ⟨id, id, id⟩, id, id⟩

theorem Kept.trans {s u v : State} (h : Kept s u) (k : Kept u v) : Kept s v :=
  ⟨k.outer.trans h.outer, h.sound.trans k.sound, fun x => k.valves (h.valves x), fun x => k.notes (h.notes x)⟩

/-- A change of the additive scheduler's own records. -/
theorem Kept.of_sans {s u v : State} (h : Kept s u) (e : v.sansAdditive = u.sansAdditive) : Kept s v := by
  refine h.trans ⟨?_, ?_, fun x => ?_, fun x => ?_⟩
  · have e := congrArg State.outer e
    exact e
  · have e1 : v.port = u.port := port_of_sans e
    have e2 : v.pads = u.pads := pads_of_sans e
    have e3 : v.note = u.note := note_of_sans e
    refine ⟨fun h => ?_, fun h => ?_, fun h => ?_⟩
    · rw [e1]; exact h
    · simp only [State.RunTracksMode, e1, e2] at *; exact h
    · simp only [State.WordsInRange, e3] at *; exact h
  · have e : v.ValvesSafe = u.ValvesSafe := by
      have e := congrArg State.ValvesSafe e
      exact e
    rw [e]; exact x
  · have e : v.NotesReserved = u.NotesReserved := by
      have e := congrArg State.NotesReserved e
      exact e
    rw [e]; exact x

theorem foldl_kept {β : Type} {s : State} (f : State → β → State) (h : ∀ u a, Kept s u → Kept s (f u a)) (l : List β) :
    ∀ u, Kept s u → Kept s (l.foldl f u) := by
  induction l with
  | nil => intro u k; exact k
  | cons a l ih => intro u k; exact ih _ (h _ _ k)

/-! ### The additive scheduler -/


@[simp] theorem setSlot_kept {s u : State} (h : Kept s u) (i : DevIx) (x : Option InjectorSlot) : Kept s (u.setSlot i x) :=
  h.of_sans (setSlot_sans ..)

@[simp] theorem modSlot_kept {s u : State} (h : Kept s u) (i : DevIx) (f : InjectorSlot → InjectorSlot) : Kept s (u.modSlot i f) :=
  h.of_sans (modSlot_sans ..)

@[simp] theorem setSchedules_kept {s u : State} (h : Kept s u) (n : Arm) (l : List Schedule) : Kept s (u.setSchedules n l) :=
  h.of_sans (setSchedules_sans ..)

@[simp] theorem modSchedule_kept {s u : State} (h : Kept s u) (n : Arm) (i : DevIx) (f : Schedule → Schedule) : Kept s (u.modSchedule n i f) :=
  h.of_sans (modSchedule_sans ..)

@[simp] theorem wakeBus_kept {s u : State} (h : Kept s u) : Kept s u.wakeBus :=
  h.of_sans (wakeBus_sans _)

@[simp] theorem postRequest_kept {s u : State} (h : Kept s u) (i : DevIx) (r : InjRequest) : Kept s (u.postRequest i r) :=
  h.of_sans (postRequest_sans ..)

@[simp] theorem withdrawRequest_kept {s u : State} (h : Kept s u) (i : DevIx) : Kept s (u.withdrawRequest i) :=
  h.of_sans (withdrawRequest_sans ..)

@[simp] theorem modStream_kept {s u : State} (h : Kept s u) (i : DevIx) (f : Stream → Stream) : Kept s (u.modStream i f) :=
  h.of_sans (modStream_sans ..)

@[simp] theorem dropFlight_kept {s u : State} (h : Kept s u) (i : DevIx) : Kept s (u.dropFlight i) :=
  h.of_sans (dropFlight_sans ..)

@[simp] theorem streamFailed_kept {s u : State} (h : Kept s u) (i : DevIx) : Kept s (u.streamFailed i) :=
  h.of_sans (streamFailed_sans ..)

@[simp] theorem postStreamStop_kept {s u : State} (h : Kept s u) (i : DevIx) (k : Nat) (once : Bool) : Kept s (u.postStreamStop i k once) :=
  h.of_sans (postStreamStop_sans ..)

@[simp] theorem stopStreamOnce_kept {s u : State} (h : Kept s u) (i : DevIx) : Kept s (u.stopStreamOnce i) :=
  h.of_sans (stopStreamOnce_sans ..)

@[simp] theorem setFlight_kept {s u : State} (h : Kept s u) (i : DevIx) (f : Flight) : Kept s (u.setFlight i f) :=
  h.of_sans (setFlight_sans ..)

@[simp] theorem awaitReport_kept {s u : State} (h : Kept s u) (i : DevIx) (f : Flight) : Kept s (u.awaitReport i f) :=
  h.of_sans (awaitReport_sans ..)

@[simp] theorem queryShot_kept {s u : State} (h : Kept s u) (i : DevIx) (f : Flight) : Kept s (u.queryShot i f) :=
  h.of_sans (queryShot_sans ..)

@[simp] theorem issueHead_kept {s u : State} (h : Kept s u) (i : DevIx) : Kept s (u.issueHead i) :=
  h.of_sans (issueHead_sans ..)

@[simp] theorem joinQueue_kept {s u : State} (h : Kept s u) (n : Arm) (i : DevIx) : Kept s (u.joinQueue n i) :=
  h.of_sans (joinQueue_sans ..)

@[simp] theorem withdrawShots_kept {s u : State} (h : Kept s u) (n : Arm) (i : DevIx) : Kept s (u.withdrawShots n i) :=
  h.of_sans (withdrawShots_sans ..)

@[simp] theorem startStream_kept {s u : State} (h : Kept s u) (n : Arm) (i : DevIx) : Kept s (u.startStream n i) :=
  h.of_sans (startStream_sans ..)

@[simp] theorem streamIdle_kept {s u : State} (h : Kept s u) (i : DevIx) : Kept s (u.streamIdle i) :=
  h.of_sans (streamIdle_sans ..)

@[simp] theorem stopStream_kept {s u : State} (h : Kept s u) (i : DevIx) : Kept s (u.stopStream i) :=
  h.of_sans (stopStream_sans ..)

@[simp] theorem openStreams_kept {s u : State} (h : Kept s u) (n : Arm) : Kept s (u.openStreams n) :=
  h.of_sans (openStreams_sans ..)

@[simp] theorem leaveFlowing_kept {s u : State} (h : Kept s u) (n : Arm) : Kept s (u.leaveFlowing n) :=
  h.of_sans (leaveFlowing_sans ..)

@[simp] theorem closeSchedules_kept {s u : State} (h : Kept s u) (n : Arm) : Kept s (u.closeSchedules n) :=
  h.of_sans (closeSchedules_sans ..)

@[simp] theorem setDelivered_kept {s u : State} (h : Kept s u) (n : Arm) (i : DevIx) (base dose : Nat) : Kept s (u.setDelivered n i base dose) :=
  h.of_sans (setDelivered_sans ..)

@[simp] theorem endUnowned_kept {s u : State} (h : Kept s u) (i : DevIx) : Kept s (u.endUnowned i) :=
  h.of_sans (endUnowned_sans ..)

@[simp] theorem injectorUnknown_kept {s u : State} (h : Kept s u) (i : DevIx) : Kept s (u.injectorUnknown i) :=
  h.of_sans (injectorUnknown_sans ..)

@[simp] theorem takeRequest_kept {s u : State} (h : Kept s u) (i : DevIx) : Kept s (u.takeRequest i) :=
  h.of_sans (takeRequest_sans ..)

@[simp] theorem streamIncrement_kept {s u : State} (h : Kept s u) (n : Arm) (c : Schedule) (gross : Nat) : Kept s (u.streamIncrement n c gross) :=
  h.of_sans (streamIncrement_sans ..)

@[simp] theorem creditStream_kept {s u : State} (h : Kept s u) (i : DevIx) (x : InjectorSlot) (dose : BitVec 32) : Kept s (u.creditStream i x dose) :=
  h.of_sans (creditStream_sans ..)

@[simp] theorem repeatStart_kept {s u : State} (h : Kept s u) (i : DevIx) (x : InjectorSlot) : Kept s (u.repeatStart i x) :=
  h.of_sans (repeatStart_sans ..)

@[simp] theorem streamOpened_kept {s u : State} (h : Kept s u) (i : DevIx) (x : InjectorSlot) (dose : BitVec 32) : Kept s (u.streamOpened i x dose) :=
  h.of_sans (streamOpened_sans ..)

@[simp] theorem shotExpires_kept {s u : State} (h : Kept s u) (i : DevIx) : Kept s (u.shotExpires i) :=
  h.of_sans (shotExpires_sans ..)

/-! ### Notices, codes, metering, permits, devices -/

theorem Sound.congr {u v : State} (hn : u.port.notices.length ≤ 32 → v.port.notices.length ≤ 32)
    (hm : v.port.mode = u.port.mode) (hr : v.pads.run = u.pads.run) (hw : v.note = u.note) : Sound u v := by
  refine ⟨hn, fun h => ?_, fun h => ?_⟩
  · simp only [State.RunTracksMode, hm, hr] at *; exact h
  · simp only [State.WordsInRange, hw] at *; exact h

theorem ValvesSafe.congr {u v : State} (h : v.batch = u.batch) (k : u.ValvesSafe) : v.ValvesSafe := by
  simp only [State.ValvesSafe, State.arm, h] at *; exact k

theorem NotesReserved.congr {u v : State} (h1 : v.load = u.load) (h2 : v.note = u.note) (k : u.NotesReserved) :
    v.NotesReserved := by
  simp only [State.NotesReserved, State.loadsHeld, State.lane, h1, h2] at *; exact k

theorem raiseNoticeAt_notices_le (u : State) (kind : NoticeKind) (subject : Subject) (code : Byte) (time : TimeRec)
    (extra : Option (Byte × List Byte)) (h : u.port.notices.length ≤ 32) :
    (u.raiseNoticeAt kind subject code time extra).port.notices.length ≤ 32 := by
  simp only [State.raiseNoticeAt]
  split
  · simp; omega
  · exact h

@[simp] theorem raiseNoticeAt_kept {s u : State} (h : Kept s u) (kind : NoticeKind) (subject : Subject) (code : Byte)
    (time : TimeRec) (extra : Option (Byte × List Byte)) : Kept s (u.raiseNoticeAt kind subject code time extra) :=
  h.trans ⟨rfl, Sound.congr (raiseNoticeAt_notices_le u _ _ _ _ _) rfl rfl rfl,
    ValvesSafe.congr rfl, NotesReserved.congr rfl rfl⟩

@[simp] theorem raiseNotice_kept {s u : State} (h : Kept s u) (kind : NoticeKind) (subject : Subject) (code : Byte) :
    Kept s (u.raiseNotice kind subject code) := raiseNoticeAt_kept h ..

theorem post_outer (u : State) (l : Lane) (c : DisplayCode) : (u.post l c).outer = u.outer := by
  unfold State.post
  split
  · simp only [State.outer, Option.map_map]
    congr 1
    cases u.scan.transaction with
    | none => rfl
    | some t =>
      simp only [Option.map_some, Function.comp_apply]
      split <;> rfl
  · rfl

@[simp] theorem post_kept {s u : State} (h : Kept s u) (l : Lane) (c : DisplayCode) : Kept s (u.post l c) :=
  h.trans ⟨post_outer u l c, Sound.congr (by simp) (by simp) (by simp) (by simp), ValvesSafe.congr (by simp),
    NotesReserved.congr (by simp) (by simp)⟩

@[simp] theorem setMetering_kept {s u : State} (h : Kept s u) (n : Arm) (m : Metering) : Kept s (u.setMetering n m) :=
  h.trans ⟨rfl, ⟨id, id, id⟩, id, id⟩

@[simp] theorem modPermit_kept {s u : State} (h : Kept s u) (card : Nat) (f : Permit → Permit) (hf : ∀ p, (f p).card = p.card) :
    Kept s (u.modPermit card f) := by
  refine h.trans ⟨?_, ⟨id, id, id⟩, id, id⟩
  simp only [State.outer, State.modPermit, List.map_map]
  congr 1
  apply List.map_congr_left
  intro p _
  simp only [Function.comp_apply]
  split <;> simp [hf]

theorem roll_card (p : Permit) (today : Date) : (p.roll today).card = p.card := by
  unfold Permit.roll
  split <;> rfl

@[simp] theorem chargePermit_kept {s u : State} (h : Kept s u) (card dl : Nat) : Kept s (u.chargePermit card dl) :=
  modPermit_kept h _ _ fun p => roll_card p _

@[simp] theorem chargeLoad_kept {s u : State} (h : Kept s u) (l : Lane) (dl : Nat) : Kept s (u.chargeLoad l dl) := by
  unfold State.chargeLoad
  split <;> simp (maxDischargeDepth := 20) [h]

@[simp] theorem setDevice_kept {s u : State} (h : Kept s u) (i : DevIx) (d : Option Device) : Kept s (u.setDevice i d) :=
  h.trans ⟨rfl, ⟨id, id, id⟩, id, id⟩

/-! ### Lane records -/

/-- A lane record's new value keeps load state and candidate within what the reservation asks. -/
theorem setLane_kept {s u : State} (h : Kept s u) (l : Lane) (r : LaneRec) (hs : r.state = (u.lane l).state)
    (hc : r.candidate = (u.lane l).candidate ∨ r.candidate = none) : Kept s (u.setLane l r) := by
  refine h.trans ⟨rfl, ⟨id, id, id⟩, id, fun x => ?_⟩
  obtain ⟨h1, h2⟩ := x
  have hstate : ∀ k, ((u.setLane l r).lane k).state = (u.lane k).state := by
    intro k
    by_cases hk : k = l
    · subst hk; simp [hs]
    · simp [hk]
  refine ⟨?_, fun k => ⟨?_, ?_⟩⟩
  · have e : (u.setLane l r).loadsHeld = u.loadsHeld := by
      have ha := hstate .a
      have hb := hstate .b
      simp only [State.lane, Lanes.get] at ha hb
      simp only [State.loadsHeld, ha, hb]
    rw [e]; exact h1
  · rw [hstate]; exact (h2 k).1
  · rw [hstate]
    intro hcand
    apply (h2 k).2
    by_cases hk : k = l
    · subst hk
      simp only [lane_setLane_self] at hcand
      rcases hc with hc | hc
      · rw [← hc]; exact hcand
      · rw [hc] at hcand; simp at hcand
    · simpa [hk] using hcand

@[simp] theorem modEntry_kept {s u : State} (h : Kept s u) (l : Lane) (comp : Nat) (f : CompEntry → CompEntry) :
    Kept s (u.modEntry l comp f) := setLane_kept h l _ rfl (.inl rfl)

@[simp] theorem reportLoading_kept {s u : State} (h : Kept s u) (l : Lane) (comp : Nat) (n : Arm) :
    Kept s (u.reportLoading l comp n) := modEntry_kept h ..

@[simp] theorem reportHalted_kept {s u : State} (h : Kept s u) (l : Lane) (comp : Nat) : Kept s (u.reportHalted l comp) :=
  modEntry_kept h ..

@[simp] theorem armTargetGone_kept {s u : State} (h : Kept s u) (l : Lane) (n : Arm) : Kept s (u.armTargetGone l n) :=
  setLane_kept h l _ rfl (.inl rfl)

@[simp] theorem dropCandidate_kept {s u : State} (h : Kept s u) (l : Lane) : Kept s (u.dropCandidate l) :=
  setLane_kept h l _ rfl (.inr rfl)

@[simp] theorem dropCandidateOf_kept {s u : State} (h : Kept s u) (ref : BitVec 32) (l : Lane) :
    Kept s (u.dropCandidateOf ref l) := by
  unfold State.dropCandidateOf
  split <;> simp (maxDischargeDepth := 20) [h]

@[simp] theorem clearSlot_kept {s u : State} (h : Kept s u) (l : Lane) : Kept s (u.clearSlot l) :=
  setLane_kept h l _ rfl (.inl rfl)

@[simp] theorem armSlot_kept {s u : State} (h : Kept s u) (l : Lane) (t : Target) (k : Half) : Kept s (u.armSlot l t k) :=
  setLane_kept h l _ rfl (.inl rfl)

@[simp] theorem removeOrder_kept {s u : State} (h : Kept s u) (ref : BitVec 32) : Kept s (u.removeOrder ref) := by
  unfold State.removeOrder
  apply dropCandidateOf_kept
  apply dropCandidateOf_kept
  exact h.trans ⟨rfl, ⟨id, id, id⟩, id, id⟩

/-! ### Arm and batch records -/

/-- An arm record's new value agrees with the table of R76. -/
def ArmRec.Agrees (r : ArmRec) (permissive : Lanes Bool) : Prop :=
  match r.holder with
  | none => r.desired = .closed
  | some b =>
    r.desired = (match b.state, b.degraded with
      | .startup, _ => .low
      | .full, false => .high
      | .full, true => .low
      | .topoff, _ => .low
      | .armed, _ | .stopping, _ | .halted, _ | .done, _ => .closed) ∧
    ((b.state = .startup ∨ b.state = .full ∨ b.state = .topoff) → permissive.get b.lane = true)

theorem valvesSafe_iff (s : State) : s.ValvesSafe ↔ ∀ n, (s.arm n).Agrees s.batch.permissive := Iff.rfl

/-- An arm record that agrees with the table of R76 wherever the old one did. -/
theorem setArm_kept {s u : State} (h : Kept s u) (n : Arm) (r : ArmRec)
    (hr : (u.arm n).Agrees u.batch.permissive → r.Agrees u.batch.permissive) : Kept s (u.setArm n r) := by
  refine h.trans ⟨rfl, ⟨id, id, id⟩, fun x => ?_, id⟩
  rw [valvesSafe_iff] at *
  intro m
  rw [arm_setArm]
  split
  · rename_i e; subst e; exact hr (x m)
  · exact x m

/-- A change of an arm record that leaves holder and desired stage. -/
theorem setArm_same_kept {s u : State} (h : Kept s u) (n : Arm) (r : ArmRec) (h1 : r.holder = (u.arm n).holder)
    (h2 : r.desired = (u.arm n).desired) : Kept s (u.setArm n r) := by
  refine setArm_kept h n r fun x => ?_
  simp only [ArmRec.Agrees, h1, h2] at *
  exact x

/-- A change of the holder's record that leaves state, degraded flag and lane. -/
@[simp] theorem modBatch_kept {s u : State} (h : Kept s u) (n : Arm) (f : Batch → Batch)
    (hf : ∀ b, (f b).state = b.state ∧ (f b).degraded = b.degraded ∧ (f b).lane = b.lane) : Kept s (u.modBatch n f) := by
  refine setArm_kept h n _ fun x => ?_
  simp only [ArmRec.Agrees, State.holder] at *
  cases e : (u.arm n).holder with
  | none => simpa [e] using x
  | some b =>
    simp only [e, Option.map_some] at *
    rw [(hf b).1, (hf b).2.1, (hf b).2.2]
    exact x

@[simp] theorem setBatchExc_kept {s u : State} (h : Kept s u) (n : Arm) (e : Exc) : Kept s (u.setBatchExc n e) :=
  modBatch_kept h n _ fun _ => ⟨rfl, rfl, rfl⟩

@[simp] theorem startNoFlowTimer_kept {s u : State} (h : Kept s u) (n : Arm) : Kept s (u.startNoFlowTimer n) :=
  modBatch_kept h n _ fun _ => ⟨rfl, rfl, rfl⟩

@[simp] theorem startStopTimerIfLost_kept {s u : State} (h : Kept s u) (n : Arm) : Kept s (u.startStopTimerIfLost n) := by
  unfold State.startStopTimerIfLost
  split
  · exact h
  · exact modBatch_kept h n _ fun _ => ⟨rfl, rfl, rfl⟩

@[simp] theorem setReason_kept {s u : State} (h : Kept s u) (n : Arm) (r : StopReason) : Kept s (u.setReason n r) :=
  modBatch_kept h n _ fun _ => ⟨rfl, rfl, rfl⟩

@[simp] theorem markBatchEnding_kept {s u : State} (h : Kept s u) (n : Arm) : Kept s (u.markBatchEnding n) :=
  modBatch_kept h n _ fun _ => ⟨rfl, rfl, rfl⟩

/-- The arm record after a change of the desired stage, but for timer and excess count. -/
theorem setDesired_eq (u : State) (n : Arm) (st : Stage) :
    u.setDesired n st = u ∧ (u.arm n).desired = st ∨
      (u.arm n).desired ≠ st ∧ u.setDesired n st = (u.setArm n { u.arm n with
        desired := st, travelTimer := some u.batch.settings.noFlowTimeout, excess := 0 }).wakeBus := by
  unfold State.setDesired
  split
  · rename_i e; exact .inl ⟨rfl, e⟩
  · rename_i e; exact .inr ⟨e, rfl⟩

/-- The holder moves and the desired stage follows, by the table of R76. -/
theorem setBatchState_kept {s u : State} (h : Kept s u) (n : Arm) (st : BatchState)
    (hp : u.ValvesSafe → st.flowing = true → ∀ b, u.holder n = some b → u.batch.permissive.get b.lane = true) :
    Kept s (u.setBatchState n st) := by
  unfold State.setBatchState
  cases e : u.holder n with
  | none => simpa using h
  | some b =>
    have e' : (u.arm n).holder = some b := e
    simp only
    have key : ∀ (tt : Option Nat) (ex : Nat), u.ValvesSafe → ArmRec.Agrees { u.arm n with
        holder := some { b with state := st }, desired := desiredFor st b.degraded, travelTimer := tt, excess := ex }
          u.batch.permissive := by
      intro tt ex hv
      simp only [ArmRec.Agrees]
      refine ⟨?_, fun hfl => ?_⟩
      · cases st <;> cases b.degraded <;> rfl
      · apply hp hv _ b e
        rcases hfl with h | h | h <;> rw [h] <;> rfl
    have hm : u.modBatch n (fun b => { b with state := st }) = u.setArm n { u.arm n with holder := some { b with state := st } } := by
      simp [State.modBatch, State.holder, e']
    rcases setDesired_eq (u.modBatch n fun b => { b with state := st }) n (desiredFor st b.degraded) with ⟨h1, h2⟩ | ⟨_, h1⟩
    · rw [h1, hm]
      rw [hm] at h2
      simp only [arm_setArm_self] at h2
      refine h.trans ⟨rfl, ⟨id, id, id⟩, fun x => ?_, id⟩
      rw [valvesSafe_iff]
      intro m
      rw [arm_setArm]
      split
      · have := key (u.arm n).travelTimer (u.arm n).excess x
        rw [← h2] at this
        exact this
      · exact x m
    · rw [h1, hm]
      apply wakeBus_kept
      simp only [arm_setArm_self, setArm_setArm]
      refine h.trans ⟨rfl, ⟨id, id, id⟩, fun x => ?_, id⟩
      rw [valvesSafe_iff]
      intro m
      rw [arm_setArm]
      split
      · exact key _ _ x
      · exact x m

/-- The holder moves to a state that does not flow. -/
@[simp] theorem setBatchState_still_kept {s u : State} (h : Kept s u) (n : Arm) (st : BatchState) (hs : st.flowing = false) :
    Kept s (u.setBatchState n st) :=
  setBatchState_kept h n st fun _ hf => by rw [hs] at hf; exact Bool.noConfusion hf

end Sys2Proof.Machine
end

