-- ==== Sys2Proof/Laws/Halts.lean ====
section
/-! SUPPORT. Halts, schedule faults, STARTUP and DONE keep what an event keeps (Kept). -/

namespace Sys2Proof.Machine

/-! ### Halts -/

@[simp] theorem enterStopping_kept {s u : State} (h : Kept s u) (n : Arm) (r : StopReason) : Kept s (u.enterStopping n r) := by
  unfold State.enterStopping
  apply leaveFlowing_kept
  apply startStopTimerIfLost_kept
  apply setBatchState_still_kept _ _ _ rfl
  exact modBatch_kept h n _ fun _ => ⟨rfl, rfl, rfl⟩

@[simp] theorem stopBatch_kept {s u : State} (h : Kept s u) (n : Arm) (r : StopReason) : Kept s (u.stopBatch n r) := by
  unfold State.stopBatch
  apply raiseNotice_kept
  apply enterStopping_kept
  exact modBatch_kept h n _ fun _ => ⟨rfl, rfl, rfl⟩

@[simp] theorem haltBatch_kept {s u : State} (h : Kept s u) (n : Arm) (r : StopReason) : Kept s (u.haltBatch n r) := by
  unfold State.haltBatch
  split <;> first | with_reducible exact h | simp (maxDischargeDepth := 20) [h]

@[simp] theorem degradeBatch_kept {s u : State} (h : Kept s u) (n : Arm) : Kept s (u.degradeBatch n) := by
  unfold State.degradeBatch
  split
  · rename_i hc
    cases e : u.holder n with
    | none => rw [e] at hc; simp at hc
    | some b =>
      rw [e] at hc
      simp only [Option.any_some, Bool.and_eq_true, decide_eq_true_eq, Bool.not_eq_true'] at hc
      have e' : (u.arm n).holder = some b := e
      have hm : u.modBatch n (fun b => { b with
          degraded := true, overspeed := 0, exceptions := setExc .overspeed b.exceptions }) =
          u.setArm n { u.arm n with holder := some { b with
            degraded := true, overspeed := 0, exceptions := setExc .overspeed b.exceptions } } := by
        simp [State.modBatch, State.holder, e']
      have key : ∀ (tt : Option Nat) (ex : Nat), u.ValvesSafe → ArmRec.Agrees { u.arm n with
          holder := some { b with
            degraded := true, overspeed := 0, exceptions := setExc .overspeed b.exceptions }, desired := .low, travelTimer := tt, excess := ex }
            u.batch.permissive := by
        intro tt ex hv
        have := hv n
        rw [e'] at this
        simp only [ArmRec.Agrees, hc.1]
        exact ⟨trivial, fun hf => this.2 (by rw [hc.1]; simp)⟩
      rcases setDesired_eq (u.modBatch n fun b => { b with
            degraded := true, overspeed := 0, exceptions := setExc .overspeed b.exceptions }) n .low with ⟨h1, h2⟩ | ⟨_, h1⟩
      · rw [h1, hm]
        rw [hm] at h2
        simp only [arm_setArm_self] at h2
        refine h.trans ⟨rfl, ⟨id, id, id⟩, fun x => ?_, id⟩
        rw [valvesSafe_iff]
        intro m
        rw [arm_setArm]
        split
        · have := key (u.arm n).travelTimer (u.arm n).excess x
          rw [← h2] at this
          exact this
        · exact x m
      · rw [h1, hm]
        apply wakeBus_kept
        simp only [arm_setArm_self, setArm_setArm]
        refine h.trans ⟨rfl, ⟨id, id, id⟩, fun x => ?_, id⟩
        rw [valvesSafe_iff]
        intro m
        rw [arm_setArm]
        split
        · exact key _ _ x
        · exact x m
  · exact h

@[simp] theorem degradeRequest_kept {s u : State} (h : Kept s u) (n : Arm) : Kept s (u.degradeRequest n) :=
  degradeBatch_kept (setBatchExc_kept h _ _) _

@[simp] theorem applyRequest_kept {s u : State} (h : Kept s u) (r : AddRequest) : Kept s (u.applyRequest r) := by
  cases r <;> simp [State.applyRequest, h]

@[simp] theorem applyRequests_kept {s u : State} (h : Kept s u) (rs : List AddRequest) : Kept s (u.applyRequests rs) :=
  foldl_kept _ (fun _ r k => applyRequest_kept k r) rs u h

/-! ### Schedule faults -/

@[simp] theorem noticeFault_kept {s u : State} (h : Kept s u) (n : Arm) (required : Bool) (cause : FaultCause) :
    Kept s (u.noticeFault n required cause) := by
  unfold State.noticeFault
  dsimp only
  split <;> first | with_reducible exact h | simp (maxDischargeDepth := 20) [h]

@[simp] theorem faultSchedule_kept {s u : State} (h : Kept s u) (n : Arm) (i : DevIx) (cause : FaultCause) :
    Kept s (u.faultSchedule n i cause).1 := by
  unfold State.faultSchedule
  dsimp only
  repeat' split
  all_goals first | with_reducible exact h | simp (maxDischargeDepth := 20) [h]

@[simp] theorem faultScheduleNow_kept {s u : State} (h : Kept s u) (n : Arm) (i : DevIx) (cause : FaultCause) :
    Kept s (u.faultScheduleNow n i cause) := by
  simp [State.faultScheduleNow, h]

@[simp] theorem faultSchedulesOn_kept {s u : State} (h : Kept s u) (i : DevIx) (cause : FaultCause) :
    Kept s (u.faultSchedulesOn i cause) :=
  foldl_kept _ (fun _ n k => faultScheduleNow_kept k n i cause) _ u h

@[simp] theorem injectorFaulted_kept {s u : State} (h : Kept s u) (i : DevIx) (source : FaultSource) :
    Kept s (u.injectorFaulted i source) := by
  unfold State.injectorFaulted
  extract_lets cause s1 s2
  have h2 : Kept s s2 := faultSchedulesOn_kept (modSlot_kept h _ _) _ _
  split
  · exact stopStreamOnce_kept h2 _
  · exact h2

@[simp] theorem injectorSilent_kept {s u : State} (h : Kept s u) (i : DevIx) : Kept s (u.injectorSilent i) := by
  unfold State.injectorSilent
  repeat' split
  all_goals first | with_reducible exact h | simp (maxDischargeDepth := 20) [h]

@[simp] theorem injectorChanged_kept {s u : State} (h : Kept s u) (i : DevIx) (before after : DeviceState) :
    Kept s (u.injectorChanged i before after) := by
  unfold State.injectorChanged
  repeat' split
  all_goals first | with_reducible exact h | simp (maxDischargeDepth := 20) [h]

@[simp] theorem declareFailed_kept {s u : State} (h : Kept s u) (i : DevIx) : Kept s (u.declareFailed i) := by
  unfold State.declareFailed
  repeat' split
  all_goals first | with_reducible exact h | simp (maxDischargeDepth := 20) [h]

@[simp] theorem attemptFailed_kept {s u : State} (h : Kept s u) (i : DevIx) : Kept s (u.attemptFailed i) := by
  unfold State.attemptFailed
  repeat' split
  all_goals first | with_reducible exact h | simp (maxDischargeDepth := 20) [h]

/-! ### STARTUP -/

@[simp] theorem createSchedule_kept {s u : State} (h : Kept s u) (n : Arm) (r : RecipeSlot) : Kept s (u.createSchedule n r) := by
  unfold State.createSchedule
  dsimp only
  repeat' split
  all_goals first | with_reducible exact h | simp (maxDischargeDepth := 20) [h]

@[simp] theorem createSchedules_kept {s u : State} (h : Kept s u) (n : Arm) (product : Byte) :
    Kept s (u.createSchedules n product) :=
  foldl_kept _ (fun _ r k => createSchedule_kept k n r) _ _ (setSchedules_kept h n [])

@[simp] theorem firstStartup_kept {s u : State} (h : Kept s u) (n : Arm) : Kept s (u.firstStartup n) := by
  unfold State.firstStartup
  apply setMetering_kept
  exact modBatch_kept h n _ fun _ => ⟨rfl, rfl, rfl⟩

@[simp] theorem stopIfAtLead_kept {s u : State} (h : Kept s u) (n : Arm) : Kept s (u.stopIfAtLead n) := by
  unfold State.stopIfAtLead
  split <;> first | with_reducible exact h | simp (maxDischargeDepth := 20) [h]

theorem enterStartup_kept {s u : State} (h : Kept s u) (n : Arm) (b : Batch) (hb : u.holder n = some b)
    (hp : u.batch.permissive.get b.lane = true) : Kept s (u.enterStartup n b) := by
  have h1 : Kept s ((u.setBatchState n .startup).modBatch n fun b => { b with overspeed := 0, noFlow := 0 }) := by
    refine modBatch_kept (setBatchState_kept h n .startup fun _ _ c hc => ?_) n _ fun _ => ⟨rfl, rfl, rfl⟩
    rw [hb] at hc; cases hc; exact hp
  unfold State.enterStartup
  dsimp only
  repeat' split
  all_goals simp (maxDischargeDepth := 20) [h1]

@[simp] theorem tryStartup_kept {s u : State} (h : Kept s u) (n : Arm) : Kept s (u.tryStartup n) := by
  unfold State.tryStartup
  split
  · exact h
  · rename_i b hb
    split
    · rename_i hc; exact enterStartup_kept h n b hb hc.2.2.2
    · exact h

/-- Whatever holder the arm gets, in a state that does not flow, its desired stage becomes CLOSED. -/
theorem closedHolder_kept {s u : State} (h : Kept s u) (n : Arm) (r : ArmRec)
    (hr : ∀ b, r.holder = some b → b.state.flowing = false) : Kept s ((u.setArm n r).setDesired n .closed) := by
  have key : ∀ q : ArmRec, q.holder = r.holder → q.desired = .closed → q.Agrees u.batch.permissive := by
    intro q h1 h2
    simp only [ArmRec.Agrees, h1]
    cases e : r.holder with
    | none => exact h2
    | some b =>
      have := hr b e
      refine ⟨?_, fun hf => ?_⟩
      · rw [h2]
        rcases hb : b.state <;> simp_all [BatchState.flowing]
      · rcases hf with hf | hf | hf <;> rw [hf] at this <;> exact Bool.noConfusion this
  rcases setDesired_eq (u.setArm n r) n .closed with ⟨h1, h2⟩ | ⟨_, h1⟩
  · rw [h1]
    simp only [arm_setArm_self] at h2
    exact setArm_kept h n r fun _ => key r rfl h2
  · rw [h1]
    apply wakeBus_kept
    simp only [arm_setArm_self, setArm_setArm]
    exact setArm_kept h n _ fun _ => key _ rfl rfl

@[simp] theorem createBatch_kept {s u : State} (h : Kept s u) (n : Arm) (l : Lane) (comp : Nat) (product : Byte) (preset : Nat) :
    Kept s (u.createBatch n l comp product preset) := by
  unfold State.createBatch
  apply tryStartup_kept
  apply post_kept
  apply reportLoading_kept
  exact closedHolder_kept h n _ fun b hb => by cases hb; rfl

@[simp] theorem resumeBatch_kept {s u : State} (h : Kept s u) (n : Arm) (b : Batch) : Kept s (u.resumeBatch n b) := by
  unfold State.resumeBatch
  apply tryStartup_kept
  apply post_kept
  apply reportLoading_kept
  apply armTargetGone_kept
  refine closedHolder_kept h n _ fun c hc => ?_
  simp only [Option.map_eq_some_iff] at hc
  obtain ⟨d, _, rfl⟩ := hc
  rfl

@[simp] theorem makePending_kept {s u : State} (h : Kept s u) (n : Arm) (l : Lane) (comp : Nat) :
    Kept s (u.makePending n l comp) := by
  unfold State.makePending
  apply post_kept
  exact setArm_same_kept h n _ rfl rfl

@[simp] theorem judgeStart_kept {s u : State} (h : Kept s u) (n : Arm) (l : Lane) (comp : Nat) (product : Byte) (preset : Nat) :
    Kept s (u.judgeStart n l comp product preset) := by
  unfold State.judgeStart
  repeat' split
  all_goals first | with_reducible exact h | simp (maxDischargeDepth := 20) [h]

@[simp] theorem dropLaneStarts_kept {s u : State} (h : Kept s u) (l : Lane) : Kept s (u.dropLaneStarts l) := by
  refine h.trans ⟨rfl, ⟨id, id, id⟩, fun x => ?_, id⟩
  rw [valvesSafe_iff] at *
  intro n
  have := x n
  simpa [State.dropLaneStarts, State.arm, ArmRec.Agrees] using this

@[simp] theorem dropStart_kept {s u : State} (h : Kept s u) (n : Arm) (l : Lane) : Kept s (u.dropStart n l) :=
  setArm_same_kept h n _ rfl rfl

@[simp] theorem dropAllStarts_kept {s u : State} (h : Kept s u) (n : Arm) : Kept s (u.dropAllStarts n) :=
  setArm_same_kept h n _ rfl rfl

@[simp] theorem serveStarts_kept {s : State} (n : Arm) (l : List PendingStart) :
    ∀ {u : State}, Kept s u → Kept s (u.serveStarts n l) := by
  induction l with
  | nil => intro u h; exact h
  | cons p rest ih =>
    intro u h
    have h1 : Kept s (u.setArm n { u.arm n with starts := rest }) := setArm_same_kept h n _ rfl rfl
    unfold State.serveStarts
    dsimp only
    split
    · exact ih h1
    · split
      · exact ih (post_kept h1 _ _)
      · exact createBatch_kept h1 _ _ _ _ _

end Sys2Proof.Machine
end

