-- ==== Sys2Proof/Laws/Done.lean ====
section
/-! SUPPORT. The end of a batch and the end of a load keep what an event keeps (Kept). -/

namespace Sys2Proof.Machine

/-! ### CLOSING -/

theorem request_notes (b : NoteBuilder) (r : WriteReq) : (b.request r).notes = b.notes ∧ (b.request r).closing = b.closing := by
  unfold NoteBuilder.request NoteBuilder.start
  split <;> exact ⟨rfl, rfl⟩

theorem request_words (b : NoteBuilder) (r : WriteReq) :
    (b.request r).nextNote = b.nextNote ∧ (b.request r).calCounter = b.calCounter ∧ (b.request r).calDue = b.calDue := by
  unfold NoteBuilder.request NoteBuilder.start
  split <;> exact ⟨rfl, rfl, rfl⟩

/-- A write in progress after a request was in progress before it, or reads the word now. -/
theorem request_writing (b : NoteBuilder) (r : WriteReq) (l : Lane) (n : Nat) (h : (b.request r).writing = some ⟨.note l, n⟩) :
    b.writing = some ⟨.note l, n⟩ ∨ n = b.nextNote := by
  unfold NoteBuilder.request NoteBuilder.start at h
  split at h
  · cases r with
    | note k => simp at h; exact .inr h.2.symm
    | calibration k => simp at h
  · exact .inl h

/-- What stands for the words while a request arrives. -/
theorem Words.request {u : State} {b : NoteBuilder} (r : WriteReq) (x : u.WordsInRange) (h1 : b.nextNote = u.note.nextNote)
    (h2 : b.calCounter = u.note.calCounter) (h3 : b.calDue ≤ 999999) (h4 : b.writing = u.note.writing) :
    (({ u with note := b.request r } : State)).WordsInRange := by
  obtain ⟨a, c, d, e⟩ := x
  obtain ⟨w1, w2, w3⟩ := request_words b r
  refine ⟨?_, ?_, ?_, ?_⟩
  · simp only [w1, h1]; exact a
  · simp only [w2, h2]; exact c
  · simp only [w3]; exact h3
  · intro l n hw
    rcases request_writing b r l n hw with hw | hw
    · exact e l n (h4 ▸ hw)
    · rw [hw, h1]; exact a

/-- A load in ENDING goes to CLOSING. -/
theorem closeLoad_kept {s u : State} (h : Kept s u) (l : Lane) (hl : (u.lane l).state = .ending) : Kept s (u.closeLoad l) := by
  unfold State.closeLoad
  split
  · exact h
  · rename_i x hx
    dsimp only
    refine h.trans ⟨?_, ⟨id, id, fun c => ?_⟩, id, fun k => ?_⟩
    · simp only [State.outer, NoteBuilder.close]
      obtain ⟨w1, w2, w3⟩ := request_words
        { u.note with closing := u.note.closing.set l (some (NoteBody.ofLoad l x u.time.record u.note.calDue)) } (.note l)
      simp only [setLane_note]
      rw [w1, w2]
      rfl
    · exact Words.request (u := u.setLane l _) (.note l) c rfl rfl c.2.2.1 rfl
    · obtain ⟨a, b⟩ := k
      obtain ⟨n1, n2⟩ := request_notes
        { u.note with closing := u.note.closing.set l (some (NoteBody.ofLoad l x u.time.record u.note.calDue)) } (.note l)
      have hne : (u.lane l).candidate = none := by
        have := (b l).2
        rw [hl] at this
        cases e : (u.lane l).candidate with
        | none => rfl
        | some c => rw [e] at this; exact absurd (this rfl) (by simp)
      refine ⟨?_, fun m => ⟨?_, ?_⟩⟩
      · simp only [NoteBuilder.close, setLane_note, n1]
        have e : ∀ b : NoteBuilder, State.loadsHeld { u.setLane l { u.lane l with
            state := .closing, load := some { x with endTime := some u.time.record } } with note := b } = u.loadsHeld := by
          intro b
          cases l <;> simp_all [State.loadsHeld, State.setLane, Lanes.set, State.lane, Lanes.get]
        rw [e]; exact a
      · simp only [NoteBuilder.close, setLane_note, n2]
        cases l <;> cases m <;> simp_all [State.setLane, Lanes.set, State.lane, Lanes.get]
        · exact fun z => (b .b).1 z
        · exact fun z => (b .a).1 z
      · cases l <;> cases m <;> simp_all [State.setLane, Lanes.set, State.lane, Lanes.get]
        · exact fun z => (b .b).2 z
        · exact fun z => (b .a).2 z

@[simp] theorem closeIfIdle_kept {s u : State} (h : Kept s u) (l : Lane) : Kept s (u.closeIfIdle l) := by
  unfold State.closeIfIdle
  split
  · rename_i c; exact closeLoad_kept h l c.1
  · exact h

/-- An OPEN load goes to ENDING. -/
theorem markEnding_kept {s u : State} (h : Kept s u) (l : Lane) (r : EndReason) (hl : (u.lane l).state = .opened) :
    Kept s (u.markEnding l r) := by
  unfold State.markEnding
  apply post_kept
  refine h.trans ⟨rfl, ⟨id, id, id⟩, id, fun k => ?_⟩
  obtain ⟨a, b⟩ := k
  have ba := b .a
  have bb := b .b
  refine ⟨?_, fun m => ⟨?_, ?_⟩⟩
  · have e : State.loadsHeld (u.setLane l { u.lane l with state := .ending, endReason := some r }) = u.loadsHeld := by
      cases l <;> simp_all [State.loadsHeld, State.setLane, Lanes.set, State.lane, Lanes.get] <;> rfl
    rw [e]; exact a
  · cases l <;> cases m <;> simp_all [State.setLane, Lanes.set, State.lane, Lanes.get]
  · cases l <;> cases m <;> simp_all [State.setLane, Lanes.set, State.lane, Lanes.get]

theorem markEnding_state (u : State) (l : Lane) (r : EndReason) : ((u.markEnding l r).lane l).state = .ending := by
  simp [State.markEnding, State.lane]

@[simp] theorem oneFewer_kept {s u : State} (h : Kept s u) (l : Lane) : Kept s (u.oneFewer l) := by
  unfold State.oneFewer
  split
  · rename_i c
    exact closeIfIdle_kept (dropLaneStarts_kept (markEnding_kept h l _ c.1) l) l
  · exact closeIfIdle_kept h l

/-! ### DONE -/

@[simp] theorem learnLead_kept {s u : State} (h : Kept s u) (n : Arm) (b : Batch) : Kept s (u.learnLead n b) := by
  unfold State.learnLead
  repeat' split
  · exact h
  · exact setArm_same_kept h n _ rfl rfl
  · exact h

@[simp] theorem releaseArm_kept {s u : State} (h : Kept s u) (n : Arm) : Kept s (u.releaseArm n) :=
  closedHolder_kept h n _ fun _ hb => by cases hb

@[simp] theorem stopTimers_kept {s u : State} (h : Kept s u) (n : Arm) : Kept s (u.modBatch n Batch.stopTimers) :=
  modBatch_kept h n _ fun _ => ⟨rfl, rfl, rfl⟩

@[simp] theorem batchDone_kept {s u : State} (h : Kept s u) (n : Arm) : Kept s (u.batchDone n) := by
  unfold State.batchDone
  split
  · exact h
  · rename_i b0 hb
    extract_lets l s1 results b s2 s3 s4
    have k1 : Kept s s1 :=
      armTargetGone_kept (stopTimers_kept (setBatchState_still_kept h n .done rfl) n) l n
    have k2 : Kept s s2 := modEntry_kept (closeSchedules_kept k1 n) ..
    have k3 : Kept s s3 := learnLead_kept (chargeLoad_kept k2 ..) ..
    have k4 : Kept s s4 := releaseArm_kept (post_kept (raiseNotice_kept k3 ..) ..) n
    exact oneFewer_kept (serveStarts_kept n _ k4) l

@[simp] theorem enterHalted_kept {s u : State} (h : Kept s u) (n : Arm) (b : Batch) : Kept s (u.enterHalted n b) := by
  unfold State.enterHalted
  apply post_kept
  apply reportHalted_kept
  exact modBatch_kept (setBatchState_still_kept h n .halted rfl) n _ fun _ => ⟨rfl, rfl, rfl⟩

@[simp] theorem endStopping_kept {s u : State} (h : Kept s u) (n : Arm) : Kept s (u.endStopping n) := by
  unfold State.endStopping
  repeat' split
  · exact h
  · exact batchDone_kept h n
  · exact enterHalted_kept h n _

/-! ### Stops -/

theorem haltIf_kept {s u : State} (h : Kept s u) (c : Bool) (n : Arm) (r : StopReason) :
    Kept s (if c = true then u.haltBatch n r else u) := by
  split
  · exact haltBatch_kept h n r
  · exact h

@[simp] theorem estop_kept {s u : State} (h : Kept s u) (l : Lane) : Kept s (u.estop l) := by
  unfold State.estop
  exact foldl_kept _ (fun u n k => haltIf_kept k _ n _) _ _ (dropLaneStarts_kept h l)

@[simp] theorem stopAll_kept {s u : State} (h : Kept s u) (l : Lane) : Kept s (u.stopAll l) := by
  unfold State.stopAll
  exact foldl_kept _ (fun u n k => haltIf_kept k _ n _) _ _ (dropLaneStarts_kept h l)

@[simp] theorem stopArm_kept {s u : State} (h : Kept s u) (l : Lane) (n : Arm) : Kept s (u.stopArm l n) := by
  have k := dropStart_kept h n l
  unfold State.stopArm
  dsimp only
  repeat' split
  · exact k
  · exact k
  · exact batchDone_kept (setReason_kept k n _) n
  · exact haltBatch_kept k n _

@[simp] theorem stopEvent_kept {s u : State} (h : Kept s u) (l : Lane) (a : Byte) : Kept s (u.stopEvent l a) := by
  unfold State.stopEvent
  split
  · exact stopArm_kept h l _
  · exact stopAll_kept h l

@[simp] theorem abortHolder_kept {s u : State} (h : Kept s u) (n : Arm) : Kept s (u.abortHolder n) := by
  unfold State.abortHolder
  repeat' split
  all_goals first
    | with_reducible exact h
    | with_reducible exact batchDone_kept (setReason_kept h n _) n
    | with_reducible exact stopBatch_kept (markBatchEnding_kept h n) n _
    | with_reducible exact markBatchEnding_kept (setReason_kept h n _) n

@[simp] theorem endBatch_kept {s u : State} (h : Kept s u) (n : Arm) (b : Batch) (r : EndReason) : Kept s (u.endBatch n b r) := by
  unfold State.endBatch
  repeat' split
  all_goals first
    | with_reducible exact h
    | with_reducible exact batchDone_kept (setReason_kept h n _) n
    | with_reducible exact batchDone_kept h n
    | with_reducible exact stopBatch_kept (markBatchEnding_kept h n) n _
    | with_reducible exact markBatchEnding_kept h n
    | with_reducible exact markBatchEnding_kept (setReason_kept h n _) n

@[simp] theorem laneEnd_kept {s u : State} (h : Kept s u) (l : Lane) (r : EndReason) : Kept s (u.laneEnd l r) := by
  unfold State.laneEnd
  refine foldl_kept _ (fun u n k => ?_) _ _ (dropLaneStarts_kept h l)
  repeat' split
  · exact k
  · exact endBatch_kept k n _ r
  · exact k

theorem enterEnding_kept {s u : State} (h : Kept s u) (l : Lane) (r : EndReason) (hl : (u.lane l).state = .opened) :
    Kept s (u.enterEnding l r) :=
  closeIfIdle_kept (laneEnd_kept (markEnding_kept h l r hl) l r) l

/-! ### The return of the lane -/

theorem setMode_kept {s u : State} (h : Kept s u) (m : BayMode) : Kept s (u.setMode m) := by
  refine h.trans ⟨rfl, ⟨id, fun _ => ?_, id⟩, id, id⟩
  cases m <;> simp [State.setMode, State.RunTracksMode]

@[simp] theorem laneReturned_kept {s u : State} (h : Kept s u) : Kept s u.laneReturned := by
  unfold State.laneReturned
  split
  · exact setMode_kept h _
  · exact h

/-- A LOAD CLOSED notice carries one of two times, and nothing says which (log 19). -/
theorem closedTime_cases (s : State) (endTime : TimeRec) :
    s.closedTime endTime = endTime ∨ s.closedTime endTime = s.time.record := by
  unfold State.closedTime; split
  · exact .inl rfl
  · exact .inr rfl

end Sys2Proof.Machine
end

