-- ==== Sys2Proof/Laws/Loads.lean ====
section
/-! SUPPORT. Cards, starts, overrides and station events keep what an event keeps (Kept). -/

namespace Sys2Proof.Machine

/-! ### Opening -/

/-- The note reservation in terms of lane records. -/
theorem loadsHeld_eq (u : State) : u.loadsHeld = u.loadCount := by
  unfold State.loadsHeld State.loadCount State.holdsLoad State.lane Lanes.get
  cases u.load.lanes.a.state <;> cases u.load.lanes.b.state <;> rfl

@[simp] theorem dropCandidateOf_lane_state (u : State) (ref : BitVec 32) (l k : Lane) :
    ((u.dropCandidateOf ref l).lane k).state = (u.lane k).state := by
  unfold State.dropCandidateOf State.dropCandidate
  split
  · cases l <;> cases k <;> rfl
  · rfl

theorem dropCandidateOf_candidate (u : State) (ref : BitVec 32) (l k : Lane) (c : Candidate)
    (h : ((u.dropCandidateOf ref l).lane k).candidate = some c) :
    (u.lane k).candidate = some c ∧ (k = l → c.order ≠ ref) := by
  unfold State.dropCandidateOf at h
  split at h
  · unfold State.dropCandidate at h
    by_cases hk : k = l
    · subst hk; simp at h
    · simp only [lane_setLane_other _ hk] at h
      exact ⟨h, fun e => absurd e hk⟩
  · rename_i hn
    refine ⟨h, fun hk => ?_⟩
    subst hk
    simpa [h] using hn

@[simp] theorem removeOrder_lane_state (u : State) (ref : BitVec 32) (k : Lane) :
    ((u.removeOrder ref).lane k).state = (u.lane k).state := by
  simp only [State.removeOrder, dropCandidateOf_lane_state]; rfl

@[simp] theorem removeOrder_note (u : State) (ref : BitVec 32) : (u.removeOrder ref).note = u.note := by
  unfold State.removeOrder State.dropCandidateOf State.dropCandidate
  repeat' split
  all_goals rfl

/-- A candidate left on a lane after an order leaves stood there before and names another order. -/
theorem removeOrder_candidate (u : State) (ref : BitVec 32) (k : Lane) (c : Candidate)
    (h : ((u.removeOrder ref).lane k).candidate = some c) : (u.lane k).candidate = some c ∧ c.order ≠ ref := by
  unfold State.removeOrder at h
  obtain ⟨h1, h2⟩ := dropCandidateOf_candidate _ ref .b k c h
  obtain ⟨h3, h4⟩ := dropCandidateOf_candidate _ ref .a k c h1
  exact ⟨h3, by cases k <;> simp_all⟩

/-- A load opens at a lane with no load and no candidate of another order, while the reservation admits one more. -/
theorem openLoad_kept {s u : State} (h : Kept s u) (l : Lane) (card : Nat) (driverRef : BitVec 16) (o : Order) (overridden : Bool)
    (hu : u.NotesReserved → (u.lane l).state = .none ∧ ∀ c, (u.lane l).candidate = some c → c.order = o.reference)
    (hn : u.note.notes.length + u.loadCount < 16) : Kept s (u.openLoad l card driverRef o overridden) := by
  refine h.trans ?_
  unfold State.openLoad
  dsimp only
  apply post_kept
  apply raiseNotice_kept
  have k := removeOrder_kept (Kept.refl u) o.reference
  refine ⟨k.outer, k.sound.trans ⟨id, id, id⟩, k.valves, fun x0 => ?_⟩
  have x := k.notes x0
  obtain ⟨hl, hc⟩ := hu x0
  have e1 : ((u.removeOrder o.reference).lane l).candidate = none := by
    cases e : ((u.removeOrder o.reference).lane l).candidate with
    | none => rfl
    | some c =>
      obtain ⟨a, b⟩ := removeOrder_candidate u o.reference l c e
      exact absurd (hc c a) b
  have e2 := removeOrder_lane_state u o.reference
  have e3 := removeOrder_note u o.reference
  generalize u.removeOrder o.reference = v at *
  have hv : v.note.notes.length + v.loadsHeld < 16 := by
    rw [loadsHeld_eq]
    have : v.loadCount = u.loadCount := by
      have e4 : ∀ k, v.holdsLoad k = u.holdsLoad k := fun k => by simp only [State.holdsLoad, e2]
      simp only [State.loadCount, e4]
    rw [this, e3]; exact hn
  have hvl : (v.lane l).state = .none := (e2 l).trans hl
  obtain ⟨a, b⟩ := x
  have ba := b .a
  have bb := b .b
  refine ⟨?_, fun m => ⟨?_, ?_⟩⟩
  · have key : ∀ r : LaneRec, (v.setLane l r).loadsHeld ≤ v.loadsHeld + 1 := by
      intro r
      simp only [loadsHeld_eq, State.loadCount]
      cases l
      · rw [show (v.setLane .a r).holdsLoad .b = v.holdsLoad .b from rfl]
        repeat' split
        all_goals omega
      · rw [show (v.setLane .b r).holdsLoad .a = v.holdsLoad .a from rfl]
        repeat' split
        all_goals omega
    have := key { v.lane l with state := .opened, load := some (o.load card driverRef u.time.record overridden) }
    show v.note.notes.length + State.loadsHeld _ ≤ 16
    exact Nat.le_trans (Nat.add_le_add_left this _) (by omega)
  · cases l <;> cases m <;> simp_all [State.setLane, Lanes.set, State.lane, Lanes.get]
  · cases l <;> cases m <;> simp_all [State.setLane, Lanes.set, State.lane, Lanes.get]

@[simp] theorem refuseCard_kept {s u : State} (h : Kept s u) (l : Lane) (c : DisplayCode) : Kept s (u.refuseCard l c) :=
  raiseNotice_kept (post_kept h ..) ..

theorem keepCandidate_kept {s u : State} (h : Kept s u) (l : Lane) (card : Nat) (o : Order) (hl : (u.lane l).state = .none) :
    Kept s (u.keepCandidate l card o) := by
  unfold State.keepCandidate
  refine h.trans ⟨rfl, ⟨id, id, id⟩, id, fun x => ?_⟩
  obtain ⟨a, b⟩ := x
  have ba := b .a
  have bb := b .b
  refine ⟨?_, fun m => ⟨?_, ?_⟩⟩
  · cases l <;> exact a
  · cases l <;> cases m <;> simp_all [State.setLane, Lanes.set, State.lane, Lanes.get]
  · cases l <;> cases m <;> simp_all [State.setLane, Lanes.set, State.lane, Lanes.get]

/-- No code of R140 steps 1 to 3 leaves room for one more load. -/
theorem bayFailure_room {u : State} (h : u.bayFailure = none) : u.note.notes.length + u.loadCount < 16 := by
  unfold State.bayFailure at h
  repeat' split at h
  all_goals cases h
  omega

theorem openingPermit_room {u : State} {l : Lane} {card : Nat} {p : Permit} (h : u.openingPermit l card = .ok p) :
    u.note.notes.length + u.loadCount < 16 := by
  unfold State.openingPermit at h
  split at h
  · exact absurd h (by simp)
  · rename_i c; exact bayFailure_room c

@[simp] theorem rollPermit_kept {s u : State} (h : Kept s u) (card : Nat) (today : Date) :
    Kept s (u.modPermit card fun q => q.roll today) := modPermit_kept h _ _ fun p => roll_card p _

theorem openingAttempt_kept {s u : State} (h : Kept s u) (l : Lane) (card : Nat) (hl : (u.lane l).state = .none) :
    Kept s (u.openingAttempt l card) := by
  unfold State.openingAttempt
  dsimp only
  have k := dropCandidate_kept h l
  have kl : ((u.dropCandidate l).lane l).state = .none := by simp [State.dropCandidate, hl]
  have kc : ((u.dropCandidate l).lane l).candidate = none := by simp [State.dropCandidate]
  generalize u.dropCandidate l = v at *
  split
  · exact refuseCard_kept k ..
  · rename_i p hp
    split
    · exact refuseCard_kept k ..
    · split
      · apply keepCandidate_kept
        · exact refuseCard_kept (rollPermit_kept k ..) ..
        · simp [State.refuseCard, State.lane]; exact kl
      · apply openLoad_kept (rollPermit_kept k ..)
        · refine fun _ => ⟨kl, fun c hc => ?_⟩
          rw [show ((v.modPermit card fun q => q.roll v.today).lane l).candidate = none from kc] at hc
          exact absurd hc (by simp)
        · exact (openingPermit_room hp : v.note.notes.length + v.loadCount < 16)

/-! ### START -/

@[simp] theorem startEntry_kept {s u : State} (h : Kept s u) (l : Lane) (n : Arm) (x : Load) (e : CompEntry) :
    Kept s (u.startEntry l n x e) := by
  unfold State.startEntry
  repeat' split
  all_goals first | with_reducible exact post_kept h .. | with_reducible exact judgeStart_kept h ..

@[simp] theorem startEvent_kept {s u : State} (h : Kept s u) (l : Lane) (arm comp : Byte) : Kept s (u.startEvent l arm comp) := by
  unfold State.startEvent
  repeat' split
  all_goals first | with_reducible exact h | with_reducible exact post_kept h .. | with_reducible exact startEntry_kept h ..

/-! ### Overrides -/

@[simp] theorem overrideArm_kept {s u : State} (h : Kept s u) (l : Lane) (n : Arm) : Kept s (u.overrideArm l n) := by
  unfold State.overrideArm
  apply post_kept
  apply raiseNotice_kept
  apply clearSlot_kept
  unfold State.suspendFaulted
  apply setBatchExc_kept
  apply setSchedules_kept
  exact modBatch_kept h n _ fun _ => ⟨rfl, rfl, rfl⟩

@[simp] theorem overrideFailed_kept {s u : State} (h : Kept s u) (l : Lane) (c : DisplayCode) :
    Kept s (u.overrideFailed l c).1 := refuseCard_kept (clearSlot_kept (dropCandidate_kept h l) l) l c

theorem find_reference {l : List Order} {ref : BitVec 32} {o : Order} (h : l.find? (fun o => o.reference = ref) = some o) :
    o.reference = ref := by simpa using List.find?_some h

theorem overrideLoad_kept {s u : State} (h : Kept s u) (l : Lane) (c : Candidate) (hc : (u.lane l).candidate = some c) : Kept s (u.overrideLoad l c).1 := by
  unfold State.overrideLoad
  split
  · exact overrideFailed_kept h ..
  · rename_i p hp
    split
    · exact overrideFailed_kept h ..
    · rename_i o ho
      apply raiseNotice_kept
      apply clearSlot_kept
      apply dropCandidate_kept
      apply openLoad_kept h
      · refine fun x => ⟨(x.2 l).2 (by simp [hc]), fun d hd => ?_⟩
        rw [hc] at hd; cases hd; exact (find_reference ho).symm
      · exact openingPermit_room hp

@[simp] theorem completeOverride_kept {s u : State} (h : Kept s u) (l : Lane) (t : Target) :
    Kept s (u.completeOverride l t).1 := by
  unfold State.completeOverride
  repeat' split
  · exact overrideArm_kept h ..
  · exact clearSlot_kept h l
  · rename_i c hc
    exact overrideLoad_kept h l c hc

@[simp] theorem supervisorArms_kept {s u : State} (h : Kept s u) (l : Lane) : Kept s (u.supervisorArms l) := by
  unfold State.supervisorArms
  repeat' split
  all_goals first | with_reducible exact post_kept (armSlot_kept h ..) .. | with_reducible exact post_kept h ..

@[simp] theorem supervisorHalf_kept {s u : State} (h : Kept s u) (l : Lane) (card : Nat) : Kept s (u.supervisorHalf l card) := by
  unfold State.supervisorHalf
  repeat' split
  all_goals first
    | with_reducible exact h
    | with_reducible exact post_kept h ..
    | with_reducible exact supervisorArms_kept h l
    | with_reducible exact completeOverride_kept h l _

/-! ### Cards and events -/

@[simp] theorem driverCard_kept {s u : State} (h : Kept s u) (l : Lane) (card : Nat) : Kept s (u.driverCard l card) := by
  unfold State.driverCard
  split
  · rename_i e; exact openingAttempt_kept h l card e
  · rename_i e
    split
    · exact enterEnding_kept h l _ e
    · exact post_kept h ..
  · exact post_kept h ..
  · exact post_kept h ..

@[simp] theorem supervisorCard_kept {s u : State} (h : Kept s u) (l : Lane) (card : Nat) : Kept s (u.supervisorCard l card) := by
  unfold State.supervisorCard
  split
  all_goals first | with_reducible exact post_kept h .. | with_reducible exact supervisorHalf_kept h l card

@[simp] theorem cardEvent_kept {s u : State} (h : Kept s u) (l : Lane) (digits : BitVec 40) (cls : Byte) :
    Kept s (u.cardEvent l digits cls) := by
  unfold State.cardEvent
  dsimp only
  split
  · exact driverCard_kept h ..
  · exact supervisorCard_kept h ..

@[simp] theorem stationEvent_kept {s u : State} (h : Kept s u) (l : Lane) (e : StationEvent) : Kept s (u.stationEvent l e) := by
  cases e <;> simp only [State.stationEvent]
  · exact cardEvent_kept h ..
  · exact startEvent_kept h ..
  · exact stopEvent_kept h ..
  · exact estop_kept h ..

@[simp] theorem stationEvents_kept {s u : State} (h : Kept s u) (l : Lane) (es : List StationEvent) :
    Kept s (u.stationEvents l es) := foldl_kept _ (fun _ e k => stationEvent_kept k l e) _ _ h

/-! ### Requests and timers of this chapter -/

@[simp] theorem refuse_kept {s u : State} (h : Kept s u) (r : Reason) : Kept s (u.refuse r).1 := h

@[simp] theorem accept_kept {s u : State} (h : Kept s u) : Kept s u.accept.1 := h

@[simp] theorem answer_kept {s u : State} (h : Kept s u) (p : List Byte) : Kept s (u.answer p).1 := h

@[simp] theorem batchAbort_kept {s u : State} (h : Kept s u) (p : List Byte) : Kept s (u.batchAbort p).1 := by
  unfold State.batchAbort
  repeat' split
  all_goals first | with_reducible exact refuse_kept h _ | with_reducible exact accept_kept h | with_reducible exact accept_kept (abortHolder_kept (dropAllStarts_kept h _) _)

@[simp] theorem overrideRequest_kept {s u : State} (h : Kept s u) (p : List Byte) : Kept s (u.overrideRequest p).1 := by
  unfold State.overrideRequest
  repeat' split
  all_goals first | with_reducible exact refuse_kept h _ | with_reducible exact accept_kept h | with_reducible exact accept_kept (armSlot_kept h ..) | with_reducible exact completeOverride_kept h ..

@[simp] theorem loadClose_kept {s u : State} (h : Kept s u) (p : List Byte) : Kept s (u.loadClose p).1 := by
  unfold State.loadClose
  repeat' split
  all_goals first
    | with_reducible exact refuse_kept h _
    | (rename_i e; with_reducible exact accept_kept (enterEnding_kept h _ _ e))

@[simp] theorem orderPlace_kept {s u : State} (h : Kept s u) (p : List Byte) : Kept s (u.orderPlace p).1 := by
  unfold State.orderPlace
  repeat' split
  all_goals first | with_reducible exact refuse_kept h _ | with_reducible exact accept_kept h | exact h.trans ⟨rfl, ⟨id, id, id⟩, id, id⟩

@[simp] theorem orderCancel_kept {s u : State} (h : Kept s u) (p : List Byte) : Kept s (u.orderCancel p).1 := by
  unfold State.orderCancel
  dsimp only
  repeat' split
  all_goals first | with_reducible exact refuse_kept h _ | with_reducible exact accept_kept h | with_reducible exact accept_kept (removeOrder_kept h _)

@[simp] theorem pendingLapse_kept {s u : State} (h : Kept s u) (n : Arm) (l : Lane) : Kept s (u.pendingLapse n l) := by
  unfold State.pendingLapse
  split
  · exact post_kept (dropStart_kept h n l) ..
  · exact h

@[simp] theorem candidateExpires_kept {s u : State} (h : Kept s u) (l : Lane) : Kept s (u.candidateExpires l) := by
  unfold State.candidateExpires
  split
  · exact dropCandidate_kept h l
  · exact h

@[simp] theorem overrideExpires_kept {s u : State} (h : Kept s u) (l : Lane) : Kept s (u.overrideExpires l) := by
  unfold State.overrideExpires
  split
  · exact post_kept (clearSlot_kept h l) ..
  · exact h

end Sys2Proof.Machine
end

