-- ==== Sys2Proof/Laws/Devices.lean ====
section
/-! SUPPORT. Samples, device states, valve and injector replies keep what an event keeps (Kept). -/

namespace Sys2Proof.Machine

/-! ### Samples -/

/-- The free-value counter moves and nothing else. -/
theorem free_kept {s u : State} (h : Kept s u) (k : Nat) : Kept s { u with free := k } := h.trans ⟨rfl, ⟨id, id, id⟩, id, id⟩

@[simp] theorem addResult_kept {s u : State} (h : Kept s u) (n : Arm) (b : Batch) (r : SampleResult) :
    Kept s (u.addResult n b r) := by
  unfold State.addResult
  have k1 : Kept s (u.modBatch n fun b => b.addIncrements r u.free) := modBatch_kept h n _ fun _ => ⟨rfl, rfl, rfl⟩
  extract_lets s1 s2 s3
  have k2 : Kept s s2 := by
    show Kept s (if _ then _ else _)
    split
    · exact k1
    · exact free_kept k1 _
  have k3 : Kept s s3 := by
    show Kept s (if _ then _ else _)
    split
    · exact setBatchExc_kept k2 ..
    · exact k2
  split
  · exact setBatchExc_kept k3 ..
  · exact k3

@[simp] theorem overspeedTest_kept {s u : State} (h : Kept s u) (n : Arm) (e : ArmEntry) (b : Batch) (rate : Nat) :
    Kept s (u.overspeedTest n e b rate) := by
  unfold State.overspeedTest
  repeat' split
  · exact modBatch_kept h n _ fun _ => ⟨rfl, rfl, rfl⟩
  · exact degradeBatch_kept h n
  · exact modBatch_kept h n _ fun _ => ⟨rfl, rfl, rfl⟩

/-- The holder flows already: moving it to another flowing state needs no permissive anew. -/
theorem flowOn_kept {s u : State} (h : Kept s u) (n : Arm) (b : Batch) (hb : u.holder n = some b) (hf : b.state.flowing = true)
    (st : BatchState) : Kept s (u.setBatchState n st) := by
  refine setBatchState_kept h n st fun hv _ c hc => ?_
  rw [hb] at hc; cases hc
  have := hv n
  rw [show (u.arm n).holder = some b from hb] at this
  refine this.2 ?_
  cases hs : b.state <;> rw [hs] at hf <;> first | exact Bool.noConfusion hf | simp

theorem leaveStartup_kept {s u : State} (h : Kept s u) (n : Arm) (e : ArmEntry) (b : Batch) (hb : u.holder n = some b)
    (hf : b.state.flowing = true) : Kept s (u.leaveStartup n e b) := by
  unfold State.leaveStartup
  split
  · exact openStreams_kept (flowOn_kept h n b hb hf _) n
  · apply openStreams_kept
    exact modBatch_kept (flowOn_kept h n b hb hf _) n _ fun _ => ⟨rfl, rfl, rfl⟩

theorem decide_kept {s u : State} (h : Kept s u) (n : Arm) (e : ArmEntry) (b : Batch) (r : SampleResult)
    (hb : u.holder n = some b) : Kept s (u.decide n e b r) := by
  unfold State.decide
  repeat' split
  all_goals first
    | with_reducible exact h
    | with_reducible exact haltBatch_kept h ..
    | with_reducible exact enterStopping_kept h ..
    | (rename_i e' _ _; exact leaveStartup_kept h n e b hb (by rw [e']; rfl))
    | (rename_i e' _; exact flowOn_kept h n b hb (by rw [e']; rfl) _)
    | with_reducible exact overspeedTest_kept h ..

@[simp] theorem feedNoFlow_kept {s u : State} (h : Kept s u) (n : Arm) (pulses leak : Nat) :
    Kept s (u.feedNoFlow n pulses leak) := by
  unfold State.feedNoFlow
  split
  · exact startNoFlowTimer_kept h n
  · exact h

@[simp] theorem countStop_kept {s u : State} (h : Kept s u) (n : Arm) (b : Batch) (r : SampleResult) (leak : Nat) :
    Kept s (u.countStop n b r leak) := by
  unfold State.countStop
  repeat' split
  · exact h
  · exact modBatch_kept h n _ fun _ => ⟨rfl, rfl, rfl⟩
  · exact endStopping_kept h n
  · exact modBatch_kept h n _ fun _ => ⟨rfl, rfl, rfl⟩

@[simp] theorem checkDeviation_kept {s u : State} (h : Kept s u) (n : Arm) (i : DevIx) : Kept s (u.checkDeviation n i).1 := by
  unfold State.checkDeviation
  split
  · exact faultSchedule_kept h ..
  · exact h

@[simp] theorem shotDue_kept {s u : State} (h : Kept s u) (n : Arm) (i : DevIx) (c : Schedule) : Kept s (u.shotDue n i c).1 := by
  unfold State.shotDue
  split
  · exact joinQueue_kept (modSchedule_kept h ..) ..
  · exact checkDeviation_kept (modSchedule_kept h ..) ..

theorem shotsDue_kept {s : State} (n : Arm) (i : DevIx) (k : Nat) : ∀ {u : State}, Kept s u → Kept s (State.shotsDue k u n i).1 := by
  induction k with
  | zero => intro u h; exact h
  | succ k ih =>
    intro u h
    unfold State.shotsDue
    repeat' split
    · exact h
    · exact ih (shotDue_kept (modSchedule_kept h ..) ..)
    · exact h

@[simp] theorem shotIncrement_kept {s u : State} (h : Kept s u) (n : Arm) (c : Schedule) (gross : Nat) :
    Kept s (u.shotIncrement n c gross).1 := by
  unfold State.shotIncrement
  split
  · exact shotsDue_kept n _ _ (modSchedule_kept h ..)
  · exact h

theorem scheduleIncrement_kept {s : State} (n : Arm) (above : Bool) (gross : Nat) (r : State × List AddRequest) (c : Schedule)
    (h : Kept s r.1) : Kept s (State.scheduleIncrement n above gross r c).1 := by
  unfold State.scheduleIncrement
  repeat' split
  · exact streamIncrement_kept h ..
  · exact shotIncrement_kept h ..
  · exact h

@[simp] theorem passIncrement_kept {s u : State} (h : Kept s u) (n : Arm) (e : ArmEntry) (gross : Nat) :
    Kept s (u.passIncrement n e gross) := by
  unfold State.passIncrement
  dsimp only
  apply applyRequests_kept
  have key : ∀ (l : List Schedule) (r : State × List AddRequest) (a : Bool), Kept s r.1 →
      Kept s (l.foldl (State.scheduleIncrement n a gross) r).1 := by
    intro l a
    induction l generalizing a with
    | nil => intro _ h; exact h
    | cons c l ih => intro b h; exact ih _ b (scheduleIncrement_kept n b gross _ c h)
  exact key _ _ _ h

@[simp] theorem takeResult_kept {s u : State} (h : Kept s u) (n : Arm) (e : ArmEntry) (b0 : Batch) (r : SampleResult) :
    Kept s (u.takeResult n e b0 r) := by
  have k := addResult_kept h n b0 r
  unfold State.takeResult
  dsimp only
  split
  · exact k
  · rename_i b hb
    split
    all_goals first
      | with_reducible exact k
      | with_reducible exact passIncrement_kept (feedNoFlow_kept (decide_kept k n e b r hb) ..) ..
      | with_reducible exact countStop_kept k ..

@[simp] theorem watchFlow_kept {s u : State} (h : Kept s u) (n : Arm) (delta leak : Nat) : Kept s (u.watchFlow n delta leak) := by
  unfold State.watchFlow
  dsimp only
  split
  · exact setMetering_kept h ..
  · split
    · exact raiseNotice_kept (setMetering_kept h ..) ..
    · exact setMetering_kept h ..

@[simp] theorem idleSample_kept {s u : State} (h : Kept s u) (n : Arm) (e : ArmEntry) (m : Metering) (delta : Nat) (valid : Bool)
    (reading : Int) : Kept s (u.idleSample n e m delta valid reading) := by
  unfold State.idleSample
  dsimp only
  split
  · exact setMetering_kept h ..
  · exact watchFlow_kept (setMetering_kept h ..) ..

@[simp] theorem takeSample_kept {s u : State} (h : Kept s u) (n : Arm) (e : ArmEntry) (pulses : BitVec 32) (interval : Nat)
    (valid : Bool) (reading : Int) : Kept s (u.takeSample n e pulses interval valid reading) := by
  unfold State.takeSample
  dsimp only
  repeat' split
  all_goals first
    | with_reducible exact setMetering_kept h ..
    | with_reducible exact idleSample_kept h ..
    | with_reducible exact takeResult_kept (setMetering_kept h ..) ..

@[simp] theorem meterSample_kept {s u : State} (h : Kept s u) (i : DevIx) (n : Arm) (pulses : BitVec 32)
    (interval temperature : BitVec 16) (flags : Byte) : Kept s (u.meterSample i n pulses interval temperature flags) := by
  unfold State.meterSample
  repeat' split
  all_goals first | with_reducible exact h | with_reducible exact takeSample_kept h ..

/-! ### Lane permissives -/

/-- What a halt does to the arm records and the permissives, as far as R76 asks. -/
structure Stilled (u v : State) (n : Arm) : Prop where
  permissive : v.batch.permissive = u.batch.permissive
  others : ∀ m, m ≠ n → v.arm m = u.arm m
  lane : (v.holder n).map (fun b => b.lane) = (u.holder n).map fun b => b.lane
  still : ∀ b, v.holder n = some b → b.state = .stopping ∧ (v.arm n).desired = .closed

theorem Stilled.sans {u v w : State} {n : Arm} (h : Stilled u v n) (e : w.sansAdditive = v.sansAdditive) : Stilled u w n := by
  refine ⟨?_, fun m hm => ?_, ?_, fun b hb => ?_⟩
  · rw [batch_of_sans e]; exact h.permissive
  · rw [arm_of_sans e]; exact h.others m hm
  · rw [holder_of_sans e]; exact h.lane
  · rw [holder_of_sans e] at hb; rw [arm_of_sans e]; exact h.still b hb

theorem Stilled.modBatch {u v : State} {n : Arm} (h : Stilled u v n) (f : Batch → Batch)
    (hf : ∀ b, (f b).state = b.state ∧ (f b).lane = b.lane) : Stilled u (v.modBatch n f) n := by
  refine ⟨h.permissive, fun m hm => ?_, ?_, fun b hb => ?_⟩
  · rw [arm_modBatch_other _ hm]; exact h.others m hm
  · rw [holder_modBatch_self, Option.map_map, ← h.lane]
    congr 1
    funext b
    exact (hf b).2
  · rw [holder_modBatch_self, Option.map_eq_some_iff] at hb
    obtain ⟨c, hc, rfl⟩ := hb
    rw [(hf c).1, arm_modBatch_self]
    exact h.still c hc

theorem setDesired_stilled {u v : State} {n : Arm} (hp : v.batch.permissive = u.batch.permissive)
    (ho : ∀ m, m ≠ n → v.arm m = u.arm m) (hl : (v.holder n).map (fun b => b.lane) = (u.holder n).map fun b => b.lane)
    (hs : ∀ b, v.holder n = some b → b.state = .stopping) : Stilled u (v.setDesired n .closed) n := by
  rcases setDesired_eq v n .closed with ⟨h1, h2⟩ | ⟨_, h1⟩
  · rw [h1]; exact ⟨hp, ho, hl, fun b hb => ⟨hs b hb, h2⟩⟩
  · rw [h1]
    refine Stilled.sans (v := v.setArm n _) ⟨hp, fun m hm => ?_, ?_, fun b hb => ?_⟩ (wakeBus_sans _)
    · rw [arm_setArm_other _ hm]; exact ho m hm
    · simpa [State.holder] using hl
    · rw [arm_setArm_self]
      rw [State.holder, arm_setArm_self] at hb
      exact ⟨hs b hb, rfl⟩

theorem enterStopping_stilled (u : State) (n : Arm) (r : StopReason) (f : Batch → Batch)
    (hf : ∀ b, (f b).state = b.state ∧ (f b).lane = b.lane) : Stilled u ((u.modBatch n f).enterStopping n r) n := by
  unfold State.enterStopping
  refine Stilled.sans (v := State.startStopTimerIfLost _ n) ?_ (leaveFlowing_sans _ _)
  generalize hw : ((u.modBatch n f).modBatch n fun b => { b with stopReason := some r, noFlowTimer := none }) = w
  have w1 : w.batch.permissive = u.batch.permissive := by rw [← hw]; rfl
  have w2 : ∀ m, m ≠ n → w.arm m = u.arm m := fun m hm => by
    rw [← hw, arm_modBatch_other _ hm, arm_modBatch_other _ hm]
  have w3 : (w.holder n).map (fun b => b.lane) = (u.holder n).map fun b => b.lane := by
    rw [← hw, holder_modBatch_self, holder_modBatch_self, Option.map_map, Option.map_map]
    congr 1
    funext b
    exact (hf b).2
  have k : Stilled u (w.setBatchState n .stopping) n := by
    unfold State.setBatchState
    cases e : w.holder n with
    | none => exact ⟨w1, w2, w3, fun b hb => by rw [e] at hb; cases hb⟩
    | some b =>
      refine setDesired_stilled (by rw [← w1]; rfl) (fun m hm => ?_) ?_ (fun c hc => ?_)
      · rw [arm_modBatch_other _ hm]; exact w2 m hm
      · rw [holder_modBatch_self, Option.map_map, ← w3]; rfl
      · rw [holder_modBatch_self, e] at hc; cases hc; rfl
  unfold State.startStopTimerIfLost
  split
  · exact k
  · exact k.modBatch _ fun _ => ⟨rfl, rfl⟩

theorem haltBatch_stilled (u : State) (n : Arm) (r : StopReason) (hu : (u.holder n).any fun b => b.state.haltable) :
    Stilled u (u.haltBatch n r) n := by
  unfold State.haltBatch
  rw [if_pos hu]
  have k := enterStopping_stilled u n r (fun b => b.clearCounts r) fun _ => ⟨rfl, rfl⟩
  exact ⟨k.permissive, k.others, k.lane, k.still⟩

theorem Stilled.agrees {u v : State} {n : Arm} (k : Stilled u v n) {b : Batch} (hb : u.holder n = some b) (p : Lanes Bool) :
    (v.arm n).Agrees p := by
  have q := k.still
  have ql := k.lane
  rw [hb] at ql
  cases hc : v.holder n with
  | none => rw [hc] at ql; cases ql
  | some c =>
    obtain ⟨q1, q2⟩ := q c hc
    simp only [ArmRec.Agrees, show (v.arm n).holder = some c from hc, q1, q2]
    exact ⟨trivial, fun hfl => by rcases hfl with hs | hs | hs <;> cases hs⟩

/-- The halts that follow a lost permissive: an arm agrees with the permissives of before until its turn comes, and with those of
now from then on. -/
theorem haltLost_agrees (old new : Lanes Bool) (lost : Lanes Bool)
    (hlost : ∀ l, old.get l = true → lost.get l = false → new.get l = true) (l : List Arm) :
    ∀ v : State, v.batch.permissive = new → (∀ m, m ∈ l → (v.arm m).Agrees old ∨ (v.arm m).Agrees new) →
      (∀ m, m ∉ l → (v.arm m).Agrees new) →
      (l.foldl (fun s n => if (s.holder n).any fun b => lost.get b.lane then s.haltBatch n .permissive else s) v).ValvesSafe := by
  induction l with
  | nil =>
    intro v hv _ h2
    rw [valvesSafe_iff]
    intro m
    rw [show ([].foldl _ v) = v from rfl, hv]
    exact h2 m (by simp)
  | cons n l ih =>
    intro v hv h1 h2
    simp only [List.foldl_cons]
    have hn := h1 n (by simp)
    have base : ∀ b, (v.arm n).holder = some b → b.state.flowing = false → (v.arm n).Agrees new := by
      intro b hb hf
      have : ∀ p : Lanes Bool, (v.arm n).Agrees p → (v.arm n).Agrees new := by
        intro p hp
        simp only [ArmRec.Agrees, hb] at hp ⊢
        refine ⟨hp.1, fun hfl => ?_⟩
        rcases hfl with hs | hs | hs <;> rw [hs] at hf <;> exact Bool.noConfusion hf
      rcases hn with hn | hn
      · exact this _ hn
      · exact hn
    split
    · rename_i hc
      cases hb : (v.arm n).holder with
      | none => rw [show v.holder n = none from hb] at hc; cases hc
      | some b =>
        by_cases hh : b.state.haltable = true
        · have k := haltBatch_stilled v n .permissive (by rw [show v.holder n = some b from hb]; exact hh)
          refine ih _ (k.permissive.trans hv) (fun m hm => ?_) (fun m hm => ?_)
          · by_cases e : m = n
            · subst e; exact .inr (k.agrees hb new)
            · rw [k.others m e]; exact h1 m (by simp [hm])
          · by_cases e : m = n
            · subst e; exact k.agrees hb new
            · rw [k.others m e]; exact h2 m (by simp [e, hm])
        · have hkeep : v.haltBatch n .permissive = v := by
            unfold State.haltBatch
            rw [if_neg]
            rw [show v.holder n = some b from hb]
            exact hh
          rw [hkeep]
          have hf : b.state.flowing = false := by cases e : b.state <;> simp_all [BatchState.haltable, BatchState.flowing]
          refine ih v hv (fun m hm => h1 m (by simp [hm])) (fun m hm => ?_)
          by_cases e : m = n
          · subst e; exact base b hb hf
          · exact h2 m (by simp [e, hm])
    · rename_i hc
      refine ih v hv (fun m hm => h1 m (by simp [hm])) (fun m hm => ?_)
      by_cases e : m = n
      · subst e
        rcases hn with hn | hn
        · simp only [ArmRec.Agrees] at hn ⊢
          cases hb : (v.arm m).holder with
          | none => rw [hb] at hn; exact hn
          | some b =>
            rw [hb] at hn
            refine ⟨hn.1, fun hfl => hlost _ (hn.2 hfl) ?_⟩
            rw [show v.holder m = some b from hb] at hc
            simpa using hc
        · exact hn
      · exact h2 m (by simp [e, hm])

theorem noticePermissive_same (u : State) (l : Lane) (a b : Bool) :
    (u.noticePermissive l a b).batch = u.batch ∧ (u.noticePermissive l a b).load = u.load ∧
      (u.noticePermissive l a b).note = u.note := by
  unfold State.noticePermissive
  split <;> exact ⟨rfl, rfl, rfl⟩

@[simp] theorem noticePermissive_kept {s u : State} (h : Kept s u) (l : Lane) (a b : Bool) : Kept s (u.noticePermissive l a b) := by
  unfold State.noticePermissive
  split
  · exact h
  · exact raiseNotice_kept h ..

@[simp] theorem haltPermissive_kept {s u : State} (h : Kept s u) (lost : Lanes Bool) : Kept s (u.haltPermissive lost) := by
  unfold State.haltPermissive
  exact foldl_kept _ (fun u n k => haltIf_kept k _ n _) _ _ h

theorem mem_allArms (m : Arm) : m ∈ allArms := by revert m; decide

theorem haltPermissive_valvesSafe (u s1 : State) (p lost : Lanes Bool) (hv : u.ValvesSafe) (ha : ∀ m, s1.arm m = u.arm m)
    (hp : s1.batch.permissive = p) (hl : ∀ l, u.batch.permissive.get l = true → lost.get l = false → p.get l = true) :
    ∀ v, v = s1.haltPermissive lost → v.ValvesSafe := by
  have h1 : ∀ m, m ∈ allArms → (s1.arm m).Agrees u.batch.permissive ∨ (s1.arm m).Agrees p := by
    intro m _
    rw [ha]; exact .inl (hv m)
  have h2 : ∀ m, m ∉ allArms → (s1.arm m).Agrees p := fun m hm => absurd (mem_allArms m) hm
  intro v e
  rw [e]
  unfold State.haltPermissive
  generalize allArms = arms at h1 h2 ⊢
  exact haltLost_agrees u.batch.permissive p lost hl arms s1 hp h1 h2

/-- A later state of an event that began in a state differing from `u` in what the valves ask alone. -/
theorem Kept.moved {u s1 v : State} (k : Kept s1 v) (ho : s1.outer = u.outer) (hs : Sound u s1)
    (hn : u.NotesReserved → s1.NotesReserved) (hv : u.ValvesSafe → v.ValvesSafe) : Kept u v :=
  ⟨k.outer.trans ho, hs.trans k.sound, hv, fun x => k.notes (hn x)⟩

@[simp] theorem setPermissives_kept {s u : State} (h : Kept s u) (a b : Bool) : Kept s (u.setPermissives a b) := by
  refine h.trans ?_
  unfold State.setPermissives
  dsimp only
  generalize e1 : ({ u with batch.permissive := ⟨a, b⟩ } : State) = s1
  have k : Kept s1 ((s1.noticePermissive .a u.batch.permissive.a a).noticePermissive .b u.batch.permissive.b b) :=
    noticePermissive_kept (noticePermissive_kept (Kept.refl s1) ..) ..
  have e : ((s1.noticePermissive .a u.batch.permissive.a a).noticePermissive .b u.batch.permissive.b b).batch = s1.batch :=
    (noticePermissive_same ..).1.trans (noticePermissive_same ..).1
  have x1 : s1.outer = u.outer := by rw [← e1]; rfl
  have x2 : Sound u s1 := by rw [← e1]; exact ⟨id, id, id⟩
  have x3 : u.NotesReserved → s1.NotesReserved := by rw [← e1]; exact id
  have x4 : ∀ m, s1.arm m = u.arm m := by rw [← e1]; exact fun _ => rfl
  have x5 : s1.batch.permissive = ⟨a, b⟩ := by rw [← e1]
  have x6 : ∀ l, u.batch.permissive.get l = true →
      (Lanes.mk (u.batch.permissive.a && !a) (u.batch.permissive.b && !b)).get l = false → (Lanes.mk a b).get l = true := by
    intro l h1 h2
    cases l <;> simp_all [Lanes.get]
  generalize (s1.noticePermissive .a u.batch.permissive.a a).noticePermissive .b u.batch.permissive.b b = v at k e ⊢
  generalize Lanes.mk (u.batch.permissive.a && !a) (u.batch.permissive.b && !b) = lost at x6 ⊢
  have y := haltPermissive_kept k lost
  have z := fun x => haltPermissive_valvesSafe u v ⟨a, b⟩ lost x (fun m => by rw [State.arm, e]; exact x4 m) (by rw [e, x5]) x6
  generalize v.haltPermissive lost = w at y z ⊢
  exact y.moved x1 x2 x3 fun x => z x w rfl

@[simp] theorem permissiveState_kept {s u : State} (h : Kept s u) (flags : Byte) : Kept s (u.permissiveState flags) := by
  unfold State.permissiveState
  split <;> exact setPermissives_kept h ..

/-! ### Changes of device states -/

@[simp] theorem meterUp_kept {s u : State} (h : Kept s u) (n : Arm) : Kept s (u.meterUp n) := by
  unfold State.meterUp
  dsimp only
  apply tryStartup_kept
  split
  · exact modBatch_kept h n _ fun _ => ⟨rfl, rfl, rfl⟩
  · exact h

@[simp] theorem meterDown_kept {s u : State} (h : Kept s u) (n : Arm) (before : DeviceState) (halts : Bool) :
    Kept s (u.meterDown n before halts) := by
  unfold State.meterDown
  repeat' split
  · exact modBatch_kept h n _ fun _ => ⟨rfl, rfl, rfl⟩
  · exact h
  · exact haltBatch_kept h ..
  · exact h

@[simp] theorem batchMeter_kept {s u : State} (h : Kept s u) (n : Arm) (before : DeviceState) (after : Option DeviceState) :
    Kept s (u.batchMeter n before after) := by
  unfold State.batchMeter
  split
  · exact meterUp_kept h n
  · exact meterDown_kept h ..

@[simp] theorem batchValve_kept {s u : State} (h : Kept s u) (n : Arm) (after : Option DeviceState) :
    Kept s (u.batchValve n after) := by
  unfold State.batchValve
  repeat' split
  · exact tryStartup_kept h n
  · exact haltBatch_kept h ..
  · exact h

@[simp] theorem meterChanged_kept {s u : State} (h : Kept s u) (i : DevIx) : Kept s (u.meterChanged i) := by
  unfold State.meterChanged
  refine foldl_kept _ (fun u n k => ?_) _ _ h
  split
  · exact setMetering_kept k ..
  · exact k

@[simp] theorem meterHanded_kept {s u : State} (h : Kept s u) (i : DevIx) (before : DeviceState) (after : Option DeviceState) :
    Kept s (u.meterHanded i before after) := by
  unfold State.meterHanded
  refine foldl_kept _ (fun u n k => ?_) _ _ (meterChanged_kept h i)
  split
  · exact batchMeter_kept k ..
  · exact k

@[simp] theorem valveHanded_kept {s u : State} (h : Kept s u) (i : DevIx) (after : Option DeviceState) :
    Kept s (u.valveHanded i after) := by
  unfold State.valveHanded
  refine foldl_kept _ (fun u n k => ?_) _ _ h
  split
  · exact batchValve_kept k ..
  · exact k

@[simp] theorem handOn_kept {s u : State} (h : Kept s u) (i : DevIx) (kind : DeviceKind) (before : DeviceState)
    (after : Option DeviceState) : Kept s (u.handOn i kind before after) := by
  unfold State.handOn
  repeat' split
  · exact meterHanded_kept h ..
  · exact valveHanded_kept h ..
  · exact injectorChanged_kept h ..
  · exact h
  · exact h
  · exact setPermissives_kept h ..

@[simp] theorem announce_kept {s u : State} (h : Kept s u) (i : DevIx) (kind : DeviceKind) (before : DeviceState)
    (after : Option DeviceState) : Kept s (u.announce i kind before after) := handOn_kept (raiseNotice_kept h ..) ..

@[simp] theorem moveDevice_kept {s u : State} (h : Kept s u) (i : DevIx) (after : DeviceState) : Kept s (u.moveDevice i after) := by
  unfold State.moveDevice
  repeat' split
  · exact h
  · exact h
  · exact announce_kept (setDevice_kept h ..) ..

@[simp] theorem deviceReplied_kept {s u : State} (h : Kept s u) (i : DevIx) (fault : Bool) : Kept s (u.deviceReplied i fault) := by
  unfold State.deviceReplied
  split
  · exact h
  · exact moveDevice_kept (setDevice_kept h ..) ..

@[simp] theorem deviceMissed_kept {s u : State} (h : Kept s u) (i : DevIx) : Kept s (u.deviceMissed i) := by
  unfold State.deviceMissed
  dsimp only
  repeat' split
  · exact h
  · exact moveDevice_kept (setDevice_kept h ..) ..
  · exact setDevice_kept h ..

/-! ### Valve replies and timers -/

@[simp] theorem followStage_kept {s u : State} (h : Kept s u) (n : Arm) (before : Option Stage) (after : Stage) :
    Kept s (u.followStage n before after) := by
  unfold State.followStage
  repeat' split
  · exact modBatch_kept h n _ fun _ => ⟨rfl, rfl, rfl⟩
  · exact startNoFlowTimer_kept h n
  · exact h

@[simp] theorem setExcess_kept {s u : State} (h : Kept s u) (n : Arm) (k : Nat) : Kept s (u.setExcess n k) :=
  setArm_same_kept h n _ rfl rfl

@[simp] theorem judgeStage_kept {s u : State} (h : Kept s u) (n : Arm) (st : Stage) : Kept s (u.judgeStage n st) := by
  unfold State.judgeStage
  repeat' split
  · exact haltBatch_kept (setExcess_kept h ..) ..
  · exact setExcess_kept h ..
  · exact setExcess_kept h ..

@[simp] theorem valveReply_kept {s u : State} (h : Kept s u) (i : DevIx) (n : Arm) (stage : Byte) :
    Kept s (u.valveReply i n stage) := by
  unfold State.valveReply
  repeat' split
  · exact h
  · apply judgeStage_kept
    apply followStage_kept
    exact setArm_same_kept h n _ rfl rfl
  · exact h

@[simp] theorem travelExpires_kept {s u : State} (h : Kept s u) (n : Arm) : Kept s (u.travelExpires n) :=
  setArm_same_kept h n _ rfl rfl

@[simp] theorem noFlowExpires_kept {s u : State} (h : Kept s u) (n : Arm) : Kept s (u.noFlowExpires n) := by
  unfold State.noFlowExpires
  split
  · apply haltBatch_kept
    exact modBatch_kept h n _ fun _ => ⟨rfl, rfl, rfl⟩
  · exact h

@[simp] theorem stopExpires_kept {s u : State} (h : Kept s u) (n : Arm) : Kept s (u.stopExpires n) := by
  unfold State.stopExpires
  split
  · apply endStopping_kept
    apply setBatchExc_kept
    exact modBatch_kept h n _ fun _ => ⟨rfl, rfl, rfl⟩
  · exact h

/-! ### Injector replies -/

@[simp] theorem settleShot_kept {s u : State} (h : Kept s u) (i : DevIx) (f : Flight) (dose : Nat) :
    Kept s (u.settleShot i f dose) := by
  unfold State.settleShot
  dsimp only
  apply issueHead_kept
  apply joinQueue_kept
  apply applyRequests_kept
  apply checkDeviation_kept
  apply withdrawRequest_kept
  apply dropFlight_kept
  split
  · exact h
  · exact modSchedule_kept (setDelivered_kept h ..) ..

@[simp] theorem takeReport_kept {s u : State} (h : Kept s u) (i : DevIx) (f : Flight) (dose : Nat) (status : Byte) :
    Kept s (u.takeReport i f dose status) := by
  unfold State.takeReport
  repeat' split
  · exact queryShot_kept h ..
  · exact settleShot_kept h ..
  · exact endUnowned_kept h _

@[simp] theorem shotReply_kept {s u : State} (h : Kept s u) (i : DevIx) (f : Flight) (r : DeviceReply) :
    Kept s (u.shotReply i f r) := by
  unfold State.shotReply
  repeat' split
  all_goals first | with_reducible exact takeReport_kept h .. | with_reducible exact awaitReport_kept h ..

@[simp] theorem shotOutcome_kept {s u : State} (h : Kept s u) (i : DevIx) (x : InjectorSlot) (o : InjOutcome) :
    Kept s (u.shotOutcome i x o) := by
  unfold State.shotOutcome
  repeat' split
  all_goals first | with_reducible exact h | with_reducible exact shotReply_kept h .. | with_reducible exact awaitReport_kept h ..

@[simp] theorem queryState_kept {s u : State} (h : Kept s u) (i : DevIx) (f : Flight) (state : Byte) :
    Kept s (u.queryState i f state) := by
  unfold State.queryState
  split
  · exact awaitReport_kept h ..
  · exact attemptFailed_kept h _

@[simp] theorem queryReply_kept {s u : State} (h : Kept s u) (i : DevIx) (f : Flight) (r : DeviceReply) :
    Kept s (u.queryReply i f r) := by
  unfold State.queryReply
  repeat' split
  all_goals first
    | with_reducible exact h
    | with_reducible exact settleShot_kept h ..
    | with_reducible exact attemptFailed_kept h _
    | with_reducible exact queryState_kept h ..

@[simp] theorem queryOutcome_kept {s u : State} (h : Kept s u) (i : DevIx) (x : InjectorSlot) (o : InjOutcome) :
    Kept s (u.queryOutcome i x o) := by
  unfold State.queryOutcome
  repeat' split
  all_goals first | with_reducible exact h | with_reducible exact queryReply_kept h .. | with_reducible exact attemptFailed_kept h _

@[simp] theorem polledReport_kept {s u : State} (h : Kept s u) (i : DevIx) (x : InjectorSlot) (outlet : Byte) (dose : Nat)
    (status : Byte) : Kept s (u.polledReport i x outlet dose status) := by
  unfold State.polledReport
  repeat' split
  all_goals first | with_reducible exact h | with_reducible exact takeReport_kept h ..

@[simp] theorem checkStream_kept {s u : State} (h : Kept s u) (i : DevIx) (x : InjectorSlot) : Kept s (u.checkStream i x) := by
  unfold State.checkStream
  repeat' split
  all_goals first | with_reducible exact h | with_reducible exact faultScheduleNow_kept h ..

@[simp] theorem polledState_kept {s u : State} (h : Kept s u) (i : DevIx) (x : InjectorSlot) (dose : BitVec 32) :
    Kept s (u.polledState i x dose) := by
  unfold State.polledState
  repeat' split
  all_goals first
    | with_reducible exact h
    | with_reducible exact checkStream_kept (creditStream_kept h ..) ..
    | with_reducible exact creditStream_kept h ..

@[simp] theorem startFailed_kept {s u : State} (h : Kept s u) (i : DevIx) (x : InjectorSlot) : Kept s (u.startFailed i x) := by
  unfold State.startFailed
  repeat' split
  · exact streamIdle_kept h i
  · exact repeatStart_kept h ..
  · exact declareFailed_kept (streamFailed_kept h i) i

@[simp] theorem startOutcome_kept {s u : State} (h : Kept s u) (i : DevIx) (x : InjectorSlot) (o : InjOutcome) :
    Kept s (u.startOutcome i x o) := by
  unfold State.startOutcome
  repeat' split
  all_goals first
    | with_reducible exact h
    | with_reducible exact streamOpened_kept h ..
    | with_reducible exact startFailed_kept h ..
    | with_reducible exact streamIdle_kept h i

@[simp] theorem stopEnded_kept {s u : State} (h : Kept s u) (i : DevIx) (x : InjectorSlot) (o : InjOutcome) :
    Kept s (u.stopEnded i x o) := by
  unfold State.stopEnded
  repeat' split
  · exact streamIdle_kept (creditStream_kept h ..) i
  · exact streamIdle_kept h i
  · exact streamIdle_kept h i
  · exact postStreamStop_kept h ..
  · exact declareFailed_kept (streamFailed_kept h i) i

@[simp] theorem stopOutcome_kept {s u : State} (h : Kept s u) (i : DevIx) (x : InjectorSlot) (o : InjOutcome) :
    Kept s (u.stopOutcome i x o) := by
  unfold State.stopOutcome
  repeat' split
  · exact streamIdle_kept h i
  · exact stopEnded_kept h ..
  · exact h

@[simp] theorem injectorOutcome_kept {s u : State} (h : Kept s u) (i : DevIx) (t : Telegram) (o : InjOutcome) :
    Kept s (u.injectorOutcome i t o) := by
  unfold State.injectorOutcome
  repeat' split
  all_goals first
    | with_reducible exact h
    | with_reducible exact shotOutcome_kept h ..
    | with_reducible exact queryOutcome_kept h ..
    | with_reducible exact startOutcome_kept h ..
    | with_reducible exact stopOutcome_kept h ..

@[simp] theorem injectorPolled_kept {s u : State} (h : Kept s u) (i : DevIx) (r : DeviceReply) :
    Kept s (u.injectorPolled i r) := by
  unfold State.injectorPolled
  repeat' split
  all_goals first
    | with_reducible exact h
    | with_reducible exact polledReport_kept h ..
    | with_reducible exact polledState_kept h ..

end Sys2Proof.Machine
end

