-- ==== Sys2Proof/Laws/Requests.lean ====
section
/-! SUPPORT. What the gate before an owner and the end of an event do: cited in place of unfolding State.request,
State.answered and State.settle. -/

namespace Sys2Proof.Machine

theorem settle_of_settled {s : State} (h : s.Settled) : s.settle = s := by
  simp only [State.Settled] at h
  simp [State.settle, h]

theorem shows_eq_reply (s : State) (r : TermReply) : s.reply r = s.shows r := rfl

@[simp] theorem settled_shows (s : State) (r : TermReply) : (s.shows r).Settled ↔ s.Settled := Iff.rfl

/-- A request that its owner handles without waking the bus. -/
theorem answered_of_settled {s u : State} {r : TermReply} {owner : State → State × TermReply} (h : owner s = (u, r))
    (hu : u.Settled) : s.answered owner = u.shows r := by
  rw [State.answered, h]
  exact settle_of_settled hu

/-- A request whose owner wakes the bus. -/
theorem answered_of_owner {s u : State} {r : TermReply} {owner : State → State × TermReply} (h : owner s = (u, r)) :
    s.answered owner = (u.shows r).settle := by
  rw [State.answered, h]
  rfl

/-- An intact message at the strapped address with no reply pending goes to its owner (R8, R11). -/
theorem request_reaches {s : State} {n : Nat} (h : s.Reaches n) (owner : State → State × TermReply) :
    s.request n owner = s.answered owner := by
  obtain ⟨hn, ha, hr⟩ := h
  simp [State.request, Nat.not_lt.mpr hn, ha, hr]

/-- A message that ends while a reply is pending, or at a part without a unicast address, changes nothing (R8, R14). -/
theorem request_discarded {s : State} {n : Nat} (hn : n ≤ 240) (h : s.port.reply.isSome ∨ s.pads.addr = 0#5)
    (owner : State → State × TermReply) : s.request n owner = s := by
  rcases h with h | h <;> simp [State.request, Nat.not_lt.mpr hn, h]

/-- A request that its owner handles without waking the bus: the next state is the owner's, with its reply pending. -/
theorem request_next {s u : State} {n : Nat} {r : TermReply} {owner : State → State × TermReply} (hr : s.Reaches n)
    (h : owner s = (u, r)) (hu : u.Settled) :
    (.next (s.request n owner) : Host.Outcome State Fault Refusal) = .next (u.shows r) := by
  rw [request_reaches hr, answered_of_settled h hu]

/-- A request whose owner wakes the bus: the next state is the owner's, with its reply pending and the bus settled. -/
theorem request_settles {s u : State} {n : Nat} {r : TermReply} {owner : State → State × TermReply} (hr : s.Reaches n)
    (h : owner s = (u, r)) :
    (.next (s.request n owner) : Host.Outcome State Fault Refusal) = .next (u.shows r).settle := by
  rw [request_reaches hr, answered_of_owner h]

end Sys2Proof.Machine
end

