-- ==== Sys2Proof/Laws/Bus.lean ====
section
/-! SUPPORT. What every step keeps (Keeps), for the operations of the bus; what an event keeps (Kept) gives it for the rest. -/

namespace Sys2Proof.Machine

/-- BDE is high exactly while a telegram is being sent. -/
def State.BusLine (s : State) : Prop := s.pads.bde = true ↔ ∃ t, s.scan.transaction = some t ∧ t.sent = false

/-- The Bay Bus counters are 16-bit. -/
def BusCounters.Bounded (k : BusCounters) : Prop := k.framing ≤ 65535 ∧ k.brk ≤ 65535 ∧ k.overrun ≤ 65535 ∧ k.check ≤ 65535

/-- `u` stands later in a step that `s` began. -/
structure Keeps (s u : State) : Prop where
  valves : s.ValvesSafe → u.ValvesSafe
  notes : s.NotesReserved → u.NotesReserved
  run : s.RunTracksMode → u.RunTracksMode
  words : s.WordsInRange → u.WordsInRange
  lines : s.DriversTrackLines → u.DriversTrackLines
  counts : s.CountsBounded → u.CountsBounded
  permits : s.PermitsOrdered → u.PermitsOrdered
  time : s.TimeValid → u.TimeValid
  next : u.note.nextNote = s.note.nextNote
  cal : u.note.calCounter = s.note.calCounter

theorem Keeps.refl (s : State) : Keeps s s := ⟨id, id, id, id, id, id, id, id, rfl, rfl⟩

theorem Keeps.trans {s u v : State} (h : Keeps s u) (k : Keeps u v) : Keeps s v :=
  ⟨fun x => k.valves (h.valves x), fun x => k.notes (h.notes x), fun x => k.run (h.run x), fun x => k.words (h.words x),
    fun x => k.lines (h.lines x), fun x => k.counts (h.counts x), fun x => k.permits (h.permits x), fun x => k.time (h.time x),
    k.next.trans h.next, k.cal.trans h.cal⟩

theorem permitsOrdered_iff (s : State) :
    s.PermitsOrdered ↔ (s.permits.map fun p => p.card).Pairwise (· < ·) ∧ (s.permits.map fun p => p.card).length ≤ 256 := by
  simp [State.PermitsOrdered, List.pairwise_map]

theorem Kept.keeps {s u : State} (h : Kept s u) : Keeps s u := by
  have ho := h.outer
  have e : ∀ {α : Type} (f : Outer → α), f u.outer = f s.outer := fun f => by rw [ho]
  refine ⟨h.valves, h.notes, h.sound.run, h.sound.words, fun x => ?_, fun x => ?_, fun x => ?_, fun x => ?_, e Outer.nextNote,
    e Outer.calCounter⟩
  · obtain ⟨x1, x2⟩ := x
    refine ⟨?_, ?_⟩
    · rw [show u.port.reply = s.port.reply from e Outer.reply, show u.pads.tde = s.pads.tde from e Outer.tde]
      exact x1
    · rw [show u.pads.bde = s.pads.bde from e Outer.bde, x2]
      have ht : u.scan.transaction.map Transaction.sansCode = s.scan.transaction.map Transaction.sansCode := e Outer.transaction
      cases h1 : u.scan.transaction <;> cases h2 : s.scan.transaction <;> rw [h1, h2] at ht <;> simp at ht ⊢
      simp only [Transaction.sansCode, Transaction.mk.injEq] at ht
      rw [ht.2.2.2.2.2.1]
  · have ct : u.port.counters = s.port.counters := e Outer.termCounters
    have cb : u.scan.counters = s.scan.counters := e Outer.busCounters
    simp only [State.CountsBounded, ct, cb] at *
    obtain ⟨a, b, c, d, f, g, i, j, k, l⟩ := x
    exact ⟨a, b, c, d, f, g, i, j, k, h.sound.notices l⟩
  · rw [permitsOrdered_iff] at *
    rw [show u.permits.map (fun p => p.card) = s.permits.map (fun p => p.card) from e Outer.cards]
    exact x
  · simp only [State.TimeValid, show u.time = s.time from e Outer.time] at *
    exact x

theorem Keeps.kept {s u v : State} (h : Keeps s u) (k : Kept u v) : Keeps s v := h.trans k.keeps

/-- A change of the scanner and of BDE. -/
theorem Keeps.scan {s u v : State} (h : Keeps s u) (hl : u.BusLine → v.BusLine)
    (hc : u.scan.counters.Bounded → v.scan.counters.Bounded) (h1 : v.batch = u.batch := by rfl) (h2 : v.load = u.load := by rfl)
    (h3 : v.note = u.note := by rfl) (h4 : v.port = u.port := by rfl) (h5 : v.permits = u.permits := by rfl)
    (h6 : v.time = u.time := by rfl) (h7 : v.pads.run = u.pads.run := by rfl) (h8 : v.pads.tde = u.pads.tde := by rfl) :
    Keeps s v := by
  refine h.trans ⟨ValvesSafe.congr h1, NotesReserved.congr h2 h3, fun x => ?_, fun x => ?_, fun x => ?_, fun x => ?_, fun x => ?_,
    fun x => ?_, by rw [h3], by rw [h3]⟩
  · simp only [State.RunTracksMode, h4, h7] at *; exact x
  · simp only [State.WordsInRange, h3] at *; exact x
  · exact ⟨by rw [h8, h4]; exact x.1, hl x.2⟩
  · obtain ⟨a, b, c, d, f, g, i, j, k, l⟩ := x
    obtain ⟨g, i, j, k⟩ := hc ⟨g, i, j, k⟩
    simp only [State.CountsBounded, h4]
    exact ⟨a, b, c, d, f, g, i, j, k, l⟩
  · simp only [State.PermitsOrdered, h5] at *; exact x
  · simp only [State.TimeValid, h6] at *; exact x

/-! ### Transactions -/

theorem beginTransaction_keeps {s u : State} (h : Keeps s u) (i : DevIx) (t : Telegram) (step : PickStep) :
    Keeps s (u.beginTransaction i t step) := by
  unfold State.beginTransaction
  split
  · exact h
  · exact h.scan (fun _ => ⟨fun _ => ⟨_, rfl, rfl⟩, fun _ => rfl⟩) id

theorem sendStage_keeps {s u : State} (h : Keeps s u) (n : Arm) (step : PickStep) : Keeps s (u.sendStage n step) := by
  unfold State.sendStage
  split
  · exact h
  · exact beginTransaction_keeps h ..

/-- A change of the scanner that leaves transaction and counters. -/
theorem Keeps.within {s u : State} (h : Keeps s u) (c : Scanner) (ht : c.transaction = u.scan.transaction)
    (hc : c.counters = u.scan.counters) : Keeps s { u with scan := c } := by
  refine h.scan (fun x => ?_) (fun x => ?_)
  · simp only [State.BusLine, ht] at *; exact x
  · rw [hc]; exact x

theorem advance_same (c : Scanner) : c.advance.transaction = c.transaction ∧ c.advance.counters = c.counters := by
  unfold Scanner.advance
  split <;> exact ⟨rfl, rfl⟩

theorem stepOver_same (k : Nat) : ∀ c : Scanner,
    (Scanner.stepOver k c).transaction = c.transaction ∧ (Scanner.stepOver k c).counters = c.counters := by
  induction k with
  | zero => intro c; exact ⟨rfl, rfl⟩
  | succ k ih =>
    intro c
    unfold Scanner.stepOver
    split
    · exact ⟨rfl, rfl⟩
    · obtain ⟨a, b⟩ := ih c.advance
      obtain ⟨d, e⟩ := advance_same c
      exact ⟨a.trans d, b.trans e⟩

theorem reach_same (c : Scanner) : c.reach.transaction = c.transaction ∧ c.reach.counters = c.counters := by
  unfold Scanner.reach
  split
  · exact ⟨rfl, rfl⟩
  · exact stepOver_same _ c

theorem reach_keeps {s u : State} (h : Keeps s u) : Keeps s { u with scan := u.scan.reach } :=
  h.within _ (reach_same _).1 (reach_same _).2

theorem serveEntry_keeps {s u : State} (h : Keeps s u) : Keeps s u.serveEntry.1 := by
  unfold State.serveEntry
  repeat' split
  · exact h
  · exact h
  · apply beginTransaction_keeps
    exact h.within _ (advance_same _).1 (advance_same _).2

theorem serveScan_keeps {s u : State} (h : Keeps s u) : Keeps s u.serveScan.1 := serveEntry_keeps (reach_keeps h)

theorem withdrawPass_keeps {s u : State} (h : Keeps s u) (p : PassSlot) : Keeps s (u.withdrawPass p) :=
  Keeps.kept (u := { u with scan.slot := none, scan.wrap := false }) (h.within _ rfl rfl) (raiseNoticeAt_kept (.refl _) ..)

theorem servePass_keeps {s u : State} (h : Keeps s u) (p : PassSlot) : Keeps s (u.servePass p).1 := by
  unfold State.servePass
  split
  · exact beginTransaction_keeps (u := { u with scan.wrap := false }) (h.within _ rfl rfl) ..
  · exact serveScan_keeps (withdrawPass_keeps h p)

theorem pickScan_keeps {s u : State} (h : Keeps s u) : Keeps s u.pickScan.1 := by
  unfold State.pickScan
  dsimp only
  repeat' split
  · exact serveScan_keeps h
  · exact servePass_keeps h _
  · exact servePass_keeps (reach_keeps h) _
  · exact serveEntry_keeps (reach_keeps h)

theorem pickOnce_keeps {s u : State} (h : Keeps s u) : Keeps s u.pickOnce.1 := by
  unfold State.pickOnce
  repeat' split
  · exact sendStage_keeps h ..
  · exact sendStage_keeps h ..
  · exact beginTransaction_keeps (h.kept (takeRequest_kept (.refl _) _)) ..
  · exact pickScan_keeps h

theorem clearHolds_keeps {s u : State} (h : Keeps s u) : Keeps s u.clearHolds := h.within _ rfl rfl

theorem pick_keeps {s u : State} (h : Keeps s u) : Keeps s u.pick := by
  unfold State.pick
  dsimp only
  repeat' split
  · exact pickOnce_keeps h
  · exact pickOnce_keeps (clearHolds_keeps (pickOnce_keeps h))
  · exact pickOnce_keeps h

theorem settle_keeps {s u : State} (h : Keeps s u) : Keeps s u.settle := by
  have k : Keeps s { u with scan.wake := false } := h.within _ rfl rfl
  unfold State.settle
  dsimp only
  repeat' split
  · exact pick_keeps k
  · exact k
  · exact h

/-! ### The end of a transaction -/

theorem freeBus_keeps {s u : State} (h : Keeps s u) (t : Transaction) : Keeps s (u.freeBus t) := by
  unfold State.freeBus
  have k : Keeps s { u with
      scan.transaction := none
      scan.rx.buffer := []
      scan.rx.broken := false
      scan.wake := true
      pads.bde := false } :=
    h.scan (fun _ => ⟨fun x => (nomatch x), fun ⟨_, x, _⟩ => (nomatch x)⟩) id
  dsimp only
  split
  · exact clearHolds_keeps k
  · exact k

theorem emptyPass_keeps {s u : State} (h : Keeps s u) : Keeps s u.emptyPass := h.within _ rfl rfl

theorem missEnd_keeps {s u : State} (h : Keeps s u) (t : Transaction) : Keeps s (u.missEnd t) := by
  have k := freeBus_keeps h t
  have m : Keeps s (if t.written then u.freeBus t else (u.freeBus t).deviceMissed t.device) := by
    split
    · exact k
    · exact k.kept (deviceMissed_kept (.refl _) _)
  unfold State.missEnd
  dsimp only
  split
  · exact emptyPass_keeps (k.kept (raiseNoticeAt_kept (.refl _) ..))
  · split
    · exact k
    · exact k.kept (setDevice_kept (deviceMissed_kept (.refl _) _) ..)
  · split
    · exact k
    · exact k.kept (setDevice_kept (deviceMissed_kept (.refl _) _) ..)
  · exact m.kept (injectorOutcome_kept (.refl _) ..)
  · exact m

theorem noteSet_kept {s u : State} (h : Kept s u) (t : Transaction) : Kept s (u.noteSet t) := by
  unfold State.noteSet
  split <;> first | with_reducible exact h | with_reducible exact setDevice_kept h ..

theorem noteShown_kept {s u : State} (h : Kept s u) (t : Transaction) : Kept s (u.noteShown t) := by
  unfold State.noteShown
  repeat' split
  all_goals first | with_reducible exact h | with_reducible exact setDevice_kept h ..

theorem route_kept {s u : State} (h : Kept s u) (t : Transaction) (d : Device) (r : DeviceReply) : Kept s (u.route t d r) := by
  unfold State.route
  repeat' split
  all_goals first
    | with_reducible exact h
    | with_reducible exact meterSample_kept h ..
    | with_reducible exact valveReply_kept h ..
    | with_reducible exact stationEvents_kept h ..
    | with_reducible exact permissiveState_kept h ..
    | with_reducible exact injectorOutcome_kept h ..
    | with_reducible exact injectorPolled_kept h ..

theorem routeFault_kept {s u : State} (h : Kept s u) (t : Transaction) : Kept s (u.routeFault t) := by
  unfold State.routeFault
  split
  · exact injectorOutcome_kept h ..
  · exact h

theorem acceptReply_keeps {s u : State} (h : Keeps s u) (t : Transaction) (d : Device) (r : DeviceReply) :
    Keeps s (u.acceptReply t d r) := by
  have k := (freeBus_keeps h t).kept
    (noteShown_kept (noteSet_kept (deviceReplied_kept (.refl _) t.device (replyFault r)) t) t)
  unfold State.acceptReply
  dsimp only
  split
  · exact k.kept (routeFault_kept (.refl _) t)
  · exact k.kept (route_kept (.refl _) t d r)

theorem passReply_keeps {s u : State} (h : Keeps s u) (t : Transaction) (r : DeviceReply) : Keeps s (u.passReply t r) := by
  unfold State.passReply
  split
  · exact emptyPass_keeps ((freeBus_keeps h t).kept (raiseNoticeAt_kept (.refl _) ..))
  · exact missEnd_keeps h t

theorem replyEnd_keeps {s u : State} (h : Keeps s u) (t : Transaction) (r : DeviceReply) : Keeps s (u.replyEnd t r) := by
  unfold State.replyEnd
  repeat' split
  · exact missEnd_keeps h t
  · exact passReply_keeps h t r
  · exact missEnd_keeps h t
  · exact acceptReply_keeps h t _ r
  · exact missEnd_keeps h t

theorem responseExpires_keeps {s u : State} (h : Keeps s u) : Keeps s u.responseExpires := by
  unfold State.responseExpires
  repeat' split
  · exact h
  · exact missEnd_keeps h _
  · exact h

/-! ### Characters -/

theorem satInc_le {n : Nat} : satInc n ≤ 65535 := by unfold satInc; split <;> omega

/-- A change of receiver and counters. -/
theorem Keeps.receiver {s u : State} (h : Keeps s u) (rx : BusRx) (k : BusCounters)
    (hk : u.scan.counters.Bounded → k.Bounded) : Keeps s { u with scan := { u.scan with rx := rx, counters := k } } :=
  h.scan id hk

theorem countBusError_keeps {s u : State} (h : Keeps s u) (e : CharError) : Keeps s (u.countBusError e) := by
  refine h.scan id fun ⟨a, b, c, d⟩ => ?_
  show ((u.scan.counters.countError e).framing ≤ _ ∧ _)
  cases e <;> simp only [BusCounters.countError] <;>
    first | exact ⟨a, b, c, d⟩ | exact ⟨satInc_le, b, c, d⟩ | exact ⟨a, satInc_le, c, d⟩

theorem countBusCheck_keeps {s u : State} (h : Keeps s u) : Keeps s u.countBusCheck :=
  h.scan id fun ⟨a, b, c, _⟩ => ⟨a, b, c, satInc_le⟩

theorem countBusOverrun_keeps {s u : State} (h : Keeps s u) : Keeps s u.countBusOverrun :=
  h.scan id fun ⟨a, b, _, d⟩ => ⟨a, b, satInc_le, d⟩

theorem busOverrun_keeps {s u : State} (h : Keeps s u) : Keeps s u.busOverrun := by
  unfold State.busOverrun
  split
  · exact countBusOverrun_keeps (u := { u with scan.rx.broken := true }) (h.within _ rfl rfl)
  · exact countBusOverrun_keeps h

theorem breakReply_keeps {s u : State} (h : Keeps s u) : Keeps s u.breakReply :=
  countBusCheck_keeps (u := { u with scan.rx.broken := true }) (h.within _ rfl rfl)

theorem completeReply_keeps {s u : State} (h : Keeps s u) (t : Transaction) (bs : List Byte) :
    Keeps s (u.completeReply t bs) := by
  unfold State.completeReply
  repeat' split
  · exact breakReply_keeps h
  · exact breakReply_keeps h
  · exact replyEnd_keeps h t _

theorem addReplyByte_keeps {s u : State} (h : Keeps s u) (t : Transaction) (b : Byte) : Keeps s (u.addReplyByte t b) := by
  have k : Keeps s { u with scan.rx.buffer := u.scan.rx.buffer ++ [b] } := h.within _ rfl rfl
  unfold State.addReplyByte
  dsimp only
  repeat' split
  · exact breakReply_keeps k
  · exact completeReply_keeps k ..
  · exact k

theorem takeBusChar_keeps {s u : State} (h : Keeps s u) (c : BusChar) : Keeps s (u.takeBusChar c) := by
  unfold State.takeBusChar
  repeat' split
  · exact countBusError_keeps h _
  · exact countBusError_keeps h _
  · exact countBusError_keeps (u := { u with scan.rx.broken := true }) (h.within _ rfl rfl) _
  · exact breakReply_keeps h
  · exact addReplyByte_keeps h ..

theorem takeBusHeld_keeps {s u : State} (h : Keeps s u) : Keeps s u.takeBusHeld := by
  unfold State.takeBusHeld
  split
  · exact h
  · exact takeBusChar_keeps (u := { u with scan.rx.held := none }) (h.within _ rfl rfl) _

theorem holdBusChar_keeps {s u : State} (h : Keeps s u) (c : BusChar) : Keeps s (u.holdBusChar c) := by
  unfold State.holdBusChar
  split
  · exact busOverrun_keeps h
  · exact h.within _ rfl rfl

theorem busChar_keeps {s u : State} (h : Keeps s u) (c : BusChar) : Keeps s (u.busChar c) := by
  unfold State.busChar
  repeat' split
  · exact h
  · exact takeBusHeld_keeps (holdBusChar_keeps h c)
  · exact holdBusChar_keeps h c
  · exact takeBusChar_keeps (takeBusHeld_keeps h) c

theorem telegramSent_keeps {s u : State} (h : Keeps s u) : Keeps s u.telegramSent := by
  unfold State.telegramSent
  repeat' split
  · exact h
  · exact h
  · exact (takeBusHeld_keeps h).scan
      (fun _ => ⟨fun x => (nomatch x), fun ⟨_, x, y⟩ => by cases x; exact (nomatch y)⟩) id

theorem deliverReply_keeps {s u : State} (h : Keeps s u) (r : DeviceReply) : Keeps s (u.deliverReply r) := by
  have k := takeBusHeld_keeps h
  have key : ∀ (l : List BusChar) (v : State), Keeps s v → Keeps s (l.foldl State.takeBusChar v) := by
    intro l
    induction l with
    | nil => intro v x; exact x
    | cons c l ih => intro v x; exact ih _ (takeBusChar_keeps x c)
  unfold State.deliverReply
  dsimp only
  repeat' split
  · exact k
  · exact replyEnd_keeps k _ r
  · exact breakReply_keeps k
  · exact key _ _ k

theorem quietEnds_keeps {s u : State} (h : Keeps s u) : Keeps s u.quietEnds := by
  unfold State.quietEnds
  split
  · exact Keeps.kept (u := { u with scan.quiet := false }) (h.within _ rfl rfl) (wakeBus_kept (.refl _))
  · exact h

end Sys2Proof.Machine
end

