-- ==== Sys2Proof/Laws/Operands.lean ====
section
/-! SUPPORT. Bytes, fields and BCD: lengths, the numbers that fields carry, the bits of a flags byte. -/

namespace Sys2Proof.Machine

theorem beBytes_length (k n : Nat) : (beBytes k n).length = k := by
  induction k with
  | zero => rfl
  | succ k ih => simp [beBytes, ih]

theorem bcdBytes_length (k n : Nat) : (bcdBytes k n).length = k := by
  induction k with
  | zero => rfl
  | succ k ih => simp [bcdBytes, ih]

theorem bitIf_zero (b : Bool) : bitIf b 0 = if b then 1#8 else 0#8 := by cases b <;> rfl

theorem bitIf_one (b : Bool) : bitIf b 1 = if b then 2#8 else 0#8 := by cases b <;> rfl

theorem bitIf_two (b : Bool) : bitIf b 2 = if b then 4#8 else 0#8 := by cases b <;> rfl

theorem byteAt_getElem (p : List Byte) (i : Nat) (h : i < p.length) : byteAt p i = p[i] := by
  simp [byteAt, h]

theorem drop_cons (p : List Byte) (i : Nat) (h : i < p.length) : p.drop i = byteAt p i :: p.drop (i + 1) := by
  rw [List.drop_eq_getElem_cons h, byteAt_getElem p i h]

theorem fieldAt_two (p : List Byte) (i : Nat) (h : i + 2 ≤ p.length) : fieldAt p i 2 = beNat [byteAt p i, byteAt p (i + 1)] := by
  unfold fieldAt
  rw [drop_cons p i (by omega), drop_cons p (i + 1) (by omega)]
  rfl

theorem fieldAt_three (p : List Byte) (i : Nat) (h : i + 3 ≤ p.length) :
    fieldAt p i 3 = beNat [byteAt p i, byteAt p (i + 1), byteAt p (i + 2)] := by
  unfold fieldAt
  rw [drop_cons p i (by omega), drop_cons p (i + 1) (by omega), drop_cons p (i + 2) (by omega)]
  rfl

theorem fieldAt_four (p : List Byte) (i : Nat) (h : i + 4 ≤ p.length) :
    fieldAt p i 4 = beNat [byteAt p i, byteAt p (i + 1), byteAt p (i + 2), byteAt p (i + 3)] := by
  unfold fieldAt
  rw [drop_cons p i (by omega), drop_cons p (i + 1) (by omega), drop_cons p (i + 2) (by omega), drop_cons p (i + 3) (by omega)]
  rfl

theorem beNat_two (a b : Byte) : beNat [a, b] = a.toNat * 256 + b.toNat := by simp [beNat]

/-- Two bytes as a 16-bit number, most significant byte first (section 1.6). -/
theorem ofNat_beNat_two (a b : Byte) : BitVec.ofNat 16 (beNat [a, b]) = a ++ b := by
  apply BitVec.eq_of_toNat_eq
  have h1 := a.isLt; have h2 := b.isLt
  rw [BitVec.toNat_append, ← Nat.shiftLeft_add_eq_or_of_lt h2, Nat.shiftLeft_eq]
  simp [beNat]; omega

/-- Four bytes as a 32-bit number, most significant byte first (section 1.6). -/
theorem ofNat_beNat_four (a b c d : Byte) : BitVec.ofNat 32 (beNat [a, b, c, d]) = a ++ b ++ c ++ d := by
  apply BitVec.eq_of_toNat_eq
  have h1 := a.isLt; have h2 := b.isLt; have h3 := c.isLt; have h4 := d.isLt
  simp only [BitVec.toNat_append]
  rw [← Nat.shiftLeft_add_eq_or_of_lt h2, ← Nat.shiftLeft_add_eq_or_of_lt h3, ← Nat.shiftLeft_add_eq_or_of_lt h4]
  simp only [Nat.shiftLeft_eq]
  simp [beNat]; omega

end Sys2Proof.Machine
end

