-- ==== Sys2Proof/Laws/Permits.lean ====
section
/-! SUPPORT. The permit table in its order: insertion, lookup, in-use bits, replacement at a position (R120 to R125). -/

namespace Sys2Proof.Machine

theorem insertPermit_eq (n : Permit) (l : List Permit) (hs : l.Pairwise (fun p q => p.card < q.card)) (hn : ∀ q ∈ l, q.card ≠ n.card) :
    insertPermit n l = (l.filter fun q => q.card < n.card) ++ n :: l.filter fun q => n.card < q.card := by
  induction l with
  | nil => rfl
  | cons a l ih =>
    have ha := hn a (by simp)
    rw [List.pairwise_cons] at hs
    unfold insertPermit
    split
    · rename_i h
      have h1 : (a :: l).filter (fun q => decide (q.card < n.card)) = [] := by
        rw [List.filter_eq_nil_iff]; intro q hq
        rcases List.mem_cons.mp hq with e | e
        · subst e; simp; omega
        · have := hs.1 q e; simp; omega
      have h2 : (a :: l).filter (fun q => decide (n.card < q.card)) = a :: l := by
        rw [List.filter_eq_self]; intro q hq
        rcases List.mem_cons.mp hq with e | e
        · subst e; simpa using h
        · have := hs.1 q e; simp; omega
      rw [h1, h2]; rfl
    · rename_i h
      rw [ih hs.2 (fun q hq => hn q (by simp [hq]))]
      have h1 : a.card < n.card := by omega
      have h2 : ¬ n.card < a.card := by omega
      simp [h1, h2]

theorem permit_isNone (s : State) (card : Nat) : (s.permit card).isNone = true ↔ ∀ q ∈ s.permits, q.card ≠ card := by
  simp [State.permit]

theorem loadHasCard_iff (s : State) (l : Lane) (card : Nat) :
    s.loadHasCard l card = true ↔ (s.lane l).state ≠ .none ∧ ∃ x, (s.lane l).load = some x ∧ x.card = card := by
  simp [State.loadHasCard, State.holdsLoad, Option.any_eq_true]

theorem candidateHasCard_iff (s : State) (l : Lane) (card : Nat) :
    s.candidateHasCard l card = true ↔ ∃ c, (s.lane l).candidate = some c ∧ c.card = card := by
  simp [State.candidateHasCard, Option.any_eq_true]

theorem useBits (a b c d : Bool) :
    let u : Byte := (if a then 1#8 else 0#8) ||| (if b then 2#8 else 0#8) ||| (if c then 4#8 else 0#8) ||| (if d then 8#8 else 0#8)
    u.getLsbD 0 = a ∧ u.getLsbD 1 = b ∧ u.getLsbD 2 = c ∧ u.getLsbD 3 = d ∧ u.toNat < 16 ∧ (u = 0#8 ↔ a = false ∧ b = false ∧ c = false ∧ d = false) := by
  cases a <;> cases b <;> cases c <;> cases d <;> decide

theorem permitUse_bits (s : State) (card : Nat) :
    (s.permitUse card).getLsbD 0 = s.loadHasCard .a card ∧ (s.permitUse card).getLsbD 1 = s.loadHasCard .b card ∧
    (s.permitUse card).getLsbD 2 = s.candidateHasCard .a card ∧ (s.permitUse card).getLsbD 3 = s.candidateHasCard .b card ∧
    (s.permitUse card).toNat < 16 ∧ (s.permitUse card = 0#8 ↔ s.loadHasCard .a card = false ∧ s.loadHasCard .b card = false ∧
      s.candidateHasCard .a card = false ∧ s.candidateHasCard .b card = false) := useBits _ _ _ _

theorem permits_unique {l : List Permit} (h : l.Pairwise fun p q => p.card < q.card) {i j : Nat} {p q : Permit}
   (hi : l[i]? = some p) (hj : l[j]? = some q) (e : p.card = q.card) : i = j := by
  rcases List.getElem?_eq_some_iff.mp hi with ⟨hi1, hi2⟩
  rcases List.getElem?_eq_some_iff.mp hj with ⟨hj1, hj2⟩
  rw [List.pairwise_iff_getElem] at h
  rcases Nat.lt_trichotomy i j with hh | hh | hh
  · have := h i j hi1 hj1 hh; rw [hi2, hj2] at this; omega
  · exact hh
  · have := h j i hj1 hi1 hh; rw [hi2, hj2] at this; omega

theorem modPermit_set (s : State) (ho : s.PermitsOrdered) (i : Nat) (p : Permit) (hp : s.permits[i]? = some p) (f : Permit → Permit) :
    s.modPermit p.card f = { s with permits := s.permits.set i (f p) } := by
  unfold State.modPermit
  congr 1
  apply List.ext_getElem?
  intro j
  rw [List.getElem?_map, List.getElem?_set]
  by_cases hij : i = j
  · subst hij
    rw [hp]; simp
    exact (List.getElem?_eq_some_iff.mp hp).1
  · rw [if_neg hij]
    cases hq : s.permits[j]? with
    | none => rfl
    | some q =>
      simp only [Option.map_some]
      rw [if_neg]
      intro e; exact hij (permits_unique ho.1 hp hq e.symm)

theorem permitReadAt_some (s : State) (ho : s.PermitsOrdered) (i : Nat) (p : Permit) (hp : s.permits[i]? = some p) :
   s.permitReadAt i = ({ s with permits := s.permits.set i (p.roll s.today) }, .data (State.permitRecord { s with permits := s.permits.set i (p.roll s.today) } (p.roll s.today) i)) := by
  simp only [State.permitReadAt, hp]
  rw [modPermit_set s ho i p hp]; rfl

end Sys2Proof.Machine
end

