-- ==== Sys2Proof/Laws/Time.lean ====
section
/-! SUPPORT. BCD fields and the second tick: a valid record stays valid (R166, R167). -/

namespace Sys2Proof.Machine

theorem bcdVal_le : ∀ b : Byte, bcdOk b = true → bcdVal b ≤ 99 := by decide

theorem bcdInc_eq : ∀ b : Byte, bcdOk b = true → bcdVal b ≤ 98 → bcdInc b = toBcd (bcdVal b + 1) := by decide

theorem bcdInc_ok : ∀ b : Byte, bcdOk b = true → bcdVal b ≤ 98 → bcdOk (bcdInc b) = true := by decide

theorem bcdInc_val : ∀ b : Byte, bcdOk b = true → bcdVal b ≤ 98 → bcdVal (bcdInc b) = bcdVal b + 1 := by decide

theorem toBcd_bcdVal : ∀ b : Byte, bcdOk b = true → toBcd (bcdVal b) = b := by decide

/-- The weekday of the next day. -/
theorem weekday_next : ∀ b : Byte, bcdOk b = true → bcdVal b ≤ 6 →
    (if b = 0x06#8 then (0x00#8 : Byte) else b + 0x01#8) = toBcd ((bcdVal b + 1) % 7) ∧
      bcdOk (if b = 0x06#8 then (0x00#8 : Byte) else b + 0x01#8) = true ∧
      bcdVal (if b = 0x06#8 then (0x00#8 : Byte) else b + 0x01#8) = (bcdVal b + 1) % 7 := by decide

theorem daysInMonth_le (year month : Nat) : daysInMonth year month ≤ 31 := by
  unfold daysInMonth
  repeat' split
  all_goals omega

theorem daysBefore_succ (year month : Nat) : 1 ≤ month →
    daysBefore year (month + 1) = daysBefore year month + daysInMonth year month := by
  intro h
  have : month + 1 - 1 = (month - 1) + 1 := by omega
  unfold daysBefore
  rw [this, List.range_succ, List.map_append, List.sum_append]
  simp [show month - 1 + 1 = month from by omega]

/-- The days before month 13 are the days of the year. -/
theorem daysBefore_year (year : Nat) : daysBefore year 13 = if year % 4 = 0 then 366 else 365 := by
  by_cases h : year % 4 = 0 <;> simp [daysBefore, List.range, List.range.loop, daysInMonth, h]

theorem weekdayOf_next_day (year month day : Nat) (h : 1 ≤ day) :
    weekdayOf year month (day + 1) = (weekdayOf year month day + 1) % 7 := by
  simp only [weekdayOf]; omega

theorem weekdayOf_next_month (year month : Nat) (h : 1 ≤ month) :
    weekdayOf year (month + 1) 1 = (weekdayOf year month (daysInMonth year month) + 1) % 7 := by
  have hd : 1 ≤ daysInMonth year month := by unfold daysInMonth; repeat' split
                                             all_goals omega
  simp only [weekdayOf, daysBefore_succ year month h]; omega

theorem weekdayOf_next_year (year : Nat) : weekdayOf (year + 1) 1 1 = (weekdayOf year 12 31 + 1) % 7 := by
  have h12 : daysBefore year 12 + 31 = if year % 4 = 0 then 366 else 365 := by
    rw [← daysBefore_year, daysBefore_succ year 12 (by omega)]; rfl
  have h1 : daysBefore (year + 1) 1 = 0 := rfl
  simp only [weekdayOf, h1]
  split at h12
  · rename_i hy
    have : (year + 1 + 3) / 4 = (year + 3) / 4 + 1 := by omega
    rw [this]; omega
  · rename_i hy
    have : (year + 1 + 3) / 4 = (year + 3) / 4 := by omega
    rw [this]; omega

/-- What a valid record says, field by field (R166). -/
structure TimeRec.Fields (t : TimeRec) : Prop where
  yearOk : bcdOk t.year = true
  monthOk : bcdOk t.month = true
  dayOk : bcdOk t.day = true
  weekdayOk : bcdOk t.weekday = true
  hourOk : bcdOk t.hour = true
  minuteOk : bcdOk t.minute = true
  secondOk : bcdOk t.second = true
  monthLo : 1 ≤ bcdVal t.month
  monthHi : bcdVal t.month ≤ 12
  dayLo : 1 ≤ bcdVal t.day
  dayHi : bcdVal t.day ≤ daysInMonth (bcdVal t.year) (bcdVal t.month)
  weekdayHi : bcdVal t.weekday ≤ 6
  hourHi : bcdVal t.hour ≤ 23
  minuteHi : bcdVal t.minute ≤ 59
  secondHi : bcdVal t.second ≤ 59
  weekdayIs : bcdVal t.weekday = weekdayOf (bcdVal t.year) (bcdVal t.month) (bcdVal t.day)

theorem TimeRec.valid_iff (t : TimeRec) : t.valid = true ↔ t.Fields := by
  constructor
  · intro h
    simp only [TimeRec.valid, TimeRec.digitsOk, TimeRec.bytes, TimeRec.inRange, TimeRec.weekdayOk, realDate, List.all_cons,
      List.all_nil, Bool.and_true, Bool.and_eq_true, decide_eq_true_eq] at h
    obtain ⟨⟨⟨_, _, _, _, _, _, _⟩, ⟨⟨⟨⟨⟨⟨⟨⟨⟨⟨_, _⟩, _⟩, _⟩, _⟩, _⟩, _⟩, _⟩, _⟩, _⟩, _⟩⟩, _⟩ := h
    constructor <;> assumption
  · intro h
    simp only [TimeRec.valid, TimeRec.digitsOk, TimeRec.bytes, TimeRec.inRange, TimeRec.weekdayOk, realDate, List.all_cons,
      List.all_nil, Bool.and_true, Bool.and_eq_true, decide_eq_true_eq]
    obtain ⟨_, _, _, _, _, _, _, _, _, _, _, _, _, _, _, _⟩ := h
    refine ⟨⟨⟨?_, ?_, ?_, ?_, ?_, ?_, ?_⟩, ⟨⟨⟨⟨⟨⟨⟨⟨⟨⟨?_, ?_⟩, ?_⟩, ?_⟩, ?_⟩, ?_⟩, ?_⟩, ?_⟩, ?_⟩, ?_⟩, ?_⟩⟩, ?_⟩ <;> assumption

theorem bcdVal_ne {b : Byte} {k : Nat} (h : bcdOk b = true) (hn : b ≠ toBcd k) : bcdVal b ≠ k :=
  fun he => hn (he ▸ (toBcd_bcdVal b h).symm)

theorem bcdVal_one : bcdVal 0x01#8 = 1 := rfl

theorem daysInMonth_pos (year month : Nat) : 1 ≤ daysInMonth year month := by
  unfold daysInMonth
  repeat' split
  all_goals omega

/-- The carry into the year keeps a record valid (R167): stated of the fields the carry leaves behind. -/
theorem TimeRec.nextDay_fields (t : TimeRec) (h : t.Fields) :
    ({ t with second := 0x00#8, minute := 0x00#8, hour := 0x00#8 } : TimeRec).nextDay.Fields := by
  obtain ⟨w1, w2, w3⟩ := weekday_next t.weekday h.weekdayOk h.weekdayHi
  have hd31 := daysInMonth_le (bcdVal t.year) (bcdVal t.month)
  have hdh := h.dayHi
  unfold TimeRec.nextDay
  dsimp only
  split
  · rename_i hday
    unfold TimeRec.nextMonth
    dsimp only
    split
    · rename_i hm
      have hm12 : bcdVal t.month = 12 := by rw [hm]; rfl
      unfold TimeRec.nextYear
      dsimp only
      split
      · exact ⟨(by dsimp only; decide), (by dsimp only; decide), (by dsimp only; decide), (by dsimp only; decide), (by dsimp only; decide), (by dsimp only; decide), (by dsimp only; decide), (by dsimp only; decide), (by dsimp only; decide), (by dsimp only; decide),
          (by dsimp only; decide), (by dsimp only; decide), (by dsimp only; decide), (by dsimp only; decide), (by dsimp only; decide), (by dsimp only; decide)⟩
      · rename_i hy
        have hy98 : bcdVal t.year ≤ 98 := by
          have := bcdVal_le _ h.yearOk
          have := bcdVal_ne (k := 99) h.yearOk hy
          omega
        refine ⟨bcdInc_ok _ h.yearOk hy98, (by dsimp only; decide), (by dsimp only; decide), w2, (by dsimp only; decide), (by dsimp only; decide), (by dsimp only; decide), (by dsimp only; decide), (by dsimp only; decide),
          (by dsimp only; decide), ?_, ?_, (by dsimp only; decide), (by dsimp only; decide), (by dsimp only; decide), ?_⟩
        · dsimp only
          rw [bcdVal_one]; exact daysInMonth_pos _ _
        · show bcdVal _ ≤ 6
          rw [w3]; omega
        · dsimp only
          rw [bcdVal_one, w3, bcdInc_val _ h.yearOk hy98, weekdayOf_next_year, h.weekdayIs, hday, hm12]
          rfl
    · rename_i hm
      have hm11 : bcdVal t.month ≤ 11 := by
        have := h.monthHi
        have := bcdVal_ne (k := 12) h.monthOk hm
        omega
      refine ⟨h.yearOk, bcdInc_ok _ h.monthOk (by omega), (by dsimp only; decide), w2, (by dsimp only; decide), (by dsimp only; decide), (by dsimp only; decide), ?_, ?_, (by dsimp only; decide), ?_, ?_,
        (by dsimp only; decide), (by dsimp only; decide), (by dsimp only; decide), ?_⟩
      · show 1 ≤ bcdVal (bcdInc t.month)
        rw [bcdInc_val _ h.monthOk (by omega)]; omega
      · show bcdVal (bcdInc t.month) ≤ 12
        rw [bcdInc_val _ h.monthOk (by omega)]; omega
      · dsimp only
        rw [bcdVal_one]; exact daysInMonth_pos _ _
      · show bcdVal _ ≤ 6
        rw [w3]; omega
      · dsimp only
        rw [bcdVal_one, w3, bcdInc_val _ h.monthOk (by omega), weekdayOf_next_month _ _ h.monthLo, h.weekdayIs, hday]
  · rename_i hday
    have hlt : bcdVal t.day + 1 ≤ daysInMonth (bcdVal t.year) (bcdVal t.month) := by omega
    refine ⟨h.yearOk, h.monthOk, bcdInc_ok _ h.dayOk (by omega), w2, (by dsimp only; decide), (by dsimp only; decide), (by dsimp only; decide), h.monthLo, h.monthHi, ?_, ?_,
      ?_, (by dsimp only; decide), (by dsimp only; decide), (by dsimp only; decide), ?_⟩
    · show 1 ≤ bcdVal (bcdInc t.day)
      rw [bcdInc_val _ h.dayOk (by omega)]; omega
    · show bcdVal (bcdInc t.day) ≤ _
      rw [bcdInc_val _ h.dayOk (by omega)]; exact hlt
    · show bcdVal _ ≤ 6
      rw [w3]; omega
    · show bcdVal _ = weekdayOf _ _ (bcdVal (bcdInc t.day))
      rw [w3, bcdInc_val _ h.dayOk (by omega), weekdayOf_next_day _ _ _ h.dayLo, h.weekdayIs]

/-- Counting keeps the record valid (R166, R167). -/
theorem TimeRec.nextSecond_valid (t : TimeRec) (h : t.valid = true) : t.nextSecond.valid = true := by
  rw [TimeRec.valid_iff] at h ⊢
  unfold TimeRec.nextSecond TimeRec.nextMinute TimeRec.nextHour
  dsimp only
  split
  · split
    · split
      · exact TimeRec.nextDay_fields t h
      · rename_i hh
        have hn : bcdVal t.hour + 1 ≤ 23 := by
          have := h.hourHi
          have := bcdVal_ne (k := 23) h.hourOk hh
          omega
        have hv := bcdInc_val _ h.hourOk (by omega)
        exact ⟨h.yearOk, h.monthOk, h.dayOk, h.weekdayOk, bcdInc_ok _ h.hourOk (by omega), (by dsimp only; decide), (by dsimp only; decide), h.monthLo,
          h.monthHi, h.dayLo, h.dayHi, h.weekdayHi, by dsimp only; omega, (by dsimp only; decide), (by dsimp only; decide), h.weekdayIs⟩
    · rename_i hm
      have hn : bcdVal t.minute + 1 ≤ 59 := by
        have := h.minuteHi
        have := bcdVal_ne (k := 59) h.minuteOk hm
        omega
      have hv := bcdInc_val _ h.minuteOk (by omega)
      exact ⟨h.yearOk, h.monthOk, h.dayOk, h.weekdayOk, h.hourOk, bcdInc_ok _ h.minuteOk (by omega), (by dsimp only; decide), h.monthLo,
        h.monthHi, h.dayLo, h.dayHi, h.weekdayHi, h.hourHi, by dsimp only; omega, (by dsimp only; decide), h.weekdayIs⟩
  · rename_i hs
    have hn : bcdVal t.second + 1 ≤ 59 := by
      have := h.secondHi
      have := bcdVal_ne (k := 59) h.secondOk hs
      omega
    have hv := bcdInc_val _ h.secondOk (by omega)
    exact ⟨h.yearOk, h.monthOk, h.dayOk, h.weekdayOk, h.hourOk, h.minuteOk, bcdInc_ok _ h.secondOk (by omega), h.monthLo,
      h.monthHi, h.dayLo, h.dayHi, h.weekdayHi, h.hourHi, h.minuteHi, by dsimp only; omega, h.weekdayIs⟩

end Sys2Proof.Machine
end

