-- ==== Sys2Proof/Laws/Steps.lean ====
section
/-! SUPPORT. What every step keeps (Keeps), for terminal requests, timers, the store and the tick, and for exec as a whole. -/

namespace Sys2Proof.Machine

/-- A change that leaves what each record's invariant reads, or says what becomes of it. -/
theorem Keeps.parts {s u v : State} (h : Keeps s u)
    (hv : u.ValvesSafe → v.ValvesSafe := by exact id)
    (hn : u.NotesReserved → v.NotesReserved := by exact id)
    (hr : u.RunTracksMode → v.RunTracksMode := by exact id)
    (hw : u.WordsInRange → v.WordsInRange := by exact id)
    (hl : u.DriversTrackLines → v.DriversTrackLines := by exact id)
    (hc : u.CountsBounded → v.CountsBounded := by exact id)
    (hp : u.PermitsOrdered → v.PermitsOrdered := by exact id)
    (ht : u.TimeValid → v.TimeValid := by exact id)
    (h1 : v.note.nextNote = u.note.nextNote := by rfl)
    (h2 : v.note.calCounter = u.note.calCounter := by rfl) : Keeps s v :=
  h.trans ⟨hv, hn, hr, hw, hl, hc, hp, ht, h1, h2⟩

/-! ### Terminal port -/

theorem clearCounters_keeps {s u : State} (h : Keeps s u) : Keeps s u.clearCounters :=
  h.parts (hc := fun ⟨_, _, _, _, _, _, _, _, _, x⟩ => ⟨Nat.zero_le _, Nat.zero_le _, Nat.zero_le _, Nat.zero_le _, Nat.zero_le _, Nat.zero_le _,
    Nat.zero_le _, Nat.zero_le _, Nat.zero_le _, x⟩)

theorem statusRead_keeps {s u : State} (h : Keeps s u) (p : List Byte) : Keeps s (u.statusRead p).1 := by
  unfold State.statusRead
  dsimp only
  repeat' split
  · exact h
  · exact clearCounters_keeps (u := { u with port.pendingSet := 0#16 }) h.parts
  · exact h.parts

theorem noticePoll_keeps {s u : State} (h : Keeps s u) (p : List Byte) : Keeps s (u.noticePoll p).1 := by
  unfold State.noticePoll
  split
  · exact h
  · refine h.parts (hc := fun ⟨a, b, c, d, e, f, g, i, j, k⟩ => ⟨a, b, c, d, e, f, g, i, j, ?_⟩)
    show (u.port.notices.drop 4).length ≤ 32
    rw [List.length_drop]; omega

theorem noticeMask_keeps {s u : State} (h : Keeps s u) (p : List Byte) : Keeps s (u.noticeMask p).1 := by
  unfold State.noticeMask
  split
  · exact h
  · exact h.parts

theorem setMode_keeps {s u : State} (h : Keeps s u) (m : BayMode) : Keeps s (u.setMode m) := h.kept (setMode_kept (.refl _) m)

theorem bayMode_keeps {s u : State} (h : Keeps s u) (p : List Byte) : Keeps s (u.bayMode p).1 := by
  unfold State.bayMode State.modeIn State.modeOut State.enterService
  repeat' split
  all_goals first | exact setMode_keeps h _ | exact h

theorem restartBlocks_keeps {s u : State} (h : Keeps s u) (hl : u.holdsLoad .a = false ∧ u.holdsLoad .b = false) :
    Keeps s u.restartBlocks := by
  refine h.parts (v := u.restartBlocks) (hv := fun _ => ?_) (hn := fun x => ?_) (hl := fun x => ?_) (hc := fun x => ?_)
  · intro n
    have : u.restartBlocks.arm n = (u.arm n).restart := by simp [State.restartBlocks, State.arm, BatchController.restart]
    rw [this]
    rfl
  · obtain ⟨a, b⟩ := x
    refine ⟨?_, fun l => ⟨fun y => ?_, fun y => ?_⟩⟩
    · show u.note.notes.length + 0 ≤ 16
      omega
    · have := (b l).1 y
      cases l <;> simp_all [State.holdsLoad]
    · cases l <;> cases y
  · exact ⟨x.1, ⟨fun y => (nomatch y), fun ⟨_, y, _⟩ => (nomatch y)⟩⟩
  · obtain ⟨a, b, c, d, e, f, g, i, j, k⟩ := x
    exact ⟨a, b, c, d, e, f, g, i, j, Nat.zero_le _⟩

theorem restartRequest_keeps {s u : State} (h : Keeps s u) (p : List Byte) : Keeps s (u.restartRequest p).1 := by
  unfold State.restartRequest
  repeat' split
  · exact h
  · exact h
  · rename_i hl
    apply restartBlocks_keeps (setMode_keeps h _)
    simpa [State.holdsLoad, State.setMode, State.lane] using hl

/-! ### Tables -/

theorem markWritten_keeps {s u : State} (h : Keeps s u) (i : DevIx) : Keeps s (u.markWritten i) := by
  refine h.scan (fun x => ?_) id
  simp only [State.BusLine, State.markWritten] at *
  rw [x]
  cases u.scan.transaction with
  | none => simp
  | some t => simp; split <;> simp

theorem announceRewrite_kept {s u : State} (h : Kept s u) (i : DevIx) (old new : Device) :
    Kept s (u.announceRewrite i old new) := by
  unfold State.announceRewrite
  dsimp only
  repeat' split
  · exact h
  · exact announce_kept h ..
  · exact handOn_kept (announce_kept h ..) ..

theorem injectorRewritten_kept {s u : State} (h : Kept s u) (i : DevIx) (kind : DeviceKind) :
    Kept s (u.injectorRewritten i kind) := by
  unfold State.injectorRewritten
  split
  · exact injectorUnknown_kept h i
  · exact h

theorem putDevice_keeps {s u : State} (h : Keeps s u) (i : DevIx) (d : Device) : Keeps s (u.putDevice i d) := by
  have k : Keeps s (((u.setDevice i (some d)).markWritten i).wakeBus) :=
    (markWritten_keeps (h.kept (setDevice_kept (.refl _) i (some d))) i).kept (wakeBus_kept (.refl _))
  unfold State.putDevice
  dsimp only
  split
  · exact k
  · exact k.kept (injectorRewritten_kept (announceRewrite_kept (.refl _) ..) ..)

theorem removeDevice_keeps {s u : State} (h : Keeps s u) (i : DevIx) : Keeps s (u.removeDevice i) := by
  have k : Keeps s (((u.setDevice i none).markWritten i).wakeBus) :=
    (markWritten_keeps (h.kept (setDevice_kept (.refl _) i none)) i).kept (wakeBus_kept (.refl _))
  unfold State.removeDevice
  dsimp only
  split
  · exact k
  · exact k.kept (announce_kept (.refl _) ..)

theorem writeDevice_keeps {s u : State} (h : Keeps s u) (i : DevIx) (new : Option Device) : Keeps s (u.writeDevice i new).1 := by
  unfold State.writeDevice
  repeat' split
  · exact h
  · exact h
  · exact removeDevice_keeps h i
  · exact h
  · exact putDevice_keeps h ..

theorem deviceWrite_keeps {s u : State} (h : Keeps s u) (p : List Byte) : Keeps s (u.deviceWrite p).1 := by
  unfold State.deviceWrite
  repeat' split
  all_goals first | exact writeDevice_keeps h .. | exact h

theorem scanListWrite_keeps {s u : State} (h : Keeps s u) (p : List Byte) : Keeps s (u.scanListWrite p).1 := by
  unfold State.scanListWrite
  dsimp only
  repeat' split
  · exact h
  · exact h
  · exact Keeps.kept (u := { u with scan.list := (p.drop 1).filterMap devIxOf, scan.pointer := 0, scan.wrap := true })
      (h.within _ rfl rfl) (wakeBus_kept (.refl _))

theorem passFilterWrite_keeps {s u : State} (h : Keeps s u) (p : List Byte) : Keeps s (u.passFilterWrite p).1 := by
  unfold State.passFilterWrite
  repeat' split
  · exact h
  · exact h
  · exact h.within _ rfl rfl

theorem calibrate_words (b : NoteBuilder) : b.calibrate.nextNote = b.nextNote ∧ b.calibrate.calCounter = b.calCounter ∧
    b.calibrate.calDue = min 999999 (b.calDue + 1) ∧ b.calibrate.notes = b.notes ∧ b.calibrate.closing = b.closing ∧
    ∀ l n, b.calibrate.writing = some ⟨.note l, n⟩ → b.writing = some ⟨.note l, n⟩ := by
  unfold NoteBuilder.calibrate
  dsimp only
  split
  · exact ⟨rfl, rfl, rfl, rfl, rfl, fun _ _ h => h⟩
  · unfold NoteBuilder.request NoteBuilder.start
    split
    · exact ⟨rfl, rfl, rfl, rfl, rfl, fun _ _ h => by simp at h⟩
    · exact ⟨rfl, rfl, rfl, rfl, rfl, fun _ _ h => h⟩

theorem calibrate_keeps {s u : State} (h : Keeps s u) (subject : Subject) (table : Byte) :
    Keeps s (u.calibrate subject table) := by
  obtain ⟨e1, e2, e3, e4, e5, e6⟩ := calibrate_words u.note
  refine Keeps.kept (u := { u with note := u.note.calibrate }) ?_ (raiseNotice_kept (.refl _) ..)
  refine h.parts (hn := fun x => ?_) (hw := fun x => ?_) (h1 := e1) (h2 := e2)
  · obtain ⟨a, b⟩ := x
    refine ⟨?_, fun l => ?_⟩
    · show u.note.calibrate.notes.length + _ ≤ 16
      rw [e4]; exact a
    · show ((u.note.calibrate.closing.get l).isSome → _) ∧ _
      rw [e5]; exact b l
  · obtain ⟨a, b, c, d⟩ := x
    refine ⟨?_, ?_, ?_, fun l n hw => d l n (e6 l n hw)⟩
    · show 1 ≤ u.note.calibrate.nextNote ∧ u.note.calibrate.nextNote ≤ 99999999
      rw [e1]; exact a
    · show u.note.calibrate.calCounter ≤ 999999
      rw [e2]; exact b
    · show u.note.calibrate.calDue ≤ 999999
      rw [e3]; omega

theorem commit_keeps {s u after : State} (h : Keeps s u) (k : Keeps s after) (used metro : Bool) (subject : Subject)
    (table : Byte) : Keeps s (u.commit after used metro subject table).1 := by
  unfold State.commit
  repeat' split
  · exact h
  · exact h
  · exact calibrate_keeps k ..
  · exact h
  · exact k

theorem settingsWrite_keeps {s u : State} (h : Keeps s u) (p : List Byte) : Keeps s (u.settingsWrite p).1 := by
  unfold State.settingsWrite
  dsimp only
  repeat' split
  · exact h
  · exact h
  · exact commit_keeps h h.parts ..

theorem productWrite_keeps {s u : State} (h : Keeps s u) (p : List Byte) : Keeps s (u.productWrite p).1 := by
  unfold State.productWrite State.emptyProduct State.putProduct
  repeat' split
  all_goals first | exact commit_keeps h h.parts .. | exact h

theorem setArmEntry_kept {s u : State} (h : Keeps s u) (n : Arm) (e : Option ArmEntry) : Keeps s (u.setArmEntry n e) := h.parts

theorem putArm_keeps {s u : State} (h : Keeps s u) (n : Arm) (e : ArmEntry) : Keeps s (u.putArm n e) := by
  unfold State.putArm
  refine (setArmEntry_kept h n (some e)).kept ?_
  apply wakeBus_kept
  apply setMetering_kept
  exact setArm_same_kept (.refl _) n _ rfl rfl

theorem clearArm_keeps {s u : State} (h : Keeps s u) (n : Arm) : Keeps s (u.clearArm n) := by
  unfold State.clearArm
  refine (setArmEntry_kept h n none).kept ?_
  apply wakeBus_kept
  apply setMetering_kept
  exact setArm_same_kept (.refl _) n _ rfl rfl

theorem writeArm_keeps {s u : State} (h : Keeps s u) (ix : Byte) (reach : Reach) (e : List Byte) :
    Keeps s (u.writeArm ix reach e).1 := by
  unfold State.writeArm
  split
  · exact commit_keeps h (putArm_keeps h ..) ..
  · exact h

theorem emptyArm_keeps {s u : State} (h : Keeps s u) (ix : Byte) : Keeps s (u.emptyArm ix).1 := by
  unfold State.emptyArm
  split
  · exact h
  · exact commit_keeps h (clearArm_keeps h _) ..

theorem armWrite_keeps {s u : State} (h : Keeps s u) (p : List Byte) : Keeps s (u.armWrite p).1 := by
  unfold State.armWrite
  repeat' split
  · exact h
  · exact emptyArm_keeps h _
  · exact h
  · exact h
  · exact writeArm_keeps h ..
  · exact h

theorem putInjector_kept {s u : State} (h : Kept s u) (i : DevIx) (e : InjectorEntry) : Kept s (u.putInjector i e) := by
  unfold State.putInjector
  split <;> exact setSlot_kept h ..

theorem writeInjector_keeps {s u : State} (h : Keeps s u) (ix : Byte) (mode : InjMode) (e : List Byte) :
    Keeps s (u.writeInjector ix mode e).1 := by
  unfold State.writeInjector
  repeat' split
  · exact h
  · exact commit_keeps h (h.kept (putInjector_kept (.refl _) ..)) ..
  · exact h

theorem emptyInjector_keeps {s u : State} (h : Keeps s u) (ix : Byte) : Keeps s (u.emptyInjector ix).1 := by
  unfold State.emptyInjector
  split
  · exact h
  · exact commit_keeps h (h.kept (setSlot_kept (.refl _) ..)) ..

theorem injectorWrite_keeps {s u : State} (h : Keeps s u) (p : List Byte) : Keeps s (u.injectorWrite p).1 := by
  unfold State.injectorWrite
  repeat' split
  · exact h
  · exact emptyInjector_keeps h _
  · exact h
  · exact h
  · exact writeInjector_keeps h ..
  · exact h

theorem tableWrite_keeps {s u : State} (h : Keeps s u) (p : List Byte) : Keeps s (u.tableWrite p).1 := by
  unfold State.tableWrite
  repeat' split
  · exact h
  · exact deviceWrite_keeps h _
  · exact scanListWrite_keeps h _
  · exact passFilterWrite_keeps h _
  · exact settingsWrite_keeps h _
  · exact productWrite_keeps h _
  · exact armWrite_keeps h _
  · exact injectorWrite_keeps h _
  · exact h

/-! ### Reads -/

theorem reads_same (u : State) (p : List Byte) :
    (u.deviceRead p).1 = u ∧ (u.scanListRead p).1 = u ∧ (u.passFilterRead p).1 = u ∧ (u.settingsRead p).1 = u ∧
      (u.productRead p).1 = u ∧ (u.armRead p).1 = u ∧ (u.injectorRead p).1 = u ∧ (u.consistencyRead p).1 = u := by
  refine ⟨?_, ?_, ?_, ?_, ?_, ?_, ?_, ?_⟩
  · unfold State.deviceRead; repeat' split
    all_goals rfl
  · unfold State.scanListRead; split <;> rfl
  · unfold State.passFilterRead; repeat' split
    all_goals rfl
  · unfold State.settingsRead; repeat' split
    all_goals rfl
  · unfold State.productRead; repeat' split
    all_goals rfl
  · unfold State.armRead; repeat' split
    all_goals rfl
  · unfold State.injectorRead; repeat' split
    all_goals rfl
  · unfold State.consistencyRead; repeat' split
    all_goals rfl

theorem tableRead_same (u : State) (p : List Byte) : (u.tableRead p).1 = u := by
  unfold State.tableRead
  split
  · rfl
  · rename_i rest
    obtain ⟨a, b, c, d, e, f, g, i⟩ := reads_same u rest
    repeat' split
    all_goals first | rfl | assumption

theorem noteTake_same (u : State) (p : List Byte) : (u.noteTake p).1 = u := by
  unfold State.noteTake
  dsimp only
  repeat' split
  all_goals rfl

theorem timeRead_same (u : State) (p : List Byte) : (u.timeRead p).1 = u := by
  unfold State.timeRead
  split <;> rfl

/-! ### Permits, notes, time -/

theorem insertPermit_length (n : Permit) (l : List Permit) : (insertPermit n l).length = l.length + 1 := by
  induction l with
  | nil => rfl
  | cons a l ih =>
    unfold insertPermit
    split
    · rfl
    · simp [ih]

theorem insertPermit_ordered (n : Permit) (l : List Permit) (h : l.Pairwise fun p q => p.card < q.card)
    (hn : ∀ q ∈ l, q.card ≠ n.card) : (insertPermit n l).Pairwise fun p q => p.card < q.card := by
  rw [insertPermit_eq n l h hn, List.pairwise_append, List.pairwise_cons]
  refine ⟨h.filter _, ⟨fun q hq => ?_, h.filter _⟩, fun p hp q hq => ?_⟩
  · simpa using (List.mem_filter.mp hq).2
  · have hp := (List.mem_filter.mp hp).2
    simp only [decide_eq_true_eq] at hp
    rcases List.mem_cons.mp hq with e | e
    · subst e; exact hp
    · have := (List.mem_filter.mp e).2
      simp only [decide_eq_true_eq] at this
      omega

theorem permitWrite_keeps {s u : State} (h : Keeps s u) (p : List Byte) : Keeps s (u.permitWrite p).1 := by
  unfold State.permitWrite
  repeat' split
  · exact h
  · exact h
  · rename_i n _ _ hk
    refine h.parts (hp := fun x => ?_)
    rw [permitsOrdered_iff] at *
    have : (u.modPermit n.card fun old => old.replaceBy n (flag (byteAt p 20) 0)).permits.map (fun p => p.card) =
        u.permits.map fun p => p.card := by
      simp only [State.modPermit, List.map_map]
      apply List.map_congr_left
      intro q _
      simp only [Function.comp_apply]
      split
      · rename_i e; rw [e]; unfold Permit.replaceBy; split <;> rfl
      · rfl
    simp only [State.accept]
    rw [this]
    exact x
  · rename_i n _ _ hk hlt
    refine h.parts (hp := fun x => ⟨insertPermit_ordered n _ x.1 ?_, ?_⟩)
    · intro q hq e
      exact hk (by simp only [State.permit, List.find?_isSome]; exact ⟨q, hq, by simpa using e⟩)
    · show (insertPermit n u.permits).length ≤ 256
      rw [insertPermit_length]; omega
  · exact h

theorem permitDelete_keeps {s u : State} (h : Keeps s u) (p : List Byte) : Keeps s (u.permitDelete p).1 := by
  unfold State.permitDelete
  dsimp only
  repeat' split
  · exact h
  · exact h
  · exact h
  · exact h
  · exact h.parts (hp := fun x => ⟨x.1.filter _, Nat.le_trans (List.length_filter_le ..) x.2⟩)

theorem permitReadAt_kept {s u : State} (h : Kept s u) (pos : Nat) : Kept s (u.permitReadAt pos).1 := by
  unfold State.permitReadAt
  split
  · exact h
  · exact rollPermit_kept h ..

theorem permitReadByCard_kept {s u : State} (h : Kept s u) (p : List Byte) : Kept s (u.permitReadByCard p).1 := by
  unfold State.permitReadByCard
  repeat' split
  · exact h
  · exact h
  · exact permitReadAt_kept h _

theorem permitReadByPosition_kept {s u : State} (h : Kept s u) (p : List Byte) : Kept s (u.permitReadByPosition p).1 := by
  unfold State.permitReadByPosition
  split
  · exact h
  · exact permitReadAt_kept h _

theorem permitRead_kept {s u : State} (h : Kept s u) (p : List Byte) : Kept s (u.permitRead p).1 := by
  unfold State.permitRead
  repeat' split
  · exact h
  · exact permitReadByCard_kept h _
  · exact permitReadByPosition_kept h _
  · exact h

theorem noteRelease_keeps {s u : State} (h : Keeps s u) (p : List Byte) : Keeps s (u.noteRelease p).1 := by
  unfold State.noteRelease
  repeat' split
  · exact h
  · exact h
  · exact h
  · rename_i n rest hn _
    refine h.parts (hn := fun x => ⟨?_, x.2⟩)
    have := x.1
    rw [hn] at this
    show rest.length + _ ≤ 16
    simp only [List.length_cons] at this
    exact Nat.le_trans (Nat.add_le_add_right (Nat.le_succ _) _) this
  · exact h

theorem loadTime_keeps {s u : State} (h : Keeps s u) (t : TimeRec) (code : Byte) (ht : t.valid = true) :
    Keeps s (u.loadTime t code) := by
  refine Keeps.kept (u := { u with time := ⟨t, 0, true⟩ }) ?_ (raiseNotice_kept (.refl _) ..)
  exact h.parts (ht := fun _ => ht)

theorem timeFailure_none {p : List Byte} (h : timeFailure p = none) : (parseTime p).valid = true := by
  unfold timeFailure at h
  repeat' split at h
  · cases h
  · assumption
  · cases h

theorem timeSet_keeps {s u : State} (h : Keeps s u) (p : List Byte) : Keeps s (u.timeSet p).1 := by
  unfold State.timeSet
  split
  · exact h
  · rename_i e; exact loadTime_keeps h _ _ (timeFailure_none e)

theorem timeBroadcast_keeps {s u : State} (h : Keeps s u) (p : List Byte) : Keeps s (u.timeBroadcast p) := by
  unfold State.timeBroadcast
  split
  · rename_i e; exact loadTime_keeps h _ _ (timeFailure_none e)
  · exact h

theorem passthroughRequest_keeps {s u : State} (h : Keeps s u) (p : List Byte) : Keeps s (u.passthroughRequest p).1 := by
  unfold State.passthroughRequest
  repeat' split
  · exact h
  · exact h
  · exact h
  · exact h
  · exact h
  · exact h
  · rename_i i _ _ _ _ _ _ _
    exact (h.within { u.scan with slot := some ⟨i, byteAt p 1, p.drop 2⟩ } rfl rfl).trans (wakeBus_kept (.refl _)).keeps

/-! ### Messages -/

theorem Keeps.ite {s : State} {c : Prop} [Decidable c] {a b : State × TermReply} (ha : Keeps s a.1) (hb : Keeps s b.1) :
    Keeps s (if c then a else b).1 := by
  split
  · exact ha
  · exact hb

/-- Any owner's answer. -/
theorem dispatch_keeps {s u : State} (h : Keeps s u) (kind : Byte) (p : List Byte) : Keeps s (u.dispatch kind p).1 := by
  unfold State.dispatch
  refine Keeps.ite (statusRead_keeps h p) ?_
  refine Keeps.ite (noticePoll_keeps h p) ?_
  refine Keeps.ite (noticeMask_keeps h p) ?_
  refine Keeps.ite (tableWrite_keeps h p) ?_
  refine Keeps.ite (by rw [tableRead_same]; exact h) ?_
  refine Keeps.ite (permitWrite_keeps h p) ?_
  refine Keeps.ite (permitDelete_keeps h p) ?_
  refine Keeps.ite (h.kept (permitRead_kept (.refl _) p)) ?_
  refine Keeps.ite (h.kept (orderPlace_kept (.refl _) p)) ?_
  refine Keeps.ite (h.kept (orderCancel_kept (.refl _) p)) ?_
  refine Keeps.ite (h.kept (loadClose_kept (.refl _) p)) ?_
  refine Keeps.ite (h.kept (batchAbort_kept (.refl _) p)) ?_
  refine Keeps.ite (h.kept (overrideRequest_kept (.refl _) p)) ?_
  refine Keeps.ite (by rw [noteTake_same]; exact h) ?_
  refine Keeps.ite (noteRelease_keeps h p) ?_
  refine Keeps.ite (timeSet_keeps h p) ?_
  refine Keeps.ite (by rw [timeRead_same]; exact h) ?_
  refine Keeps.ite (bayMode_keeps h p) ?_
  refine Keeps.ite (restartRequest_keeps h p) ?_
  refine Keeps.ite (passthroughRequest_keeps h p) ?_
  exact h

theorem countTermCheck_keeps {s u : State} (h : Keeps s u) : Keeps s u.countTermCheck :=
  h.parts (hc := fun ⟨a, b, c, d, _, f, g, i, j, k⟩ => ⟨a, b, c, d, satInc_le, f, g, i, j, k⟩)

theorem reply_keeps {s u : State} (h : Keeps s u) (r : TermReply) : Keeps s (u.reply r) :=
  h.parts (hl := fun x => ⟨⟨fun _ => rfl, fun _ => rfl⟩, x.2⟩)

theorem answered_keeps {s u : State} (owner : State → State × TermReply) (h : Keeps s (owner u).1) :
    Keeps s (u.answered owner) := settle_keeps (reply_keeps h _)

theorem request_keeps {s u : State} (h : Keeps s u) (n : Nat) (owner : State → State × TermReply)
    (k : Keeps s (owner u).1) : Keeps s (u.request n owner) := by
  unfold State.request
  repeat' split
  · exact countTermCheck_keeps h
  · exact h
  · exact h
  · exact answered_keeps owner k

theorem anyRequest_keeps {s u : State} (h : Keeps s u) (kind : Byte) (p : List Byte) : Keeps s (u.anyRequest kind p) := by
  unfold State.anyRequest
  repeat' split
  · exact countTermCheck_keeps h
  · exact h
  · exact request_keeps h _ _ (dispatch_keeps h kind p)

theorem broadcastSet_keeps {s u : State} (h : Keeps s u) (p : List Byte) : Keeps s (u.broadcastSet p) := by
  unfold State.broadcastSet
  repeat' split
  · exact countTermCheck_keeps h
  · exact h
  · exact timeBroadcast_keeps h p

theorem termCounters_bounded (k : TermCounters) (e : CharError)
    (h : k.parity ≤ 65535 ∧ k.framing ≤ 65535 ∧ k.brk ≤ 65535 ∧ k.overrun ≤ 65535 ∧ k.check ≤ 65535) :
    (k.countError e).parity ≤ 65535 ∧ (k.countError e).framing ≤ 65535 ∧ (k.countError e).brk ≤ 65535 ∧
      (k.countError e).overrun ≤ 65535 ∧ (k.countError e).check ≤ 65535 := by
  obtain ⟨a, b, c, d, f⟩ := h
  cases e <;> simp only [TermCounters.countError]
  · exact ⟨a, b, c, d, f⟩
  · exact ⟨satInc_le, b, c, d, f⟩
  · exact ⟨a, satInc_le, c, d, f⟩
  · exact ⟨a, b, satInc_le, d, f⟩

theorem noteTermError_keeps {s u : State} (h : Keeps s u) (e : CharError) : Keeps s (u.noteTermError e) := by
  refine h.parts (hc := fun ⟨a, b, c, d, x, f, g, i, j, k⟩ => ?_)
  obtain ⟨a, b, c, d, x⟩ := termCounters_bounded u.port.counters e ⟨a, b, c, d, x⟩
  exact ⟨a, b, c, d, x, f, g, i, j, k⟩

theorem takeTermChar_keeps {s u : State} (h : Keeps s u) (c : TermChar) : Keeps s (u.takeTermChar c) := by
  unfold State.takeTermChar
  dsimp only
  split
  · exact h.parts
  · exact (noteTermError_keeps h _).parts

theorem takeTermHeld_keeps {s u : State} (h : Keeps s u) : Keeps s u.takeTermHeld := by
  unfold State.takeTermHeld
  split
  · exact h
  · exact takeTermChar_keeps (u := { u with port.rx.held := none }) h.parts _

theorem termOverrun_keeps {s u : State} (h : Keeps s u) : Keeps s u.termOverrun :=
  h.parts (hc := fun ⟨a, b, c, _, e, f, g, i, j, k⟩ => ⟨a, b, c, satInc_le, e, f, g, i, j, k⟩)

theorem termChar_keeps {s u : State} (h : Keeps s u) (c : TermChar) : Keeps s (u.termChar c) := by
  unfold State.termChar
  repeat' split
  · exact h
  · exact termOverrun_keeps h
  · exact h.parts
  · exact takeTermChar_keeps (takeTermHeld_keeps h) c

theorem messageEnd_keeps {s u : State} (h : Keeps s u) : Keeps s u.messageEnd := by
  have k : Keeps s u.freeRx := h.parts
  unfold State.messageEnd State.addressed
  dsimp only
  repeat' split
  all_goals first
    | exact k
    | exact countTermCheck_keeps k
    | exact broadcastSet_keeps k _
    | exact anyRequest_keeps k ..

theorem message_keeps {s u : State} (h : Keeps s u) (chars : List TermChar) : Keeps s (u.message chars) := by
  have key : ∀ (l : List TermChar) (v : State), Keeps s v → Keeps s (l.foldl State.termChar v) := by
    intro l
    induction l with
    | nil => intro v x; exact x
    | cons c l ih => intro v x; exact ih _ (termChar_keeps x c)
  exact messageEnd_keeps (takeTermHeld_keeps (key chars u h))

theorem replySent_keeps {s u : State} (h : Keeps s u) : Keeps s u.replySent :=
  h.parts (hl := fun x => ⟨⟨fun y => (nomatch y), fun y => (nomatch y)⟩, x.2⟩)

/-! ### The tick -/

theorem tick_keeps {s u : State} (h : Keeps s u) : Keeps s u.tick :=
  h.parts (ht := fun x => TimeRec.nextSecond_valid _ x)

/-! ### The store -/

theorem startNext_same (b : NoteBuilder) : b.startNext.notes = b.notes ∧ b.startNext.closing = b.closing ∧
    b.startNext.nextNote = b.nextNote ∧ b.startNext.calCounter = b.calCounter ∧ b.startNext.calDue = b.calDue ∧
    ∀ l n, b.startNext.writing = some ⟨.note l, n⟩ → b.writing = some ⟨.note l, n⟩ ∨ n = b.nextNote := by
  unfold NoteBuilder.startNext NoteBuilder.start
  split
  · refine ⟨rfl, rfl, rfl, rfl, rfl, fun l n h => ?_⟩
    rename_i r _ _ _
    cases r with
    | note k => simp at h; exact .inr h.2.symm
    | calibration k => simp at h
  · exact ⟨rfl, rfl, rfl, rfl, rfl, fun l n h => .inl h⟩

theorem startNextWrite_keeps {s u : State} (h : Keeps s u) : Keeps s u.startNextWrite := by
  obtain ⟨e1, e2, e3, e4, e5, e6⟩ := startNext_same u.note
  refine h.parts (v := u.startNextWrite) (hn := fun x => ?_) (hw := fun x => ?_) (h1 := e3) (h2 := e4)
  · refine ⟨?_, fun l => ?_⟩
    · show u.note.startNext.notes.length + _ ≤ 16
      rw [e1]; exact x.1
    · show ((u.note.startNext.closing.get l).isSome → _) ∧ _
      rw [e2]; exact x.2 l
  · obtain ⟨a, b, c, d⟩ := x
    refine ⟨?_, ?_, ?_, fun l n hw => ?_⟩
    · show 1 ≤ u.note.startNext.nextNote ∧ u.note.startNext.nextNote ≤ 99999999
      rw [e3]; exact a
    · show u.note.startNext.calCounter ≤ 999999
      rw [e4]; exact b
    · show u.note.startNext.calDue ≤ 999999
      rw [e5]; exact c
    · rcases e6 l n hw with hw | hw
      · exact d l n hw
      · rw [hw]; exact a

/-- The note of a CLOSING lane joins the queue and the lane returns to NONE. -/
theorem noteQueued_keeps {s u : State} (h : Keeps s u) (l : Lane) (number : Nat) : Keeps s (u.noteQueued l number) := by
  unfold State.noteQueued
  split
  · exact h
  · rename_i body hb
    unfold State.loadClosed
    dsimp only
    refine Keeps.kept (u := State.setLane { u with
        note.notes := u.note.notes ++ [⟨number, body⟩], note.closing := u.note.closing.set l none } l
        { State.lane { u with note.notes := u.note.notes ++ [⟨number, body⟩], note.closing := u.note.closing.set l none } l with
          state := .none, load := none, endReason := none }) ?_
      (laneReturned_kept (post_kept (raiseNoticeAt_kept (.refl _) ..) ..))
    refine h.parts (hn := fun x => ?_)
    obtain ⟨a, b⟩ := x
    have hc := (b l).1 (by rw [hb]; rfl)
    have ba := b .a
    have bb := b .b
    refine ⟨?_, fun m => ⟨?_, ?_⟩⟩
    · show (u.note.notes ++ [_]).length + State.loadsHeld _ ≤ 16
      rw [List.length_append]
      rw [loadsHeld_eq] at a ⊢
      cases l <;> simp_all [State.loadCount, State.holdsLoad, State.lane, State.setLane, Lanes.get, Lanes.set] <;> omega
    · cases l <;> cases m <;> simp_all [State.setLane, Lanes.set, State.lane, Lanes.get]
    · cases l <;> cases m <;> simp_all [State.setLane, Lanes.set, State.lane, Lanes.get]

end Sys2Proof.Machine
end

