-- ==== Sys2Proof/Laws/Exec.lean ====
section
/-! SUPPORT. What exec keeps for each command (Keeps), and what the end of an event leaves for the bus (Settled). -/

namespace Sys2Proof.Machine

/-- Nothing has changed. -/
theorem Keeps.same {s v : State} (h : v = s) : Keeps s v := h ▸ Keeps.refl v

theorem withCal_keeps (s : State) (cal : Bool) : Keeps s (s.withCal cal) := (Keeps.refl s).parts

/-- Every command but a hard reset and the store's completions. -/
theorem exec_keeps (c : Instr) (s t : State) (h : exec c s = .next t) (h1 : ∀ a x y, c ≠ .hardReset a x y)
    (h2 : c ≠ .noteNumberWriteDone) (h3 : c ≠ .calibrationWriteDone) : Keeps s t := by
  have r := Keeps.refl s
  have k := Kept.refl s
  cases c <;> cases h
  case hardReset a x y => exact absurd rfl (h1 a x y)
  case noteNumberWriteDone => exact absurd rfl h2
  case calibrationWriteDone => exact absurd rfl h3
  case messageDiscarded p => exact message_keeps r p
  case unknownKind kd p => exact anyRequest_keeps r kd p
  case replySent => exact replySent_keeps r
  case statusRead cal p => exact request_keeps (withCal_keeps s cal) _ _ (statusRead_keeps (withCal_keeps s cal) p)
  case noticePoll p => exact request_keeps r _ _ (noticePoll_keeps r p)
  case noticeMask p => exact request_keeps r _ _ (noticeMask_keeps r p)
  case tableWriteDevice p => exact request_keeps r _ _ (deviceWrite_keeps r p)
  case deviceEntryEmpty i p => exact request_keeps r _ _ (deviceWrite_keeps r _)
  case tableWriteScanList p => exact request_keeps r _ _ (scanListWrite_keeps r p)
  case tableWritePassFilter p => exact request_keeps r _ _ (passFilterWrite_keeps r p)
  case tableWriteBaySettings cal p => exact request_keeps (withCal_keeps s cal) _ _ (settingsWrite_keeps (withCal_keeps s cal) p)
  case tableWriteProduct cal p => exact request_keeps (withCal_keeps s cal) _ _ (productWrite_keeps (withCal_keeps s cal) p)
  case productEmpty i p => exact request_keeps r _ _ (productWrite_keeps r _)
  case tableWriteArm cal p => exact request_keeps (withCal_keeps s cal) _ _ (armWrite_keeps (withCal_keeps s cal) p)
  case armEmpty i p => exact request_keeps r _ _ (armWrite_keeps r _)
  case tableWriteInjector p => exact request_keeps r _ _ (injectorWrite_keeps r p)
  case injectorEmpty i p => exact request_keeps r _ _ (injectorWrite_keeps r _)
  case tableReadDevice p => exact request_keeps r _ _ (.same (reads_same s p).1)
  case tableReadScanList p => exact request_keeps r _ _ (.same (reads_same s p).2.1)
  case tableReadPassFilter p => exact request_keeps r _ _ (.same (reads_same s p).2.2.1)
  case tableReadBaySettings p => exact request_keeps r _ _ (.same (reads_same s p).2.2.2.1)
  case tableReadProduct p => exact request_keeps r _ _ (.same (reads_same s p).2.2.2.2.1)
  case tableReadArm p => exact request_keeps r _ _ (.same (reads_same s p).2.2.2.2.2.1)
  case tableReadInjector p => exact request_keeps r _ _ (.same (reads_same s p).2.2.2.2.2.2.1)
  case consistencyReport p => exact request_keeps r _ _ (.same (reads_same s p).2.2.2.2.2.2.2)
  case permitWrite p => exact request_keeps r _ _ (permitWrite_keeps r p)
  case permitDelete p => exact request_keeps r _ _ (permitDelete_keeps r p)
  case permitReadByCard p => exact request_keeps r _ _ (permitReadByCard_kept k p).keeps
  case permitReadByPosition p => exact request_keeps r _ _ (permitReadByPosition_kept k p).keeps
  case orderPlace p => exact request_keeps r _ _ (orderPlace_kept k p).keeps
  case orderCancel p => exact request_keeps r _ _ (orderCancel_kept k p).keeps
  case loadClose p => exact request_keeps r _ _ (loadClose_kept k p).keeps
  case batchAbort p => exact request_keeps r _ _ (batchAbort_kept k p).keeps
  case override p => exact request_keeps r _ _ (overrideRequest_kept k p).keeps
  case noteTake p => exact request_keeps r _ _ (.same (noteTake_same s p))
  case noteRelease p => exact request_keeps r _ _ (noteRelease_keeps r p)
  case timeSet p => exact request_keeps r _ _ (timeSet_keeps r p)
  case timeSetBroadcast p => exact broadcastSet_keeps r p
  case timeRead p => exact request_keeps r _ _ (.same (timeRead_same s p))
  case bayModeInService p => exact request_keeps r _ _ (bayMode_keeps r _)
  case bayModeOutOfService p => exact request_keeps r _ _ (bayMode_keeps r _)
  case restart p => exact request_keeps r _ _ (restartRequest_keeps r p)
  case passthrough p => exact request_keeps r _ _ (passthroughRequest_keeps r p)
  case telegramSent => exact telegramSent_keeps r
  case responseTimeout => exact settle_keeps (responseExpires_keeps r)
  case restartQuietEnd => exact settle_keeps (quietEnds_keeps r)
  case unacceptedReply q => exact settle_keeps (deliverReply_keeps r q)
  case meterSample => exact settle_keeps (deliverReply_keeps r _)
  case valveState => exact settle_keeps (deliverReply_keeps r _)
  case shotReport => exact settle_keeps (deliverReply_keeps r _)
  case injectorState => exact settle_keeps (deliverReply_keeps r _)
  case permissiveState => exact settle_keeps (deliverReply_keeps r _)
  case diagnosticReply => exact settle_keeps (deliverReply_keeps r _)
  case stationEventList => exact settle_keeps (deliverReply_keeps r _)
  case pendingStartLapse n l => exact settle_keeps (pendingLapse_kept k n l).keeps
  case noFlowTimeout n => exact settle_keeps (noFlowExpires_kept k n).keeps
  case stopTimeout n => exact settle_keeps (stopExpires_kept k n).keeps
  case travelTimerExpiry n => exact (travelExpires_kept k n).keeps
  case shotTimeout i => exact settle_keeps (shotExpires_kept k i).keeps
  case candidateExpiry l => exact (candidateExpires_kept k l).keeps
  case overrideDeadline l => exact settle_keeps (overrideExpires_kept k l).keeps
  case secondTick => exact tick_keeps r
  case busCharacter c => exact settle_keeps (busChar_keeps r c)

/-- The queue's rest as a state changes nothing that Keeps reads. -/
theorem pending_keeps (s : State) (q : List Instr) : Keeps s { s with pending := q } := (Keeps.refl s).parts

/-! ### The store's completions -/

/-- A note-number write stores its word and the rest of the event follows. -/
theorem noteWriteDone_stores (s : State) (l : Lane) (n : Nat) (hw : s.note.writing = some ⟨.note l, n⟩) :
    Keeps { s with note := s.note.storeWord ⟨.note l, n⟩ } s.noteWriteDone.settle := by
  unfold State.noteWriteDone
  rw [hw]
  exact settle_keeps (startNextWrite_keeps (noteQueued_keeps (.refl _) l n))

/-- A calibration write stores its word and the next write starts. -/
theorem calibrationWriteDone_stores (s : State) (j n : Nat) (hw : s.note.writing = some ⟨.calibration j, n⟩) :
    Keeps { s with note := s.note.storeWord ⟨.calibration j, n⟩ } s.calibrationWriteDone := by
  unfold State.calibrationWriteDone
  rw [hw]
  exact startNextWrite_keeps (.refl _)

theorem nextNumber_range (n : Nat) (h : 1 ≤ n ∧ n ≤ 99999999) : 1 ≤ nextNumber n ∧ nextNumber n ≤ 99999999 := by
  unfold nextNumber
  split <;> omega

/-- The word stored in place of the old one keeps what else is asked. -/
theorem storeWord_keeps (s : State) (w : WriteOp) (hw : s.note.writing = some w) :
    let v : State := { s with note := s.note.storeWord w }
    (s.ValvesSafe → v.ValvesSafe) ∧ (s.NotesReserved → v.NotesReserved) ∧ (s.RunTracksMode → v.RunTracksMode) ∧
      (s.WordsInRange → v.WordsInRange) ∧ (s.DriversTrackLines → v.DriversTrackLines) ∧ (s.CountsBounded → v.CountsBounded) ∧
      (s.PermitsOrdered → v.PermitsOrdered) ∧ (s.TimeValid → v.TimeValid) := by
  obtain ⟨r, n⟩ := w
  cases r with
  | note l =>
    refine ⟨id, id, id, fun ⟨a, b, c, d⟩ => ⟨nextNumber_range n (d l n hw), b, c, fun _ _ x => (nomatch x)⟩, id, id, id, id⟩
  | calibration j =>
    refine ⟨id, id, id, fun ⟨a, b, c, d⟩ => ⟨a, ?_, c, fun _ _ x => (nomatch x)⟩, id, id, id, id⟩
    show min 999999 (n + j) ≤ 999999
    omega

/-! ### Work for the bus -/

theorem beginTransaction_settled {s : State} (h : s.Settled) (i : DevIx) (t : Telegram) (step : PickStep) :
    (s.beginTransaction i t step).Settled := by
  unfold State.beginTransaction
  split <;> exact h

theorem advance_wake (c : Scanner) : c.advance.wake = c.wake := by unfold Scanner.advance; split <;> rfl

theorem stepOver_wake (k : Nat) : ∀ c : Scanner, (Scanner.stepOver k c).wake = c.wake := by
  induction k with
  | zero => intro c; rfl
  | succ k ih =>
    intro c
    unfold Scanner.stepOver
    split
    · rfl
    · exact (ih _).trans (advance_wake c)

theorem reach_wake (c : Scanner) : c.reach.wake = c.wake := by
  unfold Scanner.reach
  split
  · rfl
  · exact stepOver_wake _ c

theorem reach_settled {s : State} (h : s.Settled) : State.Settled { s with scan := s.scan.reach } := (reach_wake _).trans h

theorem serveEntry_settled {s : State} (h : s.Settled) : s.serveEntry.1.Settled := by
  unfold State.serveEntry
  repeat' split
  · exact h
  · exact h
  · exact beginTransaction_settled (s := { s with scan := ({ s.scan with wrap := false } : Scanner).advance })
      ((advance_wake _).trans h) ..

theorem servePass_settled {s : State} (h : s.Settled) (p : PassSlot) : (s.servePass p).1.Settled := by
  unfold State.servePass
  split
  · exact beginTransaction_settled (by exact h) ..
  · exact serveEntry_settled (reach_settled (by exact h))

theorem pickOnce_settled {s : State} (h : s.Settled) : s.pickOnce.1.Settled := by
  unfold State.pickOnce State.sendStage State.pickScan
  dsimp only
  repeat' split
  · exact h
  · exact beginTransaction_settled h ..
  · exact h
  · exact beginTransaction_settled h ..
  · exact beginTransaction_settled (by exact h) ..
  · exact serveEntry_settled (reach_settled h)
  · exact servePass_settled h _
  · exact servePass_settled (reach_settled h) _
  · exact serveEntry_settled (reach_settled h)

theorem pick_settled {s : State} (h : s.Settled) : s.pick.Settled := by
  unfold State.pick
  dsimp only
  repeat' split
  · exact pickOnce_settled h
  · exact pickOnce_settled (s := s.pickOnce.1.clearHolds) (pickOnce_settled h)
  · exact pickOnce_settled h

/-- The end of an event leaves no work for the bus unlooked at. -/
theorem settle_settled (s : State) : s.settle.Settled := by
  unfold State.settle
  dsimp only
  repeat' split
  · exact pick_settled rfl
  · rfl
  · rename_i h
    simpa [State.Settled] using h

theorem answered_settled (s : State) (owner : State → State × TermReply) : (s.answered owner).Settled := settle_settled _

theorem request_settled {s : State} (h : s.Settled) (n : Nat) (owner : State → State × TermReply) :
    (s.request n owner).Settled := by
  unfold State.request
  repeat' split
  · exact h
  · exact h
  · exact h
  · exact answered_settled s owner

theorem anyRequest_settled {s : State} (h : s.Settled) (kind : Byte) (p : List Byte) : (s.anyRequest kind p).Settled := by
  unfold State.anyRequest
  repeat' split
  · exact h
  · exact h
  · exact request_settled h ..

theorem broadcastSet_settled {s : State} (h : s.Settled) (p : List Byte) : (s.broadcastSet p).Settled := by
  unfold State.broadcastSet State.timeBroadcast
  repeat' split
  all_goals exact h

theorem takeTermChar_scan (s : State) (c : TermChar) : (s.takeTermChar c).scan = s.scan := by
  unfold State.takeTermChar
  dsimp only
  split <;> rfl

theorem takeTermHeld_scan (s : State) : s.takeTermHeld.scan = s.scan := by
  unfold State.takeTermHeld
  split
  · rfl
  · exact takeTermChar_scan _ _

theorem termChar_scan (s : State) (c : TermChar) : (s.termChar c).scan = s.scan := by
  unfold State.termChar
  repeat' split
  · rfl
  · rfl
  · rfl
  · rw [takeTermChar_scan, takeTermHeld_scan]

theorem messageEnd_settled {s : State} (h : s.Settled) : s.messageEnd.Settled := by
  unfold State.messageEnd State.addressed
  dsimp only
  repeat' split
  all_goals first
    | exact h
    | exact broadcastSet_settled (s := s.freeRx) h _
    | exact anyRequest_settled (s := s.freeRx) h ..

theorem message_settled {s : State} (h : s.Settled) (chars : List TermChar) : (s.message chars).Settled := by
  have key : ∀ (l : List TermChar) (v : State), (l.foldl State.termChar v).scan = v.scan := by
    intro l
    induction l with
    | nil => intro v; rfl
    | cons c l ih => intro v; exact (ih _).trans (termChar_scan v c)
  apply messageEnd_settled
  simp only [State.Settled, takeTermHeld_scan, key]
  exact h

theorem telegramSent_settled {s : State} (h : s.Settled) : s.telegramSent.Settled := by
  unfold State.telegramSent
  repeat' split
  · exact h
  · exact h
  · rename_i t ht hs
    unfold State.takeBusHeld State.takeBusChar
    repeat' split
    all_goals first
      | exact h
      | simp_all

theorem startNextWrite_scan (s : State) : s.startNextWrite.scan = s.scan := rfl

/-- No event leaves work for the bus unlooked at. -/
theorem exec_settled (c : Instr) (s t : State) (hs : s.Settled) (h : exec c s = .next t) : t.Settled := by
  cases c <;> cases h
  case hardReset a x y => rfl
  case messageDiscarded p => exact message_settled hs p
  case unknownKind kd p => exact anyRequest_settled hs kd p
  case replySent => exact hs
  case timeSetBroadcast p => exact broadcastSet_settled hs p
  case telegramSent => exact telegramSent_settled hs
  case travelTimerExpiry n => exact hs
  case candidateExpiry l =>
    unfold State.candidateExpires
    split <;> exact hs
  case calibrationWriteDone =>
    unfold State.calibrationWriteDone
    split <;> exact hs
  case secondTick => exact hs
  case statusRead cal p => exact request_settled (s := s.withCal cal) hs ..
  case tableWriteBaySettings cal p => exact request_settled (s := s.withCal cal) hs ..
  case tableWriteProduct cal p => exact request_settled (s := s.withCal cal) hs ..
  case tableWriteArm cal p => exact request_settled (s := s.withCal cal) hs ..
  all_goals first
    | exact settle_settled _
    | exact request_settled hs ..

/-! ### Steps -/

/-- A step idles, or runs the front command on the state with the queue's rest. -/
theorem step_cases (s t : State) (h : Stepped s t) :
    t = s ∨ ∃ c q, s.pending = c :: q ∧ exec c { s with pending := q } = .next t := by
  unfold Stepped step at h
  split at h
  · cases h; exact .inl rfl
  · rename_i c q e; exact .inr ⟨c, q, e, h⟩

/-- What Keeps, a stored word and a hard reset carry over, every step carries over. -/
theorem step_invariant (P : State → Prop) (hk : ∀ s u, Keeps s u → P s → P u)
    (hst : ∀ s w, s.note.writing = some w → P s → P { s with note := s.note.storeWord w })
    (hr : ∀ s a x y, P s → P (State.hardReset s a x y)) (s t : State) (hs : P s) (h : Stepped s t) : P t := by
  rcases step_cases s t h with e | ⟨c, q, e, hx⟩
  · rw [e]; exact hs
  · have hp := hk _ _ (pending_keeps s q) hs
    by_cases h1 : ∃ a x y, c = .hardReset a x y
    · obtain ⟨a, x, y, rfl⟩ := h1; cases hx; exact hr _ _ _ _ hp
    by_cases h2 : c = .noteNumberWriteDone
    · subst h2; cases hx
      generalize ({ s with pending := q } : State) = v at *
      rcases hw : v.note.writing with _ | ⟨_ | _, n⟩
      · rw [show v.noteWriteDone = v by simp [State.noteWriteDone, hw]]
        exact hk _ _ (settle_keeps (.refl _)) hp
      · exact hk _ _ (noteWriteDone_stores v _ n hw) (hst _ _ hw hp)
      · rw [show v.noteWriteDone = v by simp [State.noteWriteDone, hw]]
        exact hk _ _ (settle_keeps (.refl _)) hp
    by_cases h3 : c = .calibrationWriteDone
    · subst h3; cases hx
      generalize ({ s with pending := q } : State) = v at *
      rcases hw : v.note.writing with _ | ⟨_ | _, n⟩
      · rw [show v.calibrationWriteDone = v by simp [State.calibrationWriteDone, hw]]; exact hp
      · rw [show v.calibrationWriteDone = v by simp [State.calibrationWriteDone, hw]]; exact hp
      · exact hk _ _ (calibrationWriteDone_stores v _ n hw) (hst _ _ hw hp)
    · exact hk _ _ (exec_keeps c _ t hx (fun a x y e => h1 ⟨a, x, y, e⟩) h2 h3) hp

end Sys2Proof.Machine
end

