-- ==== Sys2Proof/Laws/PerInstr.lean ====
section
/-! SUPPORT. Laws per command: one lemma per constructor of Instr for each family named in LAWS.json. -/

namespace Sys2Proof

theorem fits_0 (p : List Byte) : payloadFits 0 p = true ↔ p.length ≤ 240 := by
  unfold payloadFits
  rw [decide_eq_true_iff, Nat.zero_add]

theorem fits_1 (p : List Byte) : payloadFits 1 p = true ↔ 1 + p.length ≤ 240 := decide_eq_true_iff

theorem fits_3 (p : List Byte) : payloadFits 3 p = true ↔ 3 + p.length ≤ 240 := decide_eq_true_iff

end Sys2Proof

namespace Sys2Proof.Laws.RequestFits

/-- A terminal request at the strapped address can stand on its line exactly when its payload has at most 240 bytes (section 1.4),
which is the length that Reaches asks of it. -/
def Statement (i : Instr) : Prop := ∀ n, Machine.requestLength i = some n → (i.wf = true ↔ n ≤ 240)

theorem hardReset (addr : BitVec 5) (trate brate : BitVec 2) : Statement (.hardReset addr trate brate) := fun _ h => by cases h

theorem messageDiscarded (chars : List TermChar) : Statement (.messageDiscarded chars) := fun _ h => by cases h

theorem unknownKind (kind : Byte) (payload : List Byte) : Statement (.unknownKind kind payload) := fun _ h => by
  cases h
  exact fits_0 _

theorem replySent : Statement (.replySent) := fun _ h => by cases h

theorem statusRead (cal : Bool) (payload : List Byte) : Statement (.statusRead cal payload) := fun _ h => by
  cases h
  exact fits_0 _

theorem noticePoll (payload : List Byte) : Statement (.noticePoll payload) := fun _ h => by
  cases h
  exact fits_0 _

theorem noticeMask (payload : List Byte) : Statement (.noticeMask payload) := fun _ h => by
  cases h
  exact fits_0 _

theorem tableWriteDevice (rest : List Byte) : Statement (.tableWriteDevice rest) := fun _ h => by
  cases h
  exact fits_1 _

theorem deviceEntryEmpty (index : Byte) (rest : List Byte) : Statement (.deviceEntryEmpty index rest) := fun _ h => by
  cases h
  exact fits_3 _

theorem tableWriteScanList (rest : List Byte) : Statement (.tableWriteScanList rest) := fun _ h => by
  cases h
  exact fits_1 _

theorem tableWritePassFilter (rest : List Byte) : Statement (.tableWritePassFilter rest) := fun _ h => by
  cases h
  exact fits_1 _

theorem tableWriteBaySettings (cal : Bool) (rest : List Byte) : Statement (.tableWriteBaySettings cal rest) := fun _ h => by
  cases h
  exact fits_1 _

theorem tableWriteProduct (cal : Bool) (rest : List Byte) : Statement (.tableWriteProduct cal rest) := fun _ h => by
  cases h
  exact fits_1 _

theorem productEmpty (code : Byte) (rest : List Byte) : Statement (.productEmpty code rest) := fun _ h => by
  cases h
  exact fits_3 _

theorem tableWriteArm (cal : Bool) (rest : List Byte) : Statement (.tableWriteArm cal rest) := fun _ h => by
  cases h
  exact fits_1 _

theorem armEmpty (arm : Byte) (rest : List Byte) : Statement (.armEmpty arm rest) := fun _ h => by
  cases h
  exact fits_3 _

theorem tableWriteInjector (rest : List Byte) : Statement (.tableWriteInjector rest) := fun _ h => by
  cases h
  exact fits_1 _

theorem injectorEmpty (index : Byte) (rest : List Byte) : Statement (.injectorEmpty index rest) := fun _ h => by
  cases h
  exact fits_3 _

theorem tableReadDevice (rest : List Byte) : Statement (.tableReadDevice rest) := fun _ h => by
  cases h
  exact fits_1 _

theorem tableReadScanList (rest : List Byte) : Statement (.tableReadScanList rest) := fun _ h => by
  cases h
  exact fits_1 _

theorem tableReadPassFilter (rest : List Byte) : Statement (.tableReadPassFilter rest) := fun _ h => by
  cases h
  exact fits_1 _

theorem tableReadBaySettings (rest : List Byte) : Statement (.tableReadBaySettings rest) := fun _ h => by
  cases h
  exact fits_1 _

theorem tableReadProduct (rest : List Byte) : Statement (.tableReadProduct rest) := fun _ h => by
  cases h
  exact fits_1 _

theorem tableReadArm (rest : List Byte) : Statement (.tableReadArm rest) := fun _ h => by
  cases h
  exact fits_1 _

theorem tableReadInjector (rest : List Byte) : Statement (.tableReadInjector rest) := fun _ h => by
  cases h
  exact fits_1 _

theorem consistencyReport (rest : List Byte) : Statement (.consistencyReport rest) := fun _ h => by
  cases h
  exact fits_1 _

theorem permitWrite (payload : List Byte) : Statement (.permitWrite payload) := fun _ h => by
  cases h
  exact fits_0 _

theorem permitDelete (payload : List Byte) : Statement (.permitDelete payload) := fun _ h => by
  cases h
  exact fits_0 _

theorem permitReadByCard (rest : List Byte) : Statement (.permitReadByCard rest) := fun _ h => by
  cases h
  exact fits_1 _

theorem permitReadByPosition (rest : List Byte) : Statement (.permitReadByPosition rest) := fun _ h => by
  cases h
  exact fits_1 _

theorem orderPlace (payload : List Byte) : Statement (.orderPlace payload) := fun _ h => by
  cases h
  exact fits_0 _

theorem orderCancel (payload : List Byte) : Statement (.orderCancel payload) := fun _ h => by
  cases h
  exact fits_0 _

theorem loadClose (payload : List Byte) : Statement (.loadClose payload) := fun _ h => by
  cases h
  exact fits_0 _

theorem batchAbort (payload : List Byte) : Statement (.batchAbort payload) := fun _ h => by
  cases h
  exact fits_0 _

theorem override (payload : List Byte) : Statement (.override payload) := fun _ h => by
  cases h
  exact fits_0 _

theorem noteTake (payload : List Byte) : Statement (.noteTake payload) := fun _ h => by
  cases h
  exact fits_0 _

theorem noteRelease (payload : List Byte) : Statement (.noteRelease payload) := fun _ h => by
  cases h
  exact fits_0 _

theorem timeSet (payload : List Byte) : Statement (.timeSet payload) := fun _ h => by
  cases h
  exact fits_0 _

theorem timeSetBroadcast (payload : List Byte) : Statement (.timeSetBroadcast payload) := fun _ h => by cases h

theorem timeRead (payload : List Byte) : Statement (.timeRead payload) := fun _ h => by
  cases h
  exact fits_0 _

theorem bayModeInService (rest : List Byte) : Statement (.bayModeInService rest) := fun _ h => by
  cases h
  exact fits_1 _

theorem bayModeOutOfService (rest : List Byte) : Statement (.bayModeOutOfService rest) := fun _ h => by
  cases h
  exact fits_1 _

theorem restart (payload : List Byte) : Statement (.restart payload) := fun _ h => by
  cases h
  exact fits_0 _

theorem passthrough (payload : List Byte) : Statement (.passthrough payload) := fun _ h => by
  cases h
  exact fits_0 _

theorem telegramSent : Statement (.telegramSent) := fun _ h => by cases h

theorem responseTimeout : Statement (.responseTimeout) := fun _ h => by cases h

theorem restartQuietEnd : Statement (.restartQuietEnd) := fun _ h => by cases h

theorem unacceptedReply (reply : DeviceReply) : Statement (.unacceptedReply reply) := fun _ h => by cases h

theorem meterSample (pulses : BitVec 32) (interval temperature : BitVec 16) (flags : Byte) : Statement (.meterSample pulses interval temperature flags) := fun _ h => by cases h

theorem valveState (stage flags : Byte) : Statement (.valveState stage flags) := fun _ h => by cases h

theorem shotReport (outlet : Byte) (dose : BitVec 16) (status : Byte) : Statement (.shotReport outlet dose status) := fun _ h => by cases h

theorem injectorState (state : Byte) (dose : BitVec 32) (flags : Byte) : Statement (.injectorState state dose flags) := fun _ h => by cases h

theorem permissiveState (flags : Byte) : Statement (.permissiveState flags) := fun _ h => by cases h

theorem diagnosticReply (kind : Byte) (payload : List Byte) : Statement (.diagnosticReply kind payload) := fun _ h => by cases h

theorem stationEventList (events : List StationEvent) : Statement (.stationEventList events) := fun _ h => by cases h

theorem pendingStartLapse (arm : Arm) (lane : Lane) : Statement (.pendingStartLapse arm lane) := fun _ h => by cases h

theorem noFlowTimeout (arm : Arm) : Statement (.noFlowTimeout arm) := fun _ h => by cases h

theorem stopTimeout (arm : Arm) : Statement (.stopTimeout arm) := fun _ h => by cases h

theorem travelTimerExpiry (arm : Arm) : Statement (.travelTimerExpiry arm) := fun _ h => by cases h

theorem shotTimeout (injector : DevIx) : Statement (.shotTimeout injector) := fun _ h => by cases h

theorem candidateExpiry (lane : Lane) : Statement (.candidateExpiry lane) := fun _ h => by cases h

theorem overrideDeadline (lane : Lane) : Statement (.overrideDeadline lane) := fun _ h => by cases h

theorem noteNumberWriteDone : Statement (.noteNumberWriteDone) := fun _ h => by cases h

theorem calibrationWriteDone : Statement (.calibrationWriteDone) := fun _ h => by cases h

theorem secondTick : Statement (.secondTick) := fun _ h => by cases h

theorem busCharacter (char : BusChar) : Statement (.busCharacter char) := fun _ h => by cases h

end Sys2Proof.Laws.RequestFits
end

