-- ==== Sys2Proof/Laws/Replies.lean ====
section
/-! SUPPORT. The way of a device reply to its owner, and of a display code to its stations: cited in place of unfolding
State.deliverReply, State.replyEnd, State.acceptReply and State.post. -/

namespace Sys2Proof.Machine

/-! ### The state in which the bus has fallen free after a valid reply -/

@[simp] theorem polled_port (s : State) (i : DevIx) (d : Device) : (s.polled i d).port = s.port := rfl

@[simp] theorem polled_time (s : State) (i : DevIx) (d : Device) : (s.polled i d).time = s.time := rfl

@[simp] theorem polled_permits (s : State) (i : DevIx) (d : Device) : (s.polled i d).permits = s.permits := rfl

@[simp] theorem polled_load (s : State) (i : DevIx) (d : Device) : (s.polled i d).load = s.load := rfl

@[simp] theorem polled_batch (s : State) (i : DevIx) (d : Device) : (s.polled i d).batch = s.batch := rfl

@[simp] theorem polled_meter (s : State) (i : DevIx) (d : Device) : (s.polled i d).meter = s.meter := rfl

@[simp] theorem polled_additive (s : State) (i : DevIx) (d : Device) : (s.polled i d).additive = s.additive := rfl

@[simp] theorem polled_note (s : State) (i : DevIx) (d : Device) : (s.polled i d).note = s.note := rfl

@[simp] theorem polled_lane (s : State) (i : DevIx) (d : Device) (l : Lane) : (s.polled i d).lane l = s.lane l := rfl

@[simp] theorem polled_arm (s : State) (i : DevIx) (d : Device) (n : Arm) : (s.polled i d).arm n = s.arm n := rfl

@[simp] theorem polled_holder (s : State) (i : DevIx) (d : Device) (n : Arm) : (s.polled i d).holder n = s.holder n := rfl

@[simp] theorem polled_slot (s : State) (i : DevIx) (d : Device) (j : DevIx) : (s.polled i d).slot j = s.slot j := rfl

@[simp] theorem polled_schedules (s : State) (i : DevIx) (d : Device) (n : Arm) : (s.polled i d).schedules n = s.schedules n := rfl

/-- The device table after it: the device itself, and every other entry but its retry hold. -/
theorem polled_device (s : State) (i j : DevIx) (d : Device) : (s.polled i d).device j =
    if j = i then some { d with retryHold := false, misses := 0 } else (s.device j).map fun e => { e with retryHold := false } := by
  simp only [State.polled, State.device, Fin.getElem_fin]
  by_cases h : j = i
  · subst h; simp
  · rw [if_neg h, Vector.getElem_set_ne _ _ (fun c => h (Fin.ext c.symm)), Vector.getElem_map]

/-! ### The way of a reply -/

/-- The first reply to a telegram ends its transaction (R13). -/
theorem deliverReply_ends {s : State} {t : Transaction} {d : Device} (h : s.AwaitsReply t d) {r : DeviceReply}
    (hf : replyFits r = true) (hk : replyKindOk (replyKind r) t.telegram.isDiagnostic = true) :
    s.deliverReply r = s.replyEnd t r := by
  obtain ⟨ht, hs, _, hr, _⟩ := h
  have he : (some t).filter (fun t => t.sent) = some t := by simp [hs]
  simp only [State.deliverReply, State.takeBusHeld, hr, ht, he, hf, hk, and_self, if_true]

/-- An accepted reply, fault flag clear, of an ONLINE device asked at step 3 or 4 reaches its owner once the bus has fallen free
(R21, R27, R33). -/
theorem replyEnd_routes {s : State} {t : Transaction} {d : Device} (h : s.AwaitsOnline t d)
    (hstep : t.step = .injector ∨ t.step = .scan) (hset : ∀ st, t.telegram ≠ .valveSet st)
    (hshow : ∀ c, t.telegram ≠ .stationShow c) {r : DeviceReply} (ha : d.kind.accepts r = true) (hf : replyFault r = false) :
    s.replyEnd t r = (s.polled t.device d).route t d r := by
  obtain ⟨⟨ht, _, hw, hr, hd⟩, hp, ho⟩ := h
  have hc : t.step.clearsHolds = true := by rcases hstep with e | e <;> rw [e] <;> rfl
  have hdev : s.scan.devices[t.device.val] = some d := hd
  have hfree : s.freeBus t = { s with
      scan := { s.scan with
        devices := s.scan.devices.map fun e => e.map fun e => { e with retryHold := false }
        transaction := none
        wake := true }
      pads := { s.pads with bde := false } } := by
    simp [State.freeBus, hc, State.clearHolds, hr]
  have hfd : (s.freeBus t).device t.device = some { d with retryHold := false } := by
    rw [hfree]; simp [State.device, hdev]
  have hrep : (s.freeBus t).deviceReplied t.device false = s.polled t.device d := by
    unfold State.deviceReplied
    rw [hfd]
    unfold State.moveDevice
    simp only [device_setDevice_self, ho, DeviceState.afterReply]
    rw [if_pos (by simp), hfree]
    simp [State.setDevice, State.polled, ho]
  have hns : ∀ u : State, u.noteSet t = u := by
    intro u; unfold State.noteSet; split
    · exact absurd ‹_› (hset _)
    all_goals rfl
  have hnw : ∀ u : State, u.noteShown t = u := by
    intro u; unfold State.noteShown; split
    · exact absurd ‹_› (hshow _)
    all_goals rfl
  unfold State.replyEnd
  rw [hw, if_neg (by simp), if_neg hp, hd]
  simp only [ha, if_true, State.acceptReply, hf, hrep, hns, hnw]
  rfl

/-- A station's reply hands its events on, in order (R33, R34). -/
theorem deliver_stationEvents {s : State} {t : Transaction} {d : Device} {l : Lane} (h : s.AwaitsOnline t d)
    (hstep : t.step = .scan) (htel : t.telegram = .poll) (hk : d.kind = .station) (ha : d.assoc = .lane l)
    {es : List StationEvent} (hf : replyFits (.stationEvents es) = true) :
    s.deliverReply (.stationEvents es) = (s.polled t.device d).stationEvents l es := by
  rw [deliverReply_ends h.1 hf (by rw [htel]; rfl), replyEnd_routes h (.inr hstep) (by simp [htel]) (by simp [htel])
    (by rw [hk]; rfl) rfl]
  simp [State.route, ha]

/-! ### A display code on its way -/

/-- What posting does to the scanner rests on the scanner alone (R32). -/
theorem post_scan_congr {s t : State} (h : t.scan = s.scan) (l : Lane) (c : DisplayCode) :
    (t.post l c).scan = (s.post l c).scan := by
  have hd : ∀ i, t.device i = s.device i := fun i => by simp only [State.device, h]
  have hh : t.hasStation l = s.hasStation l := by simp only [State.hasStation, hd]
  unfold State.post
  rw [hh]
  cases s.hasStation l
  · exact h
  · simp only [if_true, h, hd]

end Sys2Proof.Machine
end

