-- ==== Sys2Proof/Tests/Slice0.lean ====
section
/-! SUPPORT. Tests: what well-formedness refuses, figures the spec works out, one small step per command, and for every obligation
with premises a state and operands that meet them. -/

namespace Sys2Proof.Slice0

open Sys2Proof Sys2Proof.Machine

set_option Elab.async false

/-! ### A working bay -/

/-- Arm 1 of section 5.9. -/
def arm1 : ArmEntry :=
  ⟨.a, 0, 1, 100000, [(600, 100400), (1500, 100150), (2400, 100080), (3000, 100120)], 4000, 3200, 200, 300, 800, 400, 1500, 100, 5,
    0x180#256⟩

/-- Injector 2 in an injection mode: it serves arm 1 from outlet 3. -/
def inj (mode : InjMode) : InjectorEntry := ⟨mode, 500, (Vector.replicate 6 none).set 1 (some 3), 10, 1000, 5000⟩

def device (address : Byte) (kind : DeviceKind) (assoc : Association) : Device :=
  ⟨address, kind, assoc, 20, 3, .online, 0, none, false, none⟩

def meterDev : Device := device 10#8 .meter (.arm 1)
def valveDev : Device := device 11#8 .valve (.arm 1)
def injDev : Device := device 12#8 .injector .none
def stationA : Device := device 13#8 .station (.lane .a)
def stationB : Device := device 14#8 .station (.lane .b)
def monitor : Device := device 15#8 .permissive .none

def driver : Permit := ⟨412776301, .driver, .active, 7#16, 31#16, ⟨0x25#8, 0x06#8, 0x30#8⟩, 0x0002#16, 50000, 0, none, none⟩

def supervisor : Permit := ⟨900000017, .supervisor, .active, 8#16, 0#16, ⟨0x26#8, 0x12#8, 0x31#8⟩, 0#16, 0, 0, none, none⟩

/-- Order 7001: compartment 1, product 7, 9000 L. -/
def order : Order := ⟨7001#32, 31#16, List.replicate 8 0x41#8, none, [⟨1, 7#8, 9000⟩]⟩

/-- 24-03-14 10:00:00, weekday 04 (section 10.8). -/
def noon : TimeRec := ⟨0x24#8, 0x03#8, 0x14#8, 0x04#8, 0x10#8, 0x00#8, 0x00#8⟩

/-- A bay with every table written, IN SERVICE, all devices ONLINE. -/
def bay : State :=
  { State.reset with
    pads := ⟨false, false, true, false, 1#5, 0#2, 0#2⟩
    port := { TerminalPort.reset with mode := .inService }
    time := ⟨noon, 0, true⟩
    permits := [driver, supervisor]
    load := ⟨[order], ⟨LaneRec.reset, LaneRec.reset⟩⟩
    batch := { BatchController.reset with
      products := [⟨7#8, 1, 1200, []⟩, ⟨8#8, 1, 900, [⟨5#8, 2, 500, true⟩]⟩]
      armTable := (Vector.replicate 6 none).set 1 (some arm1)
      arms := (Vector.replicate 6 ArmRec.reset).set 1 { ArmRec.reset with stopLead := some 800, reported := some .closed }
      permissive := ⟨true, true⟩ }
    meter := (Vector.replicate 6 Metering.start).set 1 ⟨.tracking, 1000#32, some 2740, 0, 0, 0, 0, 0⟩
    additive := ⟨(Vector.replicate 32 none).set 2 (some ⟨inj .shot, [], none, none, Stream.idle⟩), Vector.replicate 6 []⟩
    scan := { Scanner.reset with
      devices := ((((((Vector.replicate 32 none).set 0 (some meterDev)).set 1 (some valveDev)).set 2 (some injDev)).set 3
        (some stationA)).set 4 (some stationB)).set 5 (some monitor)
      list := [0, 1, 2, 3, 4, 5] } }

/-- The same bay before it is put in service. -/
def idle : State := { bay with port := TerminalPort.reset, pads := { bay.pads with run := false } }

/-- The open load of order 7001 at lane A. -/
def load : Load :=
  ⟨7001#32, 31#16, List.replicate 8 0x41#8, 412776301, 7#16, noon, none, false, false, [OrderLine.entry ⟨1, 7#8, 9000⟩]⟩

def opened : State := { bay with load := ⟨[], ⟨{ LaneRec.reset with state := .opened, load := some load }, LaneRec.reset⟩⟩ }

/-- A batch of lane A on arm 1. -/
def batch (st : BatchState) : Batch :=
  { Batch.new .a 1 7#8 9000 with state := st, startTime := some noon, flowed := true }

/-- The open load with its batch on arm 1, the valve desired and reported at a stage. -/
def loading (b : Batch) (st : Stage) : State :=
  { opened with
    load := ⟨[], ⟨{ LaneRec.reset with state := .opened, load := some { load with
      entries := [{ OrderLine.entry ⟨1, 7#8, 9000⟩ with arm := some 1, state := .loading }] } }, LaneRec.reset⟩⟩
    batch := { opened.batch with
      arms := opened.batch.arms.set 1 (ArmRec.mk (some b) st (some st) [] (some 800) none 0) } }

/-- A telegram to a device has been sent and its reply is awaited. -/
def asked (i : DevIx) (d : Device) (tel : Telegram) (step : PickStep) (s : State) : State :=
  { s with scan := { s.scan with transaction := some ⟨i, d.address, tel, step, d.timeout, true, false, false⟩ } }

/-- The state a command leaves, if it leaves one. -/
def got : Host.Outcome State Fault Refusal → Option State
  | .next s => some s
  | .fault _ => none
  | .refused _ => none

def run (c : Instr) (s : State) : Option State := got (exec c s)

/-- The reply a request gets. -/
def answer (c : Instr) (s : State) : Option TermReply := (run c s).bind fun t => t.port.reply

/-! ### What well-formedness refuses -/

theorem test_wf_refuses_a_long_payload : (Instr.permitWrite (List.replicate 241 0#8)).wf = false := by decide +kernel

theorem test_wf_refuses_a_long_table_payload : (Instr.tableWriteArm true (List.replicate 240 0#8)).wf = false := by decide +kernel

theorem test_wf_refuses_a_long_emptying : (Instr.armEmpty 0#8 (List.replicate 238 0#8)).wf = false := by decide +kernel

theorem test_wf_takes_the_longest_payloads :
    (Instr.permitWrite (List.replicate 240 0#8)).wf ∧ (Instr.tableWriteArm true (List.replicate 239 0#8)).wf ∧
      (Instr.armEmpty 0#8 (List.replicate 237 0#8)).wf := by decide +kernel

theorem test_wf_refuses_a_message_without_characters : (Instr.messageDiscarded []).wf = false := by decide

theorem test_wf_refuses_misfitting_replies :
    (Instr.valveState 3#8 0#8).wf = false ∧ (Instr.shotReport 6#8 0#16 0#8).wf = false ∧ (Instr.shotReport 0#8 0#16 3#8).wf = false ∧
      (Instr.injectorState 2#8 0#32 0#8).wf = false ∧ (Instr.diagnosticReply 0x5F#8 []).wf = false ∧
      (Instr.diagnosticReply 0x60#8 (List.replicate 33 0#8)).wf = false ∧ (Instr.unacceptedReply (.valveState 3#8 0#8)).wf = false := by
  decide +kernel

theorem test_wf_refuses_misfitting_events :
    (Instr.stationEventList (List.replicate 5 .estop)).wf = false ∧ (Instr.stationEventList [.start 6#8 1#8]).wf = false ∧
      (Instr.stationEventList [.start 0#8 0#8]).wf = false ∧ (Instr.stationEventList [.start 0#8 9#8]).wf = false ∧
      (Instr.stationEventList [.card 0xA000000000#40 0#8]).wf = false ∧ (Instr.stationEventList [.card 0#40 2#8]).wf = false ∧
      (Instr.stationEventList [.stop 6#8]).wf = false := by decide +kernel

/-! ### Figures the spec works out -/

/-- The reference check of R6. -/
theorem test_check_of_nine_digits :
    crc [0x31#8, 0x32#8, 0x33#8, 0x34#8, 0x35#8, 0x36#8, 0x37#8, 0x38#8, 0x39#8] = 0x29B1#16 ∧
      crc [0x31#8, 0x32#8, 0x33#8, 0x34#8, 0x35#8, 0x36#8, 0x37#8, 0x38#8, 0x39#8, 0x29#8, 0xB1#8] = 0#16 := by decide +kernel

/-- The three samples of section 4.7, stage by stage. -/
theorem test_worked_samples :
    pulseDelta 4294963659#32 4294961309#32 = 2350 ∧ rawStage 2350 100000 0 = (23500000, 0) ∧ flowRate 23500000 500 = 2820 ∧
      meterFactor 2820 arm1.curve = 100108 ∧ grossStage 23500000 100108 0 = (23525380, 0) ∧ vcf 1200 2740 1500 = 98512 ∧
      netStage 23525380 98512 0 = (23175322, 34560) ∧ meterFactor 2809 arm1.curve = 100107 ∧
      grossStage 23410000 100107 0 = (23435048, 70000) ∧ vcf 1200 2739 1500 = 98513 ∧
      netStage 23435048 98513 34560 = (23086569, 18184) ∧ pulseDelta 1054#32 4294966000#32 = 2350 ∧
      netStage 23525380 98513 18184 = (23175557, 78124) := by decide +kernel

/-- The carries of section 10.7. -/
theorem test_leap_day :
    TimeRec.nextSecond ⟨0x24#8, 0x02#8, 0x28#8, 0x03#8, 0x23#8, 0x59#8, 0x59#8⟩ =
        ⟨0x24#8, 0x02#8, 0x29#8, 0x04#8, 0x00#8, 0x00#8, 0x00#8⟩ ∧
      TimeRec.nextSecond ⟨0x24#8, 0x02#8, 0x29#8, 0x04#8, 0x23#8, 0x59#8, 0x59#8⟩ =
        ⟨0x24#8, 0x03#8, 0x01#8, 0x05#8, 0x00#8, 0x00#8, 0x00#8⟩ ∧
      TimeRec.nextSecond ⟨0x23#8, 0x02#8, 0x28#8, 0x02#8, 0x23#8, 0x59#8, 0x59#8⟩ =
        ⟨0x23#8, 0x03#8, 0x01#8, 0x03#8, 0x00#8, 0x00#8, 0x00#8⟩ := by decide +kernel

/-! ### One small step per command -/

theorem test_hardReset : (run (.hardReset 3#5 1#2 2#2) bay).map (fun t => (t.pads, t.port.mode, t.permits, t.note.nextNote)) =
    some (⟨false, false, false, false, 3#5, 1#2, 2#2⟩, .outOfService, [], 1) := by decide +kernel

/-- A Terminal Link character that carries a byte with even parity. -/
def good (b : Byte) : TermChar := ⟨b, ((List.range 8).filter fun i => b.getLsbD i).length % 2 == 1, true, false, false⟩

theorem test_messageDiscarded_counts : (run (.messageDiscarded [⟨1#8, false, true, false, false⟩]) bay).map (fun t => t.port.counters) =
    some ⟨1, 0, 0, 0, 0⟩ := by decide +kernel

theorem test_messageDiscarded_foreign : run (.messageDiscarded ((frame 2#8 0x51#8 []).map good)) bay = some bay := by decide +kernel

theorem test_unknownKind : answer (.unknownKind 0x99#8 []) bay = some (.refuse .badFormat) := by decide +kernel

theorem test_replySent : run .replySent (bay.shows .accept) = some bay := by decide +kernel

theorem test_statusRead : (run (.statusRead true [1#8]) bay).bind (fun t => t.port.reply.map fun r => r.parts.2.take 5) =
    some [0x01#8, 0x00#8, 0x00#8, 0x00#8, 0xFF#8] := by decide +kernel

/-- A notice of TIME SET. -/
def notice : Notice := ⟨.timeSet, .none, 0x00#8, noon, none⟩

theorem test_noticePoll : answer (.noticePoll []) { bay with port := { bay.port with notices := [notice] } } =
    some (.data [1#8, 12#8, 0xFF#8, 0#8, 0x24#8, 0x03#8, 0x14#8, 0x04#8, 0x10#8, 0#8, 0#8, 0#8]) := by decide +kernel

theorem test_noticeMask : (run (.noticeMask [0xFF#8, 0xFB#8]) bay).map (fun t => t.port.mask) = some 0x3FFB#16 := by decide +kernel

theorem test_tableWriteDevice : (run (.tableWriteDevice [6#8, 20#8, 0x02#8, 0xFF#8, 25#8, 2#8]) bay).map
    (fun t => (t.device 6, t.port.reply)) = some (some ⟨20#8, .injector, .none, 25, 2, .unknown, 0, none, false, none⟩, some .accept) := by
  decide +kernel

theorem test_deviceEntryEmpty : (run (.deviceEntryEmpty 3#8 [0#8, 0#8, 0#8, 0#8]) idle).map (fun t => (t.device 3, t.port.notices.length)) =
    some (none, 1) := by decide +kernel

theorem test_tableWriteScanList : (run (.tableWriteScanList [2#8, 5#8, 0#8]) bay).map (fun t => (t.scan.list, t.scan.transaction.map
    fun x => x.device)) = some ([5, 0], some 5) := by decide +kernel

theorem test_tableWritePassFilter : (run (.tableWritePassFilter [4#8, 0#8, 0#8, 0#8, 2#8]) bay).map (fun t => t.scan.filter[4]) =
    some 2#32 := by decide +kernel

theorem test_tableWriteBaySettings : (run (.tableWriteBaySettings true [0#8, 0x07#8, 0xD0#8, 0#8, 60#8, 5#8, 20#8]) bay).map
    (fun t => (t.batch.settings, t.note.calDue, t.note.writing)) = some (⟨2000, 60, 5, 20⟩, 1, some ⟨.calibration 1, 0⟩) := by
  decide +kernel

theorem test_tableWriteProduct : answer (.tableWriteProduct false (7#8 :: Product.bytes ⟨7#8, 1, 1100, []⟩)) bay =
    some (.refuse .calLocked) := by decide +kernel

theorem test_productEmpty : (run (.productEmpty 8#8 []) bay).map (fun t => t.batch.products.map fun x => x.code) = some [7#8] := by
  decide +kernel

theorem test_tableWriteArm : (run (.tableWriteArm true (1#8 :: { arm1 with km := 100250 }.bytes)) bay).map
    (fun t => ((t.armEntry 1).map fun e => e.km, t.note.calDue, t.port.reply)) = some (some 100250, 1, some .accept) := by decide +kernel

theorem test_armEmpty : (run (.armEmpty 1#8 []) idle).map (fun t => (t.armEntry 1, (t.arm 1).stopLead)) = some (none, none) := by
  decide +kernel

theorem test_tableWriteInjector : (run (.tableWriteInjector (2#8 :: (inj .stream).bytes)) bay).map
    (fun t => (t.slot 2).map fun x => x.entry.mode) = some (some .stream) := by decide +kernel

theorem test_injectorEmpty : answer (.injectorEmpty 2#8 []) bay = some (.refuse .wrongMode) ∧
    (run (.injectorEmpty 2#8 []) idle).map (fun t => t.slot 2) = some none := by decide +kernel

theorem test_tableReadDevice : answer (.tableReadDevice [0#8]) bay =
    some (.data [10#8, 0x00#8, 1#8, 20#8, 3#8, 0x01#8, 0#8, 0x00#8]) := by decide +kernel

theorem test_tableReadScanList : answer (.tableReadScanList [0#8]) bay =
    some (.data [6#8, 0#8, 0x01#8, 0#8, 1#8, 2#8, 3#8, 4#8, 5#8]) := by decide +kernel

theorem test_tableReadPassFilter : answer (.tableReadPassFilter [5#8]) bay = some (.refuse .badValue) := by decide +kernel

theorem test_tableReadBaySettings : answer (.tableReadBaySettings [0#8]) bay =
    some (.data [0x05#8, 0xDC#8, 0#8, 120#8, 10#8, 30#8]) := by decide +kernel

theorem test_tableReadProduct : answer (.tableReadProduct [8#8]) bay =
    some (.data [1#8, 0x03#8, 0x84#8, 1#8, 5#8, 2#8, 0x01#8, 0xF4#8, 0x00#8]) := by decide +kernel

theorem test_tableReadArm : (answer (.tableReadArm [1#8]) bay).map (fun r => r.parts.2) = some (arm1.bytes ++ [0x03#8, 0x20#8]) := by
  decide +kernel

theorem test_tableReadInjector : answer (.tableReadInjector [2#8]) bay =
    some (.data [0x00#8, 0x01#8, 0xF4#8, 0xFF#8, 3#8, 0xFF#8, 0xFF#8, 0xFF#8, 0xFF#8, 10#8, 0x03#8, 0xE8#8, 0x13#8, 0x88#8]) := by
  decide +kernel

theorem test_consistencyReport : answer (.consistencyReport [0#8]) bay = some (.data [0x00#8, 0xFF#8]) ∧
    answer (.consistencyReport [0#8]) State.reset = some (.data [0x01#8, 0xFF#8]) := by decide +kernel

/-- The payload of a PERMIT WRITE for card 0000000005. -/
def permitBytes : List Byte :=
  [0#8, 0#8, 0#8, 0#8, 5#8, 0x00#8, 0x00#8, 0#8, 9#8, 0#8, 31#8, 0x25#8, 0x06#8, 0x30#8, 0#8, 2#8, 0x00#8, 0xC3#8, 0x50#8, 0xFF#8, 0#8]

theorem test_permitWrite : (run (.permitWrite permitBytes) bay).map (fun t => (t.permits.map fun p => p.card, t.port.reply)) =
    some ([5, 412776301, 900000017], some .accept) := by decide +kernel

theorem test_permitDelete : (run (.permitDelete [0x09#8, 0#8, 0#8, 0#8, 0x17#8]) bay).map (fun t => t.permits) = some [driver] ∧
    answer (.permitDelete [0x04#8, 0x12#8, 0x77#8, 0x63#8, 0x01#8]) opened = some (.refuse .inUse) := by decide +kernel

theorem test_permitReadByCard : (answer (.permitReadByCard [0x04#8, 0x12#8, 0x77#8, 0x63#8, 0x01#8]) opened).map
    (fun r => r.parts.2.drop 30) = some [0x00#8, 0x01#8] := by decide +kernel

theorem test_permitReadByPosition : (answer (.permitReadByPosition [1#8]) bay).map (fun r => r.parts.2.take 5) =
    some [0x09#8, 0#8, 0#8, 0#8, 0x17#8] ∧ answer (.permitReadByPosition [2#8]) bay = some (.refuse .notFound) := by decide +kernel

/-- The payload of an ORDER PLACE for order 9. -/
def orderBytes : List Byte :=
  [0#8, 0#8, 0#8, 9#8, 0#8, 31#8] ++ List.replicate 8 0x42#8 ++ [0xFF#8, 1#8, 2#8, 7#8, 0x03#8, 0xE8#8]

theorem test_orderPlace : (run (.orderPlace orderBytes) bay).map (fun t => t.load.orders) =
    some [order, ⟨9#32, 31#16, List.replicate 8 0x42#8, none, [⟨2, 7#8, 1000⟩]⟩] := by decide +kernel

theorem test_orderCancel : (run (.orderCancel [0#8, 0#8, 0x1B#8, 0x59#8]) bay).map (fun t => t.load.orders) = some [] := by
  decide +kernel

theorem test_loadClose : (run (.loadClose [0#8]) opened).map (fun t => ((t.lane .a).state, t.note.writing)) =
    some (.closing, some ⟨.note .a, 1⟩) := by decide +kernel

theorem test_batchAbort : (run (.batchAbort [1#8]) (loading (batch .full) .high)).map
    (fun t => ((t.holder 1).map fun b => (b.state, b.stopReason, b.ending), (t.arm 1).desired)) =
    some (some (.stopping, some .aborted, true), .closed) := by decide +kernel

theorem test_override : answer (.override [0#8, 0xFF#8]) bay = some (.refuse .noTarget) := by decide +kernel

/-- A delivery note of the open load. -/
def note : Note :=
  ⟨4709, ⟨.a, 7001#32, List.replicate 8 0x41#8, 7#16, 31#16, noon, noon, 41, false, [OrderLine.entry ⟨1, 7#8, 9000⟩], 0, 0⟩⟩

def noted : State := { bay with note := { bay.note with notes := [note] } }

theorem test_noteTake : (answer (.noteTake [0#8]) noted).map (fun r => r.parts.2.take 6) =
    some [0x00#8, 0x00#8, 0x47#8, 0x09#8, 0x00#8, 0x00#8] := by decide +kernel

theorem test_noteRelease : (run (.noteRelease [0x00#8, 0x00#8, 0x47#8, 0x09#8]) noted).map (fun t => (t.note.notes, t.port.reply)) =
    some ([], some .accept) := by decide +kernel

/-- The messages of section 10.8. -/
theorem test_timeSet : answer (.timeSet [0x24#8, 0x02#8, 0x30#8, 0x05#8, 0x10#8, 0#8, 0#8]) bay = some (.refuse .badValue) ∧
    answer (.timeSet [0x24#8, 0x03#8, 0x14#8, 0x05#8, 0x10#8, 0#8, 0#8]) bay = some (.refuse .badValue) ∧
    (run (.timeSet [0x24#8, 0x03#8, 0x14#8, 0x04#8, 0x10#8, 0#8, 0#8]) State.reset).map (fun t => t.time) = some ⟨noon, 0, true⟩ := by
  decide +kernel

theorem test_timeSetBroadcast : (run (.timeSetBroadcast noon.bytes) State.reset).map (fun t => (t.time, t.port.reply)) =
    some (⟨noon, 0, true⟩, none) := by decide +kernel

theorem test_timeRead : answer (.timeRead []) bay = some (.data (noon.bytes ++ [0x01#8])) := by decide +kernel

theorem test_bayModeInService : (run (.bayModeInService []) idle).map (fun t => (t.port.mode, t.pads.run)) = some (.inService, true) := by
  decide +kernel

theorem test_bayModeOutOfService : (run (.bayModeOutOfService []) opened).map (fun t => (t.port.mode, t.pads.run)) =
    some (.draining, false) := by decide +kernel

theorem test_restart : answer (.restart []) opened = some (.refuse .busy) ∧
    (run (.restart []) bay).map (fun t => (t.port.mode, t.load.orders, t.scan.quiet, t.port.reply)) =
      some (.outOfService, [], true, some .accept) := by decide +kernel

theorem test_passthrough : answer (.passthrough [5#8, 0x61#8]) bay = some (.refuse .notAllowed) := by decide +kernel

theorem test_telegramSent : (run .telegramSent { bay.settle with
    scan := { bay.scan with transaction := some ⟨0, 10#8, .poll, .scan, 20, false, false, false⟩ }, pads := { bay.pads with bde := true } }).map
    (fun t => (t.scan.transaction.map fun x => x.sent, t.pads.bde)) = some (some true, false) := by decide +kernel

theorem test_responseTimeout : (run .responseTimeout (asked 0 meterDev .poll .scan bay)).map
    (fun t => (t.device 0).map fun d => (d.misses, d.state)) = some (some (1, .online)) := by decide +kernel

theorem test_restartQuietEnd : (run .restartQuietEnd { bay with scan := { bay.scan with quiet := true } }).map
    (fun t => t.scan.transaction.map fun x => x.device) = some (some 0) := by decide +kernel

theorem test_unacceptedReply : (run (.unacceptedReply (.permissiveState 0x0F#8)) (asked 0 meterDev .poll .scan bay)).map
    (fun t => (t.device 0).map fun d => d.misses) = some (some 1) := by decide +kernel

theorem test_meterSample : (run (.meterSample 3350#32 500#16 2740#16 1#8) (asked 0 meterDev .poll .scan (loading (batch .full) .high))).map
    (fun t => (t.holder 1).map fun b => (b.raw, b.gross, b.net, b.tempWeight)) =
    some (some (23500000, 23525380, 23175322, 64459541200)) := by decide +kernel

theorem test_valveState : (run (.valveState 1#8 0#8) (asked 1 valveDev (.valveSet .low) .valve (loading (batch .startup) .low))).map
    (fun t => ((t.arm 1).reported, (t.device 1).map fun d => d.setStage)) = some (some .low, some (some .low)) := by decide +kernel

/-- A schedule of arm 1 on injector 2. -/
def sched (mode : InjMode) : Schedule :=
  ⟨5#8, 2, 500, true, mode, 3, 500, 10, 1000, 5000, 100000000, 10000000, 0, 4, 2000, 0, .active⟩

/-- The bay with a flowing batch whose schedule draws on injector 2, and the injector's records. -/
def dosing (c : Schedule) (x : InjectorSlot) : State :=
  { loading { batch .full with product := 8#8 } .high with
    additive := ⟨(Vector.replicate 32 none).set 2 (some x), (Vector.replicate 6 []).set 1 [c]⟩ }

/-- A shot of arm 1 in a phase. -/
def flight (phase : ShotPhase) (timer : Option Nat) : Flight := ⟨1, 3, 500, 1000, 1, phase, timer, 0, true⟩

/-- The state in which that shot is awaited. -/
def awaiting : State :=
  dosing { sched .shot with pending := 1 } ⟨inj .shot, [1], some (flight .awaiting (some 1000)), none, Stream.idle⟩

theorem test_shotReport : (run (.shotReport 3#8 500#16 0#8) (asked 2 injDev .poll .scan awaiting)).map
    (fun t => (t.schedules 1).map fun c => (c.delivered, c.settled, c.pending)) = some [(2500, 5, 0)] := by decide +kernel

/-- A running stream for arm 1. -/
def running : InjectorSlot := ⟨inj .stream, [], none, none, ⟨.running, 1, false, 100#32, 0, true, false, true⟩⟩

theorem test_injectorState : (run (.injectorState 1#8 160#32 0#8) (asked 2 injDev .poll .scan (dosing (sched .stream) running))).map
    (fun t => (t.schedules 1).map fun c => c.delivered) = some [60] := by decide +kernel

theorem test_permissiveState : (run (.permissiveState 0x0C#8) (asked 5 monitor .poll .scan (loading (batch .full) .high))).map
    (fun t => (t.batch.permissive, (t.holder 1).map fun b => (b.state, b.stopReason))) =
    some (⟨false, true⟩, some (.stopping, some .permissive)) := by decide +kernel

theorem test_diagnosticReply : (run (.diagnosticReply 0x61#8 [1#8])
    (asked 5 monitor (.diagnostic 0x61#8 []) .passthrough { bay with scan := { bay.scan with slot := some ⟨5, 0x61#8, []⟩ } })).map
    (fun t => (t.scan.slot, t.port.notices.map fun x => (x.code, x.extra))) = some (none, [(0x00#8, some (0x61#8, [1#8]))]) := by
  decide +kernel

/-- The station of lane A has been polled. -/
def polledA (s : State) : State := asked 3 stationA .poll .scan s

theorem test_stationEventList_card : (run (.stationEventList [.card 0x0412776301#40 0#8]) (polledA bay)).map
    (fun t => ((t.lane .a).state, t.load.orders, t.port.notices.map fun x => (x.kind, x.code))) =
    some (.opened, [], [(.loadOpened, 0x00#8)]) := by decide +kernel

theorem test_stationEventList_start : (run (.stationEventList [.start 1#8 1#8]) (polledA opened)).map
    (fun t => ((t.holder 1).map fun b => b.state, (t.arm 1).desired, (t.device 3).bind fun d => d.display)) =
    some (some .startup, .low, some .loading) := by decide +kernel

theorem test_pendingStartLapse : (run (.pendingStartLapse 1 .b)
    { bay with batch := { bay.batch with arms := bay.batch.arms.set 1 { bay.arm 1 with starts := [⟨.b, 1, 10⟩] } } }).map
    (fun t => ((t.arm 1).starts, (t.device 4).bind fun d => d.display)) = some ([], some .armBusy) := by decide +kernel

theorem test_noFlowTimeout : (run (.noFlowTimeout 1) (loading { batch .full with noFlowTimer := some 30 } .high)).map
    (fun t => (t.holder 1).map fun b => (b.state, b.stopReason)) = some (some (.stopping, some .noFlow)) := by decide +kernel

theorem test_stopTimeout : (run (.stopTimeout 1)
    (loading { batch .stopping with stopReason := some .noFlow, stopTimer := some 30 } .closed)).map
    (fun t => (t.holder 1).map fun b => (b.state, b.stopTimer)) = some (some (.halted, none)) := by decide +kernel

theorem test_travelTimerExpiry : (run (.travelTimerExpiry 1)
    { bay with batch := { bay.batch with arms := bay.batch.arms.set 1 { bay.arm 1 with travelTimer := some 30 } } }).map
    (fun t => (t.arm 1).travelTimer) = some none := by decide +kernel

theorem test_shotTimeout : (run (.shotTimeout 2) awaiting).map (fun t => (t.slot 2).bind fun x => x.flight.map fun f => f.phase) =
    some (some .querying) := by decide +kernel

/-- Lane A has a refused card and an override slot that names it. -/
def refused : State :=
  { bay with load := ⟨[order], ⟨{ LaneRec.reset with
    candidate := some ⟨412776301, 7001#32, 120⟩, slot := some ⟨.load, .supervisor, 120⟩ }, LaneRec.reset⟩⟩ }

theorem test_candidateExpiry : (run (.candidateExpiry .a) refused).map (fun t => t.lane .a) = some LaneRec.reset := by decide +kernel

theorem test_overrideDeadline : (run (.overrideDeadline .a) refused).map
    (fun t => ((t.lane .a).slot, (t.device 3).bind fun d => d.display)) = some (none, some .overrideExpired) := by decide +kernel

/-- Lane A is CLOSING and its note-number write runs. -/
def closing : State := (run (.loadClose [0#8]) opened).getD opened

theorem test_noteNumberWriteDone : (run .noteNumberWriteDone closing).map
    (fun t => (t.note.nextNote, t.note.notes.map fun x => x.number, (t.lane .a).state)) = some (2, [1], .none) := by decide +kernel

theorem test_calibrationWriteDone : (run .calibrationWriteDone
    { bay with note := { bay.note with calDue := 2, writing := some ⟨.calibration 2, 0⟩ } }).map
    (fun t => (t.note.calCounter, t.note.writing)) = some (2, none) := by decide +kernel

theorem test_secondTick : (run .secondTick { bay with time := ⟨⟨0x99#8, 0x12#8, 0x31#8, 0x04#8, 0x23#8, 0x59#8, 0x59#8⟩, 9, true⟩ }).map
    (fun t => t.time) = some ⟨⟨0x00#8, 0x01#8, 0x01#8, 0x06#8, 0x00#8, 0x00#8, 0x00#8⟩, 0, true⟩ := by decide +kernel

theorem test_busCharacter : (run (.busCharacter ⟨10#8, false, true, false, false, false⟩) (asked 0 meterDev .poll .scan bay)).map
    (fun t => t.scan.rx) = some ⟨[10#8], false, none⟩ ∧
  (run (.busCharacter ⟨0#8, false, false, false, false, false⟩) bay).map (fun t => t.scan.counters) = some ⟨0, 1, 0, 0⟩ := by decide +kernel

/-- The command in front runs on the queue's rest; on an empty queue the part idles. -/
theorem test_step_takes_the_front : (got (step { bay with pending := [.timeRead [], .secondTick] })).map (fun t => t.pending) =
    some [.secondTick] ∧ got (step bay) = some bay := by decide +kernel

/-! ### The statements' premises are met

For every statement of Certificates/Slice0/Obligations.lean with premises, a state and operands that meet them, clause by clause. -/

/-- The bay with a reply pending. -/
def busy : State := { bay with port := { bay.port with reply := some .accept } }

/-- The bay strapped to address 0. -/
def unstrapped : State := { bay with pads := { bay.pads with addr := 0#5 } }

theorem premises_StepRunsFrontCommand : bay.pending = [] := rfl

theorem premises_RequestsDiscarded :
    requestLength (.noticePoll []) = some 0 ∧ 0 ≤ 240 ∧ busy.port.reply.isSome ∧ unstrapped.pads.addr = 0#5 ∧
      requestLength (.permitWrite (List.replicate 240 0#8)) = some 240 := by decide +kernel

/-- A message of characters that are taken and carry no error. -/
def whole (m : List TermChar) : Bool := m ≠ [] && m.all fun c => !c.blocked && TermChar.error c = .none

/-- A message that passes the first four steps of R8. -/
def intact (m : List Byte) : Bool :=
  whole (m.map good) && 5 ≤ m.length && m.length ≤ 245 && crc m = 0#16 && (byteAt m 2).toNat = m.length - 5

/-- A message whose check is right and whose length byte is not. -/
def mismatched : List Byte := [1#8, 0x51#8, 1#8] ++ beBytes 2 (crc [1#8, 0x51#8, 1#8]).toNat

/-- A character error; a short, a long, an unchecked and a mismatched message; a foreign, a reply-kind and a broadcast message. -/
theorem premises_MessageDiscarded :
    bay.pads.tde = false ∧ bay.port.reply = none ∧ bay.port.rx = ⟨[], 0, false, none⟩ ∧
    TermChar.error ⟨1#8, false, true, false, false⟩ ≠ .none ∧
    whole (List.replicate 4 (good 1#8)) = true ∧ whole (List.replicate 246 (good 1#8)) = true ∧
    whole (List.replicate 5 (good 1#8)) = true ∧ crc (List.replicate 5 1#8) ≠ 0#16 ∧
    whole (mismatched.map good) = true ∧ crc mismatched = 0#16 ∧ (byteAt mismatched 2).toNat ≠ mismatched.length - 5 ∧
    intact (frame 2#8 0x51#8 []) = true ∧ 2#8 ≠ bay.pads.addr.setWidth 8 ∧
    intact (frame 1#8 0xA2#8 (List.replicate 240 0#8)) = true ∧ 0xA2#8 ∈ [0xA0#8, 0xA1#8, 0xA2#8] ∧
    intact (frame 0#8 0x51#8 []) = true ∧ 0x51#8 ≠ 0x50#8 := by decide +kernel

/-- The bay takes requests of every length: what the statements about requests ask of the state. -/
theorem bay_takes_requests : bay.Settled ∧ ∀ n ≤ 240, bay.Reaches n :=
  ⟨rfl, fun _ h => ⟨h, by decide, rfl⟩⟩

theorem premises_UnknownKindRefused : bay.Settled ∧ bay.Reaches 240 ∧
    0x99#8 ∉ [0x10#8, 0x11#8, 0x12#8, 0x20#8, 0x21#8, 0x22#8, 0x23#8, 0x24#8, 0x30#8, 0x31#8, 0x32#8, 0x33#8, 0x34#8, 0x40#8,
      0x41#8, 0x50#8, 0x51#8, 0x60#8, 0x61#8, 0x70#8] ∧
    0x99#8 ∉ [0xA0#8, 0xA1#8, 0xA2#8] ∧ 0xA2#8 ∈ [0xA0#8, 0xA1#8, 0xA2#8] := by
  unfold State.Settled State.Reaches; decide +kernel

theorem premises_StatusReadAnswers : bay.Settled ∧ bay.Reaches 1 ∧ ([] : List Byte).length ≠ 1 ∧ bay.Reaches 0 ∧
    (List.replicate 240 0#8).length ≠ 1 ∧ bay.Reaches 240 := by
  unfold State.Settled State.Reaches; decide +kernel

theorem premises_NoticePollAnswers : bay.Settled ∧ bay.Reaches 0 ∧ [0#8] ≠ [] ∧ bay.Reaches 1 := by
  unfold State.Settled State.Reaches; decide +kernel

/-- Both a set and a clear mask bit, and a queue with 31 and with 32 notices. -/
theorem premises_NoticeMaskGates : bay.Settled ∧ bay.Reaches 2 ∧ [0#8].length ≠ 2 ∧ bay.Reaches 1 ∧
    bay.port.mask.getLsbD NoticeKind.passthrough.number = true ∧ (List.replicate 31 notice).length < 32 ∧
    (0x3FFB#16).getLsbD NoticeKind.batchStarted.number = false ∧ 32 ≤ (List.replicate 32 notice).length := by
  unfold State.Settled State.Reaches; decide +kernel

theorem premises_BayModeTable : bay.Settled ∧ bay.Reaches 1 ∧ bay.port.mode = .inService ∧ bay.loadsHeld = 0 ∧
    idle.Settled ∧ idle.Reaches 1 ∧ idle.port.mode ≠ .inService ∧ idle.inconsistency = none ∧ idle.time.timeSet = true ∧
    (let unset := { idle with time := ⟨noon, 0, false⟩ }
     unset.Settled ∧ unset.Reaches 1 ∧ unset.port.mode ≠ .inService ∧ unset.inconsistency = none ∧ unset.time.timeSet = false) ∧
    State.reset.Settled ∧ State.reset.Reaches 1 ∧ State.reset.port.mode ≠ .inService ∧ State.reset.inconsistency.isSome ∧
    opened.Settled ∧ opened.Reaches 1 ∧ opened.port.mode = .inService ∧ 0 < opened.loadsHeld ∧
    [0#8] ≠ [] ∧ bay.Reaches (1 + 1) ∧ bay.Reaches 0 ∧ 0x02#8 ≠ 0x00#8 ∧ 0x02#8 ≠ 0x01#8 := by
  unfold State.Settled State.Reaches; decide +kernel

theorem premises_RestartEffect : bay.Settled ∧ bay.Reaches 0 ∧ bay.loadsHeld = 0 ∧ opened.Settled ∧ opened.Reaches 0 ∧
    0 < opened.loadsHeld ∧ [0#8] ≠ [] ∧ bay.Reaches 1 := by
  unfold State.Settled State.Reaches; decide +kernel

theorem premises_TimeSetAndRead : bay.Settled ∧ bay.Reaches 7 ∧ noon.bytes.length = 7 ∧ noon.valid = true ∧
    ({ noon with weekday := 0x05#8 } : TimeRec).valid = false ∧ [0#8].length ≠ 7 ∧ bay.Reaches 1 ∧ bay.port.reply = none ∧
    busy.Settled ∧ busy.port.reply.isSome := by
  unfold State.Settled State.Reaches; decide +kernel

theorem premises_TimeSetAndRead_read : bay.Settled ∧ bay.Reaches 0 ∧ [0#8] ≠ [] ∧ bay.Reaches 1 := by
  unfold State.Settled State.Reaches; decide +kernel

/-- A record at each carry, the last second of the century among them. -/
theorem premises_SecondTickCounts : noon.valid = true ∧ noon.second ≠ 0x59#8 ∧
    (∀ t ∈ [(⟨0x24#8, 0x03#8, 0x14#8, 0x04#8, 0x10#8, 0x58#8, 0x59#8⟩ : TimeRec), ⟨0x24#8, 0x03#8, 0x14#8, 0x04#8, 0x22#8, 0x59#8, 0x59#8⟩,
      ⟨0x24#8, 0x02#8, 0x28#8, 0x03#8, 0x23#8, 0x59#8, 0x59#8⟩, ⟨0x24#8, 0x02#8, 0x29#8, 0x04#8, 0x23#8, 0x59#8, 0x59#8⟩,
      ⟨0x98#8, 0x12#8, 0x31#8, 0x03#8, 0x23#8, 0x59#8, 0x59#8⟩, ⟨0x99#8, 0x12#8, 0x31#8, 0x04#8, 0x23#8, 0x59#8, 0x59#8⟩],
      t.valid = true ∧ t.second = 0x59#8) ∧
    bcdVal 0x28#8 < daysInMonth 24 2 ∧ bcdVal 0x29#8 = daysInMonth 24 2 := by decide +kernel

theorem premises_PermitWriteEffect : bay.Settled ∧ bay.PermitsOrdered ∧ bay.Reaches 21 ∧ permitBytes.length = 21 ∧
    permitClassOf (byteAt permitBytes 5) = some .driver ∧ permitStateOf (byteAt permitBytes 6) = some .active ∧
    restrictionOf (byteAt permitBytes 19) = some none ∧ permitClassOf 0x02#8 = none ∧ permitStateOf 0x03#8 = none ∧
    restrictionOf 0x02#8 = none ∧ (permitBytes.take 5).all bcdOk = true ∧ realDate 0x25#8 0x06#8 0x30#8 = true ∧ 50000 ≤ 999999 ∧
    realDate 0x25#8 0x06#8 0x31#8 = false ∧ (∃ q ∈ bay.permits, q.card = 412776301) ∧ (∀ q ∈ bay.permits, q.card ≠ 5) ∧
    bay.permits.length < 256 := by
  unfold State.Settled State.Reaches State.PermitsOrdered; decide +kernel

/-- A permit table that is full. -/
def crowd : List Permit := (List.range 256).map fun k => { driver with card := k }

theorem premises_PermitWriteEffect_full : crowd.Pairwise (fun p q => p.card < q.card) ∧ crowd.length = 256 ∧
    ∀ q ∈ crowd, q.card ≠ 256 := by decide +kernel

/-- The card of the driver permit. -/
def driverCard : List Byte := [0x04#8, 0x12#8, 0x77#8, 0x63#8, 0x01#8]

theorem premises_PermitDeleteEffect : bay.Settled ∧ bay.Reaches 5 ∧ bay.Reaches 4 ∧ driverCard.length = 5 ∧
    driverCard.all bcdOk = true ∧ [0xA0#8, 0#8, 0#8, 0#8, 0#8].all bcdOk = false ∧
    (∀ q ∈ bay.permits, q.card ≠ bcdNat [0#8, 0#8, 0#8, 0#8, 0#8]) ∧ (∃ q ∈ bay.permits, q.card = bcdNat driverCard) ∧
    (bay.lane .a).state = .none ∧ (bay.lane .b).state = .none ∧ (bay.lane .a).candidate = none ∧ (bay.lane .b).candidate = none ∧
    opened.Settled ∧ opened.Reaches 5 ∧ opened.permits = bay.permits ∧ (opened.lane .a).state ≠ .none ∧
    (opened.lane .a).load = some load ∧ load.card = bcdNat driverCard := by
  unfold State.Settled State.Reaches; decide +kernel

theorem premises_PermitReadAnswers : bay.Settled ∧ bay.PermitsOrdered ∧ bay.permits[1]? = some supervisor ∧ driverCard.length = 5 ∧
    driverCard.all bcdOk = true ∧ bay.permits[0]? = some driver ∧ bcdNat driverCard = driver.card ∧ bay.Reaches 6 ∧ bay.Reaches 2 ∧
    (∀ p ∈ bay.permits, p.card ≠ bcdNat [0#8, 0#8, 0#8, 0#8, 0#8]) ∧ [0xA0#8, 0#8, 0#8, 0#8, 0#8].all bcdOk = false ∧
    bay.permits.length ≤ (byteAt [2#8] 0).toNat := by
  unfold State.Settled State.Reaches State.PermitsOrdered; decide +kernel

/-- An order of a known product, and its refusals: none and nine compartments, compartment 9, a double compartment, an unknown
product, a used reference, a full queue. -/
theorem premises_OrdersPlacedAndCancelled : bay.Settled ∧ bay.Reaches orderBytes.length ∧
    orderBytes.length = 16 + 4 * (byteAt orderBytes 15).toNat ∧ restrictionOf (byteAt orderBytes 14) = some none ∧
    (∀ b ∈ (orderBytes.drop 6).take 8, 0x20 ≤ b.toNat ∧ b.toNat ≤ 0x7E) ∧ 1 ≤ (byteAt orderBytes 16).toNat ∧
    (byteAt orderBytes 16).toNat ≤ 8 ∧ (∃ x ∈ bay.batch.products, x.code = byteAt orderBytes 17) ∧
    (∀ x ∈ bay.batch.products, x.code ≠ 9#8) ∧ (∀ o ∈ bay.load.orders, o.reference ≠ 9#32) ∧
    (∃ o ∈ bay.load.orders, o.reference = 7001#32) ∧ bay.load.orders.length < 8 ∧ 8 ≤ (List.replicate 8 order).length ∧
    [0#8, 0#8, 0x1B#8, 0x59#8].length = 4 ∧ 0#8 ++ 0#8 ++ 0x1B#8 ++ 0x59#8 = 7001#32 ∧ bay.Reaches 4 := by
  unfold State.Settled State.Reaches; decide +kernel

theorem premises_LoadCloseEffect : opened.Settled ∧ opened.Reaches 1 ∧ (opened.lane .a).state = .opened ∧
    (opened.lane .a).load = some load ∧ (∀ n : Arm, opened.holder n = none) ∧ (opened.lane .b).state = .none ∧
    closing.Settled ∧ (closing.lane .a).state = .closing ∧ closing.port.reply = some .accept ∧ 1 < (byteAt [2#8] 0).toNat := by
  unfold State.Settled State.Reaches; decide +kernel

/-- The CLOSING lane with the reply sent. -/
theorem premises_LoadCloseEffect_again : let s := (run .replySent closing).getD closing
    s.Settled ∧ s.Reaches 1 ∧ (s.lane .a).state = .closing := by
  unfold State.Settled State.Reaches; decide +kernel

/-- Arm 1 held by a batch in each state that the table of R94 names, free, and free with a pending start. -/
theorem premises_BatchAbortEffect :
    (∀ st ∈ [BatchState.armed, .startup, .full, .topoff, .stopping, .halted],
      (loading (batch st) .closed).Settled ∧ (loading (batch st) .closed).Reaches 1 ∧
        (loading (batch st) .closed).holder 1 = some (batch st) ∧ (batch st).state = st) ∧
    bay.Settled ∧ bay.Reaches 1 ∧ bay.holder 1 = none ∧ (bay.arm 1).starts = [] ∧ 5 < (byteAt [6#8] 0).toNat ∧
    (({ bay.arm 1 with starts := [⟨.b, 1, 10⟩] } : ArmRec).starts ≠ []) := by
  unfold State.Settled State.Reaches; decide +kernel

/-- Lane A with the override slot of an ADDITIVE halt of arm 1, supervisor half given. -/
def halted : State :=
  let s := loading { batch .halted with stopReason := some .additive } .closed
  { s with load := { s.load with lanes := { s.load.lanes with a := { s.load.lanes.a with slot := some ⟨.arm 1, .supervisor, 120⟩ } } } }

theorem premises_OverrideEffect : bay.Settled ∧ bay.Reaches 2 ∧ laneOf (byteAt [0#8, 0xFF#8] 0) = some .a ∧
    targetOf (byteAt [0#8, 0xFF#8] 1) = some .load ∧ laneOf 2#8 = none ∧ targetOf 6#8 = none ∧ (bay.lane .a).slot = none ∧
    (bay.lane .a).candidate = none ∧ refused.Settled ∧ refused.Reaches 2 ∧
    (refused.lane .a).slot = some ⟨.load, .supervisor, 120⟩ ∧ (refused.lane .a).candidate = some ⟨412776301, 7001#32, 120⟩ ∧
    refused.load.orders.find? (fun o => o.reference = 7001#32) = some order ∧ targetOf 1#8 = some (.arm 1) ∧ halted.Settled ∧
    halted.Reaches 2 ∧ (halted.lane .a).slot = some ⟨.arm 1, .supervisor, 120⟩ ∧
    halted.holder 1 = some { batch .halted with stopReason := some .additive } := by
  unfold State.Settled State.Reaches; decide +kernel

/-- The opening checks pass, and fail with the bay out of service. -/
theorem premises_OverrideEffect_permit : (∃ q, refused.openingPermit .a 412776301 = .ok q) ∧
    ∃ d, State.openingPermit { refused with port := idle.port } .a 412776301 = .error d :=
  ⟨⟨_, rfl⟩, ⟨_, rfl⟩⟩

theorem premises_NoteTakeAnswers : noted.Settled ∧ noted.Reaches 1 ∧ noted.Reaches 0 ∧ noted.note.notes = [note] ∧ bay.note.notes = [] ∧
    note.body.entries.length < (2#8).toNat ∧ note.body.calAtClose < 256 ^ 3 ∧ note.body.gross < 256 ^ 4 ∧ note.body.net < 256 ^ 4 ∧
    (let e := OrderLine.entry ⟨1, 7#8, 9000⟩
     note.body.entries[(1#8).toNat - 1]? = some e ∧ e.preset < 256 ^ 3 ∧ e.state ≠ .done) ∧
    (let e : CompEntry := { OrderLine.entry ⟨1, 7#8, 9000⟩ with
      arm := some 1, state := .done, gross := 90225, net := 88883, avgTemp := -1234, vcf := some 98512, reason := some .preset
      additives := [⟨5#8, 451, 450, .ok⟩] }
     e.state = .done ∧ e.gross < 256 ^ 4 ∧ e.net < 256 ^ 4 ∧ -32768 ≤ e.avgTemp ∧ e.avgTemp ≤ 32767 ∧
       ∀ r ∈ e.additives, r.target < 256 ^ 4 ∧ r.delivered < 256 ^ 4) := by
  unfold State.Settled State.Reaches; decide +kernel

theorem premises_NoteReleaseEffect : noted.Settled ∧ noted.Reaches 4 ∧ noted.note.notes = [note] ∧
    (∀ b ∈ [0x00#8, 0x00#8, 0x47#8, 0x09#8], b.toNat / 16 ≤ 9 ∧ b.toNat % 16 ≤ 9) ∧
    bcdNat [0x00#8, 0x00#8, 0x47#8, 0x09#8] ≠ 0 ∧ note.number = bcdNat [0x00#8, 0x00#8, 0x47#8, 0x09#8] ∧
    note.number ≠ bcdNat [0x00#8, 0x00#8, 0x47#8, 0x10#8] ∧ bcdNat [0#8, 0#8, 0#8, 0#8] = 0 ∧ bay.note.notes = [] ∧ bay.Settled ∧
    bay.Reaches 4 ∧ bay.Reaches 3 := by
  unfold State.Settled State.Reaches; decide +kernel

/-- An entry of each outcome: refused in form and in each value, refused WRONG MODE, IN USE and DUPLICATE, written anew, written again. -/
theorem premises_DeviceWriteEffect : bay.Settled ∧ bay.Reaches 7 ∧ bay.Reaches 6 ∧ [0#8, 1#8, 5#8, 0#8, 20#8].length ≠ 6 ∧
    deviceKindOf 5#8 = none ∧ deviceKindOf 1#8 = some .valve ∧ deviceKindOf 2#8 = some .injector ∧ 31 < (32#8).toNat ∧
    126 < (127#8).toNat ∧ assocOf .valve 6#8 = none ∧ (4#8).toNat < 5 ∧ 100 < (101#8).toNat ∧ (0#8).toNat < 1 ∧ 10 < (11#8).toNat ∧
    assocOf .valve 1#8 = some (.arm 1) ∧ bay.port.mode ≠ .outOfService ∧
    (bay.device 1 = some valveDev ∧ valveDev.kind = .valve ∧ valveDev.assoc = .arm 1 ∧ bay.deviceInUse 1 valveDev = false) ∧
    (∀ (j : DevIx) (o : Device), bay.device j = some o → o.address ≠ 20#8) ∧ bay.device 6 = none ∧ valveDev.assoc ≠ .arm 0 ∧
    (loading (batch .full) .high).Settled ∧ (loading (batch .full) .high).Reaches 7 ∧
    (loading (batch .full) .high).device 1 = some valveDev ∧ (loading (batch .full) .high).deviceInUse 1 valveDev = true ∧
    bay.device 0 = some meterDev ∧ meterDev.address = 10#8 := by
  refine ⟨rfl, ⟨by decide, by decide, rfl⟩, ⟨by decide, by decide, rfl⟩, ?_⟩
  refine ⟨by decide, by decide, by decide, by decide, by decide, by decide, by decide, by decide, by decide, by decide, by decide,
    by decide, by decide, ⟨rfl, rfl, rfl, by decide +kernel⟩, ?_, rfl, by decide, rfl, ⟨by decide, by decide, rfl⟩, rfl,
    by decide +kernel, rfl, rfl⟩
  have h : ∀ j : DevIx, (bay.device j).all (fun o => o.address ≠ 20#8) = true := by decide +kernel
  intro j o e
  have := h j
  rw [e] at this
  simpa using this

theorem premises_DeviceEmptyEffect : idle.Settled ∧ idle.Reaches 7 ∧ [0#8].length ≠ 4 ∧ idle.Reaches 4 ∧ [0#8, 0#8, 0#8, 0#8].length = 4 ∧
    31 < (32#8).toNat ∧ idle.device 6 = none ∧ idle.port.mode = .outOfService ∧ idle.device 1 = some valveDev ∧
    idle.deviceInUse 1 valveDev = false ∧ valveDev.kind = .valve ∧ bay.Settled ∧ bay.Reaches 7 ∧ bay.device 1 = some valveDev ∧
    bay.port.mode ≠ .outOfService ∧
    (let s := { loading (batch .full) .high with port := idle.port }
     s.Settled ∧ s.Reaches 7 ∧ s.port.mode = .outOfService ∧ s.device 1 = some valveDev ∧ s.deviceInUse 1 valveDev = true) := by
  unfold State.Settled State.Reaches; decide +kernel

theorem premises_ScanListAndFilterWrite : bay.Settled ∧ (List.replicate 64 (31 : DevIx)).length ≤ 64 ∧ bay.Reaches (2 + 64) ∧
    bay.Reaches 1 ∧ bay.Reaches 6 ∧ [0#8].length ≠ (2#8).toNat ∧ (List.replicate 65 0#8).length = (65#8).toNat ∧
    64 < (65#8).toNat ∧ bay.Reaches (2 + 65) ∧ [32#8].length = (1#8).toNat ∧ (∃ b ∈ [32#8], 31 < b.toNat) ∧ (4#8).toNat < 5 ∧
    5 ≤ (5#8).toNat ∧ [0#8].length ≠ 5 ∧ bay.Reaches 2 := by
  unfold State.Settled State.Reaches; decide +kernel

/-- Settings at their bounds, a new reference temperature and the one that stands, and a bay that serves with inconsistent tables. -/
theorem premises_BaySettingsWrite : bay.Settled ∧ bay.Reaches 8 ∧ bay.Reaches 2 ∧ [0#8].length ≠ 7 ∧ bay.inconsistency = none ∧
    0x07 * 256 + 0xD0 = 2000 ∧ 0x05 * 256 + 0xDC = bay.batch.settings.tref ∧ 2000 ≠ bay.batch.settings.tref ∧ 30 ≤ 300 ∧ 2 ≤ 30 ∧
    5 ≤ 120 ∧ 1#8 ≠ 0#8 ∧
    (let s := { bay with batch := { bay.batch with armTable := Vector.replicate 6 none } }
     s.Settled ∧ s.Reaches 8 ∧ s.port.mode ≠ .outOfService ∧ s.inconsistency.isSome) := by
  unfold State.Settled State.Reaches; decide +kernel

/-- The bay with a full product table. -/
def manyProducts : State :=
  { idle with batch := { idle.batch with products := (List.range 32).map fun k => ⟨BitVec.ofNat 8 (100 + k), 1, 1200, []⟩ } }

/-- A product in the open load, one with a new α, one with the α that stands, an unknown one and one out of range. -/
theorem premises_ProductWriteEffect :
    (let x : Product := ⟨7#8, 1, 1200, [⟨5#8, 2, 500, true⟩]⟩
     bay.Settled ∧ bay.Reaches (2 + x.bytes.length) ∧ x.cls ≤ 15 ∧ 100 ≤ x.alpha ∧ x.alpha ≤ 2000 ∧ x.recipe.length ≤ 3 ∧
      (∀ r ∈ x.recipe, r.additive ≠ 0#8 ∧ 1 ≤ r.ratio ∧ r.ratio ≤ 20000) ∧ (x.recipe.map fun r => r.additive).Nodup ∧
      (x.recipe.map fun r => r.injector).Nodup ∧ (bay.lane .a).state = .none ∧ (bay.lane .b).state = .none ∧
      (bay.product 7#8).map (fun y => y.alpha) = some 1200 ∧ bay.product 9#8 = none ∧ bay.batch.products.length < 32 ∧
      bay.batch.products.Pairwise (fun y z => y.code.toNat < z.code.toNat)) ∧
    (opened.lane .a).state ≠ .none ∧ (opened.lane .a).load = some load ∧ (∃ e ∈ load.entries, e.product = 7#8) ∧
    manyProducts.product 7#8 = none ∧ 32 ≤ manyProducts.batch.products.length ∧
    bay.port.mode ≠ .outOfService ∧ (⟨7#8, 254, 65535, []⟩ : Product).cls ≤ 254 ∧ bay.Reaches 3 ∧ bay.Reaches 4 ∧
    (∃ o ∈ bay.load.orders, ∃ x ∈ o.lines, x.product = 7#8) ∧ (∀ o ∈ bay.load.orders, ∀ x ∈ o.lines, x.product ≠ 8#8) := by
  unfold State.Settled State.Reaches; decide +kernel

/-- A product whose recipe names a device that is no injector makes the tables inconsistent. -/
theorem premises_ProductWriteEffect_wrongMode :
    ({ bay with batch := { bay.batch with products := [⟨7#8, 1, 1200, [⟨5#8, 3, 500, true⟩]⟩] } } : State).inconsistency.isSome := by
  decide +kernel

theorem premises_ArmWriteEffect :
    (let e := { arm1 with km := 9999999, leadMax := 5000, cutoff := 2000 }
     bay.Settled ∧ bay.Reaches (2 + e.bytes.length) ∧ e.km < 2 ^ 32 ∧ e.maxPulses < 2 ^ 24 ∧
      (∀ x ∈ [e.maxFlow, e.startup, e.slowdown, e.leadInitial, e.leadMin, e.leadMax, e.cutoff, e.leak], x < 2 ^ 16) ∧
      (∀ x ∈ e.curve, x.1 < 2 ^ 16 ∧ x.2 < 2 ^ 24) ∧ 1000 ≤ e.km ∧ e.km ≤ 9999999 ∧ 1 ≤ e.curve.length ∧ e.curve.length ≤ 4 ∧
      (∀ x ∈ e.curve, 1 ≤ x.1 ∧ x.1 ≤ 9999 ∧ 90000 ≤ x.2 ∧ x.2 ≤ 110000) ∧ e.curve.Pairwise (fun x y => x.1 < y.1) ∧
      1 ≤ e.maxPulses ∧ e.maxFlow ≤ 9999 ∧ e.startup ≤ 2000 ∧ e.slowdown ≤ 5000 ∧ e.leadMin ≤ e.leadInitial ∧
      e.leadInitial ≤ e.leadMax ∧ bay.armEntry 1 = some arm1 ∧ arm1.km ≠ e.km ∧ bay.armEntry 0 = none) ∧
    bay.holder 1 = none ∧ (loading (batch .full) .high).holder 1 = some (batch .full) ∧
    ({ bay with batch := { bay.batch with armTable := bay.batch.armTable.set 1 (some { arm1 with meter := 3 }) } } : State).inconsistency.isSome ∧
    bay.port.mode ≠ .outOfService ∧ bay.Reaches 3 ∧ bay.Reaches 4 ∧ 5 < (6#8).toNat := by
  unfold State.Settled State.Reaches; decide +kernel

theorem premises_InjectorWriteEffect :
    (let e := inj .stream
     bay.Settled ∧ bay.Reaches 16 ∧ e.shotSize < 2 ^ 16 ∧ e.tolerance < 256 ∧ e.shotTimeout < 2 ^ 16 ∧ e.streamMin < 2 ^ 16 ∧
      (∀ n : Arm, (e.outlets[n]).all (fun k => k ≤ 5) = true) ∧ 1 ≤ e.shotSize ∧ e.shotSize ≤ 5000 ∧ e.tolerance ≤ 20 ∧
      200 ≤ e.shotTimeout ∧ e.shotTimeout ≤ 5000 ∧ 1 ≤ e.streamMin ∧ e.streamMin ≤ 50000 ∧ (∃ n : Arm, (e.outlets[n]).isSome) ∧
      ∀ m n : Arm, (e.outlets[m]).isSome → (e.outlets[n]).isSome → m = n) ∧
    bay.slot 9 = none ∧ (bay.slot 2).isSome ∧ (allDevIx.filter fun j => (bay.slot j).isSome).length < 8 ∧
    (awaiting.slot 2).map (fun x => x.queue) = some [1] ∧ awaiting.Settled ∧ awaiting.Reaches 16 ∧
    ({ bay with additive := { bay.additive with slots := bay.additive.slots.set 2 none } } : State).inconsistency.isSome ∧
    bay.port.mode ≠ .outOfService ∧ bay.Reaches 3 ∧ bay.Reaches 4 ∧ 31 < (32#8).toNat := by
  unfold State.Settled State.Reaches; decide +kernel

theorem premises_TableReadAnswers : bay.Settled ∧ bay.Reaches 2 ∧ 31 < (32#8).toNat ∧ bay.device 31 = none ∧
    bay.device 0 = some meterDev ∧ bay.slot 31 = none ∧ (bay.slot 2).isSome ∧ (4#8).toNat < 5 ∧ 5 ≤ (5#8).toNat ∧
    bay.product 9#8 = none ∧ (bay.product 8#8).isSome ∧ 5 < (6#8).toNat ∧ bay.armEntry 0 = none ∧ bay.armEntry 1 = some arm1 ∧
    (bay.arm 1).stopLead = some 800 ∧ ([] : List Byte).length ≠ 1 ∧ bay.Reaches 1 := by
  unfold State.Settled State.Reaches; decide +kernel

/-- Tables that pass, and tables that fail each of the five conditions first. -/
theorem premises_ConsistencyReported : bay.Settled ∧ bay.Reaches 2 ∧ bay.inconsistency = none ∧
    State.reset.inconsistency = some (0x01#8, 0xFF#8) ∧
    ({ bay with scan := { bay.scan with devices := bay.scan.devices.set 1 none } } : State).inconsistency = some (0x02#8, 1#8) ∧
    ({ bay with scan := { bay.scan with devices := bay.scan.devices.set 3 none } } : State).inconsistency = some (0x03#8, 0#8) ∧
    ({ bay with scan := { bay.scan with devices := bay.scan.devices.set 4 none } } : State).inconsistency = some (0x03#8, 1#8) ∧
    ({ bay with scan := { bay.scan with devices := bay.scan.devices.set 5 none } } : State).inconsistency = some (0x04#8, 0xFF#8) ∧
    ({ bay with scan := { bay.scan with devices := bay.scan.devices.set 2 none } } : State).inconsistency = some (0x05#8, 8#8) ∧
    State.reset.Settled ∧ State.reset.Reaches 2 ∧ 1#8 ≠ 0#8 := by
  unfold State.Settled State.Reaches; decide +kernel

/-- The bay whose pass filter takes kind 61H at the monitor, the meter and the injector. -/
def passing : State :=
  { bay with scan := { bay.scan with filter := (((bay.scan.filter.set 0 2#32).set 2 2#32).set 4 2#32) } }

theorem premises_PassthroughServed : passing.Settled ∧ passing.Reaches (2 + 64) ∧ passing.Reaches 2 ∧ passing.Reaches 1 ∧
    passing.Reaches 67 ∧ (List.replicate 64 0#8).length ≤ 64 ∧ 66 < (List.replicate 67 0#8).length ∧ [5#8].length < 2 ∧
    31 < (32#8).toNat ∧ passing.device 31 = none ∧ passing.device 5 = some monitor ∧
    (passing.scan.filter[monitor.kind.index]).getLsbD ((0x61#8).toNat - 0x60) = true ∧
    (passing.scan.filter[monitor.kind.index]).getLsbD ((0x7F#8).toNat - 0x60) = false ∧ passing.scan.slot = none ∧
    passing.device 0 = some meterDev ∧ meterDev.assoc = .arm 1 ∧ (loading (batch .full) .high).holder 1 = some (batch .full) := by
  unfold State.Settled State.Reaches; decide +kernel

/-- The bay while a telegram is being sent. -/
def sending : State :=
  { bay with
    scan := { bay.scan with transaction := some ⟨0, 10#8, .poll, .scan, 20, false, false, false⟩ }
    pads := { bay.pads with bde := true } }

theorem premises_LinesReleased : sending.Settled ∧
    sending.scan.transaction = some ⟨0, 10#8, .poll, .scan, 20, false, false, false⟩ ∧ bay.Settled ∧ bay.scan.transaction = none ∧
    bay.scan.quiet = false ∧ ({ bay with scan := { bay.scan with quiet := true } } : State).scan.quiet = true := by
  unfold State.Settled; decide +kernel

/-- Each step's transaction, at a device with misses below and at the limit, from both fault sources, and an entry written meanwhile. -/
theorem premises_ResponseTimeoutMiss :
    (∀ step ∈ [PickStep.urgentClose, .valve, .injector, .scan, .passthrough], (asked 1 valveDev .poll step bay).Settled ∧
      (asked 1 valveDev .poll step bay).scan.transaction = some ⟨1, 11#8, .poll, step, 20, true, false, false⟩ ∧
      (asked 1 valveDev .poll step bay).device 1 = some valveDev) ∧
    valveDev.misses + 1 < valveDev.missLimit ∧ valveDev.missLimit ≤ ({ valveDev with misses := 2 } : Device).misses + 1 ∧
    bay.Settled ∧ bay.scan.transaction = none := by
  unfold State.Settled; decide +kernel

theorem awaits_bay (i : DevIx) (d : Device) (tel : Telegram) (step : PickStep) (s : State) (h : s.scan.rx = ⟨[], false, none⟩)
    (e : s.device i = some d) : (asked i d tel step s).AwaitsReply ⟨i, d.address, tel, step, d.timeout, true, false, false⟩ d :=
  ⟨rfl, rfl, rfl, h, e⟩

theorem premises_UnacceptedReplyIsMiss : replyFits (.permissiveState 0#8) = true ∧ replyFits (.diagnostic 0x61#8 []) = true ∧
    (asked 0 meterDev .poll .scan bay).Settled ∧
    (asked 0 meterDev .poll .scan bay).AwaitsReply ⟨0, 10#8, .poll, .scan, 20, true, false, false⟩ meterDev ∧
    (asked 5 monitor (.diagnostic 0x61#8 []) .passthrough bay).AwaitsReply
      ⟨5, 15#8, .diagnostic 0x61#8 [], .passthrough, 20, true, false, false⟩ monitor ∧
    replyKind (.permissiveState 0#8) ∉ [0x41#8] ∧ 0x60 ≤ (replyKind (.diagnostic 0x61#8 [])).toNat ∧
    Telegram.poll.isDiagnostic = false ∧ (Telegram.diagnostic 0x61#8 []).isDiagnostic = true ∧ bay.scan.transaction = none :=
  ⟨rfl, rfl, rfl, awaits_bay 0 meterDev .poll .scan bay rfl rfl,
    awaits_bay 5 monitor (.diagnostic 0x61#8 []) .passthrough bay rfl rfl, by decide, by decide, rfl, rfl, rfl⟩

theorem premises_PassthroughServed_reply : (asked 5 monitor (.diagnostic 0x61#8 []) .passthrough bay).Settled ∧
    (asked 5 monitor (.diagnostic 0x61#8 []) .passthrough bay).AwaitsReply
      ⟨5, 15#8, .diagnostic 0x61#8 [], .passthrough, 20, true, false, false⟩ monitor ∧
    (Telegram.diagnostic 0x61#8 []).isDiagnostic = true ∧ 0x60 ≤ (0x7F#8).toNat ∧ (0x7F#8).toNat ≤ 0x7F ∧
    (List.replicate 32 0#8).length ≤ 32 :=
  ⟨rfl, awaits_bay 5 monitor (.diagnostic 0x61#8 []) .passthrough bay rfl rfl, rfl, by decide, by decide, by decide⟩

theorem premises_BusCharacterJudged : sending.Settled ∧ sending.pads.bde = true ∧ bay.Settled ∧ bay.pads.bde = false ∧
    bay.scan.rx.held = none ∧ bay.scan.rx.broken = false ∧ bay.scan.transaction = none ∧
    ({ bay.scan.rx with held := some ⟨1#8, false, true, true, false, false⟩ } : BusRx).held.isSome ∧
    (asked 0 meterDev .poll .scan bay).Settled ∧ (asked 0 meterDev .poll .scan bay).pads.bde = false ∧
    (asked 0 meterDev .poll .scan bay).scan.transaction = some ⟨0, 10#8, .poll, .scan, 20, true, false, false⟩ ∧
    (asked 0 meterDev .poll .scan bay).scan.rx = ⟨[], false, none⟩ ∧ BusChar.error ⟨0#8, false, false, false, false, false⟩ ≠ .none ∧
    BusChar.error ⟨10#8, false, true, false, false, false⟩ = .none := by
  unfold State.Settled; decide +kernel

theorem online_bay (i : DevIx) (d : Device) (tel : Telegram) (step : PickStep) (s : State) (h : s.scan.rx = ⟨[], false, none⟩)
    (e : s.device i = some d) (p : step ≠ .passthrough) (o : d.state = .online) :
    (asked i d tel step s).AwaitsOnline ⟨i, d.address, tel, step, d.timeout, true, false, false⟩ d :=
  ⟨awaits_bay i d tel step s h e, p, o⟩

/-- The meter of the free arm 1 polled: fresh and tracking, within and above the leak threshold, at and above the pulse bound. -/
theorem premises_MeterSampleIdle : (asked 0 meterDev .poll .scan bay).Settled ∧
    (asked 0 meterDev .poll .scan bay).AwaitsOnline ⟨0, 10#8, .poll, .scan, 20, true, false, false⟩ meterDev ∧
    meterDev.kind = .meter ∧ meterDev.assoc = .arm 1 ∧ bay.armEntry 1 = some arm1 ∧ arm1.meter = 0 ∧
    (bay.metering 1).history = .tracking ∧ Metering.start.history = .fresh ∧ bay.holder 1 = none ∧
    arm1.maxPulses < (5001#32 - (bay.metering 1).lastPulses).toNat ∧ (5000#32 - (bay.metering 1).lastPulses).toNat = arm1.maxPulses ∧
    (1005#32 - (bay.metering 1).lastPulses).toNat = arm1.leak ∧ arm1.leak < (1006#32 - (bay.metering 1).lastPulses).toNat ∧
    (0x01#8).getLsbD 0 = true ∧ (0x01#8).getLsbD 1 = false ∧ (6000#16).toInt ≤ 6000 ∧ 6000 < (6001#16).toInt :=
  ⟨rfl, online_bay 0 meterDev .poll .scan bay rfl rfl (by decide) rfl, rfl, rfl, rfl, rfl, rfl, rfl, rfl, by decide, by decide,
    by decide, by decide, by decide, by decide, by decide, by decide⟩

theorem premises_MeterSampleFlowing :
    (let s := asked 0 meterDev .poll .scan (loading (batch .full) .high)
     s.Settled ∧ s.AwaitsOnline ⟨0, 10#8, .poll, .scan, 20, true, false, false⟩ meterDev ∧ s.armEntry 1 = some arm1 ∧
      s.holder 1 = some (batch .full) ∧ (batch .full).state = .full ∧ (batch .full).degraded = false ∧
      s.product (batch .full).product = some ⟨7#8, 1, 1200, []⟩ ∧ s.schedules 1 = [] ∧ (s.metering 1).history = .tracking) ∧
    (let raw := (2350 * 1000000000 + 0) / arm1.km
     let rate := raw * 60 / (min 5000 (max 1 500) * 1000)
     let gross := (raw * meterFactor rate arm1.curve + 0) / 100000
     (3350#32 - 1000#32).toNat = 2350 ∧ 2350 ≤ arm1.maxPulses ∧ rate ≤ arm1.maxFlow ∧
      (800 : Int) * 100000 < ((batch .full).preset : Int) * 1000000 - ((batch .full).gross + gross : Nat) ∧
      (arm1.slowdown : Int) * 1000000 < ((batch .full).preset : Int) * 1000000 - ((batch .full).gross + gross : Nat) ∧
      (batch .full).raw + raw < 2 ^ 48 ∧ (batch .full).gross + gross < 2 ^ 48 ∧ (batch .full).weightBase + gross < 2 ^ 48 ∧
      (batch .full).tempWeight + (2740#16).toInt * gross < 2 ^ 63) :=
  ⟨⟨rfl, online_bay 0 meterDev .poll .scan (loading (batch .full) .high) rfl rfl (by decide) rfl, rfl, rfl, rfl, rfl, rfl, rfl, rfl⟩,
    by decide +kernel⟩

/-- The valve of arm 1 polled and set; arm free, held with and without an excess counted; a fault flag. -/
theorem premises_ValveStateReported :
    (asked 1 valveDev .poll .scan bay).Settled ∧
    (asked 1 valveDev .poll .scan bay).AwaitsOnline ⟨1, 11#8, .poll, .scan, 20, true, false, false⟩ valveDev ∧
    (asked 1 valveDev (.valveSet .low) .valve bay).AwaitsOnline ⟨1, 11#8, .valveSet .low, .valve, 20, true, false, false⟩ valveDev ∧
    (2#8).toNat ≤ 2 ∧ valveDev.kind = .valve ∧ valveDev.assoc = .arm 1 ∧ bay.armEntry 1 = some arm1 ∧ arm1.valve = 1 ∧
    (bay.arm 1).holder = none ∧ (0x00#8).getLsbD 0 = false ∧ (0x01#8).getLsbD 0 = true ∧
    (let s := loading (batch .startup) .low
     (s.arm 1).holder = some (batch .startup) ∧ (batch .startup).state.haltable = true ∧ (s.arm 1).travelTimer = none ∧
      (s.arm 1).desired.rank < (stageOf 2#8).rank ∧ (s.arm 1).excess = 0) :=
  ⟨rfl, online_bay 1 valveDev .poll .scan bay rfl rfl (by decide) rfl,
    online_bay 1 valveDev (.valveSet .low) .valve bay rfl rfl (by decide) rfl, by decide, rfl, rfl, rfl, rfl, rfl, rfl, rfl,
    by decide +kernel⟩

theorem premises_PermissiveStateSets :
    (let s := asked 5 monitor .poll .scan (loading (batch .full) .high)
     s.Settled ∧ s.AwaitsOnline ⟨5, 15#8, .poll, .scan, 20, true, false, false⟩ monitor ∧
      (s.devicesOfKind .permissive).length = 1 ∧ s.holder 1 = some (batch .full) ∧ s.batch.permissive.get .a = true) ∧
    monitor.kind = .permissive ∧ (0x0C#8).getLsbD 7 = false ∧ ((0x0C#8).getLsbD 0 && (0x0C#8).getLsbD 1) = false ∧
    ((0x0C#8).getLsbD 2 && (0x0C#8).getLsbD 3) = true :=
  ⟨⟨rfl, online_bay 5 monitor .poll .scan (loading (batch .full) .high) rfl rfl (by decide) rfl, by decide +kernel, rfl, rfl⟩, rfl, by decide,
    by decide, by decide⟩

theorem premises_ShotReportSettles :
    (let s := asked 2 injDev .poll .scan awaiting
     let c := { sched .shot with pending := 1 }
     s.Settled ∧ s.AwaitsOnline ⟨2, 12#8, .poll, .scan, 20, true, false, false⟩ injDev ∧
      s.slot 2 = some ⟨inj .shot, [1], some (flight .awaiting (some 1000)), none, Stream.idle⟩ ∧ s.schedules 1 = [] ++ c :: [] ∧
      c.injector = 2 ∧ c.state = .active ∧ c.pending = 1 ∧ c.delivered + (500#16).toNat < 2 ^ 32 ∧ c.settled < 16777215 ∧
      (flight .awaiting (some 1000)).outlet = (3#8).toNat ∧
      (((5 * c.shotSize : Nat) : Int) - (c.delivered + 500 : Nat)).natAbs * 100 ≤ c.tolerance * (5 * c.shotSize)) ∧
    injDev.kind = .injector ∧ (5#8).toNat ≤ 5 ∧ (2#8).toNat ≤ 2 :=
  ⟨⟨rfl, online_bay 2 injDev .poll .scan awaiting rfl rfl (by decide) rfl, rfl, rfl, rfl, rfl, rfl, by decide, by decide, rfl, by decide⟩,
    rfl, by decide, by decide⟩

theorem premises_InjectorStateCredits :
    (let s := asked 2 injDev .poll .scan (dosing (sched .stream) running)
     s.Settled ∧ s.AwaitsOnline ⟨2, 12#8, .poll, .scan, 20, true, false, false⟩ injDev ∧ s.slot 2 = some running ∧
      running.entry.mode = .stream ∧ running.entry.servedArm = some 1 ∧ running.stream.state = .running ∧ running.stream.owned = true ∧
      s.schedules 1 = [] ++ sched .stream :: [] ∧ running.stream.startDose + (160#32 - running.stream.baseline).toNat < 2 ^ 32 ∧
      (2 * ((sched .stream).streamed * (sched .stream).ratio) + 100000000) / 200000000 < (sched .stream).streamMin) ∧
    (asked 2 injDev (.streamStart 3 500) .injector (dosing (sched .stream) running)).AwaitsOnline
      ⟨2, 12#8, .streamStart 3 500, .injector, 20, true, false, false⟩ injDev ∧
    ({ running.stream with state := .starting } : Stream).taken = true ∧ running.stream.stopWanted = false ∧
    (asked 2 injDev .poll .scan awaiting).AwaitsOnline ⟨2, 12#8, .poll, .scan, 20, true, false, false⟩ injDev ∧
    (inj .shot).mode = .shot ∧ (1#8).toNat ≤ 1 ∧ (0x00#8).getLsbD 0 = false :=
  ⟨⟨rfl, online_bay 2 injDev .poll .scan (dosing (sched .stream) running) rfl rfl (by decide) rfl, rfl, rfl, by decide +kernel, rfl, rfl,
      rfl, by decide, by decide⟩,
    online_bay 2 injDev (.streamStart 3 500) .injector (dosing (sched .stream) running) rfl rfl (by decide) rfl, rfl, rfl,
    online_bay 2 injDev .poll .scan awaiting rfl rfl (by decide) rfl, rfl, by decide, by decide⟩

theorem premises_TimersExpire_shot : awaiting.Settled ∧
    awaiting.slot 2 = some ⟨inj .shot, [1], some (flight .awaiting (some 1000)), none, Stream.idle⟩ ∧
    (flight .awaiting (some 1000)).phase = .awaiting ∧ (flight .awaiting (some 1000)).timer ≠ none ∧
    (flight .awaiting (some 1000)).owned = true ∧ bay.Settled ∧ (bay.slot 2).map (fun x => x.flight) = some none := by
  unfold State.Settled; decide +kernel

/-- A schedule with one shot due, one with none, and a batch within the cut-off. -/
theorem premises_IncrementOrdersShot :
    (let s := dosing (sched .shot) ⟨inj .shot, [], none, none, Stream.idle⟩
     let b := { batch .full with product := 8#8 }
     s.holder 1 = some b ∧ b.state.flowing = true ∧ s.schedules 1 = [sched .shot] ∧
      s.slot 2 = some ⟨inj .shot, [], none, none, Stream.idle⟩ ∧ (arm1.cutoff : Int) * 1000000 < (b.preset : Int) * 1000000 - b.gross) ∧
    (sched .shot).mode = .shot ∧ (sched .shot).state = .active ∧ (0 : Int) < (sched .shot).countdown - (9999999 : Nat) ∧
    (sched .shot).countdown - (10000000 : Nat) ≤ 0 ∧ 0 < (sched .shot).countdown - (10000000 : Nat) + (sched .shot).interval ∧
    (sched .shot).pending = 0 ∧
    ((batch .full).preset : Int) * 1000000 - (8900000000 : Nat) ≤ (arm1.cutoff : Int) * 1000000 := by decide +kernel

theorem premises_StationEventsHandled :
    (polledA bay).Settled ∧ (polledA bay).AwaitsOnline ⟨3, 13#8, .poll, .scan, 20, true, false, false⟩ stationA ∧
    stationA.kind = .station ∧ stationA.assoc = .lane .a ∧ (List.replicate 4 StationEvent.estop).length ≤ 4 ∧
    (List.replicate 4 StationEvent.estop).all StationEvent.fits = true ∧
    StationEvent.fits (.card 0x0412776301#40 0x00#8) = true ∧ (idle.lane .a).state = .none ∧ (idle.lane .a).candidate = none ∧
    ((idle.lane .a).slot.all fun x => x.target ≠ .load) = true ∧ idle.port.mode ≠ .inService ∧
    (polledA idle).AwaitsOnline ⟨3, 13#8, .poll, .scan, 20, true, false, false⟩ stationA ∧
    StationEvent.fits (.start 5#8 8#8) = true ∧ (bay.lane .a).state = .none ∧
    (polledA (loading (batch .full) .high)).AwaitsOnline ⟨3, 13#8, .poll, .scan, 20, true, false, false⟩ stationA ∧
    (polledA (loading (batch .full) .high)).holder 1 = some (batch .full) ∧ (batch .full).state.haltable = true :=
  ⟨rfl, online_bay 3 stationA .poll .scan bay rfl rfl (by decide) rfl, rfl, rfl, by decide, by decide, by decide +kernel, rfl, rfl, rfl,
    by decide, online_bay 3 stationA .poll .scan idle rfl rfl (by decide) rfl, by decide, rfl,
    online_bay 3 stationA .poll .scan (loading (batch .full) .high) rfl rfl (by decide) rfl, rfl, rfl⟩

theorem premises_TimersExpire : bay.Settled ∧ (∀ p ∈ (bay.arm 1).starts, p.lane ≠ .b) ∧ bay.holder 1 = none ∧
    (∃ p ∈ ({ bay.arm 1 with starts := [⟨.b, 1, 10⟩] } : ArmRec).starts, p.lane = .b) ∧
    (let b := { batch .full with noFlowTimer := some 30 }
     (loading b .high).Settled ∧ (loading b .high).holder 1 = some b ∧ b.noFlowTimer ≠ none ∧ b.state.haltable = true) ∧
    (let b := { batch .stopping with stopReason := some .noFlow, stopTimer := some 30 }
     (loading b .closed).Settled ∧ (loading b .closed).holder 1 = some b ∧ b.stopTimer ≠ none ∧ b.state = .stopping ∧
      b.stopReason ≠ some .preset ∧ b.ending = false ∧ ((loading b .closed).arm 1).desired = .closed) ∧
    refused.Settled ∧ (refused.lane .a).candidate.isSome ∧ (refused.lane .a).slot.isSome ∧ (bay.lane .a).candidate = none ∧
    (bay.lane .a).slot = none := by
  unfold State.Settled; decide +kernel

/-- A note-number write at its wrap, with each kind of request waiting; a calibration write that reaches its bound. -/
theorem premises_StoreWriteCompletes : closing.Settled ∧ closing.note.writing = some ⟨.note .a, 1⟩ ∧
    (closing.note.closing.get .a).isSome ∧ closing.note.queue = [] ∧ bay.Settled ∧ bay.note.writing = none ∧
    (let note := { closing.note with writing := some ⟨.note .a, 99999999⟩, nextNote := 99999999, queue := [.calibration 1, .note .b] }
     note.writing = some ⟨.note .a, 99999999⟩ ∧ note.queue = .calibration 1 :: [.note .b]) ∧
    (let note := { bay.note with writing := some ⟨.calibration 2, 999998⟩, queue := [.note .a] }
     note.writing = some ⟨.calibration 2, 999998⟩ ∧ note.queue = .note .a :: [] ∧ min 999999 (999998 + 2) = 999999) := by
  unfold State.Settled; decide +kernel

theorem premises_VolumeStages : arm1.valid = true ∧ Metering.start.InRange arm1.km := by
  unfold Metering.InRange; decide +kernel

/-- The bus free with work waiting, with a transaction in flight, in the quiet time; a valve to close; an entry at the pointer. -/
theorem premises_EventEndPicks :
    (let s := { asked 0 meterDev .poll .scan bay with scan := { (asked 0 meterDev .poll .scan bay).scan with wake := true } }
     s.scan.wake = true ∧ s.scan.transaction.isSome) ∧
    (let s := { bay with scan := { bay.scan with wake := true } }
     s.scan.wake = true ∧ s.scan.transaction = none ∧ s.scan.quiet = false ∧ s.scan.slot = none ∧ s.scan.list[s.scan.pointer]? = some 0 ∧
      s.device 0 = some meterDev ∧ (∀ n : Arm, s.armEntry n = none ∨ (s.arm n).reported = some (s.arm n).desired) ∧
      ∀ j : DevIx, ((s.slot j).all fun x => x.request = none) = true) ∧
    (let s := loading (batch .stopping) .closed
     s.armEntry 1 = some arm1 ∧ s.device arm1.valve = some valveDev ∧ valveDev.kind = .valve ∧ valveDev.setStage ≠ some .closed ∧
      valveDev.retryHold = false ∧ (s.arm 1).desired = .closed) ∧
    ({ bay.arm 1 with reported := some .high } : ArmRec).reported ≠ some .closed := by decide +kernel

/-- What the step statements ask of a state holds in a working bay, and a step is taken from it. -/
theorem premises_StepKeeps :
    (let s := { loading (batch .full) .high with pending := [.noFlowTimeout 1] }
     s.ValvesSafe ∧ s.RunTracksMode ∧ s.DriversTrackLines ∧ s.Settled ∧ s.NotesReserved ∧ s.WordsInRange ∧ s.PermitsOrdered ∧
      s.CountsBounded ∧ s.TimeValid ∧ ∃ t, Stepped s t) := by
  refine ⟨?_, ⟨fun _ => rfl, fun _ => rfl⟩, ⟨⟨fun h => (by cases h), fun h => (by cases h)⟩, ⟨fun h => (by cases h), fun h => ?_⟩⟩, rfl, ⟨by decide +kernel, ?_⟩,
    ⟨⟨by decide, by decide⟩, by decide, by decide, fun _ _ h => nomatch h⟩, ⟨by decide +kernel, by decide⟩, ?_, ?_, ⟨_, rfl⟩⟩
  · unfold State.ValvesSafe
    intro n
    match n with
    | 0 => exact rfl
    | 1 => exact ⟨rfl, fun _ => rfl⟩
    | 2 => exact rfl
    | 3 => exact rfl
    | 4 => exact rfl
    | 5 => exact rfl
  · obtain ⟨_, h, _⟩ := h
    cases h
  · intro l
    cases l
    · exact ⟨fun h => (by cases h), fun h => (by cases h)⟩
    · exact ⟨fun h => (by cases h), fun h => (by cases h)⟩
  · unfold State.CountsBounded; decide +kernel
  · unfold State.TimeValid; decide +kernel

/-! ### The statements' premises, the clauses on devices, bus and tables -/

/-- A meter, an injector with an unowned shot and the monitor written again; a valve that becomes a meter out of service; an entry whose
state is UNKNOWN. -/
theorem premises_DeviceWriteEffect_told :
    bay.device 0 = some meterDev ∧ meterDev.state ≠ .unknown ∧ meterDev.kind = .meter ∧ bay.holder 1 = none ∧
    bay.armEntry 1 = some arm1 ∧ arm1.meter = 0 ∧ bay.deviceInUse 0 meterDev = false ∧ bay.device 5 = some monitor ∧
    monitor.kind = .permissive ∧ monitor.state ≠ .unknown ∧ bay.deviceInUse 5 monitor = false ∧
    (let s := loading (batch .full) .high
     s.device 5 = some monitor ∧ s.deviceInUse 5 monitor = false ∧ s.holder 1 = some (batch .full) ∧
      (batch .full).state.haltable = true ∧ s.batch.permissive.get .a = true) ∧
    (let x : InjectorSlot := ⟨inj .shot, [], some { flight .awaiting (some 1000) with owned := false }, none, Stream.idle⟩
     let s := dosing (sched .shot) x
     s.device 2 = some injDev ∧ injDev.kind = .injector ∧ s.slot 2 = some x ∧ x.queue = [] ∧ s.deviceInUse 2 injDev = false) ∧
    idle.port.mode = .outOfService ∧ idle.device 1 = some valveDev ∧ valveDev.kind ≠ .meter ∧ assocOf .meter 1#8 = some (.arm 1) ∧
    ({ valveDev with state := .unknown } : Device).state = .unknown := by decide +kernel

theorem premises_DeviceEmptyEffect_told :
    (∀ p ∈ [(0, meterDev), (2, injDev), (5, monitor)], idle.device p.1 = some p.2 ∧ idle.deviceInUse p.1 p.2 = false) ∧
    idle.port.mode = .outOfService ∧ idle.armEntry 1 = some arm1 ∧ arm1.meter = 0 ∧ idle.holder 1 = none ∧
    (let s := { loading (batch .full) .high with port := idle.port }
     s.port.mode = .outOfService ∧ s.device 5 = some monitor ∧ s.deviceInUse 5 monitor = false ∧ s.holder 1 = some (batch .full) ∧
      (batch .full).state.haltable = true ∧ s.batch.permissive.get .a = true) := by decide +kernel

/-- An open load with a batch in each state on arm 1, one of the other lane, and pending starts of both lanes. -/
theorem premises_LoadCloseEffect_batches :
    (∀ st ∈ [BatchState.armed, .startup, .full, .topoff, .stopping, .halted],
      let s := loading (batch st) .closed
      s.Settled ∧ s.Reaches 1 ∧ (s.lane .a).state = .opened ∧ s.holder 1 = some (batch st) ∧ (batch st).lane = .a ∧
        (s.lane .a).load.isSome) ∧
    (loading { batch .full with lane := .b } .high).holder 1 = some { batch .full with lane := .b } ∧
    BatchState.full.flowing = true ∧ (bay.lane .a).state = .none ∧ ({ opened.lane .a with state := .ending } : LaneRec).state = .ending ∧
    (∃ q ∈ ({ bay.arm 1 with starts := [⟨.b, 1, 10⟩] } : ArmRec).starts, q.lane ≠ .a) := by
  unfold State.Settled State.Reaches; decide +kernel

/-- Entries of each malformed shape: a wrong emptying, a wrong length, an unlisted code, an index out of range. -/
theorem premises_ProductWriteEffect_malformed :
    (let q := [7#8, 0xFF#8, 0#8]
     bay.Reaches (1 + q.length) ∧ byteAt q 1 = 0xFF#8 ∧ q.length ≠ 2) ∧
    (let q := [7#8, 1#8, 0#8, 0#8, 1#8]
     byteAt q 1 ≠ 0xFF#8 ∧ q.length ≠ 5 + 5 * (byteAt q 4).toNat) ∧
    (let q := [7#8, 1#8, 0#8, 0#8, 1#8, 5#8, 31#8, 0#8, 1#8, 2#8]
     byteAt q 1 ≠ 0xFF#8 ∧ 0 < (byteAt q 4).toNat ∧ 1 < (byteAt q (9 + 5 * 0)).toNat) ∧
    (let q := [7#8, 1#8, 0#8, 0#8, 1#8, 5#8, 32#8, 0#8, 1#8, 1#8]
     byteAt q 1 ≠ 0xFF#8 ∧ q.length = 5 + 5 * (byteAt q 4).toNat ∧ 0 < (byteAt q 4).toNat ∧ (byteAt q (9 + 5 * 0)).toNat ≤ 1 ∧
      31 < (byteAt q (6 + 5 * 0)).toNat) := by
  unfold State.Reaches; decide +kernel

theorem premises_ArmWriteEffect_malformed :
    (let q := [1#8, 0xFF#8, 0#8]
     bay.Reaches (1 + q.length) ∧ byteAt q 1 = 0xFF#8 ∧ q.length ≠ 2) ∧
    (let q := 1#8 :: 3#8 :: arm1.bytes.drop 1
     bay.Reaches (1 + q.length) ∧ byteAt q 1 ≠ 0xFF#8 ∧ 2 < (byteAt q 1).toNat) ∧ [1#8, 0#8].length < 9 ∧
    (∀ q ∈ [6#8 :: arm1.bytes, [1#8, 0#8, 32#8] ++ arm1.bytes.drop 2, [1#8, 0#8, 0#8, 32#8] ++ arm1.bytes.drop 3],
      bay.Reaches (1 + q.length) ∧ (byteAt q 1).toNat ≤ 2 ∧ 9 ≤ q.length ∧ q.length = 60 + 5 * (byteAt q 8).toNat ∧
        (5 < (byteAt q 0).toNat ∨ 31 < (byteAt q 2).toNat ∨ 31 < (byteAt q 3).toNat)) := by
  unfold State.Reaches; decide +kernel

theorem premises_InjectorWriteEffect_malformed :
    (let q := [2#8, 0xFF#8, 0#8]
     bay.Reaches (1 + q.length) ∧ byteAt q 1 = 0xFF#8 ∧ q.length ≠ 2) ∧
    (let q := 2#8 :: 2#8 :: (inj .shot).bytes.drop 1
     byteAt q 1 ≠ 0xFF#8 ∧ 1 < (byteAt q 1).toNat) ∧ [2#8, 0#8].length ≠ 15 ∧
    (∀ q ∈ [32#8 :: (inj .shot).bytes, [2#8, 0#8, 1#8, 0xF4#8, 6#8] ++ (inj .shot).bytes.drop 4],
      bay.Reaches (1 + q.length) ∧ (byteAt q 1).toNat ≤ 1 ∧ q.length = 15 ∧
        (31 < (byteAt q 0).toNat ∨ byteAt q (4 + 0) ≠ 0xFF#8 ∧ 5 < (byteAt q (4 + 0)).toNat)) := by
  unfold State.Reaches; decide +kernel

/-- The first bytes of a reply of the meter have been taken. -/
def heard (got : List Byte) : State :=
  let s := asked 0 meterDev .poll .scan bay
  { s with scan := { s.scan with rx := ⟨got, false, none⟩ } }

/-- A METER SAMPLE of the meter, as a frame. -/
def sampleFrame : List Byte :=
  frame 10#8 (replyKind (.meterSample 3350#32 500#16 2740#16 1#8)) (replyPayload (.meterSample 3350#32 500#16 2740#16 1#8))

/-- Each place of a reply: a character that is wrong there, one that joins, the last one with a good and a failed check; the held stage
occupied with and without a reply in progress. -/
theorem premises_BusCharacterJudged_reply :
    (∀ k ∈ [0, 1, 2, 3, 15], (heard (sampleFrame.take k)).Settled ∧ (heard (sampleFrame.take k)).pads.bde = false ∧
      (heard (sampleFrame.take k)).scan.transaction = some ⟨0, 10#8, .poll, .scan, 20, true, false, false⟩ ∧
      (heard (sampleFrame.take k)).scan.rx = ⟨sampleFrame.take k, false, none⟩) ∧
    11#8 ≠ 10#8 ∧ ¬ (0x41 ≤ (0x40#8).toNat ∧ (0x40#8).toNat ≤ 0x46) ∧ Telegram.poll.isDiagnostic = false ∧ 64 < (65#8).toNat ∧
    sampleFrame.length = 5 + (byteAt sampleFrame 2).toNat ∧ crc sampleFrame = 0#16 ∧ sampleFrame.length = 14 ∧
    crc (sampleFrame.take 13 ++ [(byteAt sampleFrame 13) + 1#8]) ≠ 0#16 ∧
    replyFits (.meterSample 3350#32 500#16 2740#16 1#8) = true ∧ ¬ 0x60 ≤ (replyKind (.meterSample 3350#32 500#16 2740#16 1#8)).toNat ∧
    (let s := { heard [] with scan := { (heard []).scan with rx := ⟨[], false, some ⟨1#8, false, true, true, false, false⟩⟩ } }
     s.Settled ∧ s.pads.bde = false ∧ s.scan.rx.held.isSome) := by
  unfold State.Settled; decide +kernel

/-- A miss of an injector in each phase of a shot and a stream; a station and a valve at the limit. -/
theorem premises_ResponseTimeoutMiss_told :
    (let x : InjectorSlot := ⟨inj .shot, [1], some (flight .sending none), none, Stream.idle⟩
     let s := asked 2 injDev (.shot 3 500) .injector (dosing { sched .shot with pending := 1 } x)
     s.Settled ∧ s.slot 2 = some x ∧ s.device 2 = some injDev ∧ injDev.misses + 1 < injDev.missLimit ∧
      (flight .sending none).phase = .sending ∧ (flight .sending none).owned = true ∧ x.entry.mode = .shot) ∧
    (let x : InjectorSlot := ⟨inj .shot, [1], some (flight .querying none), none, Stream.idle⟩
     let s := asked 2 injDev .shotQuery .injector (dosing { sched .shot with pending := 1 } x)
     s.slot 2 = some x ∧ s.schedule 1 2 = some { sched .shot with pending := 1 } ∧ (sched .shot).state = .active ∧
      (flight .querying none).attempt = 1 ∧ ({ flight .querying none with attempt := 2 } : Flight).attempt = 2) ∧
    (let x : InjectorSlot := { running with stream := { running.stream with state := .starting } }
     let s := asked 2 injDev (.streamStart 3 500) .injector (dosing (sched .stream) x)
     s.slot 2 = some x ∧ x.stream.state = .starting ∧ x.stream.taken = true ∧ x.stream.stopWanted = false ∧ x.stream.attempt = 1 ∧
      x.entry.servedArm = some 1 ∧ s.schedule 1 2 = some (sched .stream)) ∧
    (let x : InjectorSlot := { running with stream := { running.stream with state := .stopping } }
     x.stream.state = .stopping ∧ x.stream.taken = true ∧ x.stream.once = false ∧ x.stream.attempt = 1) ∧
    bay.slot 0 = none ∧ stationA.missLimit ≤ ({ stationA with misses := 2 } : Device).misses + 1 ∧ stationA.state ≠ .silent ∧
    valveDev.state ≠ .faulted .part ∧ (loading (batch .full) .high).armEntry 1 = some arm1 ∧ arm1.valve = 1 ∧
    (loading (batch .full) .high).holder 1 = some (batch .full) ∧ (batch .full).state.haltable = true := by
  unfold State.Settled; decide +kernel

/-! ### The statements' premises, the clauses on samples -/

theorem premises_MeterSampleIdle_fault :
    (let s := asked 0 meterDev .poll .scan (loading (batch .full) .high)
     s.Settled ∧ s.AwaitsOnline ⟨0, 10#8, .poll, .scan, 20, true, false, false⟩ meterDev ∧ s.holder 1 = some (batch .full)) ∧
    (0x02#8).getLsbD 1 = true ∧ (batch .full).state.haltable = true ∧ bay.armEntry 0 = none :=
  ⟨⟨rfl, online_bay 0 meterDev .poll .scan (loading (batch .full) .high) rfl rfl (by decide) rfl, rfl⟩, by decide, rfl, by decide +kernel⟩

/-- The meter of arm 1 polled for a TOPOFF batch: a delta above the bound, and one that leaves no more than the stop lead. -/
theorem premises_SampleEndsFlow :
    (let b := { batch .topoff with gross := 8920000000 }
     let s := asked 0 meterDev .poll .scan (loading b .low)
     s.Settled ∧ s.AwaitsOnline ⟨0, 10#8, .poll, .scan, 20, true, false, false⟩ meterDev ∧ s.armEntry 1 = some arm1 ∧
      s.holder 1 = some b ∧ b.state.flowing = true ∧ s.product b.product = some ⟨7#8, 1, 1200, []⟩ ∧ s.schedules 1 = [] ∧
      (s.metering 1).history = .tracking) ∧
    (let m := bay.metering 1
     m.r1 < arm1.km ∧ m.r2 < 100000 ∧ m.r3 < 100000) ∧
    arm1.maxPulses < (5001#32 - 1000#32).toNat ∧ (1100#32 - 1000#32).toNat ≤ arm1.maxPulses ∧ (0x01#8).getLsbD 0 = true ∧
    (0x01#8).getLsbD 1 = false ∧ -4000 ≤ (2740#16).toInt ∧ (2740#16).toInt ≤ 6000 ∧
    (let raw := (100 * 1000000000 + 0) / arm1.km
     let gross := (raw * meterFactor (raw * 60 / (min 5000 (max 1 500) * 1000)) arm1.curve + 0) / 100000
     let net := (gross * vcf 1200 2740 1500 + 0) / 100000
     raw < 2 ^ 48 ∧ 8920000000 + gross < 2 ^ 48 ∧ net < 2 ^ 48 ∧ gross < 2 ^ 48 ∧ (2740 : Int) * gross < 2 ^ 63 ∧
      (9000 : Int) * 1000000 - ((8920000000 + gross : Nat) : Int) ≤ (800 : Int) * 100000) :=
  ⟨⟨rfl, online_bay 0 meterDev .poll .scan (loading { batch .topoff with gross := 8920000000 } .low) rfl rfl (by decide) rfl, rfl, rfl, rfl,
    rfl, rfl, rfl⟩, by decide +kernel⟩

/-- A STOPPING batch with two samples without flow counted, for its preset and for its driver: no flow, flow, a pulse fault. -/
theorem premises_StoppingSampleCounts :
    (∀ r ∈ [StopReason.preset, .driver],
      let b := { batch .stopping with stopReason := some r, noFlow := 2, gross := 9000000000 }
      let s := asked 0 meterDev .poll .scan (loading b .closed)
      s.holder 1 = some b ∧ b.state = .stopping ∧ s.product b.product = some ⟨7#8, 1, 1200, []⟩ ∧ s.schedules 1 = [] ∧
        (s.metering 1).history = .tracking ∧ (s.arm 1).starts = [] ∧ (s.lane b.lane).load.isSome ∧ b.ending = false ∧ b.resumed = 0 ∧
        hasExc .meterLost b.exceptions = false) ∧
    (let b := { batch .stopping with stopReason := some .preset, noFlow := 2, gross := 9000000000 }
     let s := asked 0 meterDev .poll .scan (loading b .closed)
     s.Settled ∧ s.AwaitsOnline ⟨0, 10#8, .poll, .scan, 20, true, false, false⟩ meterDev ∧ s.armEntry 1 = some arm1) ∧
    (1005#32 - 1000#32).toNat = arm1.leak ∧ arm1.leak < (1006#32 - 1000#32).toNat ∧ arm1.maxPulses < (5001#32 - 1000#32).toNat ∧
    (let raw := (5 * 1000000000 + 0) / arm1.km
     let gross := (raw * meterFactor (raw * 60 / (min 5000 (max 1 500) * 1000)) arm1.curve + 0) / 100000
     raw < 2 ^ 48 ∧ 9000000000 + gross < 2 ^ 48 ∧ (2740 : Int) * gross < 2 ^ 63) :=
  ⟨by decide +kernel, ⟨rfl, online_bay 0 meterDev .poll .scan
    (loading { batch .stopping with stopReason := some .preset, noFlow := 2, gross := 9000000000 } .closed) rfl rfl (by decide) rfl, rfl⟩,
    by decide +kernel⟩

/-! ### The statements' premises, the clauses on the lane's events -/

theorem polledA_online (s : State) (h : s.scan.rx = ⟨[], false, none⟩) (e : s.device 3 = some stationA) :
    (polledA s).AwaitsOnline ⟨3, 13#8, .poll, .scan, 20, true, false, false⟩ stationA :=
  online_bay 3 stationA .poll .scan s h e (by decide) rfl

theorem premises_StationEventsHandled_stop : StationEvent.fits (.stop 0xFF#8) = true ∧ StationEvent.fits (.stop 5#8) = true ∧
    (bay.holder 1 = none) ∧ (loading (batch .stopping) .closed).holder 1 = some (batch .stopping) ∧
    (loading (batch .halted) .closed).holder 1 = some (batch .halted) ∧ ((loading (batch .halted) .closed).lane .a).load.isSome ∧
    (loading { batch .full with lane := .b } .high).holder 1 = some { batch .full with lane := .b } ∧
    ({ opened.lane .a with state := .ending } : LaneRec).state = .ending := by decide +kernel

/-- A driver card at each load state, with each opening check failing first. -/
theorem premises_OpeningAttemptOpens :
    StationEvent.fits (.card 0x0412776301#40 0x00#8) = true ∧ bcdNat (cardBytes 0x0412776301#40) = driver.card ∧
    (polledA bay).Settled ∧ (polledA bay).AwaitsOnline ⟨3, 13#8, .poll, .scan, 20, true, false, false⟩ stationA ∧
    stationA.kind = .station ∧ stationA.assoc = .lane .a ∧ (bay.lane .a).state = .none ∧ (opened.lane .a).state = .opened ∧
    (opened.lane .a).load = some load ∧ load.card = driver.card ∧ load.card ≠ supervisor.card ∧ (closing.lane .a).state = .closing ∧
    idle.port.mode ≠ .inService ∧ State.reset.time.timeSet = false ∧ 16 ≤ (List.replicate 16 note).length + bay.loadsHeld ∧
    bay.permits.find? (fun q => q.card = 5) = none ∧ supervisor.cls ≠ .driver ∧
    ({ driver with state := .revoked } : Permit).state = .revoked ∧ ({ driver with state := .suspended } : Permit).state = .suspended ∧
    ({ driver with lane := some .b } : Permit).lane ≠ some .a ∧
    opened.load.orders.find? (fun o => o.carrier = driver.carrier && (o.lane = none || o.lane = some .a)) = none ∧
    (bay.port.mode = .inService ∧ bay.time.timeSet = true ∧ bay.note.notes.length + bay.loadsHeld < 16 ∧
      bay.permits.find? (fun q => q.card = driver.card) = some driver ∧ driver.cls = .driver ∧ driver.state = .active ∧
      driver.lane = none ∧
      bay.load.orders.find? (fun o => o.carrier = driver.carrier && (o.lane = none || o.lane = some .a)) = some order) ∧
    bay.today.key ≤ driver.expiry.key ∧ ({ driver with expiry := ⟨0x24#8, 0x03#8, 0x13#8⟩ } : Permit).expiry.key < bay.today.key ∧
    (order.lines.any fun x => (bay.product x.product).any fun y => !driver.endorsed.getLsbD y.cls) = false ∧
    (order.lines.any fun x => (bay.product x.product).any fun y => !(0#16).getLsbD y.cls) = true ∧ driver.lastLoad ≠ some bay.today ∧
    0 + (order.lines.map fun x => x.preset * 10).sum ≤ driver.dailyLimit * 10 ∧
    8999 * 10 < 0 + (order.lines.map fun x => x.preset * 10).sum :=
  ⟨by decide +kernel, by decide +kernel, rfl, polledA_online bay rfl rfl, by decide +kernel⟩

/-- A supervisor card that passes and each that fails; the slot empty with a candidate, with a halted arm and with neither; the slot
with each half and target. -/
theorem premises_SupervisorHalf :
    StationEvent.fits (.card 0x0900000017#40 0x01#8) = true ∧ bcdNat (cardBytes 0x0900000017#40) = supervisor.card ∧
    (polledA bay).Settled ∧ (polledA bay).AwaitsOnline ⟨3, 13#8, .poll, .scan, 20, true, false, false⟩ stationA ∧
    stationA.kind = .station ∧ stationA.assoc = .lane .a ∧ bay.permits.find? (fun q => q.card = supervisor.card) = some supervisor ∧
    supervisor.state = .active ∧ bay.today.key ≤ supervisor.expiry.key ∧ supervisor.cls = .supervisor ∧ driver.cls ≠ .supervisor ∧
    (closing.lane .a).state = .closing ∧ (bay.lane .a).slot = none ∧ (bay.lane .a).candidate = none ∧
    (∀ n : Arm, bay.holder n = none) ∧ (refused.lane .a).candidate.isSome ∧
    (refused.lane .a).slot = some ⟨.load, .supervisor, 120⟩ ∧ (halted.lane .a).candidate = none ∧
    halted.holder 1 = some { batch .halted with stopReason := some .additive } ∧ (∀ n : Arm, n ≠ 1 → halted.holder n = none) ∧
    ({ halted.lane .a with slot := some ⟨.arm 1, .terminal, 120⟩ } : LaneRec).slot = some ⟨.arm 1, .terminal, 120⟩ ∧
    refused.load.orders.find? (fun o => o.reference = 7001#32) = some order :=
  ⟨by decide +kernel, by decide +kernel, rfl, polledA_online bay rfl rfl, by decide +kernel⟩

/-- A START at an open load: each check failing first, an arm that is free, held by another batch, and held by the compartment's HALTED
batch, at an ONLINE and at a SILENT valve. -/
theorem premises_StartJudged :
    ((polledA opened).Settled ∧ (polledA opened).AwaitsOnline ⟨3, 13#8, .poll, .scan, 20, true, false, false⟩ stationA) ∧
    ((opened.lane .a).state = .opened ∧ (opened.lane .a).load = some load ∧ (∀ e ∈ load.entries, e.compartment ≠ (8#8).toNat) ∧
      load.entries.find? (fun e => e.compartment = (1#8).toNat) = some (OrderLine.entry ⟨1, 7#8, 9000⟩) ∧
      (OrderLine.entry ⟨1, 7#8, 9000⟩).state = .pending ∧ opened.permits.find? (fun q => q.card = load.card) = some driver ∧
      driver.state = .active ∧ opened.today.key ≤ driver.expiry.key ∧
      ((opened.product 7#8).any fun y => !driver.endorsed.getLsbD y.cls) = false ∧ opened.armEntry 0 = none ∧
      opened.armEntry 1 = some arm1 ∧ arm1.reach = .a ∧ arm1.allowed.getLsbD (7#8).toNat = true ∧ arm1.allowed.getLsbD (9#8).toNat = false ∧
      opened.batch.permissive.get .a = true ∧ opened.holder 1 = none ∧ (opened.arm 1).desired = .closed ∧
      opened.meterOnline 1 = true ∧ opened.valveOnline 1 = true ∧ opened.product 7#8 = some ⟨7#8, 1, 1200, []⟩ ∧
      (opened.arm 1).stopLead = some 800 ∧ 800 * 100000 < 9000 * 1000000 ∧ (∀ m : Arm, opened.holder m = none) ∧
      ∀ m : Arm, (opened.arm m).starts = []) ∧
    (let b := { batch .halted with stopReason := some .driver }
     let s := loading b .closed
     s.holder 1 = some b ∧ b.lane = .a ∧ b.compartment = 1 ∧ b.flowed = true ∧ (s.arm 1).desired = .closed ∧ s.schedules 1 = [] ∧
      s.meterOnline 1 = true ∧ s.valveOnline 1 = true) ∧
    halted.holder 1 = some { batch .halted with stopReason := some .additive } ∧ (batch .halted).additiveOverride = false ∧
    (9000 : Int) * 1000000 - 8920000000 ≤ (800 : Int) * 100000 ∧
    (State.setDevice opened 1 (some { valveDev with state := .silent })).valveOnline 1 = false ∧
    (loading { batch .full with lane := .b } .high).holder 1 = some { batch .full with lane := .b } ∧
    (loading (batch .full) .high).holder 1 = some (batch .full) :=
  ⟨⟨rfl, polledA_online opened rfl rfl⟩, by decide +kernel⟩

/-! ### The mended points -/

/-- The reply's characters carry even parity (R1), and the address byte 01H has one bit set. -/
theorem test_reply_parity : ((bay.shows .accept).replyLine.map fun l => (l.take 2, l.all fun c => TermChar.error ⟨c.1, c.2, true, false, false⟩ = .none)) =
    some ([(0x01#8, true), (0xA0#8, false)], true) := by decide +kernel

/-- A character that is let through before the reply begins leaves the driver enable for the reply (R9, log 6). -/
theorem test_early_character : (run (.messageDiscarded [⟨1#8, true, true, true, false⟩]) (bay.shows .accept)).map
    (fun t => (t.pads.tde, t.port.reply)) = some (true, some .accept) := by decide +kernel

/-- An overrun breaks a reply in progress, and is only counted with none (R13, R5). -/
theorem test_bus_overrun :
    (run (.busCharacter ⟨1#8, false, true, true, false, false⟩) { heard [10#8] with scan := { (heard [10#8]).scan with rx := ⟨[10#8], false, some ⟨1#8, false, true, true, false, false⟩⟩ } }).map
      (fun t => (t.scan.rx.broken, t.scan.counters.overrun)) = some (true, 1) ∧
    (run (.busCharacter ⟨1#8, false, true, true, false, false⟩) { bay with scan := { bay.scan with rx := ⟨[], false, some ⟨1#8, false, true, true, false, false⟩⟩ } }).map
      (fun t => (t.scan.rx.broken, t.scan.counters.overrun)) = some (false, 1) := by decide +kernel

/-- A degrade request sets OVERSPEED beside DOSE LAG (R85, log 20). -/
theorem test_degrade_request : ((State.degradeRequest (loading (batch .full) .high) 1).holder 1).map
    (fun b => (b.degraded, hasExc .overspeed b.exceptions, hasExc .doseLag b.exceptions)) = some (true, true, true) := by decide +kernel

/-- No two blocked characters in a row; two in a row, the second with an error of its own. -/
theorem premises_MessageDiscarded_blocked :
    bay.pads.tde = false ∧ bay.port.reply = none ∧ bay.port.rx = ⟨[], 0, false, none⟩ ∧
    (∀ (before after : List TermChar) (a b : TermChar), [⟨1#8, true, true, true, false⟩, good 0x51#8] = before ++ a :: b :: after →
      a.blocked = false ∨ b.blocked = false) ∧
    (∀ c ∈ [good 1#8] ++ [good 2#8], c.blocked = false) ∧
    (⟨1#8, true, true, true, false⟩ : TermChar).blocked = true ∧ TermChar.error ⟨0#8, false, false, true, false⟩ ≠ .none := by
  refine ⟨rfl, rfl, rfl, fun before after a b e => ?_, by decide, rfl, by decide⟩
  rcases before with _ | ⟨c, _ | ⟨d, before⟩⟩
  · cases e; exact .inr rfl
  all_goals simp at e

/-- An untaken character is held when another comes: within a reply, and as its last. -/
theorem premises_BusCharacterJudged_held :
    ∀ k ∈ [0, 13],
      (let s := { heard [] with
         scan := { (heard []).scan with rx := ⟨sampleFrame.take k, false, some ⟨byteAt sampleFrame k, false, true, true, false, false⟩⟩ } }
       let got := s.scan.rx.buffer ++ [byteAt sampleFrame k]
       s.Settled ∧ s.pads.bde = false ∧ s.scan.rx.held = some ⟨byteAt sampleFrame k, false, true, true, false, false⟩ ∧
        (3 ≤ got.length ∧ got.length = 5 + (byteAt got 2).toNat ↔ k = 13) ∧ (∃ t ∈ s.scan.transaction, t.sent = true) ∧
        s.scan.rx.broken = false ∧ BusChar.error ⟨byteAt sampleFrame k, false, true, true, false, false⟩ = .none ∧
        BusChar.error ⟨10#8, false, true, false, false, false⟩ = .none) := by
  unfold State.Settled; decide +kernel

/-- A valid reply is behind, a telegram is picked and not yet begun: a character in the gap counts its error; of two that the buffer
cannot accept the second is an overrun, and the first is taken when the buffer frees (R4, R13, R27). -/
theorem test_gap_characters :
    (run (.busCharacter ⟨0#8, false, false, false, false, true⟩) sending).map (fun t => t.scan.counters) = some ⟨0, 1, 0, 0⟩ ∧
    (run (.busCharacter ⟨1#8, false, false, true, false, true⟩) sending).bind (fun t =>
      (run (.busCharacter ⟨2#8, false, true, true, true, true⟩) t).map fun u =>
        (t.scan.rx.held.isSome, u.scan.rx.held, u.scan.counters)) = some (true, none, ⟨1, 0, 1, 0⟩) := by decide +kernel

/-- A telegram picked and not begun; characters behind the gate and in the gap; a held character, with and without a buffer that frees. -/
theorem premises_BusCharacterJudged_gap :
    sending.Settled ∧ sending.pads.bde = true ∧ (∀ t, sending.scan.transaction = some t → t.sent = false) ∧
    (⟨1#8, false, true, false, false, false⟩ : BusChar).gap = false ∧
    ¬ (sending.pads.bde = true ∧ (⟨1#8, false, true, true, true, true⟩ : BusChar).gap = false) ∧
    (⟨1#8, false, true, true, true, true⟩ : BusChar).frees = true ∧ (⟨1#8, false, true, true, false, true⟩ : BusChar).frees = false ∧
    sending.scan.rx.held = none ∧
    ({ sending.scan.rx with held := some ⟨1#8, false, true, true, false, true⟩ } : BusRx).held = some ⟨1#8, false, true, true, false, true⟩ :=
  ⟨rfl, rfl, fun t h => by cases h; rfl, rfl, by decide, rfl, rfl, rfl, rfl⟩

end Sys2Proof.Slice0
end

section
/-! PROOF. The stages of a sample's volume (chapter 4): rounding, the carried quotient, the bounds of the meter factor and of the
correction factor, and what one run of the stages answers. -/

namespace Sys2Proof.Machine

/-! ### Rounding -/

theorem roundUp_le {n d k : Nat} (hd : 0 < d) (h : n ≤ k * d) : roundUp n d ≤ k := by
  have hprod : 2 * d * (k + 1) = 2 * (k * d) + 2 * d := by
    rw [Nat.mul_succ, Nat.mul_assoc, Nat.mul_comm d k]
  have hlt : 2 * n + d < 2 * d * (k + 1) := by omega
  exact Nat.le_of_lt_succ (Nat.div_lt_of_lt_mul hlt)

theorem roundUp_zero {d : Nat} (hd : 0 < d) : roundUp 0 d = 0 :=
  Nat.le_zero.mp (roundUp_le hd (Nat.zero_le _))

/-- A quotient at or above 0 (R61, R65). -/
theorem roundAway_natCast (n d : Nat) : roundAway (n : Int) d = roundUp n d := by
  rw [roundAway, if_neg (Int.not_lt.mpr (Int.natCast_nonneg n)), Int.natAbs_natCast]
  rfl

/-- A negative quotient rounds by its magnitude (R61, R65). -/
theorem roundAway_neg_natCast (n : Nat) {d : Nat} (hd : 0 < d) : roundAway (-(n : Int)) d = -(roundUp n d : Int) := by
  rcases Nat.eq_zero_or_pos n with rfl | hn
  · rw [Int.natCast_zero, Int.neg_zero, roundUp_zero hd]
    exact (roundAway_natCast 0 d).trans (congrArg Nat.cast (roundUp_zero hd))
  · have hneg : -(n : Int) < 0 := by omega
    rw [roundAway, if_pos hneg, Int.natAbs_neg, Int.natAbs_natCast]
    rfl

/-- The part `t / w` of a change `k` stays within the change when it is rounded. -/
theorem roundUp_part_le {t w k : Nat} (hw : 0 < w) (ht : t ≤ w) : roundUp (t * k) w ≤ k := by
  refine roundUp_le hw ?_
  rw [Nat.mul_comm k]
  exact Nat.mul_le_mul_right k ht

/-! ### The carried quotient (stages 2, 5 and 8) -/

/-- Nothing is lost: quotient and new remainder make up the dividend and the old remainder. -/
theorem carryDiv_exact (n r d : Nat) : (carryDiv n r d).1 * d + (carryDiv n r d).2 = n + r :=
  Nat.div_add_mod' _ _

theorem carryDiv_remainder_lt (n r : Nat) {d : Nat} (hd : 0 < d) : (carryDiv n r d).2 < d :=
  Nat.mod_lt _ hd

theorem carryDiv_zero {r d : Nat} (h : r < d) : carryDiv 0 r d = (0, r) := by
  rw [carryDiv, Nat.zero_add, Nat.div_eq_of_lt h, Nat.mod_eq_of_lt h]

/-! ### The meter factor (stage 4) -/

/-- On a segment that holds the rate, the interpolated factor lies between the factors of its ends (R61 case 4). -/
theorem interpolate_between {q : Nat} {a b : Nat × Nat} (ha : a.1 ≤ q) (hb : q < b.1) :
    (min a.2 b.2 : Nat) ≤ interpolate q a b ∧ interpolate q a b ≤ (max a.2 b.2 : Nat) := by
  have hw : 0 < b.1 - a.1 := by omega
  have ht : q - a.1 ≤ b.1 - a.1 := by omega
  have hq : (q : Int) - a.1 = (q - a.1 : Nat) := by omega
  unfold interpolate
  rw [hq]
  rcases Nat.le_total a.2 b.2 with hm | hm
  · have hrise : (b.2 : Int) - a.2 = (b.2 - a.2 : Nat) := by omega
    have hpart := roundUp_part_le (k := b.2 - a.2) hw ht
    rw [hrise, ← Int.natCast_mul, roundAway_natCast]
    omega
  · have hfall : (b.2 : Int) - a.2 = -(a.2 - b.2 : Nat) := by omega
    have hpart := roundUp_part_le (k := a.2 - b.2) hw ht
    rw [hfall, Int.mul_neg, ← Int.natCast_mul, roundAway_neg_natCast _ hw]
    omega

/-- The factor beyond a point stays within any bounds of the factors from that point on. -/
theorem factorFrom_within {lo hi q : Nat} {a : Nat × Nat} {rest : List (Nat × Nat)} (ha : a.1 ≤ q)
    (h : ∀ p ∈ a :: rest, lo ≤ p.2 ∧ p.2 ≤ hi) : lo ≤ factorFrom q a rest ∧ factorFrom q a rest ≤ hi := by
  induction rest generalizing a with
  | nil =>
    have := h a List.mem_cons_self
    simp only [factorFrom]
    omega
  | cons b rest ih =>
    simp only [factorFrom]
    split
    case isTrue hq =>
      have := interpolate_between ha hq
      have := h a List.mem_cons_self
      have := h b (.tail _ List.mem_cons_self)
      omega
    case isFalse hq => exact ih (Nat.not_lt.mp hq) fun p hp => h p (.tail _ hp)

/-- The meter factor lies within any bounds of the factors of its curve, whatever the rate (R61). -/
theorem meterFactor_within {lo hi : Nat} {curve : List (Nat × Nat)} (hne : curve ≠ [])
    (h : ∀ p ∈ curve, lo ≤ p.2 ∧ p.2 ≤ hi) (q : Nat) : lo ≤ meterFactor q curve ∧ meterFactor q curve ≤ hi := by
  cases curve with
  | nil => exact absurd rfl hne
  | cons a rest =>
    simp only [meterFactor]
    split
    case isTrue => exact h a List.mem_cons_self
    case isFalse hq =>
      have := factorFrom_within (Nat.le_of_lt (Nat.not_le.mp hq)) h
      omega

/-! ### The correction factor (stage 7) -/

/-- The clamp of R65. -/
theorem vcf_within (alpha : Nat) (t : Int) (tref : Nat) : 90000 ≤ vcf alpha t tref ∧ vcf alpha t tref ≤ 110000 := by
  unfold vcf
  omega

/-! ### What a valid arm entry gives the stages -/

/-- The ranges of R44 that the stages rest on: a K-factor above 0, and a curve with points and with factors in 90000..110000. -/
theorem ArmEntry.ranges_of_valid {e : ArmEntry} (h : e.valid = true) :
    0 < e.km ∧ e.curve ≠ [] ∧ ∀ p ∈ e.curve, 90000 ≤ p.2 ∧ p.2 ≤ 110000 := by
  simp only [ArmEntry.valid, pointOk, Bool.and_eq_true, decide_eq_true_eq, List.all_eq_true, and_assoc] at h
  obtain ⟨hkm, _, hlen, _, hpoints, _⟩ := h
  refine ⟨by omega, List.ne_nil_of_length_pos hlen, fun p hp => ?_⟩
  obtain ⟨_, _, hlow, hhigh⟩ := hpoints p hp
  exact ⟨hlow, hhigh⟩

/-! ### One run of the stages, stage by stage -/

section Stages

variable (e : ArmEntry) (alpha tref : Nat) (m : Metering) (pulses : Nat) (fault : Bool) (interval : Nat) (valid : Bool) (reading : Int)

theorem runStages_raw : ((runStages e alpha tref m pulses fault interval valid reading).1.raw,
    (runStages e alpha tref m pulses fault interval valid reading).2.r1) = rawStage pulses e.km m.r1 := rfl

theorem runStages_rate : (runStages e alpha tref m pulses fault interval valid reading).1.rate =
    flowRate (runStages e alpha tref m pulses fault interval valid reading).1.raw interval := rfl

theorem runStages_gross : ((runStages e alpha tref m pulses fault interval valid reading).1.gross,
    (runStages e alpha tref m pulses fault interval valid reading).2.r2) =
      grossStage (runStages e alpha tref m pulses fault interval valid reading).1.raw
        (meterFactor (runStages e alpha tref m pulses fault interval valid reading).1.rate e.curve) m.r2 := rfl

theorem runStages_net : ((runStages e alpha tref m pulses fault interval valid reading).1.net,
    (runStages e alpha tref m pulses fault interval valid reading).2.r3) =
      netStage (runStages e alpha tref m pulses fault interval valid reading).1.gross
        (vcf alpha (runStages e alpha tref m pulses fault interval valid reading).1.temp tref) m.r3 := rfl

end Stages

/-! ### The stages with their remainders -/

/-- A quotient and a remainder that `carryDiv` gave account for the dividend (R59, R62, R66). -/
theorem carried_of_eq {q k n r d : Nat} (hd : 0 < d) (h : (q, k) = carryDiv n r d) : q * d + k = n + r ∧ k < d := by
  obtain ⟨rfl, rfl⟩ := Prod.mk.inj h
  exact ⟨carryDiv_exact n r d, carryDiv_remainder_lt n r hd⟩

/-- A dividend of 0 gives no volume and leaves the remainder (R58, R62). -/
theorem kept_of_zero {q k r d : Nat} (hr : r < d) (h : (q, k) = carryDiv 0 r d) : q = 0 ∧ k = r :=
  Prod.mk.inj (h.trans (carryDiv_zero hr))

/-- With a K-factor of 100000 each pulse is 10,000 μL and no remainder is left (R59). -/
theorem rawStage_of_hundred_pulses_per_litre (pulses : Nat) : rawStage pulses 100000 0 = (pulses * 10000, 0) := by
  have hsplit : pulses * 1000000000 + 0 = pulses * 10000 * 100000 := by omega
  rw [rawStage, carryDiv, hsplit, Nat.mul_div_cancel _ (by decide), Nat.mul_mod_left]

/-- No pulses: the zero of each stage is the dividend of the next (R58, R62). -/
theorem runStages_no_pulses {e : ArmEntry} {m : Metering} (hm : m.InRange e.km) (alpha tref : Nat) (fault : Bool) (interval : Nat)
    (valid : Bool) (reading : Int) :
    let r := (runStages e alpha tref m 0 fault interval valid reading).1
    let k := (runStages e alpha tref m 0 fault interval valid reading).2
    r.raw = 0 ∧ r.gross = 0 ∧ r.net = 0 ∧ k.r1 = m.r1 ∧ k.r2 = m.r2 ∧ k.r3 = m.r3 := by
  intro r k
  obtain ⟨h1, h2, h3⟩ := hm
  have raw := runStages_raw e alpha tref m 0 fault interval valid reading
  have gross := runStages_gross e alpha tref m 0 fault interval valid reading
  have net := runStages_net e alpha tref m 0 fault interval valid reading
  rw [rawStage, Nat.zero_mul] at raw
  obtain ⟨hraw, hr1⟩ := kept_of_zero h1 raw
  rw [grossStage, hraw, Nat.zero_mul] at gross
  obtain ⟨hgross, hr2⟩ := kept_of_zero h2 gross
  rw [netStage, hgross, Nat.zero_mul] at net
  obtain ⟨hnet, hr3⟩ := kept_of_zero h3 net
  exact ⟨hraw, hgross, hnet, hr1, hr2, hr3⟩

/-- Settles O53: each stage by its equation, the two factors by the bounds of a valid curve and of the clamp. -/
theorem volumeStages : Obligations.VolumeStages := by
  refine ⟨fun e alpha tref m pulses fault interval valid reading he hm => ?_, rawStage_of_hundred_pulses_per_litre, rfl⟩
  obtain ⟨hkm, hcurve, hpoints⟩ := ArmEntry.ranges_of_valid he
  refine ⟨?raw, ?rate, ?gross, ?net, ?noPulses, meterFactor_within hcurve hpoints _, vcf_within alpha _ tref⟩
  case raw => exact carried_of_eq hkm (runStages_raw e alpha tref m pulses fault interval valid reading)
  case rate => exact runStages_rate e alpha tref m pulses fault interval valid reading
  case gross => exact carried_of_eq (by decide) (runStages_gross e alpha tref m pulses fault interval valid reading)
  case net => exact carried_of_eq (by decide) (runStages_net e alpha tref m pulses fault interval valid reading)
  case noPulses =>
    rintro rfl
    exact runStages_no_pulses hm alpha tref fault interval valid reading

end Sys2Proof.Machine
end

section
/-! PROOF. NOTE RELEASE (R159): what the note builder answers at each of its four checks, and the queue after a release that
passes. -/

namespace Sys2Proof.Machine

/-! ### A field of BCD bytes -/

theorem all_bcdOk_iff (p : List Byte) : p.all bcdOk = true ↔ ∀ b ∈ p, b.toNat / 16 ≤ 9 ∧ b.toNat % 16 ≤ 9 := by
  simp only [bcdOk, List.all_eq_true, Bool.and_eq_true, decide_eq_true_eq]

/-! ### The checks of R159 in order -/

theorem noteRelease_of_length_ne {s : State} {p : List Byte} (h : p.length ≠ 4) : s.noteRelease p = (s, .refuse .badFormat) :=
  if_pos h

theorem noteRelease_of_bad_number {s : State} {p : List Byte} (h : p.length = 4)
    (hbad : ¬ (p.all bcdOk = true ∧ bcdNat p ≠ 0)) : s.noteRelease p = (s, .refuse .badValue) := by
  rw [State.noteRelease, if_neg (not_not_intro h), if_pos hbad]
  rfl

/-! A note number of the right form is judged by the queue alone. -/

section Queue

variable {s : State} {p : List Byte} {n : Note} {rest : List Note} (h : p.length = 4)
  (hgood : p.all bcdOk = true ∧ bcdNat p ≠ 0)

include h hgood

theorem noteRelease_of_empty (hq : s.note.notes = []) : s.noteRelease p = (s, .refuse .notFound) := by
  rw [State.noteRelease, if_neg (not_not_intro h), if_neg (not_not_intro hgood), hq]
  rfl

theorem noteRelease_of_not_oldest (hq : s.note.notes = n :: rest) (hn : n.number ≠ bcdNat p) :
    s.noteRelease p = (s, .refuse .notOldest) := by
  rw [State.noteRelease, if_neg (not_not_intro h), if_neg (not_not_intro hgood), hq]
  exact if_neg hn

theorem noteRelease_of_oldest (hq : s.note.notes = n :: rest) (hn : n.number = bcdNat p) :
    s.noteRelease p = ({ s with note := { s.note with notes := rest } }, .accept) := by
  rw [State.noteRelease, if_neg (not_not_intro h), if_neg (not_not_intro hgood), hq]
  exact if_pos hn

end Queue

/-! ### The command -/

/-- The judgement wakes no work for the bus, so what the note builder answers is what the command leaves (R159, log 36). -/
theorem exec_noteRelease_of_answer {s u : State} {p : List Byte} {r : TermReply} (hr : s.Reaches p.length) (hu : u.Settled)
    (h : s.noteRelease p = (u, r)) : exec (.noteRelease p) s = .next (u.shows r) :=
  request_next hr h hu

/-- Settles O23: the note builder's answer at each check, carried through the gate of the terminal port. -/
theorem noteReleaseEffect : Obligations.NoteReleaseEffect := by
  intro p s hs hr
  dsimp only
  rw [← all_bcdOk_iff]
  refine ⟨fun hlen => ?badFormat, fun hlen hbad => ?badValue, fun hlen hgood hq => ?notFound,
    fun n rest hlen hgood hq => ⟨fun hn => ?notOldest, fun hn => ?released⟩⟩
  case badFormat => exact exec_noteRelease_of_answer hr hs (noteRelease_of_length_ne hlen)
  case badValue => exact exec_noteRelease_of_answer hr hs (noteRelease_of_bad_number hlen hbad)
  case notFound => exact exec_noteRelease_of_answer hr hs (noteRelease_of_empty hlen hgood hq)
  case notOldest => exact exec_noteRelease_of_answer hr hs (noteRelease_of_not_oldest hlen hgood hq hn)
  case released => exact exec_noteRelease_of_answer hr hs (noteRelease_of_oldest hlen hgood hq hn)

end Sys2Proof.Machine
end

section
/-! PROOF. Notices (chapter 11.4): the gate a raised notice passes (R180), the oldest notices that NOTICE POLL answers (R181), and the
mask that NOTICE MASK writes (R182). -/

namespace Sys2Proof.Machine

/-! ### The gate of the queue (R180) -/

/-- A raise changes the pending set and the queue, and nothing else. -/
theorem raiseNotice_frame (s : State) (kind : NoticeKind) (subject : Subject) (code : Byte) :
    s.raiseNotice kind subject code = { s with port := { s.port with
      notices := (s.raiseNotice kind subject code).port.notices
      pendingSet := (s.raiseNotice kind subject code).port.pendingSet } } := rfl

/-- The pending bit is set whatever mask and queue say. -/
theorem raiseNotice_pendingSet (s : State) (kind : NoticeKind) (subject : Subject) (code : Byte) :
    (s.raiseNotice kind subject code).port.pendingSet = s.port.pendingSet ||| (1#16 <<< kind.number) := rfl

theorem raiseNotice_notices_of_unmasked_of_room {s : State} {kind : NoticeKind} (hbit : s.port.mask.getLsbD kind.number = true)
    (hroom : s.port.notices.length < 32) (subject : Subject) (code : Byte) :
    (s.raiseNotice kind subject code).port.notices = s.port.notices ++ [⟨kind, subject, code, s.time.record, none⟩] :=
  if_pos ⟨hbit, hroom⟩

theorem raiseNotice_notices_of_masked_or_full {s : State} {kind : NoticeKind}
    (h : s.port.mask.getLsbD kind.number = false ∨ 32 ≤ s.port.notices.length) (subject : Subject) (code : Byte) :
    (s.raiseNotice kind subject code).port.notices = s.port.notices := by
  refine if_neg fun ⟨hbit, hroom⟩ => ?_
  rcases h with hmasked | hfull
  · exact Bool.false_ne_true (hmasked.symm.trans hbit)
  · exact Nat.not_le.mpr hroom hfull

/-! ### The form of a notice (R181) -/

/-- Bytes 0 to 9 of a notice. -/
def Notice.opening (x : Notice) : List Byte :=
  [BitVec.ofNat 8 x.kind.number, x.subject.code, x.code, x.time.year, x.time.month, x.time.day, x.time.weekday, x.time.hour,
    x.time.minute, x.time.second]

theorem Notice.bytes_of_no_extra {x : Notice} (h : x.extra = none) : x.bytes = x.opening ++ [0#8] := by
  rw [Notice.bytes, Notice.extraBytes, h]
  rfl

theorem Notice.bytes_of_extra {x : Notice} {kind : Byte} {payload : List Byte} (h : x.extra = some (kind, payload)) :
    x.bytes = x.opening ++ BitVec.ofNat 8 (1 + payload.length) :: kind :: payload := by
  rw [Notice.bytes, Notice.extraBytes, h, Nat.add_comm]
  rfl

/-! ### NOTICE POLL (R181) -/

theorem noticePoll_of_payload {s : State} {p : List Byte} (h : p ≠ []) : s.noticePoll p = (s, .refuse .badFormat) :=
  if_pos h

theorem noticePoll_nil (s : State) : s.noticePoll [] = ({ s with port := { s.port with notices := s.port.notices.drop 4 } },
    .data (BitVec.ofNat 8 (min 4 s.port.notices.length) :: (s.port.notices.take 4).flatMap Notice.bytes)) := by
  rw [← List.length_take]
  rfl

/-- The port answers a poll by itself and wakes no work for the bus. -/
theorem exec_noticePoll_of_answer {s u : State} {p : List Byte} {r : TermReply} (hr : s.Reaches p.length) (h : s.noticePoll p = (u, r))
    (hu : u.Settled) : exec (.noticePoll p) s = .next (u.shows r) :=
  request_next hr h hu

/-- Settles O9: the answer of the poll, with each notice in the form of R181 by its subject and its extra bytes. -/
theorem noticePollAnswers : Obligations.NoticePollAnswers := by
  intro s hs
  refine ⟨fun hr => ?answered, fun q hq hr => exec_noticePoll_of_answer hr (noticePoll_of_payload hq) hs⟩
  case answered =>
    rw [exec_noticePoll_of_answer hr (noticePoll_nil s) hs]
    congr 5
    funext x
    obtain ⟨kind, subject, code, time, extra⟩ := x
    cases extra with
    | none =>
      rw [Notice.bytes_of_no_extra rfl]
      rcases subject with (_ | _) | _ | _ | _ <;> rfl
    | some reply =>
      rw [Notice.bytes_of_extra rfl]
      rcases subject with (_ | _) | _ | _ | _ <;> rfl

/-! ### NOTICE MASK (R182) -/

theorem noticeMask_of_length_ne {s : State} {p : List Byte} (h : p.length ≠ 2) : s.noticeMask p = (s, .refuse .badFormat) :=
  if_pos h

/-- Two bytes, the most significant first, of which bits 14 and 15 are ignored. -/
theorem noticeMask_pair (s : State) (hi lo : Byte) :
    s.noticeMask [hi, lo] = ({ s with port := { s.port with mask := (hi ++ lo) &&& 0x3FFF#16 } }, .accept) := by
  rw [← ofNat_beNat_two]
  rfl

theorem exec_noticeMask_of_answer {s u : State} {p : List Byte} {r : TermReply} (hr : s.Reaches p.length) (h : s.noticeMask p = (u, r))
    (hu : u.Settled) : exec (.noticeMask p) s = .next (u.shows r) :=
  request_next hr h hu

/-- Settles O10: the written mask carried through the gate of the terminal port, and the gate of the queue by its two cases. -/
theorem noticeMaskGates : Obligations.NoticeMaskGates := by
  refine ⟨fun s hs => ⟨fun hi lo hr => ⟨_, rfl, ?written⟩, fun q hq hr => ?badFormat⟩, fun s kind subject code => ?raised⟩
  case written => exact exec_noticeMask_of_answer hr (noticeMask_pair s hi lo) hs
  case badFormat => exact exec_noticeMask_of_answer hr (noticeMask_of_length_ne hq) hs
  case raised =>
    exact ⟨raiseNotice_pendingSet s kind subject code,
      fun hbit hroom => raiseNotice_notices_of_unmasked_of_room hbit hroom subject code,
      fun h => raiseNotice_notices_of_masked_or_full h subject code, raiseNotice_frame s kind subject code⟩

end Sys2Proof.Machine
end

section
/-! PROOF. BAY MODE (R176): its table by the present mode, and the judgement of its payload in a message of any kind (R11). -/

namespace Sys2Proof.Machine

/-! ### The payload -/

theorem bayMode_of_length_ne {s : State} {p : List Byte} (h : p.length ≠ 1) : s.bayMode p = (s, .refuse .badFormat) :=
  if_pos h

theorem bayMode_cons_of_rest {s : State} {q : List Byte} (h : q ≠ []) (c : Byte) : s.bayMode (c :: q) = (s, .refuse .badFormat) :=
  bayMode_of_length_ne fun hlen => h (List.eq_nil_of_length_eq_zero (Nat.succ.inj hlen))

theorem bayMode_in (s : State) : s.bayMode [0x01#8] = s.modeIn := rfl

theorem bayMode_out (s : State) : s.bayMode [0x00#8] = s.modeOut := rfl

theorem bayMode_of_other_code {s : State} {c : Byte} (hout : c ≠ 0x00#8) (hin : c ≠ 0x01#8) :
    s.bayMode [c] = (s, .refuse .badFormat) :=
  (if_neg (not_not_intro rfl)).trans ((if_neg hin).trans (if_neg hout))

/-! ### The checks before IN SERVICE -/

theorem enterService_of_inconsistent {s : State} (h : s.inconsistency.isSome) : s.enterService = (s, .refuse .wrongMode) :=
  if_pos h

section Consistent

variable {s : State} (h : s.inconsistency = none)

include h

theorem enterService_of_time_unset (ht : s.time.timeSet = false) : s.enterService = (s, .refuse .timeNotSet) := by
  simp [State.enterService, State.refuse, h, ht]

theorem enterService_of_time_set (ht : s.time.timeSet = true) : s.enterService = (s.setMode .inService, .accept) := by
  simp [State.enterService, State.accept, h, ht]

end Consistent

/-! ### The two columns of the table -/

theorem modeIn_of_inService {s : State} (h : s.port.mode = .inService) : s.modeIn = (s, .accept) := by
  rw [State.modeIn, h]
  rfl

theorem modeIn_of_not_inService {s : State} (h : s.port.mode ≠ .inService) : s.modeIn = s.enterService := by
  cases hm : s.port.mode with
  | inService => exact absurd hm h
  | outOfService | draining => rw [State.modeIn, hm]

theorem modeOut_of_not_inService {s : State} (h : s.port.mode ≠ .inService) : s.modeOut = (s, .accept) := by
  cases hm : s.port.mode with
  | inService => exact absurd hm h
  | outOfService | draining => rw [State.modeOut, hm]; rfl

/-- The port's question to the lanes and the count of loads are one (R136). -/
theorem holdsLoad_iff_loadsHeld_pos (s : State) : (s.holdsLoad .a || s.holdsLoad .b) = true ↔ 0 < s.loadsHeld := by
  rw [loadsHeld_eq, State.loadCount]
  cases s.holdsLoad .a <;> cases s.holdsLoad .b <;> simp

theorem modeOut_of_load_held {s : State} (h : s.port.mode = .inService) (hl : 0 < s.loadsHeld) :
    s.modeOut = (s.setMode .draining, .accept) := by
  rw [State.modeOut, h]
  exact if_pos ((holdsLoad_iff_loadsHeld_pos s).mpr hl)

theorem modeOut_of_no_load {s : State} (h : s.port.mode = .inService) (hl : s.loadsHeld = 0) :
    s.modeOut = (s.setMode .outOfService, .accept) := by
  rw [State.modeOut, h]
  exact if_neg fun hheld => Nat.ne_of_gt ((holdsLoad_iff_loadsHeld_pos s).mp hheld) hl

/-! ### The commands -/

@[simp] theorem settled_setMode (s : State) (m : BayMode) : (s.setMode m).Settled ↔ s.Settled := Iff.rfl

section Answers

variable {s u : State} {q p : List Byte} {r : TermReply}

theorem exec_bayModeInService_of_answer (hr : s.Reaches (1 + q.length)) (h : s.bayMode (0x01#8 :: q) = (u, r)) (hu : u.Settled) :
    exec (.bayModeInService q) s = .next (u.shows r) :=
  request_next hr h hu

theorem exec_bayModeOutOfService_of_answer (hr : s.Reaches (1 + q.length)) (h : s.bayMode (0x00#8 :: q) = (u, r)) (hu : u.Settled) :
    exec (.bayModeOutOfService q) s = .next (u.shows r) :=
  request_next hr h hu

/-- Without further bytes the column of the table answers. -/
theorem exec_bayModeInService_of_column (hr : s.Reaches 1) (h : s.modeIn = (u, r)) (hu : u.Settled) :
    exec (.bayModeInService []) s = .next (u.shows r) :=
  exec_bayModeInService_of_answer hr ((bayMode_in s).trans h) hu

theorem exec_bayModeOutOfService_of_column (hr : s.Reaches 1) (h : s.modeOut = (u, r)) (hu : u.Settled) :
    exec (.bayModeOutOfService []) s = .next (u.shows r) :=
  exec_bayModeOutOfService_of_answer hr ((bayMode_out s).trans h) hu

theorem dispatch_bayMode (s : State) (p : List Byte) : State.dispatch 0x60#8 p s = s.bayMode p := rfl

/-- A message of kind BAY MODE goes to the same owner with whatever payload it carries (R11, log 9). -/
theorem exec_unknownKind_bayMode_of_answer (hr : s.Reaches p.length) (h : s.bayMode p = (u, r)) (hu : u.Settled) :
    exec (.unknownKind 0x60#8 p) s = .next (u.shows r) := by
  have hlength : p.length ≤ 240 := hr.1
  have hgate : s.anyRequest 0x60#8 p = s.request p.length (State.dispatch 0x60#8 p) :=
    (if_neg (Nat.not_lt.mpr hlength)).trans (if_neg (by decide))
  exact (congrArg Host.Outcome.next hgate).trans (request_next hr ((dispatch_bayMode s p).trans h) hu)

end Answers

/-- Settles O11: each cell of the table, and each payload that is refused, carried through the gate of the terminal port. -/
theorem bayModeTable : Obligations.BayModeTable := by
  intro s hs hr
  refine ⟨fun h => ?inStays, fun h hc => ?inconsistent, fun h hc ht => ?timeUnset, fun h hc ht => ?entered, fun h => ?outStays,
    fun h hl => ?draining, fun h hl => ?outOfService, fun q hq hrq => ⟨?inLong, ?outLong⟩, fun hr0 => ?empty,
    fun c h0 h1 => ?otherCode⟩
  case inStays => exact exec_bayModeInService_of_column hr (modeIn_of_inService h) hs
  case inconsistent =>
    exact exec_bayModeInService_of_column hr ((modeIn_of_not_inService h).trans (enterService_of_inconsistent hc)) hs
  case timeUnset =>
    exact exec_bayModeInService_of_column hr ((modeIn_of_not_inService h).trans (enterService_of_time_unset hc ht)) hs
  case entered =>
    exact exec_bayModeInService_of_column hr ((modeIn_of_not_inService h).trans (enterService_of_time_set hc ht))
      ((settled_setMode s .inService).mpr hs)
  case outStays => exact exec_bayModeOutOfService_of_column hr (modeOut_of_not_inService h) hs
  case draining => exact exec_bayModeOutOfService_of_column hr (modeOut_of_load_held h hl) ((settled_setMode s .draining).mpr hs)
  case outOfService =>
    exact exec_bayModeOutOfService_of_column hr (modeOut_of_no_load h hl) ((settled_setMode s .outOfService).mpr hs)
  case inLong => exact exec_bayModeInService_of_answer hrq (bayMode_cons_of_rest hq _) hs
  case outLong => exact exec_bayModeOutOfService_of_answer hrq (bayMode_cons_of_rest hq _) hs
  case empty => exact exec_unknownKind_bayMode_of_answer hr0 (bayMode_of_length_ne Nat.zero_ne_one) hs
  case otherCode => exact exec_unknownKind_bayMode_of_answer hr (bayMode_of_other_code h0 h1) hs

end Sys2Proof.Machine
end

section
/-! PROOF. What every step keeps (chapters 1, 5, 7, 9 to 11): each invariant is carried by the operations (Keeps), by a stored word and
by a hard reset, and so by every step. -/

namespace Sys2Proof.Machine

/-! ### Hard reset (R185) -/

section HardReset

variable (addr : BitVec 5) (trate brate : BitVec 2) (cal : Bool) (next count free : Nat) (q : List Instr)

theorem afterHardReset_arm (n : Arm) :
    (State.afterHardReset addr trate brate cal next count free q).arm n = ArmRec.reset := by
  simp [State.afterHardReset, State.arm, BatchController.reset]

theorem afterHardReset_lane (l : Lane) : (State.afterHardReset addr trate brate cal next count free q).lane l = LaneRec.reset := by
  cases l <;> rfl

theorem afterHardReset_valvesSafe :
    (State.afterHardReset addr trate brate cal next count free q).ValvesSafe := by
  intro n
  rw [afterHardReset_arm]
  rfl

theorem afterHardReset_notesReserved : (State.afterHardReset addr trate brate cal next count free q).NotesReserved := by
  refine ⟨Nat.zero_le 16, fun l => ?_⟩
  rw [afterHardReset_lane]
  cases l <;> exact ⟨nofun, nofun⟩

theorem afterHardReset_runTracksMode : (State.afterHardReset addr trate brate cal next count free q).RunTracksMode :=
  ⟨nofun, nofun⟩

theorem afterHardReset_driversTrackLines : (State.afterHardReset addr trate brate cal next count free q).DriversTrackLines :=
  ⟨⟨nofun, nofun⟩, ⟨nofun, nofun⟩⟩

/-- The two words a hard reset finds are in range where they were, and the calibration due value is read from the counter (R160, R164). -/
theorem afterHardReset_wordsInRange (hn : 1 ≤ next ∧ next ≤ 99999999) (hc : count ≤ 999999) :
    (State.afterHardReset addr trate brate cal next count free q).WordsInRange :=
  ⟨hn, hc, hc, nofun⟩

theorem afterHardReset_permitsOrdered : (State.afterHardReset addr trate brate cal next count free q).PermitsOrdered :=
  ⟨.nil, Nat.zero_le 256⟩

theorem afterHardReset_countsBounded : (State.afterHardReset addr trate brate cal next count free q).CountsBounded := by
  have h : 0 ≤ 65535 := Nat.zero_le _
  exact ⟨h, h, h, h, h, h, h, h, h, Nat.zero_le 32⟩

theorem afterHardReset_timeValid : (State.afterHardReset addr trate brate cal next count free q).TimeValid := by
  show TimeRec.reset.valid = true
  decide

/-- A hard reset leaves the values that the chapters give (R185). -/
theorem afterHardReset_atHardReset :
    (State.afterHardReset addr trate brate cal next count free q).AtHardReset := by
  refine ⟨⟨rfl, rfl, rfl, rfl⟩, ⟨rfl, rfl, rfl, rfl, rfl, rfl⟩, ⟨rfl, rfl, rfl⟩, rfl, ⟨rfl, rfl, rfl⟩, ⟨rfl, rfl, rfl, fun n => ?arms⟩,
    fun n => ?meters, fun i => ?slots, ⟨rfl, rfl, rfl, rfl, rfl⟩, ⟨rfl, rfl, rfl, fun k => ?filter, rfl, rfl, rfl, rfl⟩⟩
  case arms => simp [State.afterHardReset, BatchController.reset, ArmRec.reset]
  case meters => simp [State.afterHardReset, Metering.start]
  case slots => simp [State.afterHardReset, Scanner.reset]
  case filter => simp [State.afterHardReset, Scanner.reset]

end HardReset

/-! ### The command at the front -/

/-- Settles O1: the step's two cases, each by its equation. -/
theorem stepRunsFrontCommand : Obligations.StepRunsFrontCommand :=
  ⟨fun _ _ _ => rfl, fun s hempty => by simp [step, hempty]⟩

/-- Settles O2: State.reset is a hard reset with the words as manufactured. -/
theorem resetValues : Obligations.ResetValues :=
  ⟨afterHardReset_atHardReset .., rfl, rfl, rfl⟩

/-- Settles O3: the state a hard reset leaves, whatever it found. -/
theorem hardResetEffect : Obligations.HardResetEffect := fun addr trate brate s =>
  ⟨s.hardReset addr trate brate, rfl, afterHardReset_atHardReset .., rfl, rfl, rfl, rfl, rfl, rfl, rfl⟩

/-- Settles O4: the reset is a hard reset, and a hard reset meets every invariant. -/
theorem invariantsAtReset : Obligations.InvariantsAtReset :=
  ⟨afterHardReset_valvesSafe _ _ _ _ _ _ _ _, afterHardReset_runTracksMode .., afterHardReset_driversTrackLines .., rfl,
    afterHardReset_notesReserved .., afterHardReset_wordsInRange _ _ _ _ _ _ _ _ (by decide) (by decide), afterHardReset_permitsOrdered ..,
    afterHardReset_countsBounded .., afterHardReset_timeValid ..⟩

/-! ### The invariants -/

/-- Settles O56: no operation leaves an arm's desired stage beside the table of R76, and a hard reset closes every valve. -/
theorem stepKeepsValvesSafe : Obligations.StepKeepsValvesSafe := fun s t hs ht =>
  step_invariant State.ValvesSafe (fun _ _ h => h.valves) (fun s w hw => (storeWord_keeps s w hw).1)
    (fun _ _ _ _ _ => afterHardReset_valvesSafe _ _ _ _ _ _ _ _) s t hs ht

theorem step_keeps_runTracksMode {s t : State} (hs : s.RunTracksMode) (ht : Stepped s t) : t.RunTracksMode :=
  step_invariant State.RunTracksMode (fun _ _ h => h.run) (fun _ _ _ => id) (fun _ _ _ _ _ => afterHardReset_runTracksMode ..) s t hs ht

theorem step_keeps_driversTrackLines {s t : State} (hs : s.DriversTrackLines) (ht : Stepped s t) : t.DriversTrackLines :=
  step_invariant State.DriversTrackLines (fun _ _ h => h.lines) (fun _ _ _ => id)
    (fun _ _ _ _ _ => afterHardReset_driversTrackLines ..) s t hs ht

/-- Every event ends settled: its command settles the bus or wakes no work for it (log 36). -/
theorem step_keeps_settled {s t : State} (hs : s.Settled) (ht : Stepped s t) : t.Settled := by
  obtain rfl | ⟨c, q, _, hx⟩ := step_cases s t ht
  · exact hs
  · exact exec_settled c { s with pending := q } t hs hx

/-- Settles O57: run, drivers and the settled mark, each on its own. -/
theorem stepKeepsLines : Obligations.StepKeepsLines := fun _ _ hrun hlines hsettled ht =>
  ⟨step_keeps_runTracksMode hrun ht, step_keeps_driversTrackLines hlines ht, step_keeps_settled hsettled ht⟩

/-- Settles O58: a load is opened only where a note is reserved for it, and a stored word changes neither notes nor loads. -/
theorem stepKeepsNoteReservation : Obligations.StepKeepsNoteReservation := fun s t hs ht =>
  step_invariant State.NotesReserved (fun _ _ h => h.notes) (fun s w hw => (storeWord_keeps s w hw).2.1)
    (fun _ _ _ _ _ => afterHardReset_notesReserved ..) s t hs ht

theorem step_keeps_wordsInRange {s t : State} (hs : s.WordsInRange) (ht : Stepped s t) : t.WordsInRange :=
  step_invariant State.WordsInRange (fun _ _ h => h.words) (fun s w hw => (storeWord_keeps s w hw).2.2.2.1)
    (fun _ _ _ _ ⟨hn, hc, _⟩ => afterHardReset_wordsInRange _ _ _ _ _ _ _ _ hn hc) s t hs ht

/-! ### The retained words (R160 to R164) -/

/-- A step leaves both words, or it is the completion of the write in progress and stores that write's word. -/
theorem step_words {s t : State} (ht : Stepped s t) :
    (t.note.nextNote = s.note.nextNote ∧ t.note.calCounter = s.note.calCounter) ∨
    (∃ l k, s.note.writing = some ⟨.note l, k⟩ ∧ s.pending.head? = some .noteNumberWriteDone ∧
      t.note.nextNote = nextNumber k ∧ t.note.calCounter = s.note.calCounter) ∨
    ∃ j k, s.note.writing = some ⟨.calibration j, k⟩ ∧ s.pending.head? = some .calibrationWriteDone ∧
      t.note.nextNote = s.note.nextNote ∧ t.note.calCounter = min 999999 (k + j) := by
  obtain rfl | ⟨c, q, hq, hx⟩ := step_cases s t ht
  · exact .inl ⟨rfl, rfl⟩
  have hfront : s.pending.head? = some c := by rw [hq]; rfl
  by_cases hreset : ∃ a x y, c = .hardReset a x y
  · obtain ⟨a, x, y, rfl⟩ := hreset
    cases hx
    exact .inl ⟨rfl, rfl⟩
  by_cases hnote : c = .noteNumberWriteDone
  · subst hnote
    cases hx
    rcases hw : s.note.writing with _ | ⟨l | j, k⟩
    case some.note =>
      have h := noteWriteDone_stores { s with pending := q } l k hw
      exact .inr (.inl ⟨l, k, rfl, hfront, h.next, h.cal⟩)
    all_goals
      rw [show ({ s with pending := q } : State).noteWriteDone = { s with pending := q } by simp [State.noteWriteDone, hw]]
      exact .inl ⟨(settle_keeps (.refl _)).next, (settle_keeps (.refl _)).cal⟩
  by_cases hcal : c = .calibrationWriteDone
  · subst hcal
    cases hx
    rcases hw : s.note.writing with _ | ⟨l | j, k⟩
    case some.calibration =>
      have h := calibrationWriteDone_stores { s with pending := q } j k hw
      exact .inr (.inr ⟨j, k, rfl, hfront, h.next, h.cal⟩)
    all_goals
      rw [show ({ s with pending := q } : State).calibrationWriteDone = { s with pending := q } by
        simp [State.calibrationWriteDone, hw]]
      exact .inl ⟨rfl, rfl⟩
  have h := exec_keeps c { s with pending := q } t hx (fun a x y e => hreset ⟨a, x, y, e⟩) hnote hcal
  exact .inl ⟨h.next, h.cal⟩

/-- Settles O59: the ranges as an invariant, and the change of a word by the one step that stores it. -/
theorem stepKeepsRetainedWords : Obligations.StepKeepsRetainedWords := by
  intro s t hs ht
  refine ⟨step_keeps_wordsInRange hs ht, fun hchanged => ?_, fun hchanged => ?_⟩
  · obtain ⟨hsame, _⟩ | ⟨l, k, hw, hfront, hnext, _⟩ | ⟨_, _, _, _, hsame, _⟩ := step_words ht
    · exact absurd hsame hchanged
    · exact ⟨l, k, hw, hfront, hnext⟩
    · exact absurd hsame hchanged
  · obtain ⟨_, hsame⟩ | ⟨_, _, _, _, _, hsame⟩ | ⟨j, k, hw, hfront, _, hcal⟩ := step_words ht
    · exact absurd hsame hchanged
    · exact absurd hsame hchanged
    · exact ⟨j, k, hw, hfront, hcal⟩

/-! ### Records (R5, R120, R166, R180) -/

theorem step_keeps_permitsOrdered {s t : State} (hs : s.PermitsOrdered) (ht : Stepped s t) : t.PermitsOrdered :=
  step_invariant State.PermitsOrdered (fun _ _ h => h.permits) (fun _ _ _ => id) (fun _ _ _ _ _ => afterHardReset_permitsOrdered ..)
    s t hs ht

theorem step_keeps_countsBounded {s t : State} (hs : s.CountsBounded) (ht : Stepped s t) : t.CountsBounded :=
  step_invariant State.CountsBounded (fun _ _ h => h.counts) (fun _ _ _ => id) (fun _ _ _ _ _ => afterHardReset_countsBounded ..)
    s t hs ht

theorem step_keeps_timeValid {s t : State} (hs : s.TimeValid) (ht : Stepped s t) : t.TimeValid :=
  step_invariant State.TimeValid (fun _ _ h => h.time) (fun _ _ _ => id) (fun _ _ _ _ _ => afterHardReset_timeValid ..) s t hs ht

/-- Settles O60: each record from its own premise. -/
theorem stepKeepsRecords : Obligations.StepKeepsRecords := fun _ _ ht =>
  ⟨fun h => step_keeps_permitsOrdered h ht, fun h => step_keeps_countsBounded h ht, fun h => step_keeps_timeValid h ht⟩

end Sys2Proof.Machine
end

section
/-! PROOF. Messages on the Terminal Link (chapter 1): requests that the gate discards (R8 step 8, R9, R14), messages taken character by
character and their judgement (R3 to R8), and kinds that R11 does not list. -/

namespace Sys2Proof.Machine

/-! ### Requests at the gate -/

/-- The state with the CAL ENABLE level that a command shows (log 5). -/
def State.showCal (s : State) (c : Instr) : State :=
  { s with pads := { s.pads with calEnable := (calLevel c).getD s.pads.calEnable } }

/-- A command of an intact request goes through the gate of the terminal port, but for a reply kind, which is discarded before it. -/
theorem exec_of_requestLength {c : Instr} {n : Nat} (s : State) (h : requestLength c = some n) (hn : n ≤ 240) :
    (∃ owner, exec c s = .next ((s.showCal c).request n owner)) ∨ exec c s = .next (s.showCal c) := by
  cases c
  case unknownKind kind p =>
    obtain rfl := Option.some.inj h
    show (∃ owner, Host.Outcome.next (s.anyRequest kind p) = _) ∨ Host.Outcome.next (s.anyRequest kind p) = _
    rw [State.anyRequest, if_neg (Nat.not_lt.mpr hn)]
    split
    · exact .inr rfl
    · exact .inl ⟨_, rfl⟩
  all_goals first
    | obtain rfl := Option.some.inj h
      exact .inl ⟨_, rfl⟩
    | cases h

/-- Settles O5: the gate changes nothing for a request it discards, so what is left is the level shown with it. -/
theorem requestsDiscarded : Obligations.RequestsDiscarded := by
  intro c n s hc hn hdiscard
  obtain ⟨owner, hexec⟩ | hexec := exec_of_requestLength s hc hn
  · rw [hexec, request_discarded (s := s.showCal c) hn hdiscard]
    rfl
  · exact hexec

/-! ### A character at the frame logic (R3, R5, R8) -/

/-- The receive state after a character, good or not. -/
def TermRx.take (r : TermRx) (c : TermChar) : TermRx :=
  { r with
    buffer := if r.buffer.length < 245 then r.buffer ++ [c.data] else r.buffer
    count := r.count + 1
    broken := r.broken || decide (TermChar.error c ≠ .none) }

/-- The receive state with a character in the held stage. -/
def TermRx.hold (r : TermRx) (c : TermChar) : TermRx := { r with held := some c }

/-- The state with another receive state and other counters on the Terminal Link. -/
def State.withLink (s : State) (rx : TermRx) (k : TermCounters) : State :=
  { s with port := { s.port with rx := rx, counters := k } }

theorem withLink_same (s : State) : s.withLink s.port.rx s.port.counters = s := rfl

theorem takeTermChar_eq (s : State) (c : TermChar) :
    s.takeTermChar c = s.withLink (s.port.rx.take c) (s.port.counters.countError (TermChar.error c)) := by
  unfold State.takeTermChar State.withLink TermRx.take
  cases he : TermChar.error c <;> simp [State.noteTermError, TermCounters.countError]

theorem takeTermHeld_of_none {s : State} (h : s.port.rx.held = none) : s.takeTermHeld = s := by
  rw [State.takeTermHeld, h]

theorem takeTermHeld_held (s : State) : s.takeTermHeld.port.rx.held = none := by
  unfold State.takeTermHeld
  split
  · assumption
  · rw [takeTermChar_eq]
    rfl

theorem takeTermHeld_tde (s : State) : s.takeTermHeld.pads.tde = s.pads.tde := by
  unfold State.takeTermHeld
  split
  · rfl
  · rw [takeTermChar_eq]
    rfl

/-- A character that the buffer accepts is taken behind the held one (R4). -/
theorem termChar_of_unblocked {s : State} {c : TermChar} (htde : s.pads.tde = false) (hc : c.blocked = false) :
    s.termChar c = s.takeTermHeld.takeTermChar c := by
  simp [State.termChar, State.gatesOff, htde, hc]

/-- A blocked character waits in a free held stage (R4). -/
theorem termChar_of_held {s : State} {c : TermChar} (htde : s.pads.tde = false) (hc : c.blocked = true)
    (hheld : s.port.rx.held = none) : s.termChar c = s.withLink (s.port.rx.hold c) s.port.counters := by
  simp [State.termChar, State.gatesOff, htde, hc, hheld, State.withLink, TermRx.hold]

/-- A blocked character that finds the held stage occupied is lost (R4). -/
theorem termChar_of_lost {s : State} {c : TermChar} (htde : s.pads.tde = false) (hc : c.blocked = true)
    (hheld : s.port.rx.held.isSome) : s.termChar c = s.termOverrun := by
  simp [State.termChar, State.gatesOff, htde, hc, hheld]

/-! ### Characters in a row -/

/-- The same character at a buffer that accepts it. -/
def TermChar.unblock (c : TermChar) : TermChar := { c with blocked := false }

theorem unblock_of_unblocked {c : TermChar} (h : c.blocked = false) : TermChar.unblock c = c := by
  obtain ⟨d, p, st, b, e⟩ := c
  cases h
  rfl

/-- No two characters in a row are blocked. -/
def SpacedBlocks (chars : List TermChar) : Prop :=
  ∀ (before after : List TermChar) (a b : TermChar), chars = before ++ a :: b :: after → a.blocked = false ∨ b.blocked = false

theorem SpacedBlocks.tail {c : TermChar} {cs : List TermChar} (h : SpacedBlocks (c :: cs)) : SpacedBlocks cs :=
  fun before after a b e => h (c :: before) after a b (by rw [e]; rfl)

theorem SpacedBlocks.head {c d : TermChar} {cs : List TermChar} (h : SpacedBlocks (c :: d :: cs)) (hc : c.blocked = true) :
    d.blocked = false :=
  (h [] cs c d rfl).resolve_left (by simp [hc])

theorem SpacedBlocks.of_unblocked {cs : List TermChar} (h : ∀ c ∈ cs, c.blocked = false) : SpacedBlocks cs :=
  fun _ _ a _ e => .inl (h a (by simp [e]))

/-- Characters of which no two in a row are blocked leave what they leave unblocked, once the held one is taken (R4, log 11). -/
theorem foldl_termChar_unblock (chars : List TermChar) : ∀ s : State, s.pads.tde = false → SpacedBlocks chars →
    (s.port.rx.held = none ∨ ∀ c ∈ chars.head?, c.blocked = false) →
    (chars.foldl State.termChar s).takeTermHeld = (chars.map TermChar.unblock).foldl State.termChar s.takeTermHeld := by
  induction chars with
  | nil => exact fun _ _ _ _ => rfl
  | cons c cs ih =>
    intro s htde hspaced hfirst
    have hright : s.takeTermHeld.termChar (TermChar.unblock c) = s.takeTermHeld.takeTermChar c := by
      rw [termChar_of_unblocked ((takeTermHeld_tde s).trans htde) rfl, takeTermHeld_of_none (takeTermHeld_held s)]
      rfl
    simp only [List.foldl_cons, List.map_cons, hright]
    cases hc : c.blocked with
    | false =>
      have hheld : (s.takeTermHeld.takeTermChar c).port.rx.held = none := by
        rw [takeTermChar_eq]
        exact takeTermHeld_held s
      have hopen : (s.takeTermHeld.takeTermChar c).pads.tde = false := by
        rw [takeTermChar_eq]
        exact (takeTermHeld_tde s).trans htde
      rw [termChar_of_unblocked htde hc, ih _ hopen hspaced.tail (.inl hheld), takeTermHeld_of_none hheld]
    | true =>
      have hheld : s.port.rx.held = none := hfirst.resolve_right fun h => by simp [h c rfl] at hc
      have hnext : ∀ d ∈ cs.head?, d.blocked = false := by
        cases cs with
        | nil => exact fun _ h => nomatch h
        | cons d ds =>
          intro e he
          obtain rfl := Option.some.inj he
          exact hspaced.head hc
      have htake : (s.withLink (s.port.rx.hold c) s.port.counters).takeTermHeld = s.takeTermChar c := by
        show State.takeTermChar (s.withLink { s.port.rx with held := none } s.port.counters) c = _
        rw [← hheld]
        rfl
      rw [termChar_of_held htde hc hheld, ih (s.withLink (s.port.rx.hold c) s.port.counters) htde hspaced.tail (.inr hnext), htake, takeTermHeld_of_none hheld]

/-- Unblocked characters at an open receiver that holds none back are taken one by one. -/
theorem foldl_termChar_of_unblocked (chars : List TermChar) : ∀ s : State, s.pads.tde = false → s.port.rx.held = none →
    (∀ c ∈ chars, c.blocked = false) →
    chars.foldl State.termChar s = s.withLink (chars.foldl TermRx.take s.port.rx)
      (chars.foldl (fun k c => k.countError (TermChar.error c)) s.port.counters) := by
  induction chars with
  | nil => exact fun _ _ _ _ => rfl
  | cons c cs ih =>
    intro s htde hheld hall
    rw [List.foldl_cons, termChar_of_unblocked htde (hall c (by simp)), takeTermHeld_of_none hheld, takeTermChar_eq,
      ih (s.withLink (s.port.rx.take c) (s.port.counters.countError (TermChar.error c))) htde hheld fun d hd => hall d (by simp [hd])]
    rfl

/-! ### The receive state after a message -/

theorem foldl_take_held (chars : List TermChar) : ∀ r : TermRx, (chars.foldl TermRx.take r).held = r.held := by
  induction chars with
  | nil => exact fun _ => rfl
  | cons c cs ih => exact fun r => ih (r.take c)

theorem foldl_take_count (chars : List TermChar) : ∀ r : TermRx, (chars.foldl TermRx.take r).count = r.count + chars.length := by
  induction chars with
  | nil => exact fun _ => rfl
  | cons c cs ih =>
    intro r
    rw [List.foldl_cons, ih, List.length_cons]
    show r.count + 1 + cs.length = _
    omega

theorem foldl_take_broken (chars : List TermChar) : ∀ r : TermRx,
    (chars.foldl TermRx.take r).broken = true ↔ r.broken = true ∨ ∃ c ∈ chars, TermChar.error c ≠ .none := by
  induction chars with
  | nil => simp
  | cons c cs ih => intro r; simp [List.foldl_cons, ih, TermRx.take, or_assoc]

/-- A message that fits the buffer stands in it whole. -/
theorem foldl_take_buffer (chars : List TermChar) : ∀ r : TermRx, r.buffer.length + chars.length ≤ 245 →
    (chars.foldl TermRx.take r).buffer = r.buffer ++ chars.map TermChar.data := by
  induction chars with
  | nil => simp
  | cons c cs ih =>
    intro r hfit
    rw [List.length_cons] at hfit
    have hroom : r.buffer.length < 245 := by omega
    have htake : (r.take c).buffer = r.buffer ++ [c.data] := if_pos hroom
    rw [List.foldl_cons, ih _ (by rw [htake]; simp; omega), htake]
    simp

theorem foldl_countError_none {chars : List TermChar} (h : ∀ c ∈ chars, TermChar.error c = .none) (k : TermCounters) :
    chars.foldl (fun k c => k.countError (TermChar.error c)) k = k := by
  induction chars with
  | nil => rfl
  | cons c cs ih =>
    rw [List.foldl_cons, h c (by simp)]
    exact ih fun d hd => h d (by simp [hd])

/-- An overrun and the errors of characters are counted apart (R5). -/
theorem foldl_countError_overrun (chars : List TermChar) (x : Nat) : ∀ k : TermCounters,
    chars.foldl (fun k c => k.countError (TermChar.error c)) { k with overrun := x } =
      { chars.foldl (fun k c => k.countError (TermChar.error c)) k with overrun := x } := by
  induction chars with
  | nil => exact fun _ => rfl
  | cons c cs ih =>
    intro k
    rw [List.foldl_cons, List.foldl_cons, ← ih]
    cases TermChar.error c <;> rfl

theorem foldl_countError_keeps_overrun (chars : List TermChar) : ∀ k : TermCounters,
    (chars.foldl (fun k c => k.countError (TermChar.error c)) k).overrun = k.overrun := by
  induction chars with
  | nil => exact fun _ => rfl
  | cons c cs ih =>
    intro k
    rw [List.foldl_cons, ih]
    cases TermChar.error c <;> rfl

theorem satInc_eq_min (n : Nat) : satInc n = min 65535 (n + 1) := by
  unfold satInc
  split <;> omega

/-! ### The judgement of a message (R8) -/

/-- An idle link: no reply pending, the receiver open and empty (R9). -/
structure State.LinkIdle (s : State) : Prop where
  open_ : s.pads.tde = false
  rx : s.port.rx = ⟨[], 0, false, none⟩

section Message

variable {s : State} (h : s.LinkIdle) {chars : List TermChar}

include h

theorem State.LinkIdle.withLink_rx (k : TermCounters) : s.withLink ⟨[], 0, false, none⟩ k =
    { s with port := { s.port with counters := k } } := by
  rw [← h.rx]
  rfl

/-- A message whose characters are good is judged by its length, check and length byte, then by its address (R8 steps 2 to 9). -/
theorem message_of_good (hne : chars ≠ []) (hall : ∀ c ∈ chars, c.blocked = false) (hgood : ∀ c ∈ chars, TermChar.error c = .none) :
    s.message chars =
      if chars.length < 5 ∨ 245 < chars.length ∨ crc (chars.map TermChar.data) ≠ 0#16 ∨
        (byteAt (chars.map TermChar.data) 2).toNat ≠ chars.length - 5 then s.countTermCheck
      else s.addressed (chars.map TermChar.data) := by
  have hheld : s.port.rx.held = none := by rw [h.rx]
  have hunbroken : (chars.foldl TermRx.take s.port.rx).broken = false := by
    rw [← Bool.not_eq_true, foldl_take_broken, h.rx]
    rintro (hb | ⟨c, hc, he⟩)
    · exact nomatch hb
    · exact he (hgood c hc)
  have hcount : (chars.foldl TermRx.take s.port.rx).count = chars.length := by
    rw [foldl_take_count, h.rx]
    exact Nat.zero_add _
  have hlen : chars.length ≠ 0 := by simpa using hne
  have hfree : (s.withLink (chars.foldl TermRx.take s.port.rx) s.port.counters).freeRx = s := by
    have hlast : (chars.foldl TermRx.take s.port.rx).held = none := (foldl_take_held chars _).trans hheld
    show s.withLink ⟨[], 0, false, (chars.foldl TermRx.take s.port.rx).held⟩ s.port.counters = s
    rw [hlast, h.withLink_rx]
  rw [State.message, foldl_termChar_of_unblocked chars s h.open_ hheld hall, foldl_countError_none hgood,
    takeTermHeld_of_none ((foldl_take_held chars _).trans hheld), State.messageEnd, hfree]
  show (if (chars.foldl TermRx.take s.port.rx).broken = true then _ else if (chars.foldl TermRx.take s.port.rx).count = 0 then _
    else if (chars.foldl TermRx.take s.port.rx).count < 5 ∨ 245 < (chars.foldl TermRx.take s.port.rx).count then _
    else if crc (chars.foldl TermRx.take s.port.rx).buffer ≠ 0#16 then _
    else if (byteAt (chars.foldl TermRx.take s.port.rx).buffer 2).toNat ≠ (chars.foldl TermRx.take s.port.rx).count - 5 then _
    else s.addressed (chars.foldl TermRx.take s.port.rx).buffer) = _
  rw [hunbroken, hcount, if_neg Bool.false_ne_true, if_neg hlen]
  by_cases hfits : chars.length < 5 ∨ 245 < chars.length
  · rw [if_pos hfits, if_pos (hfits.imp_right .inl)]
  · have hbuffer : (chars.foldl TermRx.take s.port.rx).buffer = chars.map TermChar.data := by
      rw [foldl_take_buffer chars _ (by rw [h.rx]; simp; omega), h.rx]
      rfl
    rw [if_neg hfits, hbuffer]
    by_cases hcrc : crc (chars.map TermChar.data) ≠ 0#16
    · rw [if_pos hcrc, if_pos (.inr (.inr (.inl hcrc)))]
    · by_cases hbyte : (byteAt (chars.map TermChar.data) 2).toNat ≠ chars.length - 5
      · rw [if_neg hcrc, if_pos hbyte, if_pos (.inr (.inr (.inr hbyte)))]
      · have hjudged : ¬ (chars.length < 5 ∨ 245 < chars.length ∨ crc (chars.map TermChar.data) ≠ 0#16 ∨
            (byteAt (chars.map TermChar.data) 2).toNat ≠ chars.length - 5) := by
          rintro (hshort | hlong | hcheck | hlength)
          · exact hfits (.inl hshort)
          · exact hfits (.inr hlong)
          · exact hcrc hcheck
          · exact hbyte hlength
        rw [if_neg hcrc, if_neg hbyte, if_neg hjudged]

/-- A broken message is discarded and leaves its counts (R8 step 1). -/
theorem messageEnd_of_broken {r : TermRx} (hb : r.broken = true) (hheld : r.held = none) (k : TermCounters) :
    (s.withLink r k).messageEnd = { s with port := { s.port with counters := k } } := by
  unfold State.messageEnd
  dsimp only
  rw [if_pos (show (s.withLink r k).port.rx.broken = true from hb)]
  show s.withLink ⟨[], 0, false, r.held⟩ k = _
  rw [hheld, h.withLink_rx]

/-- A message with a character error in it is discarded, each error in its own counter (R5, R8 step 1). -/
theorem message_of_error (hall : ∀ c ∈ chars, c.blocked = false) (herr : ∃ c ∈ chars, TermChar.error c ≠ .none) :
    s.message chars = { s with port := { s.port with
      counters := chars.foldl (fun k c => k.countError (TermChar.error c)) s.port.counters } } := by
  have hheld : s.port.rx.held = none := by rw [h.rx]
  have hlast : (chars.foldl TermRx.take s.port.rx).held = none := (foldl_take_held chars _).trans hheld
  rw [State.message, foldl_termChar_of_unblocked chars s h.open_ hheld hall, takeTermHeld_of_none hlast]
  exact messageEnd_of_broken h ((foldl_take_broken ..).mpr (.inr herr)) hlast _

/-- With no two characters in a row blocked the message is judged as if none were (R4). -/
theorem message_unblock (hspaced : SpacedBlocks chars) : s.message chars = s.message (chars.map TermChar.unblock) := by
  have hheld : s.port.rx.held = none := by rw [h.rx]
  have hunblocked : ∀ c ∈ chars.map TermChar.unblock, c.blocked = false := by
    intro c hc
    obtain ⟨d, _, rfl⟩ := List.mem_map.mp hc
    rfl
  have hlast : ((chars.map TermChar.unblock).foldl State.termChar s).port.rx.held = none := by
    rw [foldl_termChar_of_unblocked _ s h.open_ hheld hunblocked]
    exact (foldl_take_held ..).trans hheld
  rw [State.message, State.message, foldl_termChar_unblock chars s h.open_ hspaced (.inl hheld), takeTermHeld_of_none hheld,
    takeTermHeld_of_none hlast]

/-- The second of two blocked characters in a row is lost and breaks the message; all others are taken (R4, R8 step 1). -/
theorem message_of_overrun {before after : List TermChar} {held lost : TermChar} (hall : ∀ c ∈ before ++ after, c.blocked = false)
    (hheld : held.blocked = true) (hlost : lost.blocked = true) :
    s.message (before ++ held :: lost :: after) = { s with port := { s.port with
      counters := { ((before ++ held :: after).foldl (fun k c => k.countError (TermChar.error c)) s.port.counters) with
        overrun := min 65535 (s.port.counters.overrun + 1) } } } := by
  have hidle : s.port.rx.held = none := by rw [h.rx]
  have hbefore : ∀ c ∈ before, c.blocked = false := fun c hc => hall c (by simp [hc])
  have hafter : ∀ c ∈ after, c.blocked = false := fun c hc => hall c (by simp [hc])
  have hmap : after.map TermChar.unblock = after :=
    (List.map_congr_left fun c hc => unblock_of_unblocked (hafter c hc)).trans (List.map_id after)
  let r := before.foldl TermRx.take s.port.rx
  let k := before.foldl (fun k c => k.countError (TermChar.error c)) s.port.counters
  have hr : r.held = none := (foldl_take_held before _).trans hidle
  let u := s.withLink { r with held := some held, broken := true } { k with overrun := satInc k.overrun }
  have hwaits : (s.withLink r k).termChar held = s.withLink (r.hold held) k := termChar_of_held h.open_ hheld hr
  have hbreaks : (s.withLink (r.hold held) k).termChar lost = u := termChar_of_lost h.open_ hlost rfl
  have hbroken : (after.foldl TermRx.take (TermRx.take { r with broken := true } held)).broken = true :=
    (foldl_take_broken after _).mpr (.inl rfl)
  have hrun : (before ++ held :: lost :: after).foldl State.termChar s = after.foldl State.termChar u := by
    rw [List.foldl_append, foldl_termChar_of_unblocked before s h.open_ hidle hbefore, List.foldl_cons, List.foldl_cons]
    exact congrArg (after.foldl State.termChar) ((congrArg (State.termChar · lost) hwaits).trans hbreaks)
  have hu : u.takeTermHeld = s.withLink ({ r with broken := true }.take held)
      ({ k with overrun := satInc k.overrun }.countError (TermChar.error held)) := by
    show State.takeTermChar (s.withLink { r with held := none, broken := true } { k with overrun := satInc k.overrun }) held = _
    rw [← hr, takeTermChar_eq]
    rfl
  have hfirst : ∀ c ∈ after.head?, c.blocked = false := fun c hc => hafter c (List.mem_of_mem_head? hc)
  have hk : satInc k.overrun = min 65535 (s.port.counters.overrun + 1) := by
    rw [satInc_eq_min, show k.overrun = s.port.counters.overrun from foldl_countError_keeps_overrun before _]
  rw [State.message, hrun, foldl_termChar_unblock after u h.open_ (.of_unblocked hafter) (.inr hfirst), hmap,
    foldl_termChar_of_unblocked after _ ((takeTermHeld_tde u).trans h.open_) (takeTermHeld_held u) hafter, hu]
  refine (messageEnd_of_broken h hbroken ((foldl_take_held ..).trans hr) _).trans ?_
  show ({ s with port := { s.port with counters := ((held :: after).foldl (fun k c => k.countError (TermChar.error c))
    ({ k with overrun := satInc k.overrun } : TermCounters)) } } : State) = _
  rw [foldl_countError_overrun, hk, List.foldl_append]

end Message

/-- A whole message at a foreign address, of a reply kind, or a broadcast other than TIME SET changes nothing (R8 steps 5 to 7). -/
theorem addressed_of_discarded {s : State} {bs : List Byte} (hlen : bs.length ≤ 245)
    (h : (byteAt bs 0 ≠ 0#8 ∧ byteAt bs 0 ≠ s.pads.addr.setWidth 8) ∨
      (byteAt bs 0 ≠ 0#8 ∧ byteAt bs 1 ∈ [0xA0#8, 0xA1#8, 0xA2#8]) ∨ (byteAt bs 0 = 0#8 ∧ byteAt bs 1 ≠ 0x50#8)) :
    s.addressed bs = s := by
  unfold State.addressed
  dsimp only
  obtain ⟨h0, hforeign⟩ | ⟨h0, hreply⟩ | ⟨h0, hkind⟩ := h
  · rw [if_neg h0, if_neg hforeign]
  · have hshort : ¬ 240 < ((bs.drop 3).take (bs.length - 5)).length := by simp; omega
    have hk : isReplyKind (byteAt bs 1) = true := by simpa [isReplyKind, or_assoc] using hreply
    rw [if_neg h0, State.anyRequest, if_neg hshort, if_pos hk, ite_self]
  · rw [if_pos h0, if_neg hkind]

/-- Settles O6: unblocked messages by their errors and checks, blocked characters by what they leave once taken. -/
theorem messageDiscarded : Obligations.MessageDiscarded := by
  intro s htde _ hrx
  have h : s.LinkIdle := ⟨htde, hrx⟩
  refine ⟨fun chars hne hall => ⟨fun herr => ?error, fun hgood hbad => ?check, fun hgood h5 h245 hcrc hlength haddr => ?address⟩,
    fun chars hspaced => congrArg _ (message_unblock h hspaced),
    fun before after held lost hall hheld hlost => congrArg _ (message_of_overrun h hall hheld hlost)⟩
  case error => exact congrArg _ (message_of_error h hall herr)
  case check =>
    refine congrArg _ ((message_of_good h hne hall hgood).trans ?_)
    rw [if_pos hbad, State.countTermCheck, satInc_eq_min]
  case address =>
    have hpass : ¬ (chars.length < 5 ∨ 245 < chars.length ∨ crc (chars.map TermChar.data) ≠ 0#16 ∨
        (byteAt (chars.map TermChar.data) 2).toNat ≠ chars.length - 5) := by
      rintro (hshort | hlong | hbad | hbad)
      · omega
      · omega
      · exact hbad hcrc
      · exact hbad hlength
    refine congrArg _ ((message_of_good h hne hall hgood).trans ?_)
    rw [if_neg hpass, addressed_of_discarded (by simpa using h245) haddr]

/-! ### Kinds that R11 does not list -/

theorem dispatch_of_unlisted {kind : Byte} (h : kind ∉ [0x10#8, 0x11#8, 0x12#8, 0x20#8, 0x21#8, 0x22#8, 0x23#8, 0x24#8, 0x30#8,
    0x31#8, 0x32#8, 0x33#8, 0x34#8, 0x40#8, 0x41#8, 0x50#8, 0x51#8, 0x60#8, 0x61#8, 0x70#8]) (p : List Byte) (s : State) :
    State.dispatch kind p s = (s, .refuse .badFormat) := by
  simp only [List.mem_cons, List.not_mem_nil, or_false, not_or] at h
  simp only [State.dispatch, h, if_false, State.refuse]

theorem isReplyKind_iff (kind : Byte) : isReplyKind kind = true ↔ kind ∈ [0xA0#8, 0xA1#8, 0xA2#8] := by
  simp [isReplyKind, or_assoc]

/-- Settles O7: the gate passes an unlisted kind on to the port, which refuses it, and stops a reply kind. -/
theorem unknownKindRefused : Obligations.UnknownKindRefused := by
  intro kind p s hs hr
  have hlength : ¬ 240 < p.length := Nat.not_lt.mpr hr.1
  refine ⟨fun hunlisted hkind => ?refused, fun hkind => ?discarded⟩
  case refused =>
    have hgate : s.anyRequest kind p = s.request p.length (State.dispatch kind p) := by
      rw [State.anyRequest, if_neg hlength, if_neg (mt (isReplyKind_iff kind).mp hkind)]
    exact (congrArg Host.Outcome.next hgate).trans (request_next hr (dispatch_of_unlisted hunlisted p s) hs)
  case discarded =>
    refine congrArg Host.Outcome.next ?_
    rw [State.anyRequest, if_neg hlength, if_pos ((isReplyKind_iff kind).mpr hkind)]

end Sys2Proof.Machine
end

section
/-! PROOF. The terminal port's own requests and the time counter (chapters 10 and 11): STATUS READ (R183, R184), RESTART (R178), TIME SET,
its broadcast and TIME READ (R169 to R171), and the carries of the second tick (R167). -/

namespace Sys2Proof.Machine

/-! ### STATUS READ (R183, R184) -/

theorem armStatus_length (s : State) (n : Arm) : (s.armStatus n).length = 2 := by
  unfold State.armStatus
  split <;> rfl

theorem status_length (s : State) : s.status.length = 42 := by
  simp [State.status, beBytes_length, allArms, armStatus_length]

/-- The flags byte of the answer. -/
theorem statusFlags_eq (s : State) : bitIf s.note.writing.isSome 0 ||| bitIf s.time.timeSet 1 ||| bitIf s.pads.calEnable 2 =
    (if s.note.writing.isSome then 1#8 else 0#8) ||| (if s.time.timeSet then 2#8 else 0#8) |||
      (if s.pads.calEnable then 4#8 else 0#8) := by
  rw [bitIf_zero, bitIf_one, bitIf_two]

theorem statusRead_of_length_ne {s : State} {p : List Byte} (h : p.length ≠ 1) : s.statusRead p = (s, .refuse .badFormat) :=
  if_pos h

/-- The clearing follows the answer, which shows the state before it. -/
theorem statusRead_flags (s : State) (f : Byte) : s.statusRead [f] = ({ s with
    port := { s.port with
      pendingSet := 0#16
      counters := if f.getLsbD 0 then ⟨0, 0, 0, 0, 0⟩ else s.port.counters }
    scan := { s.scan with counters := if f.getLsbD 0 then ⟨0, 0, 0, 0⟩ else s.scan.counters } }, .data s.status) := by
  show State.answer (if f.getLsbD 0 then _ else _) s.status = _
  cases f.getLsbD 0 <;> rfl

/-- Settles O8: the answer of the state with the level shown, and its clearing. -/
theorem statusReadAnswers : Obligations.StatusReadAnswers := by
  intro cal s hs devices p
  have hp : (s.withCal cal).status = p := by
    rw [State.status, statusFlags_eq]
    rfl
  refine ⟨hp ▸ status_length _, fun f hr => ?_, fun q hq hr => ?_⟩
  · rw [← hp]
    exact request_next (s := s.withCal cal) hr (statusRead_flags _ f) hs
  · exact request_next (s := s.withCal cal) hr (statusRead_of_length_ne hq) hs

/-! ### RESTART (R178) -/

theorem restartRequest_of_payload {s : State} {p : List Byte} (h : p ≠ []) : s.restartRequest p = (s, .refuse .badFormat) :=
  if_pos h

theorem restartRequest_of_load {s : State} (h : 0 < s.loadsHeld) : s.restartRequest [] = (s, .refuse .busy) :=
  (if_neg (not_not_intro rfl)).trans (if_pos ((holdsLoad_iff_loadsHeld_pos s).mpr h))

theorem restartRequest_of_no_load {s : State} (h : s.loadsHeld = 0) :
    s.restartRequest [] = ((s.setMode .outOfService).restartBlocks, .accept) :=
  (if_neg (not_not_intro rfl)).trans (if_neg fun hheld => Nat.ne_of_gt ((holdsLoad_iff_loadsHeld_pos s).mp hheld) h)

theorem restartBlocks_arm (s : State) (n : Arm) : s.restartBlocks.arm n = (s.arm n).restart := by
  simp [State.restartBlocks, State.arm, BatchController.restart]

theorem restartBlocks_metering (s : State) (n : Arm) : s.restartBlocks.metering n = .start := by
  simp [State.restartBlocks, State.metering]

theorem restartBlocks_schedules (s : State) (n : Arm) : s.restartBlocks.schedules n = [] := by
  simp [State.restartBlocks, State.schedules, AdditiveScheduler.restart]

theorem restartBlocks_slot (s : State) (i : DevIx) : s.restartBlocks.slot i = (s.slot i).map InjectorSlot.restart := by
  simp [State.restartBlocks, State.slot, AdditiveScheduler.restart]

theorem restartBlocks_device (s : State) (i : DevIx) : s.restartBlocks.device i = (s.device i).map Device.restart := by
  simp [State.restartBlocks, State.device, Scanner.restart]

/-- Settles O12: every block by its own restart, and the two refusals. -/
theorem restartEffect : Obligations.RestartEffect := by
  intro s hs
  refine ⟨fun hr hload => ⟨(s.setMode .outOfService).restartBlocks, request_next hr (restartRequest_of_no_load hload) rfl, rfl, rfl, rfl,
    rfl, rfl, rfl, rfl, rfl, rfl, rfl, fun n => restartBlocks_arm _ n, fun n => ⟨restartBlocks_metering _ n, restartBlocks_schedules _ n⟩,
    fun i => restartBlocks_slot _ i, fun i => restartBlocks_device _ i, rfl, rfl, rfl, rfl, rfl, rfl, rfl, rfl, rfl, rfl⟩,
    fun hr hload => ?busy, fun q hq hr => ?badFormat⟩
  case busy => exact request_next hr (restartRequest_of_load hload) hs
  case badFormat => exact request_next hr (restartRequest_of_payload hq) hs

/-! ### TIME SET and TIME READ (R169 to R171) -/

theorem timeFailure_of_length_ne {p : List Byte} (h : p.length ≠ 7) : timeFailure p = some .badFormat :=
  if_pos h

theorem timeFailure_of_invalid {p : List Byte} (h : p.length = 7) (hinvalid : (parseTime p).valid = false) :
    timeFailure p = some .badValue := by
  simp [timeFailure, h, hinvalid]

theorem timeFailure_of_valid {p : List Byte} (h : p.length = 7) (hvalid : (parseTime p).valid = true) : timeFailure p = none := by
  simp [timeFailure, h, hvalid]

theorem timeSet_of_failure {s : State} {p : List Byte} {r : Reason} (h : timeFailure p = some r) : s.timeSet p = (s, .refuse r) := by
  rw [State.timeSet, h]
  rfl

theorem timeSet_of_valid {s : State} {p : List Byte} (h : timeFailure p = none) :
    s.timeSet p = (s.loadTime (parseTime p) 0x00#8, .accept) := by
  rw [State.timeSet, h]
  rfl

theorem broadcastSet_of_idle {s : State} {p : List Byte} (hlen : p.length ≤ 240) (hr : s.port.reply = none) :
    s.broadcastSet p = s.timeBroadcast p := by
  simp [State.broadcastSet, Nat.not_lt.mpr hlen, hr]

theorem broadcastSet_of_pending {s : State} {p : List Byte} (hlen : p.length ≤ 240) (hr : s.port.reply.isSome) :
    s.broadcastSet p = s := by
  simp [State.broadcastSet, Nat.not_lt.mpr hlen, hr]

theorem timeBroadcast_of_valid {s : State} {p : List Byte} (h : timeFailure p = none) :
    s.timeBroadcast p = s.loadTime (parseTime p) 0x01#8 :=
  if_pos h

theorem timeBroadcast_of_failure {s : State} {p : List Byte} {r : Reason} (h : timeFailure p = some r) : s.timeBroadcast p = s :=
  if_neg (by simp [h])

/-- A broadcast that fails a step of R169 or finds a reply pending changes nothing (R8 step 8, R170). -/
theorem broadcastSet_of_discarded {s : State} {p : List Byte} (hlen : p.length ≤ 240)
    (h : p.length ≠ 7 ∨ (parseTime p).valid = false ∨ s.port.reply.isSome) : s.broadcastSet p = s := by
  cases hr : s.port.reply with
  | some r => exact broadcastSet_of_pending hlen (by simp [hr])
  | none =>
    rw [broadcastSet_of_idle hlen hr]
    by_cases h7 : p.length = 7
    · have hinvalid : (parseTime p).valid = false := by simpa [h7, hr] using h
      exact timeBroadcast_of_failure (timeFailure_of_invalid h7 hinvalid)
    · exact timeBroadcast_of_failure (timeFailure_of_length_ne h7)

theorem timeRead_of_payload {s : State} {p : List Byte} (h : p ≠ []) : s.timeRead p = (s, .refuse .badFormat) :=
  if_pos h

/-- Settles O13: the record loaded, or the step of R169 that fails. -/
theorem timeSetAndRead : Obligations.TimeSetAndRead := by
  refine ⟨fun p s hs => ⟨fun h7 hvalid hr => ?loaded, fun h7 hinvalid hr => ?badValue, fun hlen hr => ?badFormat,
    fun h7 hvalid hr => ?broadcast, fun hlen hdiscard => ?discarded⟩, fun s hs => ⟨fun hr => ?read, fun q hq hr => ?payload⟩⟩
  case loaded => exact request_next (h7.symm ▸ hr) (timeSet_of_valid (timeFailure_of_valid h7 hvalid)) hs
  case badValue => exact request_next (h7.symm ▸ hr) (timeSet_of_failure (timeFailure_of_invalid h7 hinvalid)) hs
  case badFormat => exact request_next hr (timeSet_of_failure (timeFailure_of_length_ne hlen)) hs
  case broadcast =>
    exact congrArg Host.Outcome.next ((broadcastSet_of_idle (by omega) hr).trans
      (timeBroadcast_of_valid (timeFailure_of_valid h7 hvalid)))
  case discarded => exact congrArg Host.Outcome.next (broadcastSet_of_discarded hlen hdiscard)
  case read => exact request_next hr rfl hs
  case payload => exact request_next hr (timeRead_of_payload hq) hs

/-! ### The second tick (R167) -/

/-- A BCD field below the value at which it carries adds one. -/
theorem bcdInc_of_ne {b : Byte} {k : Nat} (hok : bcdOk b = true) (hle : bcdVal b ≤ k) (hk : k ≤ 99) (hne : b ≠ toBcd k) :
    bcdInc b = toBcd (bcdVal b + 1) :=
  bcdInc_eq b hok (by have := bcdVal_ne hok hne; omega)

theorem bcdInc_of_lt {b : Byte} {k : Nat} (hok : bcdOk b = true) (hlt : bcdVal b < k) (hk : k ≤ 99) :
    bcdInc b = toBcd (bcdVal b + 1) :=
  bcdInc_eq b hok (by omega)

section Tick

variable {t : TimeRec} (h : t.Fields)

include h

theorem nextSecond_of_second_ne (hs : t.second ≠ 0x59#8) : t.nextSecond = { t with second := toBcd (bcdVal t.second + 1) } := by
  rw [TimeRec.nextSecond, if_neg hs, bcdInc_of_ne h.secondOk h.secondHi (by decide) hs]

theorem nextMinute_of_minute_ne (hm : t.minute ≠ 0x59#8) :
    ({ t with second := 0x00#8 } : TimeRec).nextMinute = { t with second := 0x00#8, minute := toBcd (bcdVal t.minute + 1) } := by
  rw [TimeRec.nextMinute, if_neg hm, bcdInc_of_ne h.minuteOk h.minuteHi (by decide) hm]

theorem nextHour_of_hour_ne (hh : t.hour ≠ 0x23#8) : ({ t with second := 0x00#8, minute := 0x00#8 } : TimeRec).nextHour =
    { t with second := 0x00#8, minute := 0x00#8, hour := toBcd (bcdVal t.hour + 1) } := by
  rw [TimeRec.nextHour, if_neg hh, bcdInc_of_ne h.hourOk h.hourHi (by decide) hh]

/-- The weekday turns with the day. -/
theorem weekday_turns : (if t.weekday = 0x06#8 then 0x00#8 else t.weekday + 0x01#8) = toBcd ((bcdVal t.weekday + 1) % 7) :=
  (weekday_next t.weekday h.weekdayOk h.weekdayHi).1

theorem nextDay_of_lt (hd : bcdVal t.day < daysInMonth (bcdVal t.year) (bcdVal t.month)) :
    ({ t with second := 0x00#8, minute := 0x00#8, hour := 0x00#8 } : TimeRec).nextDay = { t with
      second := 0x00#8, minute := 0x00#8, hour := 0x00#8, day := toBcd (bcdVal t.day + 1)
      weekday := toBcd ((bcdVal t.weekday + 1) % 7) } := by
  have hmax := daysInMonth_le (bcdVal t.year) (bcdVal t.month)
  rw [TimeRec.nextDay]
  dsimp only
  rw [if_neg (Nat.ne_of_lt hd), weekday_turns h, bcdInc_of_lt h.dayOk hd (by omega)]

theorem nextDay_of_last (hd : bcdVal t.day = daysInMonth (bcdVal t.year) (bcdVal t.month)) :
    ({ t with second := 0x00#8, minute := 0x00#8, hour := 0x00#8 } : TimeRec).nextDay = ({ t with
      second := 0x00#8, minute := 0x00#8, hour := 0x00#8, day := 0x01#8
      weekday := toBcd ((bcdVal t.weekday + 1) % 7) } : TimeRec).nextMonth := by
  rw [TimeRec.nextDay]
  dsimp only
  rw [if_pos hd, weekday_turns h]

end Tick

/-- Settles O14: each carry of R167 by the field in which it stops. -/
theorem secondTickCounts : Obligations.SecondTickCounts := by
  refine ⟨fun _ => rfl, fun t hvalid => ?_⟩
  have h := (TimeRec.valid_iff t).mp hvalid
  have hcarry : t.second = 0x59#8 → t.minute = 0x59#8 → t.hour = 0x23#8 →
      t.nextSecond = ({ t with second := 0x00#8, minute := 0x00#8, hour := 0x00#8 } : TimeRec).nextDay := by
    intro hs hm hh
    simp only [TimeRec.nextSecond, TimeRec.nextMinute, TimeRec.nextHour, hs, hm, hh, if_true]
  refine ⟨nextSecond_of_second_ne h, fun hs hm => ?minute, fun hs hm hh => ?hour, fun hs hm hh hd => ?day,
    fun hs hm hh hd hmonth => ?month, fun hs hm hh hd hmonth hyear => ?year, fun ht => ?century⟩
  case minute => rw [TimeRec.nextSecond, if_pos hs, nextMinute_of_minute_ne h hm]
  case hour =>
    rw [TimeRec.nextSecond, if_pos hs, TimeRec.nextMinute, if_pos hm]
    exact nextHour_of_hour_ne (t := t) h hh
  case day => rw [hcarry hs hm hh, nextDay_of_lt h hd]
  case month =>
    rw [hcarry hs hm hh, nextDay_of_last h hd, TimeRec.nextMonth, if_neg hmonth,
      bcdInc_of_ne h.monthOk h.monthHi (by decide) hmonth]
  case year =>
    have hd31 : bcdVal t.day = daysInMonth (bcdVal t.year) (bcdVal t.month) := by rw [hd, hmonth]; rfl
    rw [hcarry hs hm hh, nextDay_of_last h hd31, TimeRec.nextMonth, if_pos hmonth, TimeRec.nextYear, if_neg hyear,
      bcdInc_of_ne h.yearOk (bcdVal_le _ h.yearOk) (by decide) hyear]
  case century =>
    rw [ht]
    simp [TimeRec.nextSecond, TimeRec.nextMinute, TimeRec.nextHour, TimeRec.nextDay, TimeRec.nextMonth, TimeRec.nextYear, daysInMonth,
      bcdVal]

end Sys2Proof.Machine
end

section
/-! PROOF. The reporting figures (R71 to R73, R97, R118, R126) and the parts of a note (R17, R158). -/

namespace Sys2Proof.Machine

/-! ### Rounding (R72, R73) -/

/-- A quotient rounded up at its half is the one that lies within half a divisor. -/
theorem roundUp_bounds (n : Nat) {d : Nat} (hd : 0 < d) :
    roundUp n d * (2 * d) ≤ 2 * n + d ∧ 2 * n + d < (roundUp n d + 1) * (2 * d) :=
  ⟨Nat.div_mul_le_self _ _, by
    rw [Nat.mul_comm (roundUp n d + 1)]
    exact Nat.lt_mul_div_succ _ (by omega)⟩

/-- A magnitude rounded is off by half a divisor at most, and upwards when it is off by the half. -/
theorem roundUp_distance (n : Nat) {d : Nat} (hd : 0 < d) :
    2 * ((roundUp n d * d : Int) - n).natAbs ≤ d ∧ (2 * ((roundUp n d * d : Int) - n).natAbs = d → n < roundUp n d * d) := by
  obtain ⟨hlow, hhigh⟩ := roundUp_bounds n hd
  have hprod : roundUp n d * (2 * d) = 2 * (roundUp n d * d) := Nat.mul_left_comm ..
  have hsucc : (roundUp n d + 1) * (2 * d) = 2 * (roundUp n d * d) + 2 * d := by
    rw [Nat.add_mul, Nat.one_mul, hprod]
  rw [hprod] at hlow
  rw [hsucc] at hhigh
  rw [← Int.natCast_mul]
  generalize roundUp n d * d = q at *
  omega

/-- Rounding away from zero is rounding of the magnitude, with the sign put back (R72). -/
theorem roundAway_distance (w : Int) {d : Nat} (hd : 0 < d) :
    2 * (roundAway w d * d - w).natAbs ≤ d ∧ (2 * (roundAway w d * d - w).natAbs = d → w.natAbs < (roundAway w d * d).natAbs) := by
  obtain ⟨n, rfl | rfl⟩ := Int.eq_nat_or_neg w
  · obtain ⟨hle, htie⟩ := roundUp_distance n hd
    rw [roundAway_natCast]
    refine ⟨hle, fun h => ?_⟩
    rw [← Int.natCast_mul, Int.natAbs_natCast, Int.natAbs_natCast]
    exact htie h
  · obtain ⟨hle, htie⟩ := roundUp_distance n hd
    have hneg : -(roundUp n d : Int) * d - -(n : Int) = -((roundUp n d : Int) * d - n) := by
      rw [Int.neg_mul]
      omega
    rw [roundAway_neg_natCast n hd, hneg, Int.natAbs_neg]
    refine ⟨hle, fun h => ?_⟩
    rw [Int.neg_mul, Int.natAbs_neg, Int.natAbs_neg, ← Int.natCast_mul, Int.natAbs_natCast, Int.natAbs_natCast]
    exact htie h

/-! ### The figures -/

theorem toDl_bounds (v : Nat) : toDl v * 100000 ≤ v + 50000 ∧ v + 50000 < (toDl v + 1) * 100000 := by
  unfold toDl
  omega

theorem avgTemp_of_no_weight {b : Batch} (h : b.weightBase = 0) : b.avgTemp = 0 :=
  if_pos h

theorem avgTemp_of_weight {b : Batch} (h : 0 < b.weightBase) : b.avgTemp = roundAway b.tempWeight b.weightBase :=
  if_neg (Nat.ne_of_gt h)

theorem reportedVcf_of_gross {b : Batch} (h : toDl b.gross ≠ 0) : b.reportedVcf = some (roundUp (b.net * 100000) b.gross) :=
  if_neg h

theorem gross_pos_of_toDl_ne {v : Nat} (h : toDl v ≠ 0) : 0 < v := by
  unfold toDl at h
  omega

theorem learnedLead_bounds (lead gross preset : Nat) {low high : Nat} (h : low ≤ high) :
    low ≤ learnedLead lead gross preset low high ∧ learnedLead lead gross preset low high ≤ high := by
  unfold learnedLead
  omega

/-- The lead moves by half the overrun, and stands at the bound it would pass. -/
theorem learnedLead_of_overrun (lead preset low high : Nat) {gross : Nat} {excess : Int} (hexcess : (gross : Int) - preset * 10 = excess) :
    learnedLead lead gross preset low high = (max (low : Int) (min (high : Int) (lead + roundAway excess 2))).toNat := by
  rw [learnedLead, hexcess]

theorem charge_eq (p : Permit) (today : Date) (dl : Nat) : p.charge today dl = { p with
    usedToday := min 99999999 ((if p.lastLoad = some today then p.usedToday else 0) + dl), lastLoad := some today } := by
  unfold Permit.charge Permit.roll
  split <;> rfl

/-- Settles O54: each figure by its rounding, the learned lead by its clamp, the result by its state. -/
theorem figuresRounded : Obligations.FiguresRounded := by
  refine ⟨toDl_bounds, by decide, fun b => ⟨avgTemp_of_no_weight, fun h => ?average⟩,
    fun b => ⟨fun h => if_pos h, fun h => ⟨_, reportedVcf_of_gross h, roundUp_bounds _ (gross_pos_of_toDl_ne h)⟩⟩,
    fun lead gross preset low high => learnedLead_bounds lead gross preset, fun preset => ⟨?long, fun h => ?short⟩, charge_eq,
    fun c gross => ⟨rfl, rfl, rfl, fun h => ?faulted, fun h => ?suspended, fun h hless => ?under, fun h hleast => ?enough⟩⟩
  case average =>
    rw [avgTemp_of_weight h]
    exact roundAway_distance _ h
  case long =>
    rw [learnedLead_of_overrun 800 preset 400 1500 (excess := 146) (by omega)]
    decide
  case short =>
    rw [learnedLead_of_overrun 873 preset 400 1500 (excess := -35) (by omega)]
    decide
  case faulted => simp [Schedule.result, h]
  case suspended => simp [Schedule.result, h]
  case under =>
    rw [Schedule.result, h]
    exact if_pos hless
  case enough =>
    rw [Schedule.result, h]
    exact if_neg (Nat.not_lt.mpr hleast)

/-! ### The parts of a note (R17) -/

theorem fieldBytes_of_fits {k n : Nat} (h : n < 256 ^ k) : fieldBytes k n = beBytes k n :=
  if_pos h

theorem signedField_of_fits {v : Int} (hlow : -32768 ≤ v) (hhigh : v ≤ 32767) :
    signedField v = beBytes 2 (BitVec.ofInt 16 v).toNat :=
  if_pos ⟨hlow, hhigh⟩

theorem beBytes_zero (k : Nat) : beBytes k 0 = List.replicate k 0#8 := by
  induction k with
  | zero => rfl
  | succ k ih => simp [beBytes, ih, List.replicate_succ]

theorem addResult_bytes_of_fits {r : AddResult} (ht : r.target < 256 ^ 4) (hd : r.delivered < 256 ^ 4) :
    r.bytes = [r.additive] ++ beBytes 4 r.target ++ beBytes 4 r.delivered ++ [r.status.code] := by
  rw [AddResult.bytes, fieldBytes_of_fits ht, fieldBytes_of_fits hd]
  rfl

theorem partOpening_byte (n : Note) (k : Byte) : partOpening n k.toNat = bcdBytes 4 n.number ++ [k] := by
  rw [partOpening, BitVec.ofNat_toNat, BitVec.setWidth_eq]

/-- Part 0 for figures that fit their fields. -/
theorem head_of_fits {n : Note} (hc : n.body.calAtClose < 256 ^ 3) (hg : n.body.gross < 256 ^ 4) (hn : n.body.net < 256 ^ 4) :
    n.head = bcdBytes 4 n.number ++ [0x00#8] ++ [match n.body.lane with
        | .a => 0x00#8
        | .b => 0x01#8] ++ beBytes 4 n.body.reference.toNat ++ n.body.tanker ++ beBytes 2 n.body.driverRef.toNat ++
      beBytes 2 n.body.carrier.toNat ++ n.body.startTime.bytes ++ n.body.endTime.bytes ++ beBytes 3 n.body.calAtClose ++
      [if n.body.permitOverridden then 0x01#8 else 0x00#8] ++ beBytes 4 n.body.gross ++ beBytes 4 n.body.net ++
      [BitVec.ofNat 8 n.body.entries.length] := by
  rw [Note.head, fieldBytes_of_fits hc, fieldBytes_of_fits hg, fieldBytes_of_fits hn]
  cases n.body.lane <;> rfl

/-- A part of an entry that is not DONE shows NOT LOADED. -/
theorem part_of_not_done {e : CompEntry} (he : e.state ≠ .done) (hp : e.preset < 256 ^ 3) (n : Note) (k : Byte) :
    e.part n k.toNat = bcdBytes 4 n.number ++ [k] ++ [BitVec.ofNat 8 e.compartment, e.product] ++ beBytes 3 e.preset ++
      [0xFF#8, 0x00#8, 0#8, 0#8, 0#8, 0#8, 0#8, 0#8, 0#8, 0#8, 0#8, 0#8, 0xFF#8, 0xFF#8, 0xFF#8, 0x00#8, 0#8, 0#8, 0#8] := by
  rw [CompEntry.part, if_neg he, partOpening_byte, fieldBytes_of_fits hp, beBytes_zero, beBytes_zero]
  rfl

/-- A part of a DONE entry for figures that fit their fields. -/
theorem part_of_done {e : CompEntry} (he : e.state = .done) (hp : e.preset < 256 ^ 3) (hg : e.gross < 256 ^ 4) (hn : e.net < 256 ^ 4)
    (hlow : -32768 ≤ e.avgTemp) (hhigh : e.avgTemp ≤ 32767) (hv : ∀ v, e.vcf = some v → v < 256 ^ 3)
    (ha : ∀ r ∈ e.additives, r.target < 256 ^ 4 ∧ r.delivered < 256 ^ 4) (n : Note) (k : Byte) :
    e.part n k.toNat = bcdBytes 4 n.number ++ [k] ++ [BitVec.ofNat 8 e.compartment, e.product] ++ beBytes 3 e.preset ++ [match e.arm with
        | none => 0xFF#8
        | some a => BitVec.ofNat 8 a.val, 0x01#8] ++ beBytes 4 e.gross ++ beBytes 4 e.net ++
      beBytes 2 (BitVec.ofInt 16 e.avgTemp).toNat ++ (match e.vcf with
        | none => [0xFF#8, 0xFF#8, 0xFF#8]
        | some v => beBytes 3 v) ++ [stopCode e.reason] ++ beBytes 2 e.exceptions.toNat ++
      [BitVec.ofNat 8 e.additives.length] ++ e.additives.flatMap fun r =>
        [r.additive] ++ beBytes 4 r.target ++ beBytes 4 r.delivered ++ [r.status.code] := by
  have hbytes : e.additives.flatMap AddResult.bytes = e.additives.flatMap fun r =>
      [r.additive] ++ beBytes 4 r.target ++ beBytes 4 r.delivered ++ [r.status.code] :=
    congrArg List.flatten (List.map_congr_left fun r hr => addResult_bytes_of_fits (ha r hr).1 (ha r hr).2)
  rw [CompEntry.part, if_pos he, partOpening_byte, fieldBytes_of_fits hp, fieldBytes_of_fits hg, fieldBytes_of_fits hn,
    signedField_of_fits hlow hhigh, hbytes]
  cases harm : e.arm <;> cases hvcf : e.vcf <;> simp only [List.append_assoc]
  case none.some v => rw [fieldBytes_of_fits (hv v hvcf)]
  case some.some v => rw [fieldBytes_of_fits (hv v hvcf)]

/-! ### NOTE TAKE (R158) -/

/-- A request whose owner answers bytes and changes nothing. -/
theorem request_data {s : State} {n : Nat} {p q : List Byte} {owner : State → State × TermReply} (hr : s.Reaches n)
    (h : owner s = (s, .data q)) (hp : q = p) (hs : s.Settled) :
    (.next (s.request n owner) : Host.Outcome State Fault Refusal) = .next (s.shows (.data p)) :=
  hp ▸ request_next hr h hs

theorem noteTake_of_length_ne {s : State} {p : List Byte} (h : p.length ≠ 1) : s.noteTake p = (s, .refuse .badFormat) :=
  if_pos h

theorem noteTake_of_empty {s : State} (h : s.note.notes = []) (k : Byte) : s.noteTake [k] = (s, .refuse .notFound) := by
  simp [State.noteTake, h, State.refuse]

section Oldest

variable {s : State} {n : Note} {rest : List Note} (h : s.note.notes = n :: rest)

include h

theorem noteTake_head : s.noteTake [0#8] = (s, .data n.head) := by
  simp [State.noteTake, h, State.answer, byteAt]

theorem noteTake_past_last {k : Byte} (hk : n.body.entries.length < k.toNat) : s.noteTake [k] = (s, .refuse .badValue) := by
  have hpart : k.toNat ≠ 0 := by omega
  have hnone : n.body.entries[k.toNat - 1]? = none := List.getElem?_eq_none (by omega)
  simp [State.noteTake, h, State.refuse, byteAt, hpart, hnone]

theorem noteTake_part {k : Byte} {e : CompEntry} (hk : k ≠ 0#8) (he : n.body.entries[k.toNat - 1]? = some e) :
    s.noteTake [k] = (s, .data (e.part n k.toNat)) := by
  have hpart : k.toNat ≠ 0 := fun h0 => hk (BitVec.eq_of_toNat_eq h0)
  simp [State.noteTake, h, State.answer, byteAt, hpart, he]

end Oldest

/-- Settles O22: the checks of R158 in order, and the part asked for in its layout. -/
theorem noteTakeAnswers : Obligations.NoteTakeAnswers := by
  intro s hs
  refine ⟨fun q hq hr => request_next hr (noteTake_of_length_ne hq) hs, fun k hr hq => request_next hr (noteTake_of_empty hq k) hs,
    fun k n rest hr hq => ⟨fun hk => request_next hr (noteTake_past_last hq hk) hs, fun hk hc hg hn => ?head,
      fun e hk he hp => ⟨fun hstate => ?notLoaded, fun hstate hg hn hlow hhigh hv ha => ?loaded⟩⟩⟩
  case head =>
    subst hk
    exact request_data hr (noteTake_head hq) (head_of_fits hc hg hn) hs
  case notLoaded =>
    exact request_data hr (noteTake_part hq hk he) (part_of_not_done hstate hp n k) hs
  case loaded =>
    exact request_data hr (noteTake_part hq hk he) (part_of_done hstate hp hg hn hlow hhigh hv ha n k) hs

end Sys2Proof.Machine
end

section
/-! PROOF. The permit requests (chapter 7): PERMIT WRITE (R121, R122), PERMIT DELETE (R123) and PERMIT READ (R124, R125, R127). -/

namespace Sys2Proof.Machine

/-! ### PERMIT WRITE (R121, R122) -/

/-- The permit that a payload of the right form gives (R121). -/
def permitOf (p : List Byte) (cls : PermitClass) (st : PermitState) (lane : Option Lane) : Permit :=
  ⟨bcdNat (p.take 5), cls, st, byteAt p 7 ++ byteAt p 8, byteAt p 9 ++ byteAt p 10, ⟨byteAt p 11, byteAt p 12, byteAt p 13⟩,
    byteAt p 14 ++ byteAt p 15, beNat [byteAt p 16, byteAt p 17, byteAt p 18], 0, none, lane⟩

theorem parsePermit_of_bad_form {p : List Byte} (h : p.length ≠ 21 ∨ permitClassOf (byteAt p 5) = none ∨
    permitStateOf (byteAt p 6) = none ∨ restrictionOf (byteAt p 19) = none) : parsePermit p = none := by
  unfold parsePermit
  split
  case h_1 hcls hst hlane =>
    obtain h | h | h | h := h
    · exact if_neg h
    · exact absurd (hcls.symm.trans h) nofun
    · exact absurd (hst.symm.trans h) nofun
    · exact absurd (hlane.symm.trans h) nofun
  case h_2 => rfl

section Form

variable {p : List Byte} {cls : PermitClass} {st : PermitState} {lane : Option Lane} (hlen : p.length = 21)
  (hcls : permitClassOf (byteAt p 5) = some cls) (hst : permitStateOf (byteAt p 6) = some st)
  (hlane : restrictionOf (byteAt p 19) = some lane)

include hlen hcls hst hlane

theorem parsePermit_of_form : parsePermit p = some (permitOf p cls st lane) := by
  unfold parsePermit
  rw [hcls, hst, hlane]
  dsimp only
  rw [if_pos hlen, fieldAt_two p 7 (by omega), fieldAt_two p 9 (by omega), fieldAt_two p 14 (by omega), fieldAt_three p 16 (by omega),
    ofNat_beNat_two, ofNat_beNat_two, ofNat_beNat_two]
  rfl

end Form

/-- The values of a permit of the right form are good (R121 step 2). -/
def Permit.Good (n : Permit) (p : List Byte) : Prop :=
  (p.take 5).all bcdOk = true ∧ realDate n.expiry.year n.expiry.month n.expiry.day = true ∧ n.dailyLimit ≤ 999999

section Parsed

variable {s : State} {p : List Byte} {n : Permit} (h : parsePermit p = some n)

include h

theorem permitWrite_of_bad_value (hbad : ¬ n.Good p) : s.permitWrite p = (s, .refuse .badValue) := by
  rw [State.permitWrite, h]
  exact if_pos hbad

/-- A permit with good values is judged by the table alone. -/
theorem permitWrite_of_good (hgood : n.Good p) : s.permitWrite p =
    if (s.permit n.card).isSome then (s.modPermit n.card fun old => old.replaceBy n (flag (byteAt p 20) 0), .accept)
    else if s.permits.length < 256 then ({ s with permits := insertPermit n s.permits }, .accept)
    else (s, .refuse .tableFull) := by
  rw [State.permitWrite, h]
  exact if_neg (not_not_intro hgood)

end Parsed

theorem permit_isSome_iff (s : State) (card : Nat) : (s.permit card).isSome = true ↔ ∃ q ∈ s.permits, q.card = card := by
  simp [State.permit]

theorem permit_not_isSome {s : State} {card : Nat} (h : ∀ q ∈ s.permits, q.card ≠ card) : ¬ (s.permit card).isSome = true :=
  fun hsome =>
    have ⟨q, hq, hcard⟩ := (permit_isSome_iff s card).mp hsome
    h q hq hcard

/-- Settles O15: the two checks on the payload, then replacement, insertion or refusal by the table. -/
theorem permitWriteEffect : Obligations.PermitWriteEffect := by
  intro p s hs ho hr
  refine ⟨fun hform => ?badFormat, fun cls st lane hlen hcls hst hlane => ?_⟩
  case badFormat =>
    refine request_next (owner := fun s => s.permitWrite p) hr ?_ hs
    rw [State.permitWrite, parsePermit_of_bad_form hform]
    rfl
  have hparsed := parsePermit_of_form hlen hcls hst hlane
  refine ⟨fun hbad => ?badValue, fun hgood hknown => ?replaced, fun hgood hnew hroom => ?inserted, fun hgood hnew hfull => ?tableFull⟩
  case badValue => exact request_next hr (permitWrite_of_bad_value hparsed hbad) hs
  case replaced =>
    exact request_next (u := { s with permits := _ }) hr
      ((permitWrite_of_good hparsed hgood).trans (if_pos ((permit_isSome_iff s _).mpr hknown))) hs
  case inserted =>
    exact request_next (u := { s with permits := _ }) hr ((permitWrite_of_good hparsed hgood).trans
      ((if_neg (permit_not_isSome hnew)).trans ((if_pos hroom).trans
        (congrArg (fun l => (({ s with permits := l } : State), TermReply.accept)) (insertPermit_eq _ _ ho.1 hnew))))) hs
  case tableFull =>
    exact request_next hr ((permitWrite_of_good hparsed hgood).trans
      ((if_neg (permit_not_isSome hnew)).trans (if_neg (by omega)))) hs

/-! ### PERMIT DELETE (R123) -/

/-- The card is the permit of a lane's load or the card of a lane's candidate (R123). -/
def State.CardInUse (s : State) (card : Nat) : Prop :=
  ∃ l : Lane, ((s.lane l).state ≠ .none ∧ ∃ x, (s.lane l).load = some x ∧ x.card = card) ∨
    ∃ c, (s.lane l).candidate = some c ∧ c.card = card

theorem permitUse_ne_zero_iff (s : State) (card : Nat) : s.permitUse card ≠ 0#8 ↔ s.CardInUse card := by
  obtain ⟨_, _, _, _, _, hzero⟩ := permitUse_bits s card
  rw [Ne, hzero]
  constructor
  · intro h
    refine Classical.byContradiction fun hfree => ?_
    simp only [State.CardInUse, ← loadHasCard_iff, ← candidateHasCard_iff, not_exists, not_or, Bool.not_eq_true] at hfree
    exact h ⟨(hfree .a).1, (hfree .b).1, (hfree .a).2, (hfree .b).2⟩
  · rintro ⟨l, hload | hcand⟩ ⟨hla, hlb, hca, hcb⟩
    · have := (loadHasCard_iff s l card).mpr hload
      cases l <;> simp_all
    · have := (candidateHasCard_iff s l card).mpr hcand
      cases l <;> simp_all

section Delete

variable {s : State} {p : List Byte}

theorem permitDelete_of_length_ne (h : p.length ≠ 5) : s.permitDelete p = (s, .refuse .badFormat) :=
  if_pos h

variable (hlen : p.length = 5)

include hlen

theorem permitDelete_of_bad_digits (hdigits : p.all bcdOk = false) : s.permitDelete p = (s, .refuse .badValue) := by
  simp [State.permitDelete, hlen, hdigits, State.refuse]

variable (hdigits : p.all bcdOk = true)

include hdigits

/-- A card number of the right form is judged by presence, then by use. -/
theorem permitDelete_of_number : s.permitDelete p =
    if (s.permit (bcdNat p)).isNone then (s, .refuse .notFound)
    else if s.permitUse (bcdNat p) ≠ 0#8 then (s, .refuse .inUse)
    else ({ s with permits := s.permits.filter fun q => q.card ≠ bcdNat p }, .accept) :=
  (if_neg (not_not_intro hlen)).trans (if_neg (not_not_intro hdigits))

end Delete

theorem permit_not_isNone {s : State} {card : Nat} (h : ∃ q ∈ s.permits, q.card = card) : ¬ (s.permit card).isNone = true := by
  rw [permit_isNone]
  exact fun hnone =>
    have ⟨q, hq, hcard⟩ := h
    hnone q hq hcard

/-- Settles O16: the four checks of R123 in order. -/
theorem permitDeleteEffect : Obligations.PermitDeleteEffect := by
  intro p s hs hr inUse
  have huse : s.permitUse (bcdNat p) ≠ 0#8 ↔ inUse := permitUse_ne_zero_iff s (bcdNat p)
  refine ⟨fun hlen => request_next hr (permitDelete_of_length_ne hlen) hs,
    fun hlen hbad => request_next hr (permitDelete_of_bad_digits hlen hbad) hs, fun hlen hdigits hnone => ?notFound,
    fun hlen hdigits hknown hused => ?inUse, fun hlen hdigits hknown hfree => ?removed⟩
  case notFound =>
    exact request_next hr ((permitDelete_of_number hlen hdigits).trans (if_pos ((permit_isNone s _).mpr hnone))) hs
  case inUse =>
    exact request_next hr ((permitDelete_of_number hlen hdigits).trans
      ((if_neg (permit_not_isNone hknown)).trans (if_pos (huse.mpr hused)))) hs
  case removed =>
    exact request_next (u := { s with permits := _ }) hr ((permitDelete_of_number hlen hdigits).trans
      ((if_neg (permit_not_isNone hknown)).trans (if_neg (mt huse.mp hfree)))) hs

/-! ### PERMIT READ (R124, R125, R127) -/

theorem roll_eq (p : Permit) (today : Date) :
    p.roll today = if p.lastLoad = some today then p else { p with usedToday := 0 } := rfl

/-- The day roll touches nothing but the usage (R125). -/
theorem roll_frame (p : Permit) (today : Date) : p.roll today = { p with usedToday := (p.roll today).usedToday } := by
  unfold Permit.roll
  split <;> rfl

/-- A position of the table is found by its card number: no other permit carries it (R120). -/
theorem findIdx_card {s : State} (ho : s.PermitsOrdered) {i : Nat} {p : Permit} (hp : s.permits[i]? = some p) :
    (s.permits.findIdx fun q => q.card = p.card) = i := by
  obtain ⟨hi, hget⟩ := List.getElem?_eq_some_iff.mp hp
  rw [List.findIdx_eq hi]
  refine ⟨by simp [hget], fun j hj => ?_⟩
  have hlt := (List.pairwise_iff_getElem.mp ho.1) j i (by omega) hi hj
  rw [hget] at hlt
  simpa using Nat.ne_of_lt hlt

theorem findIdx_of_no_card {s : State} {card : Nat} (h : ∀ p ∈ s.permits, p.card ≠ card) :
    (s.permits.findIdx fun q => q.card = card) = s.permits.length :=
  List.findIdx_eq_length.mpr fun p hp => by simpa using h p hp

theorem permitReadAt_of_past_end {s : State} {i : Nat} (h : s.permits.length ≤ i) : s.permitReadAt i = (s, .refuse .notFound) := by
  rw [State.permitReadAt, List.getElem?_eq_none h]
  rfl

section ReadByCard

variable {s : State} {q : List Byte}

theorem permitReadByCard_of_length_ne (h : q.length ≠ 5) : s.permitReadByCard q = (s, .refuse .badFormat) :=
  if_pos h

theorem permitReadByCard_of_bad_digits (h : q.length = 5) (hdigits : q.all bcdOk = false) :
    s.permitReadByCard q = (s, .refuse .badValue) := by
  simp [State.permitReadByCard, h, hdigits, State.refuse]

theorem permitReadByCard_of_number (h : q.length = 5) (hdigits : q.all bcdOk = true) :
    s.permitReadByCard q = s.permitReadAt (s.permits.findIdx fun p => p.card = bcdNat q) :=
  (if_neg (not_not_intro h)).trans (if_neg (not_not_intro hdigits))

theorem permitReadByPosition_of_length_ne (h : q.length ≠ 1) : s.permitReadByPosition q = (s, .refuse .badFormat) :=
  if_pos h

theorem permitReadByPosition_of_length (h : q.length = 1) : s.permitReadByPosition q = s.permitReadAt (byteAt q 0).toNat :=
  if_neg (not_not_intro h)

end ReadByCard

/-- Settles O17: the permit at its position, found by card or by position, and the refusals of R124. -/
theorem permitReadAnswers : Obligations.PermitReadAnswers := by
  intro s hs ho
  refine ⟨fun i p hp => ?_, fun q hr => ⟨fun hlen => request_next hr (permitReadByCard_of_length_ne hlen) hs,
    fun hlen hbad => request_next hr (permitReadByCard_of_bad_digits hlen hbad) hs, fun hlen hdigits hnone => ?noCard,
    fun hlen => request_next hr (permitReadByPosition_of_length_ne hlen) hs, fun hlen hpast => ?noPosition⟩⟩
  case noCard =>
    refine request_next hr ((permitReadByCard_of_number hlen hdigits).trans (permitReadAt_of_past_end ?_)) hs
    exact Nat.le_of_eq (findIdx_of_no_card hnone).symm
  case noPosition =>
    exact request_next hr ((permitReadByPosition_of_length hlen).trans (permitReadAt_of_past_end hpast)) hs
  intro rolled load cand
  obtain ⟨h0, h1, h2, h3, h16, _⟩ := permitUse_bits s p.card
  have hi : i < s.permits.length := (List.getElem?_eq_some_iff.mp hp).1
  have h256 : i < 256 := Nat.lt_of_lt_of_le hi ho.2
  refine ⟨s.permitUse p.card, p.standing s.today, ⟨?_, ?_, ?_, ?_, h16⟩, ?standing, ?_⟩
  · rw [h0]; exact loadHasCard_iff s .a p.card
  · rw [h1]; exact loadHasCard_iff s .b p.card
  · rw [h2]; exact candidateHasCard_iff s .a p.card
  · rw [h3]; exact candidateHasCard_iff s .b p.card
  case standing =>
    unfold Permit.standing Permit.expired
    cases p.state <;> simp
  intro t
  have hread : (s.permitReadAt i) = ({ s with permits := s.permits.set i rolled },
      .data (State.permitRecord { s with permits := s.permits.set i rolled } rolled i)) := permitReadAt_some s ho i p hp
  have hrolled : rolled = { p with usedToday := rolled.usedToday } := roll_frame p s.today
  have hrecord : t = State.shows { s with permits := s.permits.set i rolled }
      (.data (State.permitRecord { s with permits := s.permits.set i rolled } rolled i)) := by
    refine congrArg (fun b => State.shows _ (.data b)) ?_
    rw [State.permitRecord, List.length_set, hrolled]
    unfold Permit.fields restrictionCode laneCode
    rcases p.lane with _ | _ | _ <;> cases p.lastLoad <;> rfl
  rw [hrecord]
  refine ⟨fun q hlen hdigits hcard hr => ?_, fun hr => ?_⟩
  · refine request_next (s := s) (hlen ▸ hr) ((permitReadByCard_of_number hlen hdigits).trans ?_) hs
    rw [hcard, findIdx_card ho hp, hread]
  · refine request_next hr ((permitReadByPosition_of_length rfl).trans ?_) hs
    rw [show (byteAt [BitVec.ofNat 8 i] 0).toNat = i from Nat.mod_eq_of_lt h256, hread]

end Sys2Proof.Machine
end

section
/-! PROOF. Orders (chapter 8): ORDER PLACE by the five checks of R134, ORDER CANCEL with the candidates that name the order (R135,
R142, R148). -/

namespace Sys2Proof.Machine

/-! ### Bytes at an offset -/

theorem byteAt_drop (p : List Byte) (i j : Nat) : byteAt (p.drop i) j = byteAt p (i + j) := by
  simp [byteAt, List.getD_eq_getElem?_getD]

theorem fieldAt_drop (p : List Byte) (i j k : Nat) : fieldAt (p.drop i) j k = fieldAt p (i + j) k := by
  simp [fieldAt]

/-! ### The order that a payload gives (R134) -/

/-- The `k`-th compartment of an ORDER PLACE payload. -/
def lineAt (p : List Byte) (k : Nat) : OrderLine :=
  ⟨(byteAt p (16 + 4 * k)).toNat, byteAt p (17 + 4 * k),
    (byteAt p (18 + 4 * k)).toNat * 256 + (byteAt p (19 + 4 * k)).toNat⟩

theorem parseLine_drop {p : List Byte} {k : Nat} (h : 16 + 4 * k + 4 ≤ p.length) : parseLine (p.drop (16 + 4 * k)) = lineAt p k := by
  have h1 : 16 + 4 * k + 1 = 17 + 4 * k := by omega
  have h2 : 16 + 4 * k + 2 = 18 + 4 * k := by omega
  have h3 : 18 + 4 * k + 1 = 19 + 4 * k := by omega
  simp only [parseLine, byteAt_drop, fieldAt_drop, Nat.add_zero, h1, h2]
  rw [fieldAt_two p _ (by omega), beNat_two, h3]
  rfl

theorem parseLines_eq (n : Nat) : ∀ bs : List Byte, parseLines n bs = (List.range n).map fun k => parseLine (bs.drop (4 * k)) := by
  induction n with
  | zero => exact fun _ => rfl
  | succ n ih =>
    intro bs
    rw [parseLines, ih, List.range_succ_eq_map, List.map_cons, List.map_map]
    refine congrArg _ (List.map_congr_left fun k _ => ?_)
    rw [List.drop_drop, Function.comp_apply, Nat.mul_succ, Nat.add_comm]

theorem parseLines_payload {p : List Byte} {n : Nat} (h : p.length = 16 + 4 * n) :
    parseLines n (p.drop 16) = (List.range n).map (lineAt p) := by
  rw [parseLines_eq]
  refine List.map_congr_left fun k hk => ?_
  have hk := List.mem_range.mp hk
  rw [List.drop_drop]
  exact parseLine_drop (by omega)

/-- The order that a payload of the right form gives. -/
def orderOf (p : List Byte) (lane : Option Lane) : Order :=
  ⟨byteAt p 0 ++ byteAt p 1 ++ byteAt p 2 ++ byteAt p 3, byteAt p 4 ++ byteAt p 5, (p.drop 6).take 8, lane,
    (List.range (byteAt p 15).toNat).map (lineAt p)⟩

theorem parseOrder_of_bad_form {p : List Byte}
    (h : p.length ≠ 16 + 4 * (byteAt p 15).toNat ∨ restrictionOf (byteAt p 14) = none) : parseOrder p = none := by
  unfold parseOrder
  split
  case h_1 => rfl
  case h_2 lane hlane =>
    refine if_neg fun hlen => ?_
    obtain h | h := h
    · exact h hlen.2
    · exact nomatch hlane.symm.trans h

theorem parseOrder_of_form {p : List Byte} {lane : Option Lane} (hlen : p.length = 16 + 4 * (byteAt p 15).toNat)
    (hlane : restrictionOf (byteAt p 14) = some lane) : parseOrder p = some (orderOf p lane) := by
  rw [parseOrder, hlane]
  dsimp only
  rw [if_pos ⟨by omega, hlen⟩, fieldAt_four p 0 (by omega), fieldAt_two p 4 (by omega), parseLines_payload hlen, ofNat_beNat_two,
    ofNat_beNat_four]
  rfl

/-! ### The checks of R134 -/

theorem distinct_iff_nodup {α : Type} [BEq α] [LawfulBEq α] (l : List α) : distinct l = true ↔ l.Nodup := by
  induction l with
  | nil => simp [distinct]
  | cons a l ih => simp [distinct, ih]

theorem nodup_map_range_iff {α : Type} (f : Nat → α) (n : Nat) :
    ((List.range n).map f).Nodup ↔ ∀ j k, j < k → k < n → f j ≠ f k := by
  rw [List.Nodup, List.pairwise_map, List.pairwise_iff_getElem]
  simp only [List.length_range, List.getElem_range]
  exact ⟨fun h j k hjk hk => h j k (by omega) hk hjk, fun h j k _ hk hjk => h j k hjk hk⟩

/-- R134 step 2 for the order of a payload. -/
theorem orderOf_valid_iff (p : List Byte) (lane : Option Lane) : (orderOf p lane).valid = true ↔
    1 ≤ (byteAt p 15).toNat ∧ (byteAt p 15).toNat ≤ 8 ∧
      (∀ k < (byteAt p 15).toNat, 1 ≤ (byteAt p (16 + 4 * k)).toNat ∧ (byteAt p (16 + 4 * k)).toNat ≤ 8 ∧
        1 ≤ (byteAt p (18 + 4 * k)).toNat * 256 + (byteAt p (19 + 4 * k)).toNat) ∧
      (∀ j k, j < k → k < (byteAt p 15).toNat → byteAt p (16 + 4 * j) ≠ byteAt p (16 + 4 * k)) ∧
      ∀ b ∈ (p.drop 6).take 8, 0x20 ≤ b.toNat ∧ b.toNat ≤ 0x7E := by
  have hdistinct : distinct ((orderOf p lane).lines.map fun x => x.compartment) = true ↔
      ∀ j k, j < k → k < (byteAt p 15).toNat → byteAt p (16 + 4 * j) ≠ byteAt p (16 + 4 * k) := by
    rw [distinct_iff_nodup, orderOf, List.map_map, nodup_map_range_iff]
    exact forall₄_congr fun j k _ _ => not_congr (BitVec.toNat_inj)
  simp only [Order.valid, Bool.and_eq_true, decide_eq_true_eq, hdistinct]
  simp only [orderOf, List.length_map, List.length_range, List.all_map, List.all_eq_true, List.mem_range, Function.comp_apply,
    Bool.and_eq_true, decide_eq_true_eq]
  simp only [lineAt, and_assoc]

theorem product_isSome_iff (s : State) (code : Byte) : (s.product code).isSome = true ↔ ∃ x ∈ s.batch.products, x.code = code := by
  simp [State.product]

/-- R134 step 3 for the order of a payload. -/
theorem orderOf_known_iff (s : State) (p : List Byte) (lane : Option Lane) :
    (orderOf p lane).lines.all (fun x => (s.product x.product).isSome) = true ↔
      ∀ k < (byteAt p 15).toNat, ∃ x ∈ s.batch.products, x.code = byteAt p (17 + 4 * k) := by
  simp only [orderOf, List.all_map, List.all_eq_true, List.mem_range, Function.comp_apply, product_isSome_iff, lineAt]

/-- R134 step 4. -/
theorem referenceUsed_iff (s : State) (ref : BitVec 32) : s.referenceUsed ref = true ↔
    (∃ o ∈ s.load.orders, o.reference = ref) ∨
      ∃ l : Lane, (s.lane l).state ≠ .none ∧ ∃ x, (s.lane l).load = some x ∧ x.reference = ref := by
  have horder : (s.order ref).isSome = true ↔ ∃ o ∈ s.load.orders, o.reference = ref := by simp [State.order]
  have hlane : ∀ l, (s.holdsLoad l && (s.lane l).load.any fun x => x.reference = ref) = true ↔
      (s.lane l).state ≠ .none ∧ ∃ x, (s.lane l).load = some x ∧ x.reference = ref :=
    fun l => by simp [State.holdsLoad, Option.any_eq_true]
  rw [State.referenceUsed, Bool.or_eq_true, Bool.or_eq_true, horder, hlane, hlane, or_assoc]
  refine or_congr_right ⟨fun h => h.elim (fun ha => ⟨.a, ha⟩) fun hb => ⟨.b, hb⟩, ?_⟩
  rintro ⟨l, hl⟩
  cases l
  · exact .inl hl
  · exact .inr hl

theorem orderPlace_of_bad_form {s : State} {p : List Byte} (h : parseOrder p = none) : s.orderPlace p = (s, .refuse .badFormat) := by
  rw [State.orderPlace, h]
  rfl

/-- An order of the right form is judged by the checks of R134 in turn. -/
theorem orderPlace_of_parsed {s : State} {p : List Byte} {o : Order} (h : parseOrder p = some o) : s.orderPlace p =
    if ¬ o.valid then (s, .refuse .badValue)
    else if ¬ o.lines.all (fun x => (s.product x.product).isSome) then (s, .refuse .notFound)
    else if s.referenceUsed o.reference then (s, .refuse .duplicate)
    else if 8 ≤ s.load.orders.length then (s, .refuse .tableFull)
    else ({ s with load := { s.load with orders := s.load.orders ++ [o] } }, .accept) := by
  rw [State.orderPlace, h]
  rfl

/-! ### ORDER CANCEL (R135) -/

/-- A lane after an order has left the queue: its candidate leaves where it names the order, with a LOAD override slot (R135, R148). -/
def LaneRec.sansOrder (ref : BitVec 32) (r : LaneRec) : LaneRec :=
  if r.candidate.any fun c => c.order = ref then
    { r with candidate := none, slot := r.slot.filter fun x => x.target ≠ .load }
  else r

theorem setLane_lane (s : State) (l : Lane) : s.setLane l (s.lane l) = s := by
  rw [State.setLane, State.lane, lanes_set_get]

theorem dropCandidateOf_eq (s : State) (ref : BitVec 32) (l : Lane) :
    s.dropCandidateOf ref l = s.setLane l ((s.lane l).sansOrder ref) := by
  unfold State.dropCandidateOf LaneRec.sansOrder
  split
  · rfl
  · exact (setLane_lane s l).symm

theorem removeOrder_eq (s : State) (ref : BitVec 32) : s.removeOrder ref = { s with
    load := ⟨s.load.orders.filter fun o => o.reference ≠ ref, s.load.lanes.a.sansOrder ref, s.load.lanes.b.sansOrder ref⟩ } := by
  rw [State.removeOrder, dropCandidateOf_eq, dropCandidateOf_eq]
  rfl

theorem orderCancel_of_length_ne {s : State} {p : List Byte} (h : p.length ≠ 4) : s.orderCancel p = (s, .refuse .badFormat) :=
  if_pos h

theorem orderCancel_of_length {s : State} {p : List Byte} (h : p.length = 4) : s.orderCancel p =
    if (s.order (byteAt p 0 ++ byteAt p 1 ++ byteAt p 2 ++ byteAt p 3)).isNone then (s, .refuse .notFound)
    else (s.removeOrder (byteAt p 0 ++ byteAt p 1 ++ byteAt p 2 ++ byteAt p 3), .accept) := by
  have hp : beNat p = beNat [byteAt p 0, byteAt p 1, byteAt p 2, byteAt p 3] := by
    rw [← fieldAt_four p 0 (by omega), fieldAt, List.drop_zero, List.take_of_length_le (by omega)]
  rw [State.orderCancel, hp, ofNat_beNat_four]
  exact if_neg (not_not_intro h)

theorem order_isNone_iff (s : State) (ref : BitVec 32) : (s.order ref).isNone = true ↔ ∀ o ∈ s.load.orders, o.reference ≠ ref := by
  simp [State.order]

/-- Settles O18: the checks of R134 in turn, and the cancel by whether the order is queued. -/
theorem ordersPlacedAndCancelled : Obligations.OrdersPlacedAndCancelled := by
  refine ⟨fun p s hs hr => ⟨fun hform => ?badForm, fun lane hlen hlane => ?_⟩, fun p s hs hr => ?_⟩
  case badForm => exact request_next hr (orderPlace_of_bad_form (parseOrder_of_bad_form hform)) hs
  · intro ref comp code preset valid known used
    have hplace := orderPlace_of_parsed (s := s) (parseOrder_of_form hlen hlane)
    have hvalid : (orderOf p lane).valid = true ↔ valid := orderOf_valid_iff p lane
    have hknown : (orderOf p lane).lines.all (fun x => (s.product x.product).isSome) = true ↔ known := orderOf_known_iff s p lane
    have hused : s.referenceUsed (orderOf p lane).reference = true ↔ used := referenceUsed_iff s ref
    refine ⟨fun h1 => ?badValue, fun h1 h2 => ?notFound, fun h1 h2 h3 => ?duplicate, fun h1 h2 h3 h4 => ?tableFull,
      fun h1 h2 h3 h4 => ?placed⟩
    case badValue => exact request_next hr (hplace.trans (if_pos (mt hvalid.mp h1))) hs
    case notFound =>
      exact request_next hr (hplace.trans ((if_neg (not_not_intro (hvalid.mpr h1))).trans (if_pos (mt hknown.mp h2)))) hs
    all_goals
      rw [if_neg (not_not_intro (hvalid.mpr h1)), if_neg (not_not_intro (hknown.mpr h2))] at hplace
    case duplicate => exact request_next hr (hplace.trans (if_pos (hused.mpr h3))) hs
    case tableFull => exact request_next hr (hplace.trans ((if_neg (mt hused.mp h3)).trans (if_pos h4))) hs
    case placed =>
      exact request_next (u := { s with load := { s.load with orders := s.load.orders ++ [orderOf p lane] } }) hr
        (hplace.trans ((if_neg (mt hused.mp h3)).trans (if_neg (Nat.not_le.mpr h4)))) hs
  · intro ref after
    refine ⟨fun hlen => request_next hr (orderCancel_of_length_ne hlen) hs, fun hlen hnone => ?notFound, fun hlen hqueued => ?cancelled⟩
    case notFound =>
      exact request_next hr ((orderCancel_of_length hlen).trans (if_pos ((order_isNone_iff s ref).mpr hnone))) hs
    case cancelled =>
      have hsome : ¬ (s.order ref).isNone = true := by
        rw [order_isNone_iff]
        exact fun hnone =>
          have ⟨o, ho, href⟩ := hqueued
          hnone o ho href
      exact request_next (u := { s with load := _ }) hr
        ((orderCancel_of_length hlen).trans ((if_neg hsome).trans (congrArg (·, TermReply.accept) (removeOrder_eq s ref)))) hs

end Sys2Proof.Machine
end

section
/-! PROOF. Tables (chapters 2 and 3): indices and kinds as bytes, scan list and pass filter (R25, R35), TABLE READ of every table (R39,
log 27), and the consistency check by its five conditions (R52). -/

namespace Sys2Proof.Machine

/-! ### Indices and kinds as bytes -/

theorem devIxOf_ofNat (i : DevIx) : devIxOf (BitVec.ofNat 8 i.val) = some i := by
  have hi : (BitVec.ofNat 8 i.val).toNat = i.val := by simp only [BitVec.toNat_ofNat]; omega
  simp [devIxOf, hi]

theorem devIxOf_of_lt {b : Byte} (h : 31 < b.toNat) : devIxOf b = none :=
  dif_neg (by omega)

theorem armOf_ofNat (n : Arm) : armOf (BitVec.ofNat 8 n.val) = some n := by
  have hn : (BitVec.ofNat 8 n.val).toNat = n.val := by simp only [BitVec.toNat_ofNat]; omega
  simp [armOf, hn]

theorem armOf_of_lt {b : Byte} (h : 5 < b.toNat) : armOf b = none :=
  dif_neg (by omega)

/-- The five kinds' codes are their places in the pass filter (R18, R35). -/
theorem deviceKindOf_of_lt {b : Byte} (h : b.toNat < 5) : ∃ k : DeviceKind, deviceKindOf b = some k ∧ k.index.val = b.toNat := by
  have hb : b = 0#8 ∨ b = 1#8 ∨ b = 2#8 ∨ b = 3#8 ∨ b = 4#8 := by bv_omega
  obtain rfl | rfl | rfl | rfl | rfl := hb
  · exact ⟨.meter, rfl, rfl⟩
  · exact ⟨.valve, rfl, rfl⟩
  · exact ⟨.injector, rfl, rfl⟩
  · exact ⟨.station, rfl, rfl⟩
  · exact ⟨.permissive, rfl, rfl⟩

theorem deviceKindOf_of_le {b : Byte} (h : 5 ≤ b.toNat) : deviceKindOf b = none := by
  have hne : ∀ c : Byte, c.toNat < 5 → b ≠ c := fun c hc e => by rw [e] at h; omega
  simp [deviceKindOf, hne]

/-! ### Scan list and pass filter (R25, R35) -/

theorem filterMap_eq_self {α : Type} {f : α → Option α} {l : List α} (h : ∀ a ∈ l, f a = some a) : l.filterMap f = l := by
  induction l with
  | nil => rfl
  | cons a l ih =>
    obtain ⟨ha, hl⟩ := List.forall_mem_cons.mp h
    rw [List.filterMap_cons_some ha, ih hl]

theorem filterMap_devIxOf (l : List DevIx) : (l.map fun i => BitVec.ofNat 8 i.val).filterMap devIxOf = l := by
  rw [List.filterMap_map]
  exact filterMap_eq_self fun i _ => devIxOf_ofNat i

section ScanList

variable {s : State} {n : Byte} {l : List Byte}

theorem scanListWrite_of_length_ne (h : l.length ≠ n.toNat) : s.scanListWrite (n :: l) = (s, .refuse .badFormat) :=
  if_pos (.inr fun hlen => h (by simpa [byteAt, Nat.add_comm 1] using hlen))

variable (h : l.length = n.toNat)

include h

theorem scanListWrite_of_length : s.scanListWrite (n :: l) =
    if 64 < n.toNat ∨ (l.filterMap devIxOf).length ≠ n.toNat then (s, .refuse .badValue)
    else (State.wakeBus { s with scan := { s.scan with list := l.filterMap devIxOf, pointer := 0, wrap := true } }, .accept) :=
  if_neg fun hbad => hbad.elim nofun fun hlen => hlen (by rw [List.length_cons, h, Nat.add_comm]; rfl)

theorem scanListWrite_of_bad_value (hbad : 64 < n.toNat ∨ ∃ b ∈ l, 31 < b.toNat) :
    s.scanListWrite (n :: l) = (s, .refuse .badValue) := by
  rw [scanListWrite_of_length h]
  refine if_pos (hbad.imp_right fun ⟨b, hb, hlarge⟩ => ?_)
  have hlt : (l.filterMap devIxOf).length < l.length :=
    List.length_filterMap_lt_length_iff_exists.mpr ⟨b, hb, by simp [devIxOf_of_lt hlarge]⟩
  omega

end ScanList

theorem scanListWrite_of_list (s : State) {l : List DevIx} (h : l.length ≤ 64) :
    s.scanListWrite (BitVec.ofNat 8 l.length :: l.map fun i => BitVec.ofNat 8 i.val) =
      ({ s with scan := { s.scan with list := l, pointer := 0, wrap := true, wake := true } }, .accept) := by
  have hn : (BitVec.ofNat 8 l.length).toNat = l.length := by simp only [BitVec.toNat_ofNat]; omega
  rw [scanListWrite_of_length (by rw [hn, List.length_map]), filterMap_devIxOf, hn, if_neg (by omega)]
  rfl

theorem passFilterWrite_of_length_ne {s : State} {q : List Byte} (h : q.length ≠ 5) : s.passFilterWrite q = (s, .refuse .badFormat) :=
  if_pos h

theorem passFilterWrite_of_kind (s : State) {k : Byte} (h : k.toNat < 5) (e0 e1 e2 e3 : Byte) :
    s.passFilterWrite [k, e0, e1, e2, e3] =
      ({ s with scan := { s.scan with filter := s.scan.filter.set k.toNat (e0 ++ e1 ++ e2 ++ e3) } }, .accept) := by
  obtain ⟨d, hd, hix⟩ := deviceKindOf_of_lt h
  have hset : ∀ x, s.scan.filter.set d.index x = s.scan.filter.set k.toNat x := fun x => by simp only [hix]
  rw [← ofNat_beNat_four, ← hset]
  simp only [State.passFilterWrite, byteAt, List.getD_cons_zero, hd]
  rfl

theorem passFilterWrite_of_no_kind (s : State) {k : Byte} (h : 5 ≤ k.toNat) (e0 e1 e2 e3 : Byte) :
    s.passFilterWrite [k, e0, e1, e2, e3] = (s, .refuse .badValue) := by
  simp only [State.passFilterWrite, byteAt, List.getD_cons_zero, deviceKindOf_of_le h]
  rfl

/-- Settles O26: list and filter stored whole, and the refusals by form and value. -/
theorem scanListAndFilterWrite : Obligations.ScanListAndFilterWrite := by
  intro s hs
  refine ⟨fun l hl hr => ?list, fun n l hr => ⟨fun hlen => ?listForm, fun hlen hbad => ?listValue⟩, fun hr => ?listEmpty,
    fun k e0 e1 e2 e3 hr => ⟨fun hk => ?filter, fun hk => ?filterValue⟩, fun q hr hq => ?filterForm⟩
  case list =>
    exact request_settles (owner := fun s => s.scanListWrite _)
      (by rw [List.length_cons, List.length_map]; exact (show 1 + (l.length + 1) = 2 + l.length by omega) ▸ hr)
      (scanListWrite_of_list s hl)
  case listForm =>
    exact request_next (n := 1 + (n :: l).length) ((show 2 + l.length = 1 + (n :: l).length by simp; omega) ▸ hr)
      (scanListWrite_of_length_ne hlen) hs
  case listValue =>
    exact request_next (n := 1 + (n :: l).length) ((show 2 + l.length = 1 + (n :: l).length by simp; omega) ▸ hr)
      (scanListWrite_of_bad_value hlen hbad) hs
  case listEmpty => exact request_next (owner := fun s => s.scanListWrite []) hr rfl hs
  case filter => exact request_next (u := { s with scan := _ }) hr (passFilterWrite_of_kind s hk e0 e1 e2 e3) hs
  case filterValue => exact request_next hr (passFilterWrite_of_no_kind s hk e0 e1 e2 e3) hs
  case filterForm => exact request_next hr (passFilterWrite_of_length_ne hq) hs

/-! ### TABLE READ (R39) -/

section Reads

variable (s : State)

theorem deviceRead_of_no_index {ix : Byte} (h : 31 < ix.toNat) : s.deviceRead [ix] = (s, .refuse .badValue) := by
  simp only [State.deviceRead, byteAt, List.getD_cons_zero, devIxOf_of_lt h]
  rfl

theorem deviceRead_of_empty {i : DevIx} (h : s.device i = none) : s.deviceRead [BitVec.ofNat 8 i.val] = (s, .refuse .notFound) := by
  simp only [State.deviceRead, byteAt, List.getD_cons_zero, devIxOf_ofNat, h]
  rfl

theorem deviceRead_of_present {i : DevIx} {d : Device} (h : s.device i = some d) :
    s.deviceRead [BitVec.ofNat 8 i.val] = (s, .data d.bytes) := by
  simp only [State.deviceRead, byteAt, List.getD_cons_zero, devIxOf_ofNat, h]
  rfl

theorem injectorRead_of_no_index {ix : Byte} (h : 31 < ix.toNat) : s.injectorRead [ix] = (s, .refuse .badValue) := by
  simp only [State.injectorRead, byteAt, List.getD_cons_zero, devIxOf_of_lt h]
  rfl

theorem injectorRead_of_empty {i : DevIx} (h : s.slot i = none) :
    s.injectorRead [BitVec.ofNat 8 i.val] = (s, .refuse .notFound) := by
  simp only [State.injectorRead, byteAt, List.getD_cons_zero, devIxOf_ofNat, h]
  rfl

theorem injectorRead_of_present {i : DevIx} {x : InjectorSlot} (h : s.slot i = some x) :
    s.injectorRead [BitVec.ofNat 8 i.val] = (s, .data x.entry.bytes) := by
  simp only [State.injectorRead, byteAt, List.getD_cons_zero, devIxOf_ofNat, h]
  rfl

theorem passFilterRead_of_kind {k : Byte} (h : k.toNat < 5) :
    s.passFilterRead [k] = (s, .data (beBytes 4 (s.scan.filter[k.toNat]).toNat)) := by
  obtain ⟨d, hd, hix⟩ := deviceKindOf_of_lt h
  simp only [State.passFilterRead, byteAt, List.getD_cons_zero, hd, Fin.getElem_fin, hix]
  rfl

theorem passFilterRead_of_no_kind {k : Byte} (h : 5 ≤ k.toNat) : s.passFilterRead [k] = (s, .refuse .badValue) := by
  simp only [State.passFilterRead, byteAt, List.getD_cons_zero, deviceKindOf_of_le h]
  rfl

theorem settingsRead_of_zero : s.settingsRead [0#8] = (s, .data s.batch.settings.bytes) := rfl

theorem settingsRead_of_ne {ix : Byte} (h : ix ≠ 0#8) : s.settingsRead [ix] = (s, .refuse .badValue) :=
  (if_neg (not_not_intro rfl)).trans (if_pos h)

theorem productRead_of_zero :
    s.productRead [0#8] = (s, .data (BitVec.ofNat 8 s.batch.products.length :: s.batch.products.map fun x => x.code)) := rfl

theorem productRead_of_ne {ix : Byte} (h : ix ≠ 0#8) : s.productRead [ix] = match s.product ix with
    | none => (s, .refuse .notFound)
    | some x => (s, .data x.bytes) :=
  (if_neg (not_not_intro rfl)).trans (if_neg h)

theorem armRead_of_no_arm {ix : Byte} (h : 5 < ix.toNat) : s.armRead [ix] = (s, .refuse .badValue) := by
  simp only [State.armRead, byteAt, List.getD_cons_zero, armOf_of_lt h]
  rfl

theorem armRead_of_empty {n : Arm} (h : s.armEntry n = none) : s.armRead [BitVec.ofNat 8 n.val] = (s, .refuse .notFound) := by
  simp only [State.armRead, byteAt, List.getD_cons_zero, armOf_ofNat, h]
  rfl

theorem armRead_of_present {n : Arm} {e : ArmEntry} {lead : Nat} (h : s.armEntry n = some e) (hl : (s.arm n).stopLead = some lead) :
    s.armRead [BitVec.ofNat 8 n.val] = (s, .data (e.bytes ++ beBytes 2 lead)) := by
  simp only [State.armRead, byteAt, List.getD_cons_zero, armOf_ofNat, h, hl]
  rfl

end Reads

/-- A table read of another length than one index byte (log 27). -/
theorem exec_tableRead_of_length_ne {s : State} (hs : s.Settled) {q : List Byte} (hr : s.Reaches (1 + q.length)) (h : q.length ≠ 1)
    {c : Instr} (hc : c ∈ [Instr.tableReadDevice q, .tableReadScanList q, .tableReadPassFilter q, .tableReadBaySettings q,
      .tableReadProduct q, .tableReadArm q, .tableReadInjector q, .consistencyReport q]) :
    exec c s = .next (s.shows (.refuse .badFormat)) := by
  simp only [List.mem_cons, List.not_mem_nil, or_false] at hc
  obtain rfl | rfl | rfl | rfl | rfl | rfl | rfl | rfl := hc
  all_goals exact request_next hr (if_pos h) hs

theorem allArms_eq_finRange : allArms = List.finRange 6 := by decide

/-- Settles O31: each table's read by its index. -/
theorem tableReadAnswers : Obligations.TableReadAnswers := by
  intro ix s hs hr
  refine ⟨fun h => ⟨request_next hr (deviceRead_of_no_index s h) hs, request_next hr (injectorRead_of_no_index s h) hs⟩,
    fun i hi => ⟨fun h => ?deviceEmpty, fun d h => ?device, fun h => ?injectorEmpty, fun x h => ?injector⟩,
    request_next hr rfl hs, fun h => request_next hr (passFilterRead_of_kind s h) hs,
    fun h => request_next hr (passFilterRead_of_no_kind s h) hs, fun h => ?settings,
    fun h => request_next hr (settingsRead_of_ne s h) hs, fun h => ?products, fun h hnone => ?productEmpty, fun x h hsome => ?product,
    fun h => request_next hr (armRead_of_no_arm s h) hs, fun n hn => ⟨fun h => ?armEmpty, fun e lead h hl => ?arm⟩,
    fun q hq hr c hc => exec_tableRead_of_length_ne hs hr hq hc⟩
  case deviceEmpty => exact hi ▸ request_next hr (deviceRead_of_empty s h) hs
  case device =>
    subst hi
    refine request_data hr (deviceRead_of_present s h) ?_ hs
    rcases hst : d.state with _ | _ | _ | (_ | _) <;> simp only [Device.bytes, hst] <;> rfl
  case injectorEmpty => exact hi ▸ request_next hr (injectorRead_of_empty s h) hs
  case injector =>
    subst hi
    refine request_data hr (injectorRead_of_present s h) ?_ hs
    have houtlets : x.entry.outlets.toList.map outletByte = allArms.map fun n => outletByte x.entry.outlets[n] := by
      have hlist : x.entry.outlets.toList = allArms.map fun n => x.entry.outlets[n] := by
        refine List.ext_getElem (by simp [allArms]) fun j hj _ => ?_
        simp [allArms_eq_finRange]
      rw [hlist, List.map_map]
      rfl
    rw [InjectorEntry.bytes, houtlets]
    cases x.entry.mode <;> rfl
  case settings => exact h ▸ request_next hr (settingsRead_of_zero s) hs
  case products => exact h ▸ request_next hr (productRead_of_zero s) hs
  case productEmpty =>
    refine request_next hr ((productRead_of_ne s h).trans ?_) hs
    rw [hnone]
  case product =>
    refine request_next hr ((productRead_of_ne s h).trans ?_) hs
    rw [hsome]
    rfl
  case armEmpty => exact hn ▸ request_next hr (armRead_of_empty s h) hs
  case arm =>
    subst hn
    refine request_data hr (armRead_of_present s h hl) ?_ hs
    unfold ArmEntry.bytes
    cases e.reach <;> rfl

/-! ### The consistency check (R52) -/

theorem mem_allDevIx (i : DevIx) : i ∈ allDevIx := List.mem_finRange i

/-- The first index at which a test holds. -/
theorem find?_finRange_of_first {k : Nat} {p : Fin k → Bool} {i : Fin k} (h : p i = true) (hfirst : ∀ j < i, p j = false) :
    (List.finRange k).find? p = some i := by
  rw [List.find?_eq_some_iff_getElem]
  refine ⟨h, i.val, by simp, by simp, fun j hj => ?_⟩
  have hlt : j < k := by omega
  simpa using hfirst ⟨j, hlt⟩ hj

/-- A test holds at exactly one index. -/
theorem length_filter_finRange_eq_one_iff {k : Nat} (p : Fin k → Bool) :
    ((List.finRange k).filter p).length = 1 ↔ ∃ i, ∀ j, p j = true ↔ j = i := by
  rw [List.length_eq_one_iff]
  refine exists_congr fun i => ⟨fun h j => ?_, fun h => ?_⟩
  · have hmem : j ∈ (List.finRange k).filter p ↔ j ∈ [i] := by rw [h]
    simpa using hmem
  · have hperm : ((List.finRange k).filter p).Perm [i] :=
      (List.perm_ext_iff_of_nodup ((List.nodup_finRange k).filter p) (List.pairwise_singleton ..)).mpr fun j => by simpa using h j
    exact List.perm_singleton.mp hperm

theorem deviceOfKind_any_iff (s : State) (i : DevIx) (k : DeviceKind) (p : Device → Bool) :
    (s.deviceOfKind i k).any p = true ↔ ∃ d, s.device i = some d ∧ d.kind = k ∧ p d = true := by
  unfold State.deviceOfKind
  cases s.device i with
  | none => simp
  | some d => by_cases hk : d.kind = k <;> simp [hk]

theorem deviceOfKind_isSome_iff (s : State) (i : DevIx) (k : DeviceKind) :
    (s.deviceOfKind i k).isSome = true ↔ ∃ d, s.device i = some d ∧ d.kind = k := by
  unfold State.deviceOfKind
  cases s.device i <;> simp [Option.filter_some]

/-- Condition 1. -/
theorem no_arm_iff (s : State) : (allArms.all fun n => (s.armEntry n).isNone) = true ↔ ¬ ∃ n : Arm, (s.armEntry n).isSome := by
  simp [List.all_eq_true, mem_allArms]

/-- Condition 2 at one arm. -/
theorem arm_consistent_iff (s : State) (n : Arm) : ((s.armEntry n).any fun e => !s.armConsistent n e) = false ↔
    ∀ e, s.armEntry n = some e → (∃ d, s.device e.meter = some d ∧ d.kind = .meter ∧ d.assoc = .arm n) ∧
      ∃ d, s.device e.valve = some d ∧ d.kind = .valve ∧ d.assoc = .arm n := by
  cases s.armEntry n with
  | none => simp
  | some e =>
    have hmeter := deviceOfKind_any_iff s e.meter .meter fun d => d.assoc = .arm n
    have hvalve := deviceOfKind_any_iff s e.valve .valve fun d => d.assoc = .arm n
    simp only [decide_eq_true_eq] at hmeter hvalve
    simp [State.armConsistent, hmeter, hvalve]

/-- Condition 3 at one lane. -/
theorem lane_consistent_iff (s : State) (l : Lane) : s.laneConsistent l = true ↔
    ∃ i : DevIx, ∀ j : DevIx, (∃ d, s.device j = some d ∧ d.kind = .station ∧ d.assoc = .lane l) ↔ j = i := by
  rw [State.laneConsistent, decide_eq_true_eq, State.devicesOfKind, allDevIx, List.filter_filter, length_filter_finRange_eq_one_iff]
  refine exists_congr fun i => forall_congr' fun j => iff_congr ?_ Iff.rfl
  rw [Bool.and_eq_true, deviceOfKind_isSome_iff]
  cases s.device j <;> simp [and_comm]

/-- Condition 4. -/
theorem one_permissive_iff (s : State) : (s.devicesOfKind .permissive).length = 1 ↔
    ∃ i : DevIx, ∀ j : DevIx, (∃ d, s.device j = some d ∧ d.kind = .permissive) ↔ j = i := by
  rw [State.devicesOfKind, allDevIx, length_filter_finRange_eq_one_iff]
  exact exists_congr fun i => forall_congr' fun j => iff_congr (deviceOfKind_isSome_iff s j .permissive) Iff.rfl

/-- Condition 5 at one product. -/
theorem product_consistent_iff (s : State) (p : Product) : p.recipe.all (s.slotConsistent p.code) = true ↔
    ∀ r ∈ p.recipe, (∃ d, s.device r.injector = some d ∧ d.kind = .injector) ∧
      ∃ x, s.slot r.injector = some x ∧ ∀ (n : Arm) (e : ArmEntry), s.armEntry n = some e →
        e.allowed.getLsbD p.code.toNat = true → (x.entry.outlets[n]).isSome := by
  rw [List.all_eq_true]
  refine forall₂_congr fun r _ => ?_
  rw [State.slotConsistent, Bool.and_eq_true, deviceOfKind_isSome_iff, Option.any_eq_true]
  refine and_congr_right fun _ => exists_congr fun x => and_congr_right fun _ => ?_
  simp only [List.all_eq_true, mem_allArms, forall_const, Option.all_eq_true, Bool.or_eq_true, Bool.not_eq_true', ← Bool.not_eq_true,
    ← Decidable.imp_iff_not_or]

section Conditions

variable {s : State}

theorem inconsistency_one (h : ¬ ∃ n : Arm, (s.armEntry n).isSome) : s.inconsistency = some (0x01#8, 0xFF#8) :=
  if_pos ((no_arm_iff s).mpr h)

variable (h1 : ∃ n : Arm, (s.armEntry n).isSome)

include h1

theorem inconsistency_two {n : Arm} (h : ((s.armEntry n).any fun e => !s.armConsistent n e) = true)
    (hfirst : ∀ m < n, ((s.armEntry m).any fun e => !s.armConsistent m e) = false) :
    s.inconsistency = some (0x02#8, BitVec.ofNat 8 n.val) := by
  rw [State.inconsistency, if_neg (mt (no_arm_iff s).mp (not_not_intro h1)), allArms_eq_finRange, find?_finRange_of_first h hfirst]

variable (h2 : ∀ n : Arm, ((s.armEntry n).any fun e => !s.armConsistent n e) = false)

include h2

theorem inconsistency_of_arms : s.inconsistency = match [Lane.a, Lane.b].find? fun l => !s.laneConsistent l with
    | some l => some (0x03#8, laneCode l)
    | none =>
      if (s.devicesOfKind .permissive).length ≠ 1 then some (0x04#8, 0xFF#8)
      else (s.batch.products.find? fun p => !p.recipe.all (s.slotConsistent p.code)).map fun p => (0x05#8, p.code) := by
  have hnone : (allArms.find? fun n => (s.armEntry n).any fun e => !s.armConsistent n e) = none :=
    List.find?_eq_none.mpr fun n _ => by simp only [h2, Bool.false_eq_true, not_false_eq_true]
  rw [State.inconsistency, if_neg (mt (no_arm_iff s).mp (not_not_intro h1)), hnone] <;> rfl

variable (h3 : ∀ l, s.laneConsistent l = true)

include h3

theorem inconsistency_of_lanes : s.inconsistency =
    if (s.devicesOfKind .permissive).length ≠ 1 then some (0x04#8, 0xFF#8)
    else (s.batch.products.find? fun p => !p.recipe.all (s.slotConsistent p.code)).map fun p => (0x05#8, p.code) := by
  rw [inconsistency_of_arms h1 h2]
  simp [List.find?, h3]

end Conditions

/-- The first product of a list that fails a test. -/
theorem find?_of_first {α : Type} {p : α → Bool} {before : List α} {a : α} (after : List α) (h : p a = true)
    (hbefore : ∀ b ∈ before, p b = false) : (before ++ a :: after).find? p = some a := by
  rw [List.find?_append, List.find?_eq_none.mpr (by simpa using hbefore), List.find?_cons_of_pos h]
  rfl

/-- What fails is answered as it is found, 00H and FFH where nothing does. -/
theorem exec_consistencyReport {s : State} (hs : s.Settled) (hr : s.Reaches 2) :
    exec (.consistencyReport [0x00#8]) s = .next (s.shows (.data (match s.inconsistency with
      | none => [0x00#8, 0xFF#8]
      | some (c, w) => [c, w]))) := by
  refine request_next (owner := fun s => s.consistencyRead [0x00#8]) hr ?_ hs
  simp only [State.consistencyRead]
  cases s.inconsistency <;> rfl

/-- Settles O32: the five conditions in turn, each by the arm, lane, count or product at which it fails first. -/
theorem consistencyReported : Obligations.ConsistencyReported := by
  intro s hs hr c1 c2 c3 c4 c5
  have e2 : ∀ n, ((s.armEntry n).any fun e => !s.armConsistent n e) = false ↔ c2 n := arm_consistent_iff s
  have e3 : ∀ l, s.laneConsistent l = true ↔ c3 l := lane_consistent_iff s
  have e4 : (s.devicesOfKind .permissive).length = 1 ↔ c4 := one_permissive_iff s
  have e5 : ∀ p : Product, p.recipe.all (s.slotConsistent p.code) = true ↔ c5 p := product_consistent_iff s
  have e3' : ∀ l, (!s.laneConsistent l) = true ↔ ¬ c3 l := fun l => by rw [← e3, Bool.not_eq_true', Bool.not_eq_true]
  have e5' : ∀ p : Product, (!p.recipe.all (s.slotConsistent p.code)) = true ↔ ¬ c5 p :=
    fun p => by rw [← e5, Bool.not_eq_true', Bool.not_eq_true]
  have f2 : ∀ n : Arm, c1 → ¬ c2 n → (∀ m : Arm, m < n → c2 m) → s.inconsistency = some (0x02#8, BitVec.ofNat 8 n.val) :=
    fun n h1 h hfirst => inconsistency_two h1 (Bool.not_eq_false _ ▸ mt (e2 n).mp h) fun m hm => (e2 m).mpr (hfirst m hm)
  have f3 : c1 → (∀ n, c2 n) → ∀ l, ([Lane.a, Lane.b].find? fun l => !s.laneConsistent l) = some l →
      s.inconsistency = some (0x03#8, laneCode l) := fun h1 h2 l hl => by
    rw [inconsistency_of_arms h1 fun n => (e2 n).mpr (h2 n), hl]
  have f4 := fun (h1 : c1) (h2 : ∀ n, c2 n) (h3 : ∀ l, c3 l) =>
    inconsistency_of_lanes h1 (fun n => (e2 n).mpr (h2 n)) fun l => (e3 l).mpr (h3 l)
  have f3a : ¬ c3 .a → ([Lane.a, Lane.b].find? fun l => !s.laneConsistent l) = some .a :=
    fun h => List.find?_cons_of_pos ((e3' .a).mpr h)
  have f3b : c3 .a → ¬ c3 .b → ([Lane.a, Lane.b].find? fun l => !s.laneConsistent l) = some .b := fun ha hb => by
    rw [List.find?_cons_of_neg (by rw [(e3 .a).mpr ha]; decide)]
    exact List.find?_cons_of_pos ((e3' .b).mpr hb)
  have f5 : c1 → (∀ n, c2 n) → (∀ l, c3 l) → c4 → s.inconsistency =
      (s.batch.products.find? fun p => !p.recipe.all (s.slotConsistent p.code)).map fun p => (0x05#8, p.code) :=
    fun h1 h2 h3 h4 => (f4 h1 h2 h3).trans (if_neg (not_not_intro (e4.mpr h4)))
  have report := exec_consistencyReport hs hr
  refine ⟨⟨fun hnone => ?sound, fun ⟨h1, h2, h3, h4, h5⟩ => ?complete⟩, fun h => ?none, fun h => ?one, fun n h1 h hfirst => ?two,
    fun h1 h2 h => ?laneA, fun h1 h2 ha h => ?laneB, fun h1 h2 h3 h => ?four, fun before p after h1 h2 h3 h4 hp hbefore h => ?five,
    fun ix hix => ?badIndex⟩
  case sound =>
    have h1 : c1 := Classical.byContradiction fun h => nomatch hnone.symm.trans (inconsistency_one h)
    have h2 : ∀ n, c2 n := by
      intro n
      refine (measure fun m : Arm => m.val).wf.induction n fun n ih => ?_
      exact Classical.byContradiction fun h => nomatch hnone.symm.trans (f2 n h1 h ih)
    have ha : c3 .a := Classical.byContradiction fun h => nomatch hnone.symm.trans (f3 h1 h2 .a (f3a h))
    have hb : c3 .b := Classical.byContradiction fun h => nomatch hnone.symm.trans (f3 h1 h2 .b (f3b ha h))
    have h3 : ∀ l, c3 l := fun l => by
      cases l
      · exact ha
      · exact hb
    have h4 : c4 := Classical.byContradiction fun h => nomatch hnone.symm.trans ((f4 h1 h2 h3).trans (if_pos (mt e4.mp h)))
    have h5 := (f5 h1 h2 h3 h4).symm.trans hnone
    rw [Option.map_eq_none_iff, List.find?_eq_none] at h5
    exact ⟨h1, h2, h3, h4, fun p hp => Classical.byContradiction fun h => h5 p hp ((e5' p).mpr h)⟩
  case complete =>
    rw [f5 h1 h2 h3 h4, List.find?_eq_none.mpr fun p hp => mt (e5' p).mp (not_not_intro (h5 p hp))]
    rfl
  case none => rw [report, h]
  case one => rw [report, inconsistency_one h]
  case two => rw [report, f2 n h1 h hfirst]
  case laneA => rw [report, f3 h1 h2 .a (f3a h)]; rfl
  case laneB => rw [report, f3 h1 h2 .b (f3b ha h)]; rfl
  case four => rw [report, f4 h1 h2 h3, if_pos (mt e4.mp h)]
  case five =>
    rw [report, f5 h1 h2 h3 h4, hp, find?_of_first after ((e5' p).mpr h) fun b hb => by rw [(e5 b).mpr (hbefore b hb)]; rfl]
    rfl
  case badIndex => exact request_next hr ((if_neg (not_not_intro rfl)).trans (if_pos hix)) hs

end Sys2Proof.Machine
end

section
/-! PROOF. The shared judgement of the tables 04H to 07H (R40, R50) with the calibration request it makes (R163), the bay settings (R41)
and the product table (R42, R43, R49, R51). -/

namespace Sys2Proof.Machine

/-! ### The shared judgement (R40, R50) -/

theorem serving_iff (s : State) : s.serving = true ↔ s.port.mode ≠ .outOfService := by
  unfold State.serving
  cases s.port.mode <;> simp

/-- The bay serves and the tables would be inconsistent (R40 step 5). -/
def State.WrongMode (s after : State) : Prop := s.port.mode ≠ .outOfService ∧ after.inconsistency.isSome

theorem wrongMode_iff (s after : State) : (s.serving && after.inconsistency.isSome) = true ↔ s.WrongMode after := by
  rw [Bool.and_eq_true, serving_iff, State.WrongMode]

section Commit

variable {s after : State} {used metro : Bool} {subject : Subject} {table : Byte}

theorem commit_of_used (hu : used = true) : s.commit after used metro subject table = (s, .refuse .inUse) :=
  if_pos hu

variable (hu : used = false)

include hu

theorem commit_of_wrongMode (hw : s.WrongMode after) : s.commit after used metro subject table = (s, .refuse .wrongMode) := by
  rw [State.commit, hu]
  exact if_pos ((wrongMode_iff s after).mpr hw)

variable (hw : ¬ s.WrongMode after)

include hw

theorem commit_of_right_mode : s.commit after used metro subject table =
    if metro then (if s.pads.calEnable then (after.calibrate subject table, .accept) else (s, .refuse .calLocked))
    else (after, .accept) := by
  rw [State.commit, hu]
  exact if_neg (mt (wrongMode_iff s after).mp hw)

theorem commit_of_plain (hm : metro = false) : s.commit after used metro subject table = (after, .accept) :=
  (commit_of_right_mode hu hw).trans (if_neg (by rw [hm]; exact Bool.false_ne_true))

variable (hm : metro = true)

include hm

theorem commit_of_locked (hc : s.pads.calEnable = false) : s.commit after used metro subject table = (s, .refuse .calLocked) :=
  (commit_of_right_mode hu hw).trans ((if_pos hm).trans (if_neg (by rw [hc]; exact Bool.false_ne_true)))

theorem commit_of_metro (hc : s.pads.calEnable = true) :
    s.commit after used metro subject table = (after.calibrate subject table, .accept) :=
  (commit_of_right_mode hu hw).trans ((if_pos hm).trans (if_pos hc))

end Commit

/-! ### The calibration request (R163) -/

/-- A waiting calibration request takes the change with it; else a request arrives, and starts at once when the store is free. -/
theorem noteBuilder_calibrate_eq (b : NoteBuilder) : b.calibrate = { b with
    calDue := min 999999 (b.calDue + 1)
    queue := if b.queue.any WriteReq.isCalibration then b.queue.map bumpCalibration
      else if b.writing.isNone then b.queue
      else b.queue ++ [.calibration 1]
    writing := if b.queue.any WriteReq.isCalibration = false ∧ b.writing = none then some ⟨.calibration 1, b.calCounter⟩
      else b.writing } := by
  unfold NoteBuilder.calibrate NoteBuilder.request
  cases hq : b.queue.any WriteReq.isCalibration <;> cases hw : b.writing <;> simp [NoteBuilder.start]

/-! ### Bay settings (R41) -/

theorem settingsWrite_of_length_ne {s : State} {q : List Byte} (h : q.length ≠ 7) : s.settingsWrite q = (s, .refuse .badFormat) :=
  if_pos h

theorem parseSettings_bytes (e0 e1 e2 e3 e4 e5 : Byte) : parseSettings [e0, e1, e2, e3, e4, e5] =
    ⟨e0.toNat * 256 + e1.toNat, e2.toNat * 256 + e3.toNat, e4.toNat, e5.toNat⟩ := by
  rw [← beNat_two, ← beNat_two]
  rfl

theorem settings_valid_iff (x : Settings) : x.valid = true ↔ (x.tref = 1500 ∨ x.tref = 2000) ∧ 30 ≤ x.overrideWindow ∧
    x.overrideWindow ≤ 300 ∧ 2 ≤ x.startWait ∧ x.startWait ≤ 30 ∧ 5 ≤ x.noFlowTimeout ∧ x.noFlowTimeout ≤ 120 := by
  simp [Settings.valid, and_assoc]

section SettingsWrite

variable {s : State} {ix e0 e1 e2 e3 e4 e5 : Byte} {x : Settings}
  (hx : parseSettings [e0, e1, e2, e3, e4, e5] = x)

include hx

theorem settingsWrite_of_bad_value (h : ¬ (ix = 0#8 ∧ x.valid = true)) :
    s.settingsWrite [ix, e0, e1, e2, e3, e4, e5] = (s, .refuse .badValue) := by
  subst hx
  unfold State.settingsWrite
  dsimp only
  exact (if_neg (not_not_intro rfl)).trans (if_pos h)

theorem settingsWrite_of_good (h : ix = 0#8 ∧ x.valid = true) : s.settingsWrite [ix, e0, e1, e2, e3, e4, e5] =
    s.commit { s with batch := { s.batch with settings := x } } false (x.tref ≠ s.batch.settings.tref) .none 0x04#8 := by
  subst hx
  unfold State.settingsWrite
  dsimp only
  exact (if_neg (not_not_intro rfl)).trans (if_neg (not_not_intro h))

end SettingsWrite

/-- Settles O27: form and ranges, then the steps of the shared judgement. -/
theorem baySettingsWrite : Obligations.BaySettingsWrite := by
  intro cal s0 hs s
  refine ⟨fun q hr hq => request_next (s := s) hr (settingsWrite_of_length_ne hq) hs, fun ix e0 e1 e2 e3 e4 e5 hr => ?_⟩
  intro q x good wrongMode u counted
  have hx := parseSettings_bytes e0 e1 e2 e3 e4 e5
  have hgood : good ↔ ix = 0#8 ∧ x.valid = true := by rw [settings_valid_iff]
  refine ⟨fun hbad => ?badValue, fun hg hw => ?wrongMode, fun hg hw hsame => ?stored, fun hg hw hnew hcal => ?locked,
    fun hg hw hnew hcal => ?counted⟩
  case badValue => exact request_next (s := s) hr (settingsWrite_of_bad_value hx (mt hgood.mpr hbad)) hs
  all_goals have hwrite := settingsWrite_of_good (s := s) hx (hgood.mp hg)
  case wrongMode => exact request_next (s := s) hr (hwrite.trans (commit_of_wrongMode rfl hw)) hs
  case stored =>
    exact request_next (s := s) (u := u) hr (hwrite.trans (commit_of_plain rfl hw (decide_eq_false (not_not_intro hsame)))) hs
  case locked => exact request_next (s := s) hr (hwrite.trans (commit_of_locked rfl hw (decide_eq_true hnew) hcal)) hs
  case counted =>
    have hcount : u.calibrate .none 0x04#8 = counted.raiseNotice .calibration .none 0x04#8 := by
      rw [State.calibrate, noteBuilder_calibrate_eq]
      rfl
    rw [← hcount]
    exact request_next (s := s) hr (hwrite.trans (commit_of_metro rfl hw (decide_eq_true hnew) hcal)) hs

/-! ### Fields as they are written -/

theorem beNat_cons (b : Byte) (bs : List Byte) : beNat (b :: bs) = b.toNat * 256 ^ bs.length + beNat bs := by
  have hfold : ∀ (l : List Byte) (n : Nat), l.foldl (fun n b => n * 256 + b.toNat) n = n * 256 ^ l.length + beNat l := by
    intro l
    induction l with
    | nil => simp [beNat]
    | cons c l ih =>
      intro n
      rw [beNat, List.foldl_cons, List.foldl_cons, ih, ih, List.length_cons, Nat.pow_succ, Nat.add_mul, Nat.add_mul,
        Nat.mul_assoc, Nat.mul_comm 256]
      omega
  simpa [beNat] using hfold bs b.toNat

/-- The low bytes of a number carry its remainder. -/
theorem beNat_beBytes (k n : Nat) : beNat (beBytes k n) = n % 256 ^ k := by
  induction k with
  | zero => simp [beBytes, beNat, Nat.mod_one]
  | succ k ih =>
    rw [beBytes, beNat_cons, beBytes_length, ih, BitVec.toNat_ofNat, show 2 ^ 8 = 256 from rfl, Nat.pow_succ, Nat.mod_mul,
      Nat.add_comm, Nat.mul_comm]

/-- A number that fits is read back from the field it was written in. -/
theorem fieldAt_append (front back : List Byte) {k n : Nat} (h : n < 256 ^ k) :
    fieldAt (front ++ beBytes k n ++ back) front.length k = n := by
  have hlen : (beBytes k n).length = k := beBytes_length ..
  rw [fieldAt, List.append_assoc, List.drop_left, List.take_append_of_le_length (Nat.le_of_eq hlen.symm),
    List.take_of_length_le (Nat.le_of_eq hlen), beNat_beBytes, Nat.mod_eq_of_lt h]

/-! ### Products (R42, R43) -/

theorem slot_bytes_length (r : RecipeSlot) : r.bytes.length = 5 := by
  simp [RecipeSlot.bytes, beBytes_length]

/-- The chunks of recipe bytes are the slots' bytes. -/
theorem slotBytes_flatMap (l : List RecipeSlot) : slotBytes l.length (l.flatMap RecipeSlot.bytes) = l.map RecipeSlot.bytes := by
  induction l with
  | nil => rfl
  | cons r l ih =>
    rw [List.flatMap_cons, List.length_cons, slotBytes, List.map_cons, List.take_left' (slot_bytes_length r),
      List.drop_left' (slot_bytes_length r), ih]

theorem flagListed_bytes (r : RecipeSlot) : flagListed r.bytes = true := by
  cases r with
  | mk additive injector ratio required => cases required <;> rfl

theorem parseSlot_bytes {r : RecipeSlot} (h : r.ratio ≤ 65535) : parseSlot r.bytes = some r := by
  have hratio : fieldAt r.bytes 2 2 = r.ratio := fieldAt_append [r.additive, BitVec.ofNat 8 r.injector.val] _ (by omega)
  have hinjector : devIxOf (byteAt r.bytes 1) = some r.injector := devIxOf_ofNat r.injector
  have hrequired : decide (byteAt r.bytes 4 = 0x00#8) = r.required := by
    cases r with
    | mk additive injector ratio required => cases required <;> rfl
  rw [parseSlot, hinjector, hratio, hrequired]
  rfl

theorem filterMap_parseSlot {l : List RecipeSlot} (h : ∀ r ∈ l, r.ratio ≤ 65535) :
    (l.map RecipeSlot.bytes).filterMap parseSlot = l := by
  rw [List.filterMap_map]
  exact filterMap_eq_self fun r hr => parseSlot_bytes (h r hr)

theorem flatMap_bytes_length (l : List RecipeSlot) : (l.flatMap RecipeSlot.bytes).length = 5 * l.length := by
  induction l with
  | nil => rfl
  | cons r l ih => rw [List.flatMap_cons, List.length_append, slot_bytes_length, ih, List.length_cons]; omega

/-- The ranges and conditions of a product entry (R42, R43). -/
def Product.Valid (x : Product) : Prop :=
  x.code ≠ 0#8 ∧ x.cls ≤ 15 ∧ 100 ≤ x.alpha ∧ x.alpha ≤ 2000 ∧ x.recipe.length ≤ 3 ∧
    (∀ r ∈ x.recipe, r.additive ≠ 0#8 ∧ 1 ≤ r.ratio ∧ r.ratio ≤ 20000) ∧
    (x.recipe.map fun r => r.additive).Nodup ∧ (x.recipe.map fun r => r.injector).Nodup

theorem recipeSlot_valid_iff (r : RecipeSlot) : r.valid = true ↔ r.additive ≠ 0#8 ∧ 1 ≤ r.ratio ∧ r.ratio ≤ 20000 := by
  simp [RecipeSlot.valid, and_assoc]

section ProductEntry

variable {x : Product} (hlen : x.recipe.length < 256) (hcls : x.cls ≤ 254) (halpha : x.alpha ≤ 65535)
  (hratio : ∀ r ∈ x.recipe, r.ratio ≤ 65535)

theorem product_bytes_count (hlen : x.recipe.length < 256) : (byteAt x.bytes 3).toNat = x.recipe.length :=
  Nat.mod_eq_of_lt hlen

theorem product_bytes_slots (x : Product) : x.bytes.drop 4 = x.recipe.flatMap RecipeSlot.bytes := rfl

theorem product_bytes_length (x : Product) : x.bytes.length = 4 + 5 * x.recipe.length := by
  have h := flatMap_bytes_length x.recipe
  simp only [Product.bytes, List.length_append, List.length_cons, beBytes_length, List.length_nil, h]

/-- Class bytes below FFH say that the entry is filled. -/
theorem product_bytes_filled (hcls : x.cls ≤ 254) : byteAt x.bytes 0 ≠ 0xFF#8 := by
  have h : byteAt x.bytes 0 = BitVec.ofNat 8 x.cls := rfl
  rw [h]
  bv_omega

include hlen in
theorem productForm_bytes : productForm x.bytes = true := by
  have hflags : (x.recipe.map RecipeSlot.bytes).all flagListed = true := by simp [List.all_eq_true, flagListed_bytes]
  rw [productForm, product_bytes_slots, product_bytes_count hlen, slotBytes_flatMap, hflags, product_bytes_length]
  simp

include hlen hcls halpha hratio in
/-- An entry is read back as it was written where it is valid, and is a bad value where it is not. -/
theorem parseProduct_bytes_iff (y : Product) : parseProduct x.code x.bytes = some y ↔ x.Valid ∧ x = y := by
  have hc : (byteAt x.bytes 0).toNat = x.cls := Nat.mod_eq_of_lt (by omega)
  have ha : fieldAt x.bytes 1 2 = x.alpha := by
    have h := fieldAt_append [BitVec.ofNat 8 x.cls] ([BitVec.ofNat 8 x.recipe.length] ++ x.recipe.flatMap RecipeSlot.bytes)
      (k := 2) (n := x.alpha) (by omega)
    exact h
  have hvalid : (x.code ≠ 0x00#8 ∧ x.cls ≤ 15 ∧ 100 ≤ x.alpha ∧ x.alpha ≤ 2000 ∧ x.recipe.length ≤ 3 ∧
      x.recipe.length = x.recipe.length ∧ x.recipe.all RecipeSlot.valid = true ∧
      distinct (x.recipe.map fun r => r.additive) = true ∧ distinct (x.recipe.map fun r => r.injector) = true) ↔ x.Valid := by
    simp only [Product.Valid, List.all_eq_true, recipeSlot_valid_iff, distinct_iff_nodup, true_and]
  unfold parseProduct
  dsimp only
  rw [product_bytes_slots, product_bytes_count hlen, slotBytes_flatMap, filterMap_parseSlot hratio, hc, ha]
  rw [Option.ite_none_right_eq_some, hvalid, Option.some_inj]

end ProductEntry

/-! ### The product table -/

theorem insertProduct_find? (x : Product) (l : List Product) (c : Byte) :
    ((insertProduct x l).find? fun y => y.code = c) = if x.code = c then some x else l.find? fun y => y.code = c := by
  induction l with
  | nil => simp [insertProduct, List.find?_cons]; split <;> simp_all
  | cons y l ih =>
    unfold insertProduct
    split
    · simp only [List.find?_cons]
      by_cases hx : x.code = c <;> simp [hx]
    · split
      case isTrue h =>
        simp only [List.find?_cons, ← h]
        by_cases hx : x.code = c <;> simp [hx]
      case isFalse h =>
        rw [List.find?_cons, ih, List.find?_cons]
        by_cases hx : x.code = c
        · have hy : y.code ≠ c := fun e => h (hx.trans e.symm)
          simp [hx, hy]
        · rw [if_neg hx, if_neg hx]

theorem insertProduct_mem {x y : Product} {l : List Product} (h : y ∈ insertProduct x l) : y = x ∨ y ∈ l := by
  induction l with
  | nil => simpa [insertProduct] using h
  | cons z l ih =>
    unfold insertProduct at h
    split at h
    · exact List.mem_cons.mp h
    · split at h
      · exact (List.mem_cons.mp h).imp_right (List.mem_cons_of_mem _)
      · rcases List.mem_cons.mp h with rfl | h
        · exact .inr (List.mem_cons_self ..)
        · exact (ih h).imp_right (List.mem_cons_of_mem _)

theorem insertProduct_ordered (x : Product) {l : List Product} (h : l.Pairwise fun y z => y.code.toNat < z.code.toNat) :
    (insertProduct x l).Pairwise fun y z => y.code.toNat < z.code.toNat := by
  induction l with
  | nil => exact List.pairwise_singleton _ x
  | cons y l ih =>
    obtain ⟨hy, hl⟩ := List.pairwise_cons.mp h
    unfold insertProduct
    split
    case isTrue hlt =>
      refine List.pairwise_cons.mpr ⟨fun z hz => ?_, h⟩
      rcases List.mem_cons.mp hz with rfl | hz
      · exact hlt
      · exact Nat.lt_trans hlt (hy z hz)
    case isFalse hle =>
      split
      case isTrue heq => exact List.pairwise_cons.mpr ⟨fun z hz => heq ▸ hy z hz, hl⟩
      case isFalse hne =>
        refine List.pairwise_cons.mpr ⟨fun z hz => ?_, ih hl⟩
        rcases insertProduct_mem hz with rfl | hz
        · have hcodes : y.code.toNat ≠ z.code.toNat := fun e => hne (BitVec.eq_of_toNat_eq e.symm)
          omega
        · exact hy z hz

theorem productLoaded_iff (s : State) (code : Byte) : s.productLoaded code = true ↔
    ∃ (l : Lane) (x : Load), (s.lane l).state ≠ .none ∧ (s.lane l).load = some x ∧ ∃ e ∈ x.entries, e.product = code := by
  have hlane : ∀ l, (s.holdsLoad l && (s.lane l).load.any fun x => x.entries.any fun e => e.product = code) = true ↔
      ∃ x : Load, (s.lane l).state ≠ .none ∧ (s.lane l).load = some x ∧ ∃ e ∈ x.entries, e.product = code :=
    fun l => by simp [State.holdsLoad, Option.any_eq_true]
  simp only [State.productLoaded, List.any_cons, List.any_nil, Bool.or_false, Bool.or_eq_true, hlane]
  refine ⟨fun h => h.elim (fun ha => ⟨.a, ha⟩) fun hb => ⟨.b, hb⟩, ?_⟩
  rintro ⟨l, hl⟩
  cases l
  · exact .inl hl
  · exact .inr hl

theorem productOrdered_iff (s : State) (code : Byte) :
    s.productOrdered code = true ↔ ∃ o ∈ s.load.orders, ∃ x ∈ o.lines, x.product = code := by
  simp [State.productOrdered]

theorem productMetro_iff (s : State) (x : Product) :
    s.productMetro x = true ↔ ∀ y, s.product x.code = some y → y.alpha ≠ x.alpha := by
  simp [State.productMetro, Option.all_eq_true]

/-! ### TABLE WRITE 05H by the form of its bytes -/

theorem productWrite_of_filled {s : State} {code : Byte} {e : List Byte} (h : byteAt e 0 ≠ 0xFF#8) :
    s.productWrite (code :: e) = if productForm e then s.putProduct code e else (s, .refuse .badFormat) :=
  if_neg h

theorem productWrite_of_long_empty {s : State} {q : List Byte} (h : byteAt q 1 = 0xFF#8) (hlen : q.length ≠ 2) :
    s.productWrite q = (s, .refuse .badFormat) := by
  cases q with
  | nil => rfl
  | cons code e =>
    have h0 : byteAt e 0 = 0xFF#8 := h
    exact (if_pos h0).trans (if_neg fun h1 => hlen (by rw [List.length_cons, h1]))

theorem productWrite_empty (s : State) (code : Byte) : s.productWrite [code, 0xFF#8] = s.emptyProduct code := rfl

theorem slotBytes_all_iff (P : List Byte → Prop) (k : Nat) : ∀ bs : List Byte,
    (∀ c ∈ slotBytes k bs, P c) ↔ ∀ j < k, P ((bs.drop (5 * j)).take 5) := by
  induction k with
  | zero => simp [slotBytes]
  | succ k ih =>
    intro bs
    simp only [slotBytes, List.mem_cons, forall_eq_or_imp, ih, List.drop_drop]
    constructor
    · rintro ⟨h0, h⟩ j hj
      cases j with
      | zero => exact h0
      | succ j =>
        have h := h j (by omega)
        rwa [show 5 + 5 * j = 5 * (j + 1) by omega] at h
    · refine fun h => ⟨h 0 (by omega), fun j hj => ?_⟩
      have h := h (j + 1) (by omega)
      rwa [show 5 * (j + 1) = 5 + 5 * j by omega] at h

theorem byteAt_chunk (bs : List Byte) (i : Nat) {j : Nat} (hj : j < 5) : byteAt ((bs.drop i).take 5) j = byteAt bs (i + j) := by
  simp [byteAt, List.getD_eq_getElem?_getD, hj]

/-- The form of an entry: the length its slot count gives, and listed flags (R40 step 1, R42). -/
theorem productForm_iff (code : Byte) (e : List Byte) : productForm e = true ↔
    5 ≤ (code :: e).length ∧ (code :: e).length = 5 + 5 * (byteAt (code :: e) 4).toNat ∧
      ∀ j, j < (byteAt (code :: e) 4).toNat → (byteAt (code :: e) (9 + 5 * j)).toNat ≤ 1 := by
  have hcount : byteAt (code :: e) 4 = byteAt e 3 := rfl
  have hflag : ∀ j, byteAt ((((e.drop 4).drop (5 * j))).take 5) 4 = byteAt (code :: e) (9 + 5 * j) := fun j => by
    rw [byteAt_chunk _ _ (by omega), byteAt_drop, show 9 + 5 * j = (4 + (5 * j + 4)) + 1 by omega]
    rfl
  simp only [productForm, Bool.and_eq_true, decide_eq_true_eq, List.all_eq_true, slotBytes_all_iff, flagListed, hflag, hcount,
    List.length_cons, and_assoc]
  refine and_congr (by omega) (and_congr (by omega) Iff.rfl)

/-- A slot's device index above 31 makes the entry a bad value (R42). -/
theorem parseProduct_of_bad_index (code : Byte) {e : List Byte} {j : Nat} (hj : j < (byteAt e 3).toNat)
    (h : 31 < (byteAt e (5 + 5 * j)).toNat) : parseProduct code e = none := by
  have hex : ¬ ∀ c ∈ slotBytes (byteAt e 3).toNat (e.drop 4), parseSlot c ≠ none := by
    rw [slotBytes_all_iff]
    intro hall
    refine hall j hj ?_
    have hb : byteAt (((e.drop 4).drop (5 * j)).take 5) 1 = byteAt e (5 + 5 * j) := by
      rw [byteAt_chunk _ _ (by omega), byteAt_drop, show 4 + (5 * j + 1) = 5 + 5 * j by omega]
    rw [parseSlot, hb, devIxOf_of_lt h]
    rfl
  have hlen : ∀ k bs, (slotBytes k bs).length = k := by
    intro k
    induction k with
    | zero => exact fun _ => rfl
    | succ k ih => exact fun bs => congrArg (· + 1) (ih _)
  have ⟨c, hc, hnone⟩ : ∃ c ∈ slotBytes (byteAt e 3).toNat (e.drop 4), parseSlot c = none := by simpa using hex
  have hlt := List.length_filterMap_lt_length_iff_exists.mpr ⟨c, hc, hnone⟩
  rw [hlen] at hlt
  exact if_neg fun ⟨_, _, _, _, _, hfull, _⟩ => Nat.ne_of_lt hlt hfull

theorem putProduct_of_bad_value {s : State} {code : Byte} {e : List Byte} (h : parseProduct code e = none) :
    s.putProduct code e = (s, .refuse .badValue) := by
  rw [State.putProduct, h]
  rfl

theorem putProduct_of_parsed {s : State} {code : Byte} {e : List Byte} {x : Product} (h : parseProduct code e = some x) :
    s.putProduct code e = if (s.product code).isNone ∧ 32 ≤ s.batch.products.length then (s, .refuse .tableFull)
      else s.commit { s with batch := { s.batch with products := insertProduct x s.batch.products } } (s.productLoaded code)
        (s.productMetro x) .none 0x05#8 := by
  rw [State.putProduct, h]
  rfl

theorem emptyProduct_zero (s : State) : s.emptyProduct 0#8 = (s, .refuse .badValue) := rfl

theorem emptyProduct_of_ne {s : State} {code : Byte} (h : code ≠ 0#8) : s.emptyProduct code =
    s.commit { s with batch := { s.batch with products := s.batch.products.filter fun y => y.code ≠ code } }
      (s.productLoaded code || s.productOrdered code) false .none 0x05#8 :=
  if_neg h

/-- Settles O28: the form, the ranges, the table's room, then the steps of the shared judgement; and the emptying. -/
theorem productWriteEffect : Obligations.ProductWriteEffect := by
  intro cal s0 hs s loaded
  have hloaded : ∀ code, s.productLoaded code = true ↔ loaded code := productLoaded_iff s
  refine ⟨fun x hr hcls halpha hratio => ?written, fun code hr => ?emptied, fun q hr => ?malformed⟩
  case written =>
    intro valid q
    have hlen : x.recipe.length < 256 := by
      have h240 := hr.1
      rw [product_bytes_length] at h240
      omega
    have hr' : s.Reaches (1 + q.length) := (show 2 + x.bytes.length = 1 + q.length by simp only [q, List.length_cons]; omega) ▸ hr
    have hput : s.productWrite q = s.putProduct x.code x.bytes :=
      (productWrite_of_filled (product_bytes_filled hcls)).trans (if_pos (productForm_bytes hlen))
    have hparse := parseProduct_bytes_iff hlen hcls halpha hratio
    refine ⟨fun hbad => ?_, fun hv hnone hfull => ?_, fun hv hroom => ⟨insertProduct x s.batch.products,
      insertProduct_find? x s.batch.products, insertProduct_ordered x, ?_⟩⟩
    · have hnone : parseProduct x.code x.bytes = none :=
        Option.eq_none_iff_forall_ne_some.mpr fun y hy => hbad ((hparse y).mp hy).1
      exact request_next (s := s) hr' (hput.trans (putProduct_of_bad_value hnone)) hs
    all_goals have hparsed := putProduct_of_parsed (s := s) ((hparse x).mpr ⟨hv, rfl⟩)
    · exact request_next (s := s) hr' (hput.trans (hparsed.trans (if_pos ⟨by rw [hnone]; rfl, hfull⟩))) hs
    · intro u wrongMode metro
      have hcommit : s.productWrite q = s.commit u (s.productLoaded x.code) (s.productMetro x) .none 0x05#8 := by
        refine hput.trans (hparsed.trans (if_neg fun ⟨hnone, hfull⟩ => ?_))
        rcases hroom with h | h
        · exact h (Option.isNone_iff_eq_none.mp hnone)
        · omega
      have hfree : ¬ loaded x.code → s.productLoaded x.code = false := fun h => Bool.eq_false_iff.mpr (mt (hloaded _).mp h)
      have hmetro := productMetro_iff s x
      refine ⟨fun hl => ?_, fun hl hw => ?_, fun hl hw hm => ?_, fun hl hw hm hc => ?_, fun hl hw hm hc => ?_⟩
      · exact request_next (s := s) hr' (hcommit.trans (commit_of_used ((hloaded _).mpr hl))) hs
      · exact request_next (s := s) hr' (hcommit.trans (commit_of_wrongMode (hfree hl) hw)) hs
      · exact request_next (s := s) hr'
          (hcommit.trans (commit_of_plain (hfree hl) hw (Bool.eq_false_iff.mpr (mt hmetro.mp hm)))) hs
      · exact request_next (s := s) hr' (hcommit.trans (commit_of_locked (hfree hl) hw (hmetro.mpr hm) hc)) hs
      · exact request_next (s := s) hr' (hcommit.trans (commit_of_metro (hfree hl) hw (hmetro.mpr hm) hc)) hs
  case emptied =>
    intro used u wrongMode
    have hused : (s0.productLoaded code || s0.productOrdered code) = true ↔ used := by
      rw [Bool.or_eq_true, productLoaded_iff, productOrdered_iff]
      rfl
    have hempty : code ≠ 0#8 → _ := fun h0 => (productWrite_empty s0 code).trans (emptyProduct_of_ne h0)
    refine ⟨fun h0 => ?_, fun h0 hu => ?_, fun h0 hu hw => ?_, fun h0 hu hw => ?_, fun q hq hr => ?_⟩
    · exact h0 ▸ request_next hr (emptyProduct_zero s0) hs
    · exact request_next hr ((hempty h0).trans (commit_of_used (hused.mpr hu))) hs
    · exact request_next hr ((hempty h0).trans (commit_of_wrongMode (Bool.eq_false_iff.mpr (mt hused.mp hu)) hw)) hs
    · exact request_next hr ((hempty h0).trans (commit_of_plain (Bool.eq_false_iff.mpr (mt hused.mp hu)) hw rfl)) hs
    · refine request_next (owner := fun s => s.productWrite (code :: 0xFF#8 :: q)) hr (productWrite_of_long_empty rfl ?_) hs
      simpa using hq
  case malformed =>
    intro k listed
    refine ⟨fun hff hlen => request_next (s := s) hr (productWrite_of_long_empty hff hlen) hs, fun hff hbad => ?_,
      fun hff hlen hl hindex => ?_⟩
    · cases q with
      | nil => exact request_next (s := s) hr rfl hs
      | cons code e =>
        refine request_next (s := s) hr ((productWrite_of_filled hff).trans (if_neg fun hform => ?_)) hs
        obtain ⟨h5, hlength, hflags⟩ := (productForm_iff code e).mp hform
        rcases hbad with h | h | h
        · omega
        · exact h hlength
        · exact h hflags
    · cases q with
      | nil => exact absurd hlen.symm (by simp)
      | cons code e =>
        obtain ⟨j, hj, hbad⟩ := hindex
        have hform := (productForm_iff code e).mpr ⟨by rw [hlen]; omega, hlen, hl⟩
        have hix : byteAt (code :: e) (6 + 5 * j) = byteAt e (5 + 5 * j) := by
          rw [show 6 + 5 * j = (5 + 5 * j) + 1 by omega]
          rfl
        exact request_next (s := s) hr ((productWrite_of_filled hff).trans ((if_pos hform).trans
          (putProduct_of_bad_value (parseProduct_of_bad_index code hj (hix ▸ hbad))))) hs

end Sys2Proof.Machine
end

section
/-! PROOF. The arm table (R44 to R46): entries as bytes, the ranges, and the write by the steps of R40. -/

namespace Sys2Proof.Machine

/-! ### Fields behind other fields -/

theorem fieldAt_zero_append {k n : Nat} (h : n < 256 ^ k) (rest : List Byte) : fieldAt (beBytes k n ++ rest) 0 k = n :=
  fieldAt_append [] rest h

theorem fieldAt_append_right {front : List Byte} {i : Nat} (h : front.length ≤ i) (rest : List Byte) (k : Nat) :
    fieldAt (front ++ rest) i k = fieldAt rest (i - front.length) k := by
  rw [fieldAt, fieldAt, List.drop_append, List.drop_of_length_le h, List.nil_append]

theorem leNat_leBytes (k : Nat) : ∀ x : BitVec 256,
    leNat ((List.range k).map fun j => (x >>> (8 * j)).setWidth 8) = x.toNat % 256 ^ k := by
  induction k with
  | zero => simp [leNat, Nat.mod_one]
  | succ k ih =>
    intro x
    have hshift : ∀ j, x >>> (8 * (j + 1)) = (x >>> 8) >>> (8 * j) := fun j => by
      rw [show 8 * (j + 1) = 8 + 8 * j by omega, BitVec.shiftRight_add]
    have hrest : leNat ((List.range k).map fun j => (x >>> (8 * (j + 1))).setWidth 8) = x.toNat / 256 % 256 ^ k := by
      simp only [hshift, ih, BitVec.toNat_ushiftRight, Nat.shiftRight_eq_div_pow, Nat.reducePow]
    rw [List.range_succ_eq_map, List.map_cons, List.map_map]
    calc leNat (_ :: _) = leNat ((List.range k).map fun j => (x >>> (8 * (j + 1))).setWidth 8) * 256 +
          ((x >>> (8 * 0)).setWidth 8 : Byte).toNat := rfl
      _ = x.toNat / 256 % 256 ^ k * 256 + x.toNat % 256 := by rw [hrest]; rfl
      _ = x.toNat % 256 ^ (k + 1) := by rw [Nat.pow_succ', Nat.mod_mul]; omega

theorem leNat_allowedBytes (x : BitVec 256) : BitVec.ofNat 256 (leNat (allowedBytes x)) = x := by
  rw [allowedBytes, leNat_leBytes, show 256 ^ 32 = 2 ^ 256 by decide, Nat.mod_eq_of_lt x.isLt, BitVec.ofNat_toNat, BitVec.setWidth_eq]

/-! ### Arm entries as bytes (R44) -/

/-- The bytes of an arm entry behind its curve. -/
def ArmEntry.limitBytes (e : ArmEntry) : List Byte :=
  beBytes 3 e.maxPulses ++ (beBytes 2 e.maxFlow ++ (beBytes 2 e.startup ++ (beBytes 2 e.slowdown ++ (beBytes 2 e.leadInitial ++
    (beBytes 2 e.leadMin ++ (beBytes 2 e.leadMax ++ (beBytes 2 e.cutoff ++ (beBytes 2 e.leak ++ allowedBytes e.allowed))))))))

/-- The bytes of a curve point. -/
def pointBytes (x : Nat × Nat) : List Byte := beBytes 2 x.1 ++ beBytes 3 x.2

/-- The numbers of the entry fit the fields they are written in. -/
def ArmEntry.Fits (e : ArmEntry) : Prop :=
  e.km < 2 ^ 32 ∧ e.maxPulses < 2 ^ 24 ∧
    (∀ x ∈ [e.maxFlow, e.startup, e.slowdown, e.leadInitial, e.leadMin, e.leadMax, e.cutoff, e.leak], x < 2 ^ 16) ∧
    ∀ x ∈ e.curve, x.1 < 2 ^ 16 ∧ x.2 < 2 ^ 24

section ArmBytes

variable (e : ArmEntry)

theorem arm_bytes_eq : e.bytes = [e.reach.code, BitVec.ofNat 8 e.meter.val, BitVec.ofNat 8 e.valve.val] ++ beBytes 4 e.km ++
    ([BitVec.ofNat 8 e.curve.length] ++ (e.curve.flatMap pointBytes ++ e.limitBytes)) := by
  simp only [ArmEntry.bytes, ArmEntry.limitBytes, List.append_assoc]
  rfl

theorem arm_bytes_count {e : ArmEntry} (h : e.curve.length < 256) : (byteAt e.bytes 7).toNat = e.curve.length := by
  have hbyte : byteAt e.bytes 7 = BitVec.ofNat 8 e.curve.length := by
    rw [arm_bytes_eq]
    rfl
  rw [hbyte, BitVec.toNat_ofNat, Nat.mod_eq_of_lt h]

theorem flatMap_pointBytes_length (l : List (Nat × Nat)) : (l.flatMap pointBytes).length = 5 * l.length := by
  induction l with
  | nil => rfl
  | cons x l ih =>
    rw [List.flatMap_cons, List.length_append, ih, List.length_cons, pointBytes, List.length_append, beBytes_length, beBytes_length]
    omega

theorem arm_bytes_length : e.bytes.length = 59 + 5 * e.curve.length := by
  simp only [arm_bytes_eq, ArmEntry.limitBytes, allowedBytes, List.length_append, List.length_cons, List.length_nil, beBytes_length,
    flatMap_pointBytes_length, List.length_map, List.length_range]
  omega

theorem arm_bytes_curve : e.bytes.drop 8 = e.curve.flatMap pointBytes ++ e.limitBytes := by
  rw [arm_bytes_eq]
  rfl

theorem arm_bytes_limits : e.bytes.drop (8 + 5 * e.curve.length) = e.limitBytes := by
  rw [← List.drop_drop, arm_bytes_curve, List.drop_left' (flatMap_pointBytes_length _)]

theorem parseCurve_flatMap {l : List (Nat × Nat)} (h : ∀ x ∈ l, x.1 < 2 ^ 16 ∧ x.2 < 2 ^ 24) (rest : List Byte) :
    parseCurve l.length (l.flatMap pointBytes ++ rest) = l := by
  induction l with
  | nil => rfl
  | cons x l ih =>
    obtain ⟨⟨hrate, hfactor⟩, hl⟩ := List.forall_mem_cons.mp h
    rw [List.flatMap_cons, List.length_cons, parseCurve, pointBytes]
    simp only [List.append_assoc]
    rw [fieldAt_zero_append hrate, fieldAt_append_right (Nat.le_of_eq (beBytes_length ..)), beBytes_length, fieldAt_zero_append hfactor]
    exact congrArg (_ :: ·) (ih hl)

variable {e}

theorem limits_read (h : e.Fits) :
    fieldAt e.limitBytes 0 3 = e.maxPulses ∧ fieldAt e.limitBytes 3 2 = e.maxFlow ∧ fieldAt e.limitBytes 5 2 = e.startup ∧
      fieldAt e.limitBytes 7 2 = e.slowdown ∧ fieldAt e.limitBytes 9 2 = e.leadInitial ∧ fieldAt e.limitBytes 11 2 = e.leadMin ∧
      fieldAt e.limitBytes 13 2 = e.leadMax ∧ fieldAt e.limitBytes 15 2 = e.cutoff ∧ fieldAt e.limitBytes 17 2 = e.leak := by
  obtain ⟨-, hpulses, hwords, -⟩ := h
  simp only [List.forall_mem_cons] at hwords
  obtain ⟨hflow, hstartup, hslow, hinitial, hmin, hmax, hcutoff, hleak, -⟩ := hwords
  simp only [ArmEntry.limitBytes, fieldAt_append_right, beBytes_length, Nat.reduceLeDiff, Nat.reduceSub, Nat.le_refl, Nat.sub_self,
    fieldAt_zero_append (k := 3) hpulses, fieldAt_zero_append (k := 2) hflow, fieldAt_zero_append (k := 2) hstartup,
    fieldAt_zero_append (k := 2) hslow, fieldAt_zero_append (k := 2) hinitial, fieldAt_zero_append (k := 2) hmin,
    fieldAt_zero_append (k := 2) hmax, fieldAt_zero_append (k := 2) hcutoff, fieldAt_zero_append (k := 2) hleak, and_self]

theorem limits_allowed (e : ArmEntry) : (e.limitBytes.drop 19).take 32 = allowedBytes e.allowed := rfl

/-- An arm entry is read back as it was written (R44). -/
theorem parseArm_bytes (h : e.Fits) (hlen : e.curve.length < 256) : parseArm e.reach e.bytes = some e := by
  have hmeter : devIxOf (byteAt e.bytes 1) = some e.meter := devIxOf_ofNat e.meter
  have hvalve : devIxOf (byteAt e.bytes 2) = some e.valve := devIxOf_ofNat e.valve
  have hkm : fieldAt e.bytes 3 4 = e.km := by
    rw [arm_bytes_eq]
    exact fieldAt_append _ _ h.1
  obtain ⟨hpulses, hflow, hstartup, hslow, hinitial, hmin, hmax, hcutoff, hleak⟩ := limits_read h
  obtain ⟨-, -, -, hcurve⟩ := h
  rw [parseArm, hmeter, hvalve]
  dsimp only
  rw [arm_bytes_count hlen, hkm, arm_bytes_limits, arm_bytes_curve, parseCurve_flatMap hcurve, hpulses, hflow, hstartup, hslow, hinitial, hmin,
    hmax, hcutoff, hleak, limits_allowed, leNat_allowedBytes]

theorem reachOf_code (r : Reach) : reachOf r.code = some r := by cases r <;> rfl

theorem reach_code_ne_FF (r : Reach) : r.code ≠ 0xFF#8 := by cases r <;> decide

end ArmBytes

/-! ### The ranges (R44, R45) -/

theorem rising_iff (l : List (Nat × Nat)) : rising l = true ↔ l.Pairwise fun x y => x.1 < y.1 := by
  induction l with
  | nil => simp [rising]
  | cons x l ih =>
    cases l with
    | nil => simp [rising]
    | cons y l =>
      rw [rising, Bool.and_eq_true, decide_eq_true_eq, ih, List.pairwise_cons (a := x)]
      refine and_congr_left fun hl => ⟨fun hxy z hz => ?_, fun hx => hx y (List.mem_cons_self ..)⟩
      rcases List.mem_cons.mp hz with rfl | hz
      · exact hxy
      · exact Nat.lt_trans hxy ((List.pairwise_cons.mp hl).1 z hz)

/-- The ranges and conditions of an arm entry (R44, R45). -/
def ArmEntry.InRange (e : ArmEntry) : Prop :=
  1000 ≤ e.km ∧ e.km ≤ 9999999 ∧ 1 ≤ e.curve.length ∧ e.curve.length ≤ 4 ∧
    (∀ x ∈ e.curve, 1 ≤ x.1 ∧ x.1 ≤ 9999 ∧ 90000 ≤ x.2 ∧ x.2 ≤ 110000) ∧ e.curve.Pairwise (fun x y => x.1 < y.1) ∧
    1 ≤ e.maxPulses ∧ 1 ≤ e.maxFlow ∧ e.maxFlow ≤ 9999 ∧ e.startup ≤ 2000 ∧ e.slowdown ≤ 5000 ∧ e.leadMax ≤ 5000 ∧
    e.cutoff ≤ 2000 ∧ e.leadMin ≤ e.leadInitial ∧ e.leadInitial ≤ e.leadMax

/-- The initial and the least lead need no bound of their own: the greatest lead bounds both. -/
theorem arm_valid_iff (e : ArmEntry) : e.valid = true ↔ e.InRange := by
  simp only [ArmEntry.valid, ArmEntry.InRange, Bool.and_eq_true, decide_eq_true_eq, List.all_eq_true, pointOk, rising_iff, and_assoc]
  constructor
  · rintro ⟨h1, h2, h3, h4, h5, h6, h7, h8, h9, h10, h11, -, -, h14, h15, h16, h17⟩
    exact ⟨h1, h2, h3, h4, h5, h6, h7, h8, h9, h10, h11, h14, h15, h16, h17⟩
  · rintro ⟨h1, h2, h3, h4, h5, h6, h7, h8, h9, h10, h11, h14, h15, h16, h17⟩
    exact ⟨h1, h2, h3, h4, h5, h6, h7, h8, h9, h10, h11, Nat.le_trans h17 h14, Nat.le_trans h16 (Nat.le_trans h17 h14), h14, h15, h16, h17⟩

theorem armMetro_iff (s : State) (n : Arm) (e : ArmEntry) :
    s.armMetro n e = true ↔ ∀ o, s.armEntry n = some o → o.km ≠ e.km ∨ o.curve ≠ e.curve := by
  simp [State.armMetro, Option.all_eq_true]

/-! ### TABLE WRITE 06H by the form of its bytes -/

section ArmWrite

variable {s : State} {ix : Byte} {e : List Byte}

theorem armWrite_of_long_empty {q : List Byte} (h : byteAt q 1 = 0xFF#8) (hlen : q.length ≠ 2) :
    s.armWrite q = (s, .refuse .badFormat) := by
  cases q with
  | nil => rfl
  | cons ix e =>
    have h0 : byteAt e 0 = 0xFF#8 := h
    exact (if_pos h0).trans (if_neg fun h1 => hlen (by rw [List.length_cons, h1]))

theorem armWrite_of_no_reach (h : byteAt e 0 ≠ 0xFF#8) (hr : reachOf (byteAt e 0) = none) :
    s.armWrite (ix :: e) = (s, .refuse .badFormat) := by
  rw [State.armWrite, if_neg h, hr]
  rfl

theorem armWrite_of_reach {r : Reach} (h : byteAt e 0 ≠ 0xFF#8) (hr : reachOf (byteAt e 0) = some r) :
    s.armWrite (ix :: e) =
      if 8 ≤ e.length ∧ e.length = 59 + 5 * (byteAt e 7).toNat then s.writeArm ix r e else (s, .refuse .badFormat) := by
  rw [State.armWrite, if_neg h, hr]
  rfl

theorem reachOf_of_lt {b : Byte} (h : 2 < b.toNat) : reachOf b = none := by
  have hne : ∀ c : Byte, c.toNat ≤ 2 → b ≠ c := fun c hc e => by rw [e] at h; omega
  simp [reachOf, hne]

theorem reachOf_of_le {b : Byte} (h : b.toNat ≤ 2) : ∃ r, reachOf b = some r := by
  have hb : b = 0#8 ∨ b = 1#8 ∨ b = 2#8 := by bv_omega
  obtain rfl | rfl | rfl := hb
  · exact ⟨.a, rfl⟩
  · exact ⟨.b, rfl⟩
  · exact ⟨.both, rfl⟩

theorem writeArm_of_no_arm {r : Reach} (h : armOf ix = none) : s.writeArm ix r e = (s, .refuse .badValue) := by
  rw [State.writeArm, h]
  rfl

theorem writeArm_of_no_entry {r : Reach} (h : (parseArm r e).filter ArmEntry.valid = none) :
    s.writeArm ix r e = (s, .refuse .badValue) := by
  unfold State.writeArm
  rw [h]
  cases armOf ix <;> rfl

theorem writeArm_of_entry {n : Arm} {r : Reach} {x : ArmEntry} (hn : armOf ix = some n)
    (h : (parseArm r e).filter ArmEntry.valid = some x) :
    s.writeArm ix r e = s.commit (s.putArm n x) (s.holder n).isSome (s.armMetro n x) (.arm n) 0x06#8 := by
  rw [State.writeArm, hn, h]

theorem parseArm_of_bad_index {r : Reach} (h : 31 < (byteAt e 1).toNat ∨ 31 < (byteAt e 2).toNat) : parseArm r e = none := by
  unfold parseArm
  rcases h with h | h
  · rw [devIxOf_of_lt h]
  · rw [devIxOf_of_lt h]
    cases devIxOf (byteAt e 1) <;> rfl

theorem emptyArm_of_arm (s : State) (n : Arm) : s.emptyArm (BitVec.ofNat 8 n.val) =
    s.commit (s.clearArm n) (s.holder n).isSome false (.arm n) 0x06#8 := by
  rw [State.emptyArm, armOf_ofNat]

theorem emptyArm_of_no_arm (h : armOf ix = none) : s.emptyArm ix = (s, .refuse .badValue) := by
  rw [State.emptyArm, h]
  rfl

end ArmWrite

/-- Settles O29: the form, the ranges, then the steps of the shared judgement; and the emptying. -/
theorem armWriteEffect : Obligations.ArmWriteEffect := by
  intro cal s0 hs s
  refine ⟨fun n e hr hkm hpulses hwords hcurve => ?written, fun n hr => ?emptied, fun ix q hr => ?badEmpty, fun q hr => ?malformed⟩
  case written =>
    intro valid q u wrongMode metro
    have hlen : e.curve.length < 256 := by
      have h240 := hr.1
      rw [arm_bytes_length] at h240
      omega
    have hr' : s.Reaches (1 + q.length) := (show 2 + e.bytes.length = 1 + q.length by simp only [q, List.length_cons]; omega) ▸ hr
    have hform : 8 ≤ e.bytes.length ∧ e.bytes.length = 59 + 5 * (byteAt e.bytes 7).toNat := by
      rw [arm_bytes_count hlen, arm_bytes_length]
      omega
    have hwrite : s.armWrite q = s.writeArm (BitVec.ofNat 8 n.val) e.reach e.bytes :=
      (armWrite_of_reach (e := e.bytes) (reach_code_ne_FF e.reach) (reachOf_code e.reach)).trans (if_pos hform)
    have hparse := parseArm_bytes ⟨hkm, hpulses, hwords, hcurve⟩ hlen
    have hfree : s.holder n = none → (s.holder n).isSome = false := fun h => by rw [h]; rfl
    have hmetro := armMetro_iff s n e
    have hcommit : valid → s.armWrite q = s.commit u (s.holder n).isSome (s.armMetro n e) (.arm n) 0x06#8 := fun hv =>
      hwrite.trans (writeArm_of_entry (armOf_ofNat n) (by rw [hparse]; exact if_pos ((arm_valid_iff e).mpr hv)))
    refine ⟨fun hbad => ?_, fun hv hu => ?_, fun hv hu hw => ?_, fun hv hu hw hm => ?_, fun hv hu hw hm hc => ?_,
      fun hv hu hw hm hc => ?_⟩
    · have hnone : (parseArm e.reach e.bytes).filter ArmEntry.valid = none := by
        rw [hparse]
        exact if_neg (mt (arm_valid_iff e).mp hbad)
      exact request_next (s := s) hr' (hwrite.trans (writeArm_of_no_entry hnone)) hs
    · exact request_next (s := s) hr' ((hcommit hv).trans (commit_of_used hu)) hs
    · exact request_next (s := s) hr' ((hcommit hv).trans (commit_of_wrongMode (hfree hu) hw)) hs
    · exact request_settles (s := s) hr'
        ((hcommit hv).trans (commit_of_plain (hfree hu) hw (Bool.eq_false_iff.mpr (mt hmetro.mp hm))))
    · exact request_next (s := s) hr' ((hcommit hv).trans (commit_of_locked (hfree hu) hw (hmetro.mpr hm) hc)) hs
    · exact request_settles (s := s) hr' ((hcommit hv).trans (commit_of_metro (hfree hu) hw (hmetro.mpr hm) hc))
  case emptied =>
    intro ix u wrongMode
    have hempty : s0.armWrite [ix, 0xFF#8] = s0.commit u (s0.holder n).isSome false (.arm n) 0x06#8 := emptyArm_of_arm s0 n
    have hfree : s0.holder n = none → (s0.holder n).isSome = false := fun h => by rw [h]; rfl
    refine ⟨fun hu => ?_, fun hu hw => ?_, fun hu hw => ?_⟩
    · exact request_next hr (hempty.trans (commit_of_used hu)) hs
    · exact request_next hr (hempty.trans (commit_of_wrongMode (hfree hu) hw)) hs
    · exact request_settles hr (hempty.trans (commit_of_plain (hfree hu) hw rfl))
  case badEmpty =>
    refine ⟨fun hq => ?_, fun hq hix => ?_⟩
    · refine request_next (owner := fun s => s.armWrite (ix :: 0xFF#8 :: q)) hr (armWrite_of_long_empty rfl ?_) hs
      simpa using hq
    · subst hq
      exact request_next (owner := fun s => s.armWrite [ix, 0xFF#8]) hr (emptyArm_of_no_arm (armOf_of_lt hix)) hs
  case malformed =>
    intro long
    refine ⟨fun hff hlen => request_next (s := s) hr (armWrite_of_long_empty hff hlen) hs, fun hff hbad => ?_,
      fun hreach hlong hindex => ?_⟩
    · cases q with
      | nil => exact request_next (s := s) hr rfl hs
      | cons ix e =>
        have hbyte : byteAt e 0 = byteAt (ix :: e) 1 := rfl
        by_cases hreach : (byteAt (ix :: e) 1).toNat ≤ 2
        · obtain ⟨r, hreachOf⟩ := reachOf_of_le hreach
          have hnot : ¬ (8 ≤ e.length ∧ e.length = 59 + 5 * (byteAt e 7).toNat) := fun ⟨h8, hlength⟩ =>
            hbad.elim (fun h => absurd h (by omega)) fun h => h ⟨Nat.succ_le_succ h8, by
              rw [List.length_cons, hlength]
              exact Nat.add_right_comm 59 _ 1⟩
          exact request_next (s := s) hr ((armWrite_of_reach hff hreachOf).trans (if_neg hnot)) hs
        · exact request_next (s := s) hr (armWrite_of_no_reach hff (reachOf_of_lt (by rw [hbyte]; omega))) hs
    · cases q with
      | nil => exact absurd hlong.1 (by simp)
      | cons ix e =>
        obtain ⟨h9, hlength⟩ := hlong
        obtain ⟨r, hreachOf⟩ := reachOf_of_le hreach
        have hff : byteAt e 0 ≠ 0xFF#8 := fun h => absurd (show (byteAt e 0).toNat ≤ 2 from hreach) (by rw [h]; decide)
        have hform : 8 ≤ e.length ∧ e.length = 59 + 5 * (byteAt e 7).toNat := by
          have hc : byteAt (ix :: e) 8 = byteAt e 7 := rfl
          rw [List.length_cons, hc] at hlength
          rw [List.length_cons] at h9
          omega
        have hwrite : s.armWrite (ix :: e) = s.writeArm ix r e := (armWrite_of_reach hff hreachOf).trans (if_pos hform)
        have hbad : s.writeArm ix r e = (s, .refuse .badValue) := by
          rcases hindex with h | h
          · exact writeArm_of_no_arm (armOf_of_lt h)
          · exact writeArm_of_no_entry (by rw [parseArm_of_bad_index h]; rfl)
        exact request_next (s := s) hr (hwrite.trans hbad) hs

end Sys2Proof.Machine
end

section
/-! PROOF. The injector table (R47, R48): entries as bytes, the ranges by the outlet map, and the write by the steps of R40. -/

namespace Sys2Proof.Machine

/-! ### Injector entries as bytes (R47) -/

theorem injModeOf_code (m : InjMode) : injModeOf m.code = some m := by cases m <;> rfl

theorem injMode_code_ne_FF (m : InjMode) : m.code ≠ 0xFF#8 := by cases m <;> decide

theorem injModeOf_of_lt {b : Byte} (h : 1 < b.toNat) : injModeOf b = none := by
  have hne : ∀ c : Byte, c.toNat ≤ 1 → b ≠ c := fun c hc e => by rw [e] at h; omega
  simp [injModeOf, hne]

theorem injModeOf_of_le {b : Byte} (h : b.toNat ≤ 1) : ∃ m, injModeOf b = some m := by
  have hb : b = 0#8 ∨ b = 1#8 := by bv_omega
  obtain rfl | rfl := hb
  · exact ⟨.shot, rfl⟩
  · exact ⟨.stream, rfl⟩

theorem outletOf_outletByte {o : Option Nat} (h : ∀ k, o = some k → k ≤ 5) : outletOf (outletByte o) = some o := by
  cases o with
  | none => rfl
  | some k =>
    have hk := h k rfl
    have hn : (BitVec.ofNat 8 k).toNat = k := by simp only [BitVec.toNat_ofNat]; omega
    have hne : BitVec.ofNat 8 k ≠ 0xFF#8 := by bv_omega
    rw [outletByte, outletOf, if_neg hne, hn, if_pos hk]

theorem outletOf_of_lt {b : Byte} (hne : b ≠ 0xFF#8) (h : 5 < b.toNat) : outletOf b = none := by
  rw [outletOf, if_neg hne, if_neg (by omega)]

theorem parseOutlets_of_bad_outlet {e : List Byte} {j : Nat} (hj : j < 6) (hne : byteAt e (3 + j) ≠ 0xFF#8)
    (h : 5 < (byteAt e (3 + j)).toNat) : parseOutlets e = none := by
  have hnone := outletOf_of_lt hne h
  unfold parseOutlets
  split
  case h_1 h0 h1 h2 h3 h4 h5 =>
    have hj' : j = 0 ∨ j = 1 ∨ j = 2 ∨ j = 3 ∨ j = 4 ∨ j = 5 := by omega
    rcases hj' with rfl | rfl | rfl | rfl | rfl | rfl <;> simp_all
  case h_2 => rfl

theorem injector_bytes_length (e : InjectorEntry) : e.bytes.length = 14 := by
  simp [InjectorEntry.bytes, beBytes_length]

theorem vector_six_eq {α : Type} (v : Vector α 6) : v = #v[v[0], v[1], v[2], v[3], v[4], v[5]] := by
  ext i hi
  have hcases : i = 0 ∨ i = 1 ∨ i = 2 ∨ i = 3 ∨ i = 4 ∨ i = 5 := by omega
  rcases hcases with rfl | rfl | rfl | rfl | rfl | rfl <;> rfl

/-- The numbers of the entry fit the fields they are written in, and its outlets are outlets. -/
def InjectorEntry.Fits (e : InjectorEntry) : Prop :=
  e.shotSize < 2 ^ 16 ∧ e.tolerance < 256 ∧ e.shotTimeout < 2 ^ 16 ∧ e.streamMin < 2 ^ 16 ∧
    ∀ (n : Arm) (k : Nat), e.outlets[n] = some k → k ≤ 5

section InjectorBytes

variable {e : InjectorEntry}

theorem injector_bytes_eq (e : InjectorEntry) : e.bytes = [e.mode.code] ++ beBytes 2 e.shotSize ++ (e.outlets.toList.map outletByte ++
    ([BitVec.ofNat 8 e.tolerance] ++ beBytes 2 e.shotTimeout ++ beBytes 2 e.streamMin)) := by
  simp only [InjectorEntry.bytes, List.append_assoc]
  rfl

theorem injector_bytes_outlet (e : InjectorEntry) (n : Arm) : byteAt e.bytes (3 + n.val) = outletByte e.outlets[n] := by
  rw [injector_bytes_eq, ← byteAt_drop, List.drop_left' (by simp [beBytes_length])]
  simp [byteAt, List.getD_eq_getElem?_getD, List.getElem?_append]

theorem injector_bytes_limits (e : InjectorEntry) :
    e.bytes.drop 9 = [BitVec.ofNat 8 e.tolerance] ++ beBytes 2 e.shotTimeout ++ beBytes 2 e.streamMin := by
  rw [injector_bytes_eq, ← List.append_assoc, List.drop_left' (by simp [beBytes_length])]

theorem parseOutlets_bytes (h : ∀ (n : Arm) (k : Nat), e.outlets[n] = some k → k ≤ 5) : parseOutlets e.bytes = some e.outlets := by
  have hread : ∀ n : Arm, outletOf (byteAt e.bytes (3 + n.val)) = some e.outlets[n] := fun n => by
    rw [injector_bytes_outlet, outletOf_outletByte (h n)]
  have h0 : outletOf (byteAt e.bytes 3) = some e.outlets[0] := hread 0
  have h1 : outletOf (byteAt e.bytes 4) = some e.outlets[1] := hread 1
  have h2 : outletOf (byteAt e.bytes 5) = some e.outlets[2] := hread 2
  have h3 : outletOf (byteAt e.bytes 6) = some e.outlets[3] := hread 3
  have h4 : outletOf (byteAt e.bytes 7) = some e.outlets[4] := hread 4
  have h5 : outletOf (byteAt e.bytes 8) = some e.outlets[5] := hread 5
  rw [parseOutlets, h0, h1, h2, h3, h4, h5]
  exact congrArg some (vector_six_eq e.outlets).symm

/-- An injector entry is read back as it was written (R47). -/
theorem parseInjector_bytes (h : e.Fits) : parseInjector e.mode e.bytes = some e := by
  obtain ⟨hshot, htol, htime, hmin, hout⟩ := h
  have hsize : fieldAt e.bytes 1 2 = e.shotSize := by
    rw [injector_bytes_eq]
    exact fieldAt_append [e.mode.code] _ hshot
  have htolerance : (byteAt e.bytes 9).toNat = e.tolerance := by
    have hbyte := byteAt_drop e.bytes 9 0
    rw [injector_bytes_limits] at hbyte
    rw [← hbyte]
    exact Nat.mod_eq_of_lt htol
  have htimeout : fieldAt e.bytes 10 2 = e.shotTimeout := by
    rw [show 10 = 9 + 1 from rfl, ← fieldAt_drop, injector_bytes_limits]
    exact fieldAt_append [BitVec.ofNat 8 e.tolerance] _ htime
  have hstream : fieldAt e.bytes 12 2 = e.streamMin := by
    rw [show 12 = 9 + 3 from rfl, ← fieldAt_drop, injector_bytes_limits,
      fieldAt_append_right (by simp [beBytes_length]), ← List.append_nil (beBytes 2 e.streamMin)]
    simpa [beBytes_length] using fieldAt_zero_append (k := 2) hmin []
  rw [parseInjector, parseOutlets_bytes hout, hsize, htolerance, htimeout, hstream]
  rfl

end InjectorBytes

/-! ### The ranges (R47) -/

theorem injector_served_eq (e : InjectorEntry) : e.served = allArms.filterMap fun n => e.outlets[n] := by
  have hlist : e.outlets.toList = allArms.map fun n : Arm => e.outlets[n] := by
    rw [allArms_eq_finRange]
    exact List.ext_getElem (by simp) fun i h1 h2 => by simp only [Vector.getElem_toList, List.getElem_map, List.getElem_finRange]; rfl
  rw [InjectorEntry.served, hlist, List.filterMap_map]
  rfl

theorem one_le_served_iff (e : InjectorEntry) : 1 ≤ e.served.length ↔ ∃ n : Arm, (e.outlets[n]).isSome := by
  rw [injector_served_eq, Nat.one_le_iff_ne_zero, ← Nat.pos_iff_ne_zero, List.length_pos_iff_exists_mem]
  simp only [List.mem_filterMap, mem_allArms, true_and, Option.isSome_iff_exists]
  exact exists_comm

theorem forall_ne_of_pairwise {α : Type} {R : α → α → Prop} (hsymm : ∀ x y, R x y → R y x) {l : List α} (h : l.Pairwise R) {a b : α}
    (ha : a ∈ l) (hb : b ∈ l) (hne : a ≠ b) : R a b := by
  induction h with
  | nil => exact nomatch ha
  | cons hx _ ih =>
    rcases List.mem_cons.mp ha with rfl | hal
    · rcases List.mem_cons.mp hb with rfl | hbl
      · exact absurd rfl hne
      · exact hx _ hbl
    · rcases List.mem_cons.mp hb with rfl | hbl
      · exact hsymm _ _ (hx _ hal)
      · exact ih hal hbl

theorem served_nodup_iff (e : InjectorEntry) :
    e.served.Nodup ↔ ∀ (m n : Arm) (k : Nat), e.outlets[m] = some k → e.outlets[n] = some k → m = n := by
  have hnodup : allArms.Nodup := by decide
  have hiff : e.served.Nodup ↔ allArms.Pairwise fun m n => ∀ k, e.outlets[m] = some k → ∀ j, e.outlets[n] = some j → k ≠ j := by
    rw [injector_served_eq, List.Nodup, List.pairwise_filterMap]
  rw [hiff]
  constructor
  · intro h m n k hm hn
    refine Classical.byContradiction fun hne => ?_
    exact forall_ne_of_pairwise (fun x y hxy k hx j hy hkj => hxy j hy k hx hkj.symm) h (mem_allArms m) (mem_allArms n) hne k hm k hn rfl
  · intro h
    refine hnodup.imp fun {x y} hne k hx j hy hkj => hne (h x y k hx ?_)
    rw [hkj, hy]

theorem served_length_eq_one_iff (e : InjectorEntry) :
    e.served.length = 1 ↔ ∃ n : Arm, ∀ m : Arm, (e.outlets[m]).isSome = true ↔ m = n := by
  rw [injector_served_eq, List.length_filterMap_eq_countP, List.countP_eq_length_filter, allArms_eq_finRange,
    length_filter_finRange_eq_one_iff]

/-- The ranges and conditions of an injector entry (R47). -/
def InjectorEntry.InRange (e : InjectorEntry) : Prop :=
  1 ≤ e.shotSize ∧ e.shotSize ≤ 5000 ∧ 1 ≤ e.tolerance ∧ e.tolerance ≤ 20 ∧ 200 ≤ e.shotTimeout ∧
    e.shotTimeout ≤ 5000 ∧ 1 ≤ e.streamMin ∧ e.streamMin ≤ 50000 ∧ (∃ n : Arm, (e.outlets[n]).isSome) ∧
    (∀ (m n : Arm) (k : Nat), e.outlets[m] = some k → e.outlets[n] = some k → m = n) ∧
    (e.mode = .stream → ∀ m n : Arm, (e.outlets[m]).isSome → (e.outlets[n]).isSome → m = n)

theorem injector_valid_iff (e : InjectorEntry) : e.valid = true ↔ e.InRange := by
  have hmode : (∃ n : Arm, (e.outlets[n]).isSome) → ((e.mode = .shot ∨ e.served.length = 1) ↔
      (e.mode = .stream → ∀ m n : Arm, (e.outlets[m]).isSome → (e.outlets[n]).isSome → m = n)) := by
    rintro ⟨a, ha⟩
    rw [served_length_eq_one_iff]
    cases e.mode with
    | shot => simp
    | stream =>
      simp only [reduceCtorEq, false_or, true_imp_iff]
      refine ⟨fun ⟨n, hn⟩ x y hx hy => ((hn x).mp hx).trans ((hn y).mp hy).symm, fun h => ⟨a, fun m => ⟨fun hm => h m a hm ha, ?_⟩⟩⟩
      rintro rfl
      exact ha
  simp only [InjectorEntry.valid, InjectorEntry.InRange, Bool.and_eq_true, Bool.or_eq_true, decide_eq_true_eq, one_le_served_iff,
    distinct_iff_nodup, served_nodup_iff, and_assoc]
  constructor
  · rintro ⟨h1, h2, h3, h4, h5, h6, h7, h8, h9, h10, h11⟩
    exact ⟨h1, h2, h3, h4, h5, h6, h7, h8, h9, h10, (hmode h9).mp h11⟩
  · rintro ⟨h1, h2, h3, h4, h5, h6, h7, h8, h9, h10, h11⟩
    exact ⟨h1, h2, h3, h4, h5, h6, h7, h8, h9, h10, (hmode h9).mpr h11⟩

/-- The injector entry is in use (R51): by what its slot does or by a schedule that names it. -/
theorem injectorUsed_iff (s : State) (i : DevIx) : s.injectorUsed i = true ↔
    (∃ x, s.slot i = some x ∧ (x.queue ≠ [] ∨ x.stream.state ≠ .idle ∨ x.flight.isSome)) ∨
      ∃ n : Arm, ∃ c ∈ s.schedules n, c.injector = i := by
  rw [State.injectorUsed, State.injectorBusy, State.scheduleNames]
  cases s.slot i <;> simp [mem_allArms, or_assoc]

/-! ### TABLE WRITE 07H by the form of its bytes -/

section InjectorWrite

variable {s : State} {ix : Byte} {e : List Byte}

theorem injectorWrite_of_long_empty {q : List Byte} (h : byteAt q 1 = 0xFF#8) (hlen : q.length ≠ 2) :
    s.injectorWrite q = (s, .refuse .badFormat) := by
  cases q with
  | nil => rfl
  | cons ix e =>
    have h0 : byteAt e 0 = 0xFF#8 := h
    exact (if_pos h0).trans (if_neg fun h1 => hlen (by rw [List.length_cons, h1]))

theorem injectorWrite_of_no_mode (h : byteAt e 0 ≠ 0xFF#8) (hm : injModeOf (byteAt e 0) = none) :
    s.injectorWrite (ix :: e) = (s, .refuse .badFormat) := by
  rw [State.injectorWrite, if_neg h, hm]
  rfl

theorem injectorWrite_of_mode {m : InjMode} (h : byteAt e 0 ≠ 0xFF#8) (hm : injModeOf (byteAt e 0) = some m) :
    s.injectorWrite (ix :: e) = if e.length = 14 then s.writeInjector ix m e else (s, .refuse .badFormat) := by
  rw [State.injectorWrite, if_neg h, hm]
  rfl

theorem writeInjector_of_no_index {m : InjMode} (h : devIxOf ix = none) : s.writeInjector ix m e = (s, .refuse .badValue) := by
  rw [State.writeInjector, h]
  rfl

theorem writeInjector_of_no_entry {m : InjMode} (h : (parseInjector m e).filter InjectorEntry.valid = none) :
    s.writeInjector ix m e = (s, .refuse .badValue) := by
  unfold State.writeInjector
  rw [h]
  cases devIxOf ix <;> rfl

theorem writeInjector_of_entry {i : DevIx} {m : InjMode} {x : InjectorEntry} (hi : devIxOf ix = some i)
    (h : (parseInjector m e).filter InjectorEntry.valid = some x) :
    s.writeInjector ix m e = if (s.slot i).isNone ∧ 8 ≤ s.injectorCount then (s, .refuse .tableFull)
      else s.commit (s.putInjector i x) (s.injectorUsed i) false .none 0x07#8 := by
  rw [State.writeInjector, hi, h]
  rfl

theorem parseInjector_of_bad_outlet {m : InjMode} {j : Nat} (hj : j < 6) (hne : byteAt e (3 + j) ≠ 0xFF#8)
    (h : 5 < (byteAt e (3 + j)).toNat) : parseInjector m e = none := by
  rw [parseInjector, parseOutlets_of_bad_outlet hj hne h]
  rfl

theorem emptyInjector_of_index (s : State) (i : DevIx) : s.emptyInjector (BitVec.ofNat 8 i.val) =
    s.commit (s.setSlot i none) (s.injectorUsed i) false .none 0x07#8 := by
  rw [State.emptyInjector, devIxOf_ofNat]

theorem emptyInjector_of_no_index (h : devIxOf ix = none) : s.emptyInjector ix = (s, .refuse .badValue) := by
  rw [State.emptyInjector, h]
  rfl

end InjectorWrite

theorem putInjector_eq (s : State) (i : DevIx) (e : InjectorEntry) : s.putInjector i e = s.setSlot i (some
    (match s.slot i with
      | none => ⟨e, [], none, none, Stream.idle⟩
      | some x => { x with entry := e })) := by
  unfold State.putInjector
  cases s.slot i <;> rfl

/-- Settles O30: the form, the ranges by the outlet map, the table's room, then the steps of the shared judgement; and the emptying. -/
theorem injectorWriteEffect : Obligations.InjectorWriteEffect := by
  intro s hs used count
  have hused : ∀ i, s.injectorUsed i = true ↔ used i := injectorUsed_iff s
  have hfree : ∀ {i}, ¬ used i → s.injectorUsed i = false := fun h => Bool.eq_false_iff.mpr (mt (hused _).mp h)
  refine ⟨fun i e hr hshot htol htime hmin hout => ?written, fun i hr => ?emptied, fun ix q hr => ?badEmpty, fun q hr => ?malformed⟩
  case written =>
    intro valid q u wrongMode
    have hr' : s.Reaches (1 + q.length) := (show 16 = 1 + q.length by simp only [q, List.length_cons, injector_bytes_length]) ▸ hr
    have hwrite : s.injectorWrite q = s.writeInjector (BitVec.ofNat 8 i.val) e.mode e.bytes :=
      (injectorWrite_of_mode (e := e.bytes) (injMode_code_ne_FF e.mode) (injModeOf_code e.mode)).trans
        (if_pos (injector_bytes_length e))
    have hparse := parseInjector_bytes ⟨hshot, htol, htime, hmin, hout⟩
    have hput : s.putInjector i e = u := putInjector_eq s i e
    have hentry : valid → s.injectorWrite q = if (s.slot i).isNone ∧ 8 ≤ count then (s, .refuse .tableFull)
        else s.commit u (s.injectorUsed i) false .none 0x07#8 := fun hv => by
      rw [← hput]
      exact hwrite.trans (writeInjector_of_entry (devIxOf_ofNat i) (by rw [hparse]; exact if_pos ((injector_valid_iff e).mpr hv)))
    have hcommit : valid → s.slot i ≠ none ∨ count < 8 →
        s.injectorWrite q = s.commit u (s.injectorUsed i) false .none 0x07#8 := fun hv hroom =>
      (hentry hv).trans (if_neg fun ⟨hnone, hfull⟩ =>
        hroom.elim (fun h => h (Option.isNone_iff_eq_none.mp hnone)) fun h => absurd hfull (by omega))
    refine ⟨fun hbad => ?_, fun hv hnone hfull => ?_, fun hv hroom hu => ?_, fun hv hroom hu hw => ?_, fun hv hroom hu hw => ?_⟩
    · have hnone : (parseInjector e.mode e.bytes).filter InjectorEntry.valid = none := by
        rw [hparse]
        exact if_neg (mt (injector_valid_iff e).mp hbad)
      exact request_next hr' (hwrite.trans (writeInjector_of_no_entry hnone)) hs
    · exact request_next hr' ((hentry hv).trans (if_pos ⟨by rw [hnone]; rfl, hfull⟩)) hs
    · exact request_next hr' ((hcommit hv hroom).trans (commit_of_used ((hused i).mpr hu))) hs
    · exact request_next hr' ((hcommit hv hroom).trans (commit_of_wrongMode (hfree hu) hw)) hs
    · exact request_next hr' ((hcommit hv hroom).trans (commit_of_plain (hfree hu) hw rfl)) hs
  case emptied =>
    intro ix u wrongMode
    have hempty : s.injectorWrite [ix, 0xFF#8] = s.commit u (s.injectorUsed i) false .none 0x07#8 := emptyInjector_of_index s i
    refine ⟨fun hu => ?_, fun hu hw => ?_, fun hu hw => ?_⟩
    · exact request_next hr (hempty.trans (commit_of_used ((hused i).mpr hu))) hs
    · exact request_next hr (hempty.trans (commit_of_wrongMode (hfree hu) hw)) hs
    · exact request_next hr (hempty.trans (commit_of_plain (hfree hu) hw rfl)) hs
  case badEmpty =>
    refine ⟨fun hq => ?_, fun hq hix => ?_⟩
    · refine request_next (owner := fun s => s.injectorWrite (ix :: 0xFF#8 :: q)) hr (injectorWrite_of_long_empty rfl ?_) hs
      simpa using hq
    · subst hq
      exact request_next (owner := fun s => s.injectorWrite [ix, 0xFF#8]) hr (emptyInjector_of_no_index (devIxOf_of_lt hix)) hs
  case malformed =>
    refine ⟨fun hff hlen => request_next hr (injectorWrite_of_long_empty hff hlen) hs, fun hff hbad => ?_,
      fun hmode hlen hindex => ?_⟩
    · cases q with
      | nil => exact request_next hr rfl hs
      | cons ix e =>
        by_cases hmode : (byteAt e 0).toNat ≤ 1
        · obtain ⟨m, hm⟩ := injModeOf_of_le hmode
          have hnot : ¬ e.length = 14 := fun h => hbad.elim (fun h1 => absurd (show 1 < (byteAt e 0).toNat from h1) (by omega))
            fun h15 => h15 (by rw [List.length_cons, h])
          exact request_next hr ((injectorWrite_of_mode hff hm).trans (if_neg hnot)) hs
        · exact request_next hr (injectorWrite_of_no_mode hff (injModeOf_of_lt (by omega))) hs
    · cases q with
      | nil => exact absurd hlen (by simp)
      | cons ix e =>
        obtain ⟨m, hm⟩ := injModeOf_of_le (b := byteAt e 0) hmode
        have hff : byteAt e 0 ≠ 0xFF#8 := fun h => absurd (show (byteAt e 0).toNat ≤ 1 from hmode) (by rw [h]; decide)
        have hwrite : s.injectorWrite (ix :: e) = s.writeInjector ix m e :=
          (injectorWrite_of_mode hff hm).trans (if_pos (Nat.succ.inj hlen))
        have hbad : s.writeInjector ix m e = (s, .refuse .badValue) := by
          rcases hindex with h | ⟨j, hj, hne, h⟩
          · exact writeInjector_of_no_index (devIxOf_of_lt h)
          · have hbyte : byteAt (ix :: e) (4 + j) = byteAt e (3 + j) := by
              rw [show 4 + j = (3 + j) + 1 by omega]
              rfl
            exact writeInjector_of_no_entry (by rw [parseInjector_of_bad_outlet hj (hbyte ▸ hne) (hbyte ▸ h)]; rfl)
        exact request_next hr (hwrite.trans hbad) hs

end Sys2Proof.Machine
end

section
/-! PROOF. What a halt leaves (R76, R88), stated once without the additive scheduler's records: the desired stage, the state of a batch,
the way into STOPPING, the halt, and halts of several arms in turn. -/

namespace Sys2Proof.Machine

/-! ### Operations and the state without the additive scheduler -/

theorem setArm_sans (s : State) (n : Arm) (r : ArmRec) : (s.setArm n r).sansAdditive = s.sansAdditive.setArm n r := rfl

theorem raiseNotice_sans (s : State) (kind : NoticeKind) (subject : Subject) (code : Byte) :
    (s.raiseNotice kind subject code).sansAdditive = s.sansAdditive.raiseNotice kind subject code := rfl

theorem modBatch_of_holder {s : State} {n : Arm} {b : Batch} (h : s.holder n = some b) (f : Batch → Batch) :
    s.modBatch n f = s.setArm n { s.arm n with holder := some (f b) } := by
  rw [State.modBatch, h]
  rfl

theorem meterOnline_of_sans {s t : State} (h : t.sansAdditive = s.sansAdditive) (n : Arm) : t.meterOnline n = s.meterOnline n := by
  unfold State.meterOnline State.armEntry State.deviceOfKind
  simp only [batch_of_sans h, device_of_sans h]

theorem metering_of_sans {s t : State} (h : t.sansAdditive = s.sansAdditive) (n : Arm) : t.metering n = s.metering n := by
  rw [State.metering, State.metering, meter_of_sans h]

/-! ### The desired stage (R76) -/

/-- The arm record that wants a stage: a change restarts the travel timer and takes the excess count to 0 (R91). -/
def ArmRec.want (r : ArmRec) (st : Stage) (timeout : Nat) : ArmRec :=
  if r.desired = st then r else { r with desired := st, travelTimer := some timeout, excess := 0 }

@[simp] theorem want_desired (r : ArmRec) (st : Stage) (k : Nat) : (r.want st k).desired = st := by
  unfold ArmRec.want
  split
  · assumption
  · rfl

@[simp] theorem want_holder (r : ArmRec) (st : Stage) (k : Nat) : (r.want st k).holder = r.holder := by
  unfold ArmRec.want
  split <;> rfl

@[simp] theorem want_stopLead (r : ArmRec) (st : Stage) (k : Nat) : (r.want st k).stopLead = r.stopLead := by
  unfold ArmRec.want
  split <;> rfl

@[simp] theorem want_starts (r : ArmRec) (st : Stage) (k : Nat) : (r.want st k).starts = r.starts := by
  unfold ArmRec.want
  split <;> rfl

@[simp] theorem want_reported (r : ArmRec) (st : Stage) (k : Nat) : (r.want st k).reported = r.reported := by
  unfold ArmRec.want
  split <;> rfl

theorem want_of_desired {r : ArmRec} {st : Stage} (h : r.desired = st) (k : Nat) : r.want st k = r := if_pos h

theorem want_holder_update (r : ArmRec) (st : Stage) (k : Nat) (h : Option Batch) :
    { r.want st k with holder := h } = ArmRec.want { r with holder := h } st k := by
  unfold ArmRec.want
  split <;> rfl

theorem setDesired_sans (s : State) (n : Arm) (st : Stage) : (s.setDesired n st).sansAdditive =
    (s.setArm n ((s.arm n).want st s.batch.settings.noFlowTimeout)).sansAdditive := by
  unfold State.setDesired ArmRec.want
  split
  · rw [setArm_arm]
  · rfl

theorem setBatchState_sans {s : State} {n : Arm} {b : Batch} (h : s.holder n = some b) (st : BatchState) :
    (s.setBatchState n st).sansAdditive = (s.setArm n (ArmRec.want { s.arm n with holder := some { b with state := st } }
      (desiredFor st b.degraded) s.batch.settings.noFlowTimeout)).sansAdditive := by
  rw [State.setBatchState, h]
  dsimp only
  rw [setDesired_sans, modBatch_of_holder h, arm_setArm_self, setArm_setArm]
  rfl

/-! ### Into STOPPING, and the halt (R84, R88) -/

/-- The batch as it enters STOPPING for a reason. -/
def State.stopped (s : State) (n : Arm) (r : StopReason) (b : Batch) : Batch :=
  { b with
    state := .stopping
    stopReason := some r
    noFlowTimer := none
    stopTimer := if s.meterOnline n then b.stopTimer else some s.batch.settings.noFlowTimeout }

theorem enterStopping_sans {s : State} {n : Arm} {b : Batch} (h : s.holder n = some b) (r : StopReason) :
    (s.enterStopping n r).sansAdditive = (s.setArm n (ArmRec.want { s.arm n with holder := some (s.stopped n r b) }
      .closed s.batch.settings.noFlowTimeout)).sansAdditive := by
  rw [State.enterStopping, leaveFlowing_sans]
  generalize hv : (s.modBatch n fun b => { b with stopReason := some r, noFlowTimer := none }).setBatchState n .stopping = v
  have hsans : v.sansAdditive = (s.setArm n (ArmRec.want { s.arm n with
      holder := some { b with state := .stopping, stopReason := some r, noFlowTimer := none } }
      .closed s.batch.settings.noFlowTimeout)).sansAdditive := by
    rw [← hv, setBatchState_sans (b := { b with stopReason := some r, noFlowTimer := none }) (by simp [h]), modBatch_of_holder h,
      arm_setArm_self, setArm_setArm]
    rfl
  have honline : v.meterOnline n = s.meterOnline n := meterOnline_of_sans hsans n
  rw [State.startStopTimerIfLost, honline]
  split
  case isTrue hon => rw [hsans, State.stopped, if_pos hon]
  case isFalse hoff =>
    have harm := arm_of_sans hsans n
    rw [arm_setArm_self] at harm
    have hholder : v.holder n = some { b with state := .stopping, stopReason := some r, noFlowTimer := none } := by
      rw [State.holder, harm, want_holder]
    have htime : v.batch.settings = s.batch.settings := by rw [batch_of_sans hsans]; rfl
    rw [modBatch_of_holder hholder, setArm_sans, hsans, ← setArm_sans, setArm_setArm, harm, want_holder_update, State.stopped,
      if_neg hoff, htime]

/-- The batch after a halt (R88 steps 1 to 6). -/
def State.haltedBatch (s : State) (n : Arm) (r : StopReason) (b : Batch) : Batch := s.stopped n r (b.clearCounts r)

/-- The arm record after a halt of its batch. -/
def State.haltedArm (s : State) (n : Arm) (r : StopReason) (b : Batch) : ArmRec :=
  ArmRec.want { s.arm n with holder := some (s.haltedBatch n r b) } .closed s.batch.settings.noFlowTimeout

theorem stopBatch_sans {s : State} {n : Arm} {b : Batch} (h : s.holder n = some b) (r : StopReason) :
    (s.stopBatch n r).sansAdditive =
      ((s.setArm n (s.haltedArm n r b)).raiseNotice .batchHalted (.arm n) r.code).sansAdditive := by
  rw [State.stopBatch, raiseNotice_sans, enterStopping_sans (b := b.clearCounts r) (by simp [h]), modBatch_of_holder h,
    arm_setArm_self, setArm_setArm]
  rfl

theorem haltBatch_sans {s : State} {n : Arm} {b : Batch} (h : s.holder n = some b) (hb : b.state.haltable = true)
    (r : StopReason) : (s.haltBatch n r).sansAdditive =
      ((s.setArm n (s.haltedArm n r b)).raiseNotice .batchHalted (.arm n) r.code).sansAdditive := by
  rw [State.haltBatch, if_pos (by simp [h, hb]), stopBatch_sans h]

theorem haltBatch_of_still {s : State} {n : Arm} (h : ∀ b, s.holder n = some b → b.state.haltable = false) (r : StopReason) :
    s.haltBatch n r = s := by
  refine if_neg fun hany => ?_
  obtain ⟨b, hb, hh⟩ := (Option.any_eq_true ..).mp hany
  rw [h b hb] at hh
  exact Bool.noConfusion hh

/-- A halt does nothing, or it is the halt of the batch that holds the arm. -/
theorem haltBatch_cases (s : State) (n : Arm) (r : StopReason) : s.haltBatch n r = s ∨
    ∃ b, s.holder n = some b ∧ b.state.haltable = true ∧ (s.haltBatch n r).sansAdditive =
      ((s.setArm n (s.haltedArm n r b)).raiseNotice .batchHalted (.arm n) r.code).sansAdditive := by
  by_cases h : ∃ b, s.holder n = some b ∧ b.state.haltable = true
  · obtain ⟨b, hb, hh⟩ := h
    exact .inr ⟨b, hb, hh, haltBatch_sans hb hh r⟩
  · exact .inl (haltBatch_of_still (fun b hb => Bool.eq_false_iff.mpr fun hh => h ⟨b, hb, hh⟩) r)

/-- What no halt changes. -/
structure SameBay (s t : State) : Prop where
  load : t.load = s.load
  permits : t.permits = s.permits
  meter : t.meter = s.meter
  note : t.note = s.note
  time : t.time = s.time
  pads : t.pads = s.pads
  devices : t.scan.devices = s.scan.devices
  batch : t.batch = { s.batch with arms := t.batch.arms }

theorem SameBay.refl (s : State) : SameBay s s := ⟨rfl, rfl, rfl, rfl, rfl, rfl, rfl, rfl⟩

theorem SameBay.trans {s t u : State} (h : SameBay s t) (k : SameBay t u) : SameBay s u where
  load := k.load.trans h.load
  permits := k.permits.trans h.permits
  meter := k.meter.trans h.meter
  note := k.note.trans h.note
  time := k.time.trans h.time
  pads := k.pads.trans h.pads
  devices := k.devices.trans h.devices
  batch := by rw [k.batch, h.batch]

theorem SameBay.of_sans {s t : State} (h : t.sansAdditive = s.sansAdditive) : SameBay s t where
  load := load_of_sans h
  permits := permits_of_sans h
  meter := meter_of_sans h
  note := note_of_sans h
  time := time_of_sans h
  pads := pads_of_sans h
  devices := by rw [scan_of_sans h]
  batch := by rw [batch_of_sans h]

theorem SameBay.device {s t : State} (h : SameBay s t) (i : DevIx) : t.device i = s.device i := by
  rw [State.device, h.devices, State.device]

theorem SameBay.armEntry {s t : State} (h : SameBay s t) (n : Arm) : t.armEntry n = s.armEntry n := by
  rw [State.armEntry, h.batch, State.armEntry]

theorem SameBay.metering {s t : State} (h : SameBay s t) (n : Arm) : t.metering n = s.metering n := by
  rw [State.metering, h.meter, State.metering]

theorem SameBay.permissive {s t : State} (h : SameBay s t) : t.batch.permissive = s.batch.permissive := by
  rw [h.batch]

theorem SameBay.settings {s t : State} (h : SameBay s t) : t.batch.settings = s.batch.settings := by
  rw [h.batch]

theorem SameBay.meterOnline {s t : State} (h : SameBay s t) (n : Arm) : t.meterOnline n = s.meterOnline n := by
  simp only [State.meterOnline, State.deviceOfKind, h.armEntry, h.device]

theorem haltBatch_same (s : State) (n : Arm) (r : StopReason) : SameBay s (s.haltBatch n r) := by
  rcases haltBatch_cases s n r with h | ⟨b, -, -, h⟩
  · rw [h]
    exact .refl s
  · exact .trans (t := (s.setArm n (s.haltedArm n r b)).raiseNotice .batchHalted (.arm n) r.code)
      ⟨rfl, rfl, rfl, rfl, rfl, rfl, rfl, rfl⟩ (.of_sans h)

theorem haltBatch_arm_other (s : State) {m n : Arm} (h : m ≠ n) (r : StopReason) : (s.haltBatch n r).arm m = s.arm m := by
  rcases haltBatch_cases s n r with hc | ⟨b, -, -, hc⟩
  · rw [hc]
  · exact (arm_of_sans hc m).trans (arm_setArm_other s h _)

theorem haltBatch_arm_self {s : State} {n : Arm} {b : Batch} (h : s.holder n = some b) (hb : b.state.haltable = true)
    (r : StopReason) : (s.haltBatch n r).arm n = s.haltedArm n r b :=
  (arm_of_sans (haltBatch_sans h hb r) n).trans (arm_setArm_self s n _)

theorem haltBatch_port {s : State} {n : Arm} {b : Batch} (h : s.holder n = some b) (hb : b.state.haltable = true)
    (r : StopReason) : (s.haltBatch n r).port = (s.raiseNotice .batchHalted (.arm n) r.code).port :=
  (port_of_sans (haltBatch_sans h hb r)).trans rfl

/-- The arm's batch is stopped for a reason and its desired stage CLOSED. -/
def State.HaltedFor (v : State) (n : Arm) (r : StopReason) : Prop :=
  ∃ c, v.holder n = some c ∧ c.state = .stopping ∧ c.stopReason = some r ∧ (v.arm n).desired = .closed

theorem haltedFor_of_arm {v : State} {s : State} {n : Arm} {r : StopReason} {b : Batch} (h : v.arm n = s.haltedArm n r b) :
    v.HaltedFor n r := by
  refine ⟨s.haltedBatch n r b, ?_, rfl, rfl, ?_⟩
  · rw [State.holder, h, State.haltedArm, want_holder]
  · rw [h, State.haltedArm, want_desired]

/-! ### Several arms in turn -/

/-- What holds until an arm's turn, what its turn makes of it, and what holds from then on. -/
theorem foldl_allArms_turn {f : State → Arm → State} {P Q : State → Prop} (n : Arm) (hbefore : ∀ s m, m ≠ n → P s → P (f s m))
    (hturn : ∀ s, P s → Q (f s n)) (hafter : ∀ s m, m ≠ n → Q s → Q (f s m)) {s : State} (h : P s) :
    Q (allArms.foldl f s) := by
  have hall : ∀ (l : List Arm) (R : State → Prop), n ∉ l → (∀ s m, m ≠ n → R s → R (f s m)) → ∀ s, R s → R (l.foldl f s) := by
    intro l R hl hR
    induction l with
    | nil => exact fun _ h => h
    | cons m l ih =>
      rw [List.mem_cons, not_or] at hl
      exact fun s h => ih hl.2 _ (hR s m (Ne.symm hl.1) h)
  obtain ⟨front, back, hsplit⟩ := List.append_of_mem (mem_allArms n)
  have hnodup : (front ++ n :: back).Nodup := hsplit ▸ (by decide : allArms.Nodup)
  obtain ⟨-, hback, hdisjoint⟩ := List.nodup_append.mp hnodup
  have hfront : n ∉ front := fun hm => hdisjoint n hm n (List.mem_cons_self ..) rfl
  rw [hsplit, List.foldl_append, List.foldl_cons]
  exact hall back Q (List.nodup_cons.mp hback).1 hafter _ (hturn _ (hall front P hfront hbefore s h))

/-- What every turn keeps. -/
theorem foldl_allArms_keeps {f : State → Arm → State} {P : State → Prop} (hf : ∀ s m, P s → P (f s m)) {s : State} (h : P s) :
    P (allArms.foldl f s) :=
  foldl_allArms_turn 0 (fun s m _ => hf s m) (fun s => hf s 0) (fun s m _ => hf s m) h

/-- Turns that all leave one state as it is. -/
theorem foldl_allArms_idle {f : State → Arm → State} {s : State} (h : ∀ m, f s m = s) : allArms.foldl f s = s :=
  foldl_allArms_keeps (P := (· = s)) (fun _ m e => e ▸ h m) rfl

/-- Turns of which each halts its arm's batch or does nothing: the turn of an arm that is halted in the first place. -/
theorem foldl_halts_arm {f : State → Arm → State} {r : StopReason} (hf : ∀ u m, f u m = u ∨ f u m = u.haltBatch m r) {s : State}
    {n : Arm} {b : Batch} (hb : s.holder n = some b) (hh : b.state.haltable = true)
    (hturn : ∀ u, SameBay s u → u.arm n = s.arm n → f u n = u.haltBatch n r) :
    (allArms.foldl f s).arm n = s.haltedArm n r b := by
  refine foldl_allArms_turn (P := fun u => SameBay s u ∧ u.arm n = s.arm n) (Q := fun u => u.arm n = s.haltedArm n r b) n
    (fun u m hm ⟨hsame, harm⟩ => ?_) (fun u ⟨hsame, harm⟩ => ?_) (fun u m hm harm => ?_) ⟨SameBay.refl s, rfl⟩
  · rcases hf u m with h | h <;> rw [h]
    · exact ⟨hsame, harm⟩
    · exact ⟨hsame.trans (haltBatch_same u m r), (haltBatch_arm_other u (Ne.symm hm) r).trans harm⟩
  · rw [hturn u hsame harm, haltBatch_arm_self (b := b) (by rw [State.holder, harm]; exact hb) hh]
    simp only [State.haltedArm, State.haltedBatch, State.stopped, hsame.meterOnline, hsame.settings, harm]
  · rcases hf u m with h | h <;> rw [h]
    · exact harm
    · exact (haltBatch_arm_other u (Ne.symm hm) r).trans harm

theorem foldl_halts_same {f : State → Arm → State} {r : StopReason} (hf : ∀ u m, f u m = u ∨ f u m = u.haltBatch m r) (s : State) :
    SameBay s (allArms.foldl f s) :=
  foldl_allArms_keeps (P := SameBay s) (fun u m h => by
    rcases hf u m with hc | hc <;> rw [hc]
    · exact h
    · exact h.trans (haltBatch_same u m r)) (.refl s)

/-- Arms halted in turn where a test on their batches says so. -/
def State.haltWhere (s : State) (p : Arm → Batch → Bool) (r : StopReason) : State :=
  allArms.foldl (fun s n => if (s.holder n).any (p n) then s.haltBatch n r else s) s

section HaltWhere

variable {s : State} {p : Arm → Batch → Bool} {r : StopReason}

theorem haltWhere_turn (u : State) (m : Arm) : (if (u.holder m).any (p m) then u.haltBatch m r else u) = u ∨
    (if (u.holder m).any (p m) then u.haltBatch m r else u) = u.haltBatch m r := by
  split
  · exact .inr rfl
  · exact .inl rfl

theorem haltWhere_same : SameBay s (s.haltWhere p r) := foldl_halts_same haltWhere_turn s

theorem haltWhere_idle (h : ∀ n b, s.holder n = some b → p n b = true → b.state.haltable = false) : s.haltWhere p r = s := by
  refine foldl_allArms_idle fun m => ?_
  split
  case isTrue hany =>
    obtain ⟨b, hb, hp⟩ := (Option.any_eq_true ..).mp hany
    exact haltBatch_of_still (fun c hc => h m c hc (by rw [hb, Option.some.injEq] at hc; rwa [← hc])) r
  case isFalse => rfl

/-- The turn of an arm whose batch the halts reach. -/
theorem haltWhere_arm_self {n : Arm} {b : Batch} (hb : s.holder n = some b) (hp : p n b = true) (hh : b.state.haltable = true) :
    (s.haltWhere p r).arm n = s.haltedArm n r b :=
  foldl_halts_arm haltWhere_turn hb hh fun u _ harm => by
    have hholder : u.holder n = some b := by rw [State.holder, harm]; exact hb
    rw [hholder, if_pos (by simpa using hp)]

/-- An arm whose batch the halts do not reach. -/
theorem haltWhere_arm_other {n : Arm} (h : ∀ b, s.holder n = some b → p n b = false ∨ b.state.haltable = false) :
    (s.haltWhere p r).arm n = s.arm n := by
  refine foldl_allArms_keeps (P := fun u => u.arm n = s.arm n) (fun u m harm => ?_) rfl
  split
  case isFalse => exact harm
  case isTrue hany =>
    obtain ⟨b, hb, hp⟩ := (Option.any_eq_true ..).mp hany
    by_cases hm : m = n
    · subst hm
      have hb' : s.holder m = some b := by rw [State.holder, ← harm]; exact hb
      rw [haltBatch_of_still (fun c hc => ?_), harm]
      rw [hb, Option.some.injEq] at hc
      rcases h b hb' with hno | hstill
      · rw [hno] at hp
        exact Bool.noConfusion hp
      · rw [← hc]
        exact hstill
    · exact (haltBatch_arm_other u (Ne.symm hm) r).trans harm

end HaltWhere

end Sys2Proof.Machine
end

section
/-! PROOF. What the change of a device state hands on (R24): to the meter computer (R55), the batch controller (R77, R87), the additive
scheduler (R111); the PERMISSIVE STATE of the monitor (R77). -/

namespace Sys2Proof.Machine

/-! ### The lane permissives (R77) -/

theorem noticePermissive_frame (s : State) (l : Lane) (was is : Bool) :
    s.noticePermissive l was is = { s with port := (s.noticePermissive l was is).port } := by
  unfold State.noticePermissive
  split <;> rfl

/-- The permissives set, with their notices, before the halts. -/
def State.permissivesNoticed (s : State) (a b : Bool) : State :=
  (State.noticePermissive { s with batch := { s.batch with permissive := ⟨a, b⟩ } } .a s.batch.permissive.a a).noticePermissive .b
    s.batch.permissive.b b

theorem permissivesNoticed_frame (s : State) (a b : Bool) : s.permissivesNoticed a b =
    { s with batch := { s.batch with permissive := ⟨a, b⟩ }, port := (s.permissivesNoticed a b).port } := by
  rw [State.permissivesNoticed, noticePermissive_frame, noticePermissive_frame]

/-- The batches of the lanes that lose their permissive are halted once the notices are raised. -/
theorem setPermissives_eq (s : State) (a b : Bool) : s.setPermissives a b = (s.permissivesNoticed a b).haltWhere
    (fun _ x => s.batch.permissive.get x.lane && !Lanes.get ⟨a, b⟩ x.lane) .permissive := by
  have hlost : ∀ l : Lane, (Lanes.get ⟨s.batch.permissive.a && !a, s.batch.permissive.b && !b⟩ l) =
      (s.batch.permissive.get l && !Lanes.get ⟨a, b⟩ l) := fun l => by cases l <;> rfl
  unfold State.setPermissives State.haltPermissive
  simp only [hlost]
  rfl

theorem permissivesNoticed_arm (s : State) (a b : Bool) (n : Arm) : (s.permissivesNoticed a b).arm n = s.arm n := by
  rw [permissivesNoticed_frame]
  rfl

theorem permissivesNoticed_holder (s : State) (a b : Bool) (n : Arm) : (s.permissivesNoticed a b).holder n = s.holder n := by
  rw [State.holder, permissivesNoticed_arm]
  rfl

section SetPermissives

variable {s : State} {a b : Bool}

/-- Where no batch that a halt reaches loses its permissive, nothing halts. -/
theorem setPermissives_of_none_lost (h : ∀ n x, s.holder n = some x → x.state.haltable = true →
    s.batch.permissive.get x.lane = true → Lanes.get ⟨a, b⟩ x.lane = true) : s.setPermissives a b = s.permissivesNoticed a b := by
  rw [setPermissives_eq]
  refine haltWhere_idle fun n x hx hlost => Bool.eq_false_iff.mpr fun hh => ?_
  rw [permissivesNoticed_holder] at hx
  rw [Bool.and_eq_true, Bool.not_eq_true'] at hlost
  rw [h n x hx hh hlost.1] at hlost
  exact Bool.noConfusion hlost.2

theorem setPermissives_permissive : (s.setPermissives a b).batch.permissive = ⟨a, b⟩ := by
  rw [setPermissives_eq, (haltWhere_same (s := s.permissivesNoticed a b)).permissive, permissivesNoticed_frame]

theorem setPermissives_devices : (s.setPermissives a b).scan.devices = s.scan.devices := by
  rw [setPermissives_eq, (haltWhere_same (s := s.permissivesNoticed a b)).devices, permissivesNoticed_frame]

/-- A batch that a halt reaches and whose lane loses its permissive is stopped. -/
theorem setPermissives_halts {n : Arm} {x : Batch} (hx : s.holder n = some x) (hh : x.state.haltable = true)
    (hwas : s.batch.permissive.get x.lane = true) (hnow : Lanes.get ⟨a, b⟩ x.lane = false) :
    (s.setPermissives a b).HaltedFor n .permissive := by
  rw [setPermissives_eq]
  exact haltedFor_of_arm (haltWhere_arm_self (s := s.permissivesNoticed a b) (by rw [permissivesNoticed_holder]; exact hx)
    (by rw [hwas, hnow]; rfl) hh)

end SetPermissives

theorem devicesOfKind_of_kinds {s t : State} (h : ∀ i, (t.device i).map (fun d => d.kind) = (s.device i).map fun d => d.kind)
    (k : DeviceKind) : t.devicesOfKind k = s.devicesOfKind k := by
  have hany : ∀ o : Option Device, (o.filter fun d => d.kind = k).isSome = (o.map fun d => d.kind).any fun c => c = k := fun o => by
    cases o with
    | none => rfl
    | some d => by_cases hk : d.kind = k <;> simp [hk]
  unfold State.devicesOfKind State.deviceOfKind
  exact List.filter_congr fun i _ => by rw [hany, hany, h i]

theorem polled_kinds {s : State} {i : DevIx} {d : Device} (h : s.device i = some d) (j : DevIx) :
    ((s.polled i d).device j).map (fun d => d.kind) = (s.device j).map fun d => d.kind := by
  rw [polled_device]
  split
  case isTrue hj => rw [hj, h]; rfl
  case isFalse => rw [Option.map_map]; rfl

/-- A poll's reply with its fault flag clear reaches its owner. -/
theorem deliver_polled {s : State} {t : Transaction} {d : Device} (h : s.AwaitsOnline t d) (hstep : t.step = .scan)
    (htel : t.telegram = .poll) {r : DeviceReply} (hfits : replyFits r = true) (hlisted : replyKindOk (replyKind r) false = true)
    (ha : d.kind.accepts r = true) (hf : replyFault r = false) : s.deliverReply r = (s.polled t.device d).route t d r := by
  rw [deliverReply_ends h.1 hfits (by rw [htel]; exact hlisted), replyEnd_routes h (.inr hstep) (by simp [htel]) (by simp [htel])
    ha hf]

/-- Settles O43: the reply reaches the batch controller, which sets both permissives. -/
theorem permissiveStateSets : Obligations.PermissiveStateSets := by
  intro flags s t d hs haw hstep htel hkind hfault hone a b u noticeFor v
  have hroute : s.deliverReply (.permissiveState flags) = u.setPermissives a b := by
    rw [deliver_polled (r := .permissiveState flags) haw hstep htel rfl rfl (by rw [hkind]; rfl) hfault]
    have hcount : (u.devicesOfKind .permissive).length = 1 :=
      (congrArg List.length (devicesOfKind_of_kinds (polled_kinds haw.1.2.2.2.2) .permissive)).trans hone
    exact if_neg (by rw [hcount]; exact Nat.lt_irrefl 1)
  have hexec : exec (.permissiveState flags) s = .next (u.setPermissives a b).settle :=
    congrArg (fun w => Host.Outcome.next (State.settle w)) hroute
  refine ⟨fun hkeep => ?_, u.setPermissives a b, hexec, setPermissives_permissive, fun n x hx hh hwas hnow => ?_⟩
  · rw [hexec, setPermissives_of_none_lost (s := u) hkeep]
    rfl
  · exact setPermissives_halts (s := u) hx hh hwas hnow

end Sys2Proof.Machine
end

section
/-! PROOF. TABLE WRITE 01H (R18 to R20): the checks of R19, and what a rewritten or emptied entry hands on to its owners (R24, R55, R77,
R111). -/

namespace Sys2Proof.Machine

/-! ### A change to UNKNOWN or to REMOVED, handed on -/

/-- What such a change leaves, whatever the kind: devices and tables stay, a batch that is not STOPPING keeps its arm's record, and one
that has been halted stays halted. -/
structure Unhalting (s t : State) : Prop where
  devices : t.scan.devices = s.scan.devices
  batch : t.batch = { s.batch with arms := t.batch.arms }
  steady : ∀ n b, s.holder n = some b → b.state ≠ .stopping → t.arm n = s.arm n
  halted : ∀ n r, s.HaltedFor n r → t.HaltedFor n r

theorem Unhalting.refl (s : State) : Unhalting s s := ⟨rfl, rfl, fun _ _ _ _ => rfl, fun _ _ h => h⟩

theorem Unhalting.trans {s t u : State} (h : Unhalting s t) (k : Unhalting t u) : Unhalting s u where
  devices := k.devices.trans h.devices
  batch := by rw [k.batch, h.batch]
  steady := fun n b hb hst => (k.steady n b (by rw [State.holder, h.steady n b hb hst]; exact hb) hst).trans (h.steady n b hb hst)
  halted := fun n r hr => k.halted n r (h.halted n r hr)

theorem Unhalting.permissive {s t : State} (h : Unhalting s t) : t.batch.permissive = s.batch.permissive := by
  rw [h.batch]

theorem Unhalting.of_batch {s t : State} (h : t.batch = s.batch) (hd : t.scan.devices = s.scan.devices) : Unhalting s t := by
  have harm : ∀ n, t.arm n = s.arm n := fun n => by rw [State.arm, h, State.arm]
  refine ⟨hd, by rw [h], fun n _ _ _ => harm n, fun n r ⟨c, hc, hst, hr, hdes⟩ => ⟨c, ?_, hst, hr, ?_⟩⟩
  · rw [State.holder, harm]
    exact hc
  · rw [harm]
    exact hdes

theorem Unhalting.of_sans {s t : State} (h : t.sansAdditive = s.sansAdditive) : Unhalting s t :=
  .of_batch (batch_of_sans h) (SameBay.of_sans h).devices

/-- A STOPPING batch's timers and counts may change. -/
theorem Unhalting.of_stopping {s : State} {n : Arm} {b : Batch} (hb : s.holder n = some b) (hst : b.state = .stopping) (f : Batch → Batch)
    (hf : (f b).state = b.state ∧ (f b).stopReason = b.stopReason) : Unhalting s (s.modBatch n f) := by
  refine ⟨rfl, rfl, fun m c hc hne => ?_, fun m r ⟨c, hc, hcst, hcr, hdes⟩ => ?_⟩
  · by_cases hm : m = n
    · subst hm
      rw [hb, Option.some.injEq] at hc
      exact absurd (hc ▸ hst) hne
    · exact arm_modBatch_other s hm f
  · by_cases hm : m = n
    · subst hm
      rw [hb, Option.some.injEq] at hc
      refine ⟨f b, by rw [holder_modBatch_self, hb]; rfl, hf.1.trans hst, by rw [hf.2, hc, hcr], ?_⟩
      rw [modBatch_of_holder hb, arm_setArm_self]
      exact hdes
    · refine ⟨c, by rw [holder_modBatch_other s hm]; exact hc, hcst, hcr, ?_⟩
      rw [arm_modBatch_other s hm]
      exact hdes

/-- The change takes an entry to UNKNOWN or removes it. -/
def QuietChange (after : Option DeviceState) : Prop := after = some .unknown ∨ after = none

theorem QuietChange.ne_online {after : Option DeviceState} (h : QuietChange after) : after ≠ some .online := by
  rcases h with rfl | rfl <;> simp

theorem QuietChange.not_lost {after : Option DeviceState} (h : QuietChange after) : after.any DeviceState.lost = false := by
  rcases h with rfl | rfl <;> rfl

section QuietChanges

variable {after : Option DeviceState} (hq : QuietChange after)

include hq

theorem batchMeter_of_quiet (s : State) (n : Arm) (before : DeviceState) : s.batchMeter n before after =
    if (s.holder n).any fun b => b.state = .stopping then
      if before = .online then s.modBatch n fun b => { b with stopTimer := some s.batch.settings.noFlowTimeout } else s
    else s := by
  rw [State.batchMeter, if_neg hq.ne_online, hq.not_lost]
  rfl

theorem batchMeter_unhalting (s : State) (n : Arm) (before : DeviceState) : Unhalting s (s.batchMeter n before after) := by
  rw [batchMeter_of_quiet hq]
  split
  case isFalse => exact .refl s
  case isTrue hany =>
    obtain ⟨b, hb, hst⟩ := (Option.any_eq_true ..).mp hany
    split
    · exact .of_stopping hb (of_decide_eq_true hst) _ ⟨rfl, rfl⟩
    · exact .refl s

theorem valveHanded_of_quiet (s : State) (i : DevIx) : s.valveHanded i after = s := by
  unfold State.valveHanded
  refine foldl_allArms_idle fun n => ?_
  split
  · rw [State.batchValve, if_neg hq.ne_online, hq.not_lost]
    rfl
  · rfl

omit hq in
theorem meterChanged_frame (s : State) (i : DevIx) : s.meterChanged i = { s with meter := (s.meterChanged i).meter } :=
  foldl_allArms_keeps (P := fun u => u = { s with meter := u.meter }) (fun u n h => by
    split
    · rw [h]
      rfl
    · exact h) rfl

omit hq in
theorem meterChanged_batch (s : State) (i : DevIx) : (s.meterChanged i).batch = s.batch :=
  (congrArg State.batch (meterChanged_frame s i)).trans rfl

omit hq in
theorem meterChanged_scan (s : State) (i : DevIx) : (s.meterChanged i).scan = s.scan :=
  (congrArg State.scan (meterChanged_frame s i)).trans rfl

theorem meterHanded_unhalting (s : State) (i : DevIx) (before : DeviceState) : Unhalting s (s.meterHanded i before after) := by
  refine Unhalting.trans (t := s.meterChanged i) (.of_batch (meterChanged_batch s i) (by rw [meterChanged_scan])) ?_
  unfold State.meterHanded
  refine foldl_allArms_keeps (P := Unhalting (s.meterChanged i)) (fun u n h => ?_) (.refl _)
  split
  · exact h.trans (batchMeter_unhalting hq u n before)
  · exact h

/-- With the arms that name the meter at rest, only the meter computer acts. -/
theorem meterHanded_of_free (s : State) (i : DevIx) (before : DeviceState)
    (hfree : ∀ n a, s.armEntry n = some a → a.meter = i → s.holder n = none) :
    s.meterHanded i before after = s.meterChanged i := by
  unfold State.meterHanded
  refine foldl_allArms_idle fun n => ?_
  split
  case isFalse => rfl
  case isTrue hany =>
    obtain ⟨a, ha, hm⟩ := (Option.any_eq_true ..).mp hany
    rw [State.armEntry, meterChanged_batch] at ha
    have hnone : (s.meterChanged i).holder n = none := by
      rw [State.holder, State.arm, meterChanged_batch]
      exact hfree n a ha (of_decide_eq_true hm)
    rw [batchMeter_of_quiet hq, hnone]
    rfl

theorem injectorChanged_of_quiet (s : State) (i : DevIx) (before : DeviceState) :
    s.injectorChanged i before (after.getD .unknown) = s.injectorUnknown i := by
  rcases hq with rfl | rfl <;> rfl

theorem handOn_permissive_of_quiet (s : State) (i : DevIx) (before : DeviceState) :
    s.handOn i .permissive before after = s.setPermissives false false := by
  rw [State.handOn, if_neg hq.ne_online]

/-- What the change means for the owner of a kind, with the arms at rest. -/
def State.told (s : State) (i : DevIx) : DeviceKind → State
  | .meter => s.meterChanged i
  | .injector => s.injectorUnknown i
  | .permissive => s.setPermissives false false
  | .valve | .station => s

theorem handOn_eq_told (s : State) (i : DevIx) (k : DeviceKind) (before : DeviceState)
    (hfree : k = .meter → ∀ n a, s.armEntry n = some a → a.meter = i → s.holder n = none) :
    s.handOn i k before after = s.told i k := by
  cases k with
  | meter => exact meterHanded_of_free hq s i before (hfree rfl)
  | valve => exact valveHanded_of_quiet hq s i
  | injector => exact injectorChanged_of_quiet hq s i before
  | station => rfl
  | permissive => exact handOn_permissive_of_quiet hq s i before

theorem handOn_unhalting (s : State) (i : DevIx) {k : DeviceKind} (hk : k ≠ .permissive) (before : DeviceState) :
    Unhalting s (s.handOn i k before after) := by
  cases k with
  | meter => exact meterHanded_unhalting hq s i before
  | valve =>
    rw [State.handOn, valveHanded_of_quiet hq]
    exact .refl s
  | injector => exact .of_sans (by rw [State.handOn, injectorChanged_of_quiet hq, injectorUnknown_sans])
  | station => exact .refl s
  | permissive => exact absurd rfl hk

theorem handOn_devices (s : State) (i : DevIx) (k : DeviceKind) (before : DeviceState) :
    (s.handOn i k before after).scan.devices = s.scan.devices := by
  by_cases hk : k = .permissive
  · subst hk
    rw [handOn_permissive_of_quiet hq, setPermissives_devices]
  · exact (handOn_unhalting hq s i hk before).devices

end QuietChanges

/-! ### The owners of several kinds told in turn -/

theorem metering_setMetering_other (s : State) {m n : Arm} (h : m ≠ n) (x : Metering) : (s.setMetering n x).metering m = s.metering m := by
  have hne : n.val ≠ m.val := fun e => h (Fin.ext e.symm)
  simp [State.setMetering, State.metering, hne]

/-- The arm's entry names the meter. -/
def State.names (s : State) (n : Arm) (i : DevIx) : Bool := (s.armEntry n).any fun e => e.meter = i

theorem meterChanged_metering (s : State) (i : DevIx) (n : Arm) : (s.meterChanged i).metering n =
    if s.names n i then (s.metering n).meterChanged else s.metering n := by
  unfold State.meterChanged
  refine (foldl_allArms_turn (P := fun u => u.batch = s.batch ∧ u.metering n = s.metering n)
    (Q := fun u => u.metering n = if s.names n i then (s.metering n).meterChanged else s.metering n) n
    (fun u m hm ⟨hbatch, hmeter⟩ => ?_) (fun u ⟨hbatch, hmeter⟩ => ?_) (fun u m hm hmeter => ?_) ⟨rfl, rfl⟩)
  · split
    · exact ⟨hbatch, (metering_setMetering_other u (Ne.symm hm) _).trans hmeter⟩
    · exact ⟨hbatch, hmeter⟩
  · have hnames : u.names n i = s.names n i := by rw [State.names, State.armEntry, hbatch, State.names, State.armEntry]
    rw [← hnames]
    split
    case isTrue h => rw [metering_setMetering_self, hmeter, if_pos (show u.names n i = true from h)]
    case isFalse h => rw [hmeter, if_neg (show ¬ u.names n i = true from h)]
  · split
    · exact (metering_setMetering_other u (Ne.symm hm) _).trans hmeter
    · exact hmeter

/-- The slot of an injector that has become UNKNOWN or REMOVED: no request and no unowned shot (R111). -/
def InjectorSlot.rested (x : InjectorSlot) : InjectorSlot := { x with request := none, flight := x.flight.filter fun f => f.owned }

theorem issueHead_of_no_queue {s : State} {i : DevIx} {x : InjectorSlot} (h : s.slot i = some x) (hq : x.queue = []) :
    s.issueHead i = s := by
  rw [State.issueHead, h]
  dsimp only
  rw [hq]
  cases x.flight <;> rfl

theorem setSlot_slot (s : State) (i : DevIx) : s.setSlot i (s.slot i) = s := by
  simp [State.setSlot, State.slot]

theorem injectorUnknown_of_no_queue {s : State} {i : DevIx} (h : ∀ x, s.slot i = some x → x.queue = []) :
    s.injectorUnknown i = s.setSlot i ((s.slot i).map InjectorSlot.rested) := by
  cases hx : s.slot i with
  | none => simp [State.injectorUnknown, State.withdrawRequest, State.modSlot, State.endUnowned, hx]
  | some x =>
    have hwithdrawn : s.withdrawRequest i = s.setSlot i (some { x with request := none }) := by
      rw [State.withdrawRequest, State.modSlot, hx]
      rfl
    rw [State.injectorUnknown, hwithdrawn, State.endUnowned, slot_setSlot_self]
    cases hf : x.flight with
    | none => simp [InjectorSlot.rested, hf]
    | some f =>
      cases ho : f.owned with
      | true =>
        have hkept : (some f).filter (fun f => f.owned) = some f := if_pos ho
        simp [InjectorSlot.rested, hf, ho, hkept]
      | false =>
        have hdropped : (some f).filter (fun f => f.owned) = none := if_neg (by simp [ho])
        rw [if_pos (by simp [ho]), State.modSlot, slot_setSlot_self, setSlot_setSlot, Option.map_some, Option.map_some,
          issueHead_of_no_queue (slot_setSlot_self ..) (by exact h x hx), InjectorSlot.rested, hf, hdropped]

/-- Other metering records and other injector slots. -/
def State.withRecords (s : State) (m : Vector Metering 6) (x : Vector (Option InjectorSlot) 32) : State :=
  { s with meter := m, additive := { s.additive with slots := x } }

theorem withRecords_trans {s t u : State} (h : t = s.withRecords t.meter t.additive.slots)
    (k : u = t.withRecords u.meter u.additive.slots) : u = s.withRecords u.meter u.additive.slots :=
  k.trans ((congrArg (fun v => v.withRecords u.meter u.additive.slots) h).trans rfl)

theorem meterChanged_additive (s : State) (i : DevIx) : (s.meterChanged i).additive = s.additive :=
  (congrArg State.additive (meterChanged_frame s i)).trans rfl

theorem meterChanged_records (s : State) (i : DevIx) :
    s.meterChanged i = s.withRecords (s.meterChanged i).meter (s.meterChanged i).additive.slots := by
  rw [meterChanged_additive]
  exact meterChanged_frame s i

theorem meterChanged_slot (s : State) (i j : DevIx) : (s.meterChanged i).slot j = s.slot j := by
  rw [State.slot, meterChanged_additive, State.slot]

theorem permissivesNoticed_withRecords (s : State) (m : Vector Metering 6) (x : Vector (Option InjectorSlot) 32) (a b : Bool) :
    (s.withRecords m x).permissivesNoticed a b = (s.permissivesNoticed a b).withRecords m x := by
  have hnotice : ∀ (u : State) (l : Lane) (was is : Bool),
      (u.withRecords m x).noticePermissive l was is = (u.noticePermissive l was is).withRecords m x := fun u l was is => by
    unfold State.noticePermissive
    split <;> rfl
  unfold State.permissivesNoticed
  rw [← hnotice, ← hnotice]
  rfl

theorem permissivesNoticed_twice (s : State) :
    (s.permissivesNoticed false false).permissivesNoticed false false = s.permissivesNoticed false false := by
  have hfalse : ∀ (u : State) (l : Lane), u.noticePermissive l false false = u := fun u l => if_pos rfl
  generalize hu : s.permissivesNoticed false false = u
  have hbatch : u.batch.permissive = ⟨false, false⟩ := by rw [← hu, permissivesNoticed_frame]
  have hsame : { u with batch := { u.batch with permissive := ⟨false, false⟩ } } = u := by rw [← hbatch]
  rw [State.permissivesNoticed, hbatch, hfalse, hfalse, hsame]

/-- The owners of the kinds are told in turn. -/
def State.tellAll (s : State) (i : DevIx) (ks : List DeviceKind) : State := ks.foldl (fun u k => u.told i k) s

/-- The state after the owners have been told, with the arms, the monitor and the injector's queue at rest. -/
structure Told (s t : State) (i : DevIx) (ks : List DeviceKind) : Prop where
  rest : t = (if .permissive ∈ ks then s.permissivesNoticed false false else s).withRecords t.meter t.additive.slots
  metering : ∀ n, t.metering n = if .meter ∈ ks ∧ s.names n i then (s.metering n).meterChanged else s.metering n
  slot : ∀ j, t.slot j = if .injector ∈ ks ∧ j = i then (s.slot i).map InjectorSlot.rested else s.slot j

theorem Told.batch {s t : State} {i : DevIx} {ks : List DeviceKind} (h : Told s t i ks) :
    t.batch = { s.batch with permissive := t.batch.permissive } := by
  rw [h.rest]
  split
  · rw [permissivesNoticed_frame]
    rfl
  · rfl

theorem Told.arm {s t : State} {i : DevIx} {ks : List DeviceKind} (h : Told s t i ks) (n : Arm) : t.arm n = s.arm n := by
  rw [State.arm, h.batch, State.arm]

theorem Told.holder {s t : State} {i : DevIx} {ks : List DeviceKind} (h : Told s t i ks) (n : Arm) : t.holder n = s.holder n := by
  rw [State.holder, h.arm, State.holder]

theorem Told.armEntry {s t : State} {i : DevIx} {ks : List DeviceKind} (h : Told s t i ks) (n : Arm) :
    t.armEntry n = s.armEntry n := by
  rw [State.armEntry, h.batch, State.armEntry]

/-- One owner more. -/
theorem Told.snoc {s t : State} {i : DevIx} {ks : List DeviceKind} (h : Told s t i ks) (k : DeviceKind)
    (hqueue : k = .injector → ∀ x, s.slot i = some x → x.queue = [])
    (hstill : k = .permissive → ∀ n b, s.holder n = some b → b.state.haltable = false) : Told s (t.told i k) i (ks ++ [k]) := by
  have hrest := h.rest
  have hnames : ∀ n, t.names n i = s.names n i := fun n => by rw [State.names, h.armEntry, State.names]
  have hlast : ∀ c : DeviceKind, c ∈ ks ++ [k] ↔ c ∈ ks ∨ c = k := fun c => by simp
  cases k with
  | meter =>
    refine ⟨?_, fun n => ?_, fun j => ?_⟩
    · simp only [hlast, reduceCtorEq, or_false, State.told]
      exact withRecords_trans hrest (meterChanged_records t i)
    · rw [State.told, meterChanged_metering, h.metering, hnames]
      simp only [hlast, or_true, true_and]
      by_cases hn : s.names n i = true
      · rw [if_pos hn, if_pos hn]
        split <;> rfl
      · rw [if_neg hn, if_neg hn, if_neg fun e => hn e.2]
    · rw [State.told, meterChanged_slot, h.slot]
      simp only [hlast, reduceCtorEq, or_false]
  | injector =>
    have htqueue : ∀ x, t.slot i = some x → x.queue = [] := by
      intro x hx
      rw [h.slot] at hx
      split at hx
      · obtain ⟨y, hy, rfl⟩ := Option.map_eq_some_iff.mp hx
        exact hqueue rfl y hy
      · exact hqueue rfl x hx
    rw [State.told, injectorUnknown_of_no_queue htqueue]
    refine ⟨?_, fun n => ?_, fun j => ?_⟩
    · simp only [hlast, reduceCtorEq, or_false]
      exact withRecords_trans hrest rfl
    · have hmeter : (t.setSlot i ((t.slot i).map InjectorSlot.rested)).metering n = t.metering n := rfl
      rw [hmeter, h.metering]
      simp only [hlast, reduceCtorEq, or_false]
    · simp only [hlast, or_true, true_and]
      split
      case isTrue hj =>
        subst hj
        rw [slot_setSlot_self, h.slot]
        split
        · rw [Option.map_map]
          refine Option.map_congr fun x _ => ?_
          simp [InjectorSlot.rested]
        · rfl
      case isFalse hj =>
        rw [slot_setSlot_other _ hj, h.slot, if_neg fun e => hj e.2]
  | permissive =>
    have hnone : t.setPermissives false false = t.permissivesNoticed false false :=
      setPermissives_of_none_lost fun n x hx hh => by
        rw [hstill rfl n x (by rw [← h.holder]; exact hx)] at hh
        exact Bool.noConfusion hh
    have hsame : t.permissivesNoticed false false =
        (s.permissivesNoticed false false).withRecords t.meter t.additive.slots := by
      refine (congrArg (fun u => u.permissivesNoticed false false) hrest).trans ?_
      rw [permissivesNoticed_withRecords]
      split
      · rw [permissivesNoticed_twice]
      · rfl
    rw [State.told, hnone, hsame]
    refine ⟨?_, fun n => ?_, fun j => ?_⟩
    · simp only [hlast, or_true, if_true]
      rfl
    · simp only [hlast, reduceCtorEq, or_false]
      exact h.metering n
    · simp only [hlast, reduceCtorEq, or_false]
      exact h.slot j
  | valve =>
    refine ⟨?_, fun n => ?_, fun j => ?_⟩ <;> simp only [hlast, reduceCtorEq, or_false]
    · exact hrest
    · exact h.metering n
    · exact h.slot j
  | station =>
    refine ⟨?_, fun n => ?_, fun j => ?_⟩ <;> simp only [hlast, reduceCtorEq, or_false]
    · exact hrest
    · exact h.metering n
    · exact h.slot j

theorem Told.nil (s : State) (i : DevIx) : Told s s i [] := by
  refine ⟨?_, fun n => ?_, fun j => ?_⟩ <;> simp
  rfl

end Sys2Proof.Machine
end

section
/-! PROOF. TABLE WRITE 01H (R18 to R20): the checks of R19 in order, and the effect with what is handed on to the owners. -/

namespace Sys2Proof.Machine

/-! ### The checks of R19 -/

section DeviceWrite

variable {s : State}

theorem deviceWrite_of_length_ne {q : List Byte} (h : q.length ≠ 6) : s.deviceWrite q = (s, .refuse .badFormat) := if_pos h

theorem deviceWrite_of_no_kind {q : List Byte} (h : q.length = 6) (ha : byteAt q 1 ≠ 0#8) (hk : deviceKindOf (byteAt q 2) = none) :
    s.deviceWrite q = (s, .refuse .badFormat) := by
  rw [State.deviceWrite, if_neg (not_not_intro h), if_neg ha, hk]
  rfl

section Entry

variable {ix addr kindCode assocCode tmo lim : Byte} {kind : DeviceKind} (ha : addr ≠ 0#8) (hk : deviceKindOf kindCode = some kind)

include ha hk

theorem deviceWrite_of_kind : s.deviceWrite [ix, addr, kindCode, assocCode, tmo, lim] =
    match devIxOf ix, parseDevice addr kind assocCode tmo lim with
    | some i, some d => s.writeDevice i (some d)
    | _, _ => (s, .refuse .badValue) := by
  refine (if_neg (not_not_intro rfl)).trans ((if_neg ha).trans ?_)
  simp only [byteAt, List.getD_cons_succ, List.getD_cons_zero, hk]
  rfl

theorem deviceWrite_of_bad_index (h : devIxOf ix = none) :
    s.deviceWrite [ix, addr, kindCode, assocCode, tmo, lim] = (s, .refuse .badValue) := by
  refine (deviceWrite_of_kind ha hk).trans ?_
  rw [h]

theorem deviceWrite_of_bad_value (h : parseDevice addr kind assocCode tmo lim = none) :
    s.deviceWrite [ix, addr, kindCode, assocCode, tmo, lim] = (s, .refuse .badValue) := by
  refine (deviceWrite_of_kind ha hk).trans ?_
  rw [h]
  cases devIxOf ix <;> rfl

theorem deviceWrite_of_entry {i : DevIx} {d : Device} (hi : devIxOf ix = some i)
    (h : parseDevice addr kind assocCode tmo lim = some d) :
    s.deviceWrite [ix, addr, kindCode, assocCode, tmo, lim] = s.writeDevice i (some d) := by
  refine (deviceWrite_of_kind ha hk).trans ?_
  rw [hi, h]

end Entry

theorem parseDevice_of_no_assoc {addr assocCode tmo lim : Byte} {kind : DeviceKind} (h : assocOf kind assocCode = none) :
    parseDevice addr kind assocCode tmo lim = none := by
  rw [parseDevice, h]

theorem parseDevice_of_bad_range {addr assocCode tmo lim : Byte} {kind : DeviceKind}
    (h : 126 < addr.toNat ∨ tmo.toNat < 5 ∨ 100 < tmo.toNat ∨ lim.toNat < 1 ∨ 10 < lim.toNat) :
    parseDevice addr kind assocCode tmo lim = none := by
  unfold parseDevice
  cases assocOf kind assocCode with
  | none => rfl
  | some a => exact if_neg (by omega)

theorem parseDevice_of_good {addr assocCode tmo lim : Byte} {kind : DeviceKind} {assoc : Association}
    (h : assocOf kind assocCode = some assoc) (hr : addr.toNat ≤ 126 ∧ 5 ≤ tmo.toNat ∧ tmo.toNat ≤ 100 ∧ 1 ≤ lim.toNat ∧
      lim.toNat ≤ 10) : parseDevice addr kind assocCode tmo lim = some (newDevice addr kind assoc tmo.toNat lim.toNat) := by
  rw [parseDevice, h]
  exact if_pos hr

theorem deviceWrite_empty {ix : Byte} {q : List Byte} (h : q.length = 4) : s.deviceWrite (ix :: 0#8 :: q) =
    match devIxOf ix with
    | none => (s, .refuse .badValue)
    | some i => s.writeDevice i none := by
  refine (if_neg (not_not_intro (by rw [List.length_cons, List.length_cons, h]))).trans ((if_pos rfl).trans ?_)
  simp only [byteAt, List.getD_cons_zero]
  rfl

end DeviceWrite

section WriteDevice

variable {s : State} {i : DevIx} {new : Option Device}

theorem writeDevice_of_wrongMode (h : (s.serving && wrongModeWrite (s.device i) new) = true) :
    s.writeDevice i new = (s, .refuse .wrongMode) := if_pos h

variable (hm : ¬ (s.serving && wrongModeWrite (s.device i) new) = true)

include hm

theorem writeDevice_of_inUse {o : Device} (ho : s.device i = some o) (hu : s.deviceInUse i o = true) :
    s.writeDevice i new = (s, .refuse .inUse) :=
  (if_neg hm).trans (if_pos (by rw [ho]; exact hu))

variable (hu : ¬ ∃ o, s.device i = some o ∧ s.deviceInUse i o = true)

include hu

theorem writeDevice_of_free : s.writeDevice i new = match new with
    | none => (s.removeDevice i, .accept)
    | some d => if s.addressTaken i d.address then (s, .refuse .duplicate) else (s.putDevice i d, .accept) :=
  (if_neg hm).trans ((if_neg fun h => hu (by simpa [Option.any_eq_true] using h)).trans (by cases new <;> rfl))

end WriteDevice

theorem addressTaken_iff (s : State) (i : DevIx) (addr : Byte) : s.addressTaken i addr = true ↔
    ∃ (j : DevIx) (o : Device), j ≠ i ∧ s.device j = some o ∧ o.address = addr := by
  simp [State.addressTaken, mem_allDevIx, Option.any_eq_true]

/-! ### The effect -/

/-- The device table with the new entry, before anything is handed on. -/
def State.written (s : State) (i : DevIx) (d : Option Device) : State := ((s.setDevice i d).markWritten i).wakeBus

theorem written_device (s : State) (i j : DevIx) (d : Option Device) :
    (s.written i d).device j = if j = i then d else s.device j := by
  have h : (s.written i d).device j = (s.setDevice i d).device j := rfl
  rw [h]
  split
  case isTrue hj => rw [hj, device_setDevice_self]
  case isFalse hj => rw [device_setDevice_other s hj]

theorem device_of_devices {s t : State} (h : t.scan.devices = s.scan.devices) (j : DevIx) : t.device j = s.device j := by
  rw [State.device, h, State.device]

/-- The kinds whose owners a rewrite of a known entry tells, in order. -/
def kindsChanged (old new : Device) : List DeviceKind :=
  if old.state = .unknown then [] else if old.kind = new.kind then [old.kind] else [old.kind, new.kind]

theorem mem_kindsChanged (old new : Device) (k : DeviceKind) :
    k ∈ kindsChanged old new ↔ old.state ≠ .unknown ∧ (old.kind = k ∨ new.kind = k) := by
  unfold kindsChanged
  split
  case isTrue h => simp [h]
  case isFalse h =>
    split
    case isTrue hk => simp [h, hk, eq_comm]
    case isFalse hk => simp [h, eq_comm]

/-- The state whose owners are told: the change has been noticed, unless the entry was UNKNOWN. -/
def State.rewriteNoticed (s : State) (i : DevIx) (old : Device) : State :=
  if old.state = .unknown then s else s.raiseNotice .device (.device i) 0x00#8

theorem rewriteNoticed_batch (s : State) (i : DevIx) (old : Device) : (s.rewriteNoticed i old).batch = s.batch := by
  unfold State.rewriteNoticed
  split <;> rfl

theorem rewriteNoticed_additive (s : State) (i : DevIx) (old : Device) : (s.rewriteNoticed i old).additive = s.additive := by
  unfold State.rewriteNoticed
  split <;> rfl

theorem rewriteNoticed_meter (s : State) (i : DevIx) (old : Device) : (s.rewriteNoticed i old).meter = s.meter := by
  unfold State.rewriteNoticed
  split <;> rfl

theorem rewriteNoticed_devices (s : State) (i : DevIx) (old : Device) :
    (s.rewriteNoticed i old).scan.devices = s.scan.devices := by
  unfold State.rewriteNoticed
  split <;> rfl

theorem quiet_unknown : QuietChange (some .unknown) := .inl rfl

theorem quiet_removed : QuietChange none := .inr rfl

section Rewrite

variable {s : State} {i : DevIx} {old new : Device}

theorem announceRewrite_of_unknown (h : old.state = .unknown) : s.announceRewrite i old new = s.rewriteNoticed i old := by
  rw [State.announceRewrite, if_pos h, State.rewriteNoticed, if_pos h]

theorem announceRewrite_of_same_kind (h : old.state ≠ .unknown) (hk : old.kind = new.kind) :
    s.announceRewrite i old new = (s.rewriteNoticed i old).handOn i old.kind old.state (some .unknown) := by
  rw [State.announceRewrite, if_neg h, State.rewriteNoticed, if_neg h]
  exact if_pos hk

theorem announceRewrite_of_other_kind (h : old.state ≠ .unknown) (hk : old.kind ≠ new.kind) : s.announceRewrite i old new =
    ((s.rewriteNoticed i old).handOn i old.kind old.state (some .unknown)).handOn i new.kind old.state (some .unknown) := by
  rw [State.announceRewrite, if_neg h, State.rewriteNoticed, if_neg h]
  exact if_neg hk

theorem announceRewrite_devices : (s.announceRewrite i old new).scan.devices = s.scan.devices := by
  by_cases h : old.state = .unknown
  · rw [announceRewrite_of_unknown h, rewriteNoticed_devices]
  · by_cases hk : old.kind = new.kind
    · rw [announceRewrite_of_same_kind h hk, handOn_devices quiet_unknown, rewriteNoticed_devices]
    · rw [announceRewrite_of_other_kind h hk, handOn_devices quiet_unknown, handOn_devices quiet_unknown, rewriteNoticed_devices]

/-- A rewrite of the monitor's entry, or one that makes it the monitor's, takes both permissives away and halts what flows by them,
whatever else is told before or after. -/
theorem announceRewrite_halts (h : old.state ≠ .unknown) (hk : old.kind = .permissive ∨ new.kind = .permissive) :
    (s.announceRewrite i old new).batch.permissive = ⟨false, false⟩ ∧
      ∀ n b, s.holder n = some b → b.state.haltable = true → s.batch.permissive.get b.lane = true →
        (s.announceRewrite i old new).HaltedFor n .permissive := by
  generalize hv : s.rewriteNoticed i old = v
  have hbatch : v.batch = s.batch := by rw [← hv, rewriteNoticed_batch]
  have hholder : ∀ n, v.holder n = s.holder n := fun n => by rw [State.holder, State.arm, hbatch, State.holder, State.arm]
  have hoff : ∀ l : Lane, Lanes.get (⟨false, false⟩ : Lanes Bool) l = false := fun l => by cases l <;> rfl
  have hmonitor : ∀ u : State, u.handOn i .permissive old.state (some .unknown) = u.setPermissives false false :=
    fun u => handOn_permissive_of_quiet quiet_unknown u i old.state
  by_cases hsame : old.kind = new.kind
  · have hold : old.kind = .permissive := hk.elim id fun e => hsame.trans e
    rw [announceRewrite_of_same_kind h hsame, hv, hold, hmonitor]
    exact ⟨setPermissives_permissive, fun n b hb hh hl =>
      setPermissives_halts ((hholder n).trans hb) hh (by rw [hbatch]; exact hl) (hoff _)⟩
  · rw [announceRewrite_of_other_kind h hsame, hv]
    by_cases hold : old.kind = .permissive
    · have hnew : new.kind ≠ .permissive := fun e => hsame (hold.trans e.symm)
      rw [hold, hmonitor]
      have hstep := handOn_unhalting quiet_unknown (v.setPermissives false false) i hnew old.state
      refine ⟨hstep.permissive.trans setPermissives_permissive, fun n b hb hh hl => hstep.halted n _ ?_⟩
      exact setPermissives_halts ((hholder n).trans hb) hh (by rw [hbatch]; exact hl) (hoff _)
    · have hnew : new.kind = .permissive := hk.resolve_left hold
      rw [hnew, hmonitor]
      have hstep := handOn_unhalting quiet_unknown v i hold old.state
      refine ⟨setPermissives_permissive, fun n b hb hh hl => setPermissives_halts (x := b) ?_ hh ?_ (hoff _)⟩
      · rw [State.holder, hstep.steady n b ((hholder n).trans hb) (by rintro e; rw [e] at hh; exact Bool.noConfusion hh)]
        exact (hholder n).trans hb
      · rw [hstep.permissive, hbatch]
        exact hl

/-- With arms, monitor and shot queue at rest the owners are told and nothing halts. -/
theorem announceRewrite_told (hfree : .meter ∈ kindsChanged old new → ∀ n a, s.armEntry n = some a → a.meter = i → s.holder n = none)
    (hstill : .permissive ∈ kindsChanged old new → ∀ n b, s.holder n = some b → b.state.haltable = false)
    (hqueue : ∀ x, s.slot i = some x → x.queue = []) :
    Told (s.rewriteNoticed i old) (s.announceRewrite i old new) i (kindsChanged old new) := by
  simp only [mem_kindsChanged] at hfree hstill
  by_cases h : old.state = .unknown
  · rw [announceRewrite_of_unknown h, kindsChanged, if_pos h]
    exact .nil _ i
  · have hfirst : (s.rewriteNoticed i old).handOn i old.kind old.state (some .unknown) = (s.rewriteNoticed i old).told i old.kind :=
      handOn_eq_told quiet_unknown _ i _ _ fun hk n a ha hi => by
        rw [State.armEntry, rewriteNoticed_batch] at ha
        rw [State.holder, State.arm, rewriteNoticed_batch]
        exact hfree ⟨h, .inl hk⟩ n a ha hi
    have hvqueue : ∀ x, (s.rewriteNoticed i old).slot i = some x → x.queue = [] := by
      rw [State.slot, rewriteNoticed_additive]
      exact hqueue
    have hvstill : old.kind = .permissive ∨ new.kind = .permissive →
        ∀ n b, (s.rewriteNoticed i old).holder n = some b → b.state.haltable = false := fun hk n b hb => by
      rw [State.holder, State.arm, rewriteNoticed_batch] at hb
      exact hstill ⟨h, hk⟩ n b hb
    have hone := (Told.nil (s.rewriteNoticed i old) i).snoc old.kind (fun _ => hvqueue) fun hk => hvstill (.inl hk)
    by_cases hk : old.kind = new.kind
    · rw [announceRewrite_of_same_kind h hk, hfirst, kindsChanged, if_neg h, if_pos hk]
      exact hone
    · have hsecond := handOn_eq_told quiet_unknown ((s.rewriteNoticed i old).told i old.kind) i new.kind old.state
        fun hm n a ha hi => by
          rw [hone.armEntry, State.armEntry, rewriteNoticed_batch] at ha
          rw [hone.holder, State.holder, State.arm, rewriteNoticed_batch]
          exact hfree ⟨h, .inr hm⟩ n a ha hi
      rw [announceRewrite_of_other_kind h hk, hfirst, hsecond, kindsChanged, if_neg h, if_neg hk]
      exact hone.snoc new.kind (fun _ => hvqueue) fun hk => hvstill (.inr hk)

end Rewrite

theorem permissivesNoticed_off (s : State) : s.permissivesNoticed false false =
    let w : State := { s with batch := { s.batch with permissive := ⟨false, false⟩ } }
    let off := fun (x : State) (l : Lane) => if s.batch.permissive.get l then x.raiseNotice .permissive (.lane l) 0x00#8 else x
    off (off w .a) .b := by
  have hoff : ∀ (u : State) (l : Lane) (was : Bool),
      u.noticePermissive l was false = if was then u.raiseNotice .permissive (.lane l) 0x00#8 else u := fun u l was => by
    cases was <;> rfl
  rw [State.permissivesNoticed, hoff, hoff]
  rfl

/-! ### What a rewrite and an emptying leave -/

theorem putDevice_of_empty {s : State} {i : DevIx} (h : s.device i = none) (d : Device) : s.putDevice i d = s.written i (some d) := by
  rw [State.putDevice, h]
  rfl

theorem putDevice_of_present {s : State} {i : DevIx} {o : Device} (h : s.device i = some o) (d : Device) : s.putDevice i d =
    ((s.written i (some d)).announceRewrite i o d).injectorRewritten i o.kind := by
  rw [State.putDevice, h]
  rfl

theorem removeDevice_of_present {s : State} {i : DevIx} {o : Device} (h : s.device i = some o) : s.removeDevice i =
    ((s.written i none).raiseNotice .device (.device i) 0x05#8).handOn i o.kind o.state none := by
  rw [State.removeDevice, h]
  rfl

theorem injectorRewritten_unhalting (s : State) (i : DevIx) (k : DeviceKind) : Unhalting s (s.injectorRewritten i k) := by
  unfold State.injectorRewritten
  split
  · exact .of_sans (injectorUnknown_sans s i)
  · exact .refl s

theorem putDevice_device (s : State) (i j : DevIx) (d : Device) :
    (s.putDevice i d).device j = if j = i then some d else s.device j := by
  rw [← written_device s i j (some d)]
  refine device_of_devices ?_ j
  cases h : s.device i with
  | none => rw [putDevice_of_empty h]
  | some o => rw [putDevice_of_present h, (injectorRewritten_unhalting _ i o.kind).devices, announceRewrite_devices]

theorem removeDevice_device (s : State) (i j : DevIx) :
    (s.removeDevice i).device j = if j = i then none else s.device j := by
  rw [← written_device s i j none]
  refine device_of_devices ?_ j
  cases h : s.device i with
  | none =>
    rw [State.removeDevice, h]
    rfl
  | some o => rw [removeDevice_of_present h, handOn_devices quiet_removed, raiseNotice_scan]

/-- The kinds whose owners a rewrite tells, with the injector that is told of a rewrite of its own entry whatever its state was. -/
def kindsRewritten (old new : Device) : List DeviceKind :=
  kindsChanged old new ++ if old.kind = .injector then [.injector] else []

theorem mem_kindsRewritten (old new : Device) (k : DeviceKind) : k ∈ kindsRewritten old new ↔
    (old.state ≠ .unknown ∧ (old.kind = k ∨ new.kind = k)) ∨ (old.kind = .injector ∧ k = .injector) := by
  rw [kindsRewritten, List.mem_append, mem_kindsChanged]
  split
  case isTrue h => simp [h]
  case isFalse h => simp [h]

section Rewrite

variable {s : State} {i : DevIx} {o d : Device}

theorem putDevice_told (ho : s.device i = some o)
    (hfree : .meter ∈ kindsChanged o d → ∀ n a, s.armEntry n = some a → a.meter = i → s.holder n = none)
    (hstill : .permissive ∈ kindsChanged o d → ∀ n b, s.holder n = some b → b.state.haltable = false)
    (hqueue : ∀ x, s.slot i = some x → x.queue = []) :
    Told ((s.written i (some d)).rewriteNoticed i o) (s.putDevice i d) i (kindsRewritten o d) := by
  have htold := announceRewrite_told (s := s.written i (some d)) (i := i) (old := o) (new := d) hfree hstill hqueue
  rw [putDevice_of_present ho, State.injectorRewritten, kindsRewritten]
  split
  · refine htold.snoc .injector (fun _ => ?_) nofun
    rw [State.slot, rewriteNoticed_additive]
    exact hqueue
  · rw [List.append_nil]
    exact htold

theorem removeDevice_told (ho : s.device i = some o)
    (hfree : o.kind = .meter → ∀ n a, s.armEntry n = some a → a.meter = i → s.holder n = none)
    (hstill : o.kind = .permissive → ∀ n b, s.holder n = some b → b.state.haltable = false)
    (hqueue : o.kind = .injector → ∀ x, s.slot i = some x → x.queue = []) :
    Told ((s.written i none).raiseNotice .device (.device i) 0x05#8) (s.removeDevice i) i [o.kind] := by
  have hhand := handOn_eq_told quiet_removed ((s.written i none).raiseNotice .device (.device i) 0x05#8) i o.kind o.state hfree
  rw [removeDevice_of_present ho, hhand]
  exact (Told.nil _ i).snoc o.kind hqueue hstill

end Rewrite

/-- The records of a state of which the owners have been told, where the notice before it changed no record. -/
theorem Told.records {s v t : State} {i : DevIx} {ks : List DeviceKind} (h : Told v t i ks) (hbatch : v.batch = s.batch)
    (hmeter : v.meter = s.meter) (hadd : v.additive = s.additive) :
    (.permissive ∉ ks → t = { v with meter := t.meter, additive := { s.additive with slots := t.additive.slots } }) ∧
    (.permissive ∈ ks →
      let off := fun (x : State) (l : Lane) => if s.batch.permissive.get l then x.raiseNotice .permissive (.lane l) 0x00#8 else x
      let dark : State := off (off { v with batch := { v.batch with permissive := ⟨false, false⟩ } } .a) .b
      t = { dark with meter := t.meter, additive := { s.additive with slots := t.additive.slots } }) ∧
    (∀ n a, s.armEntry n = some a → .meter ∈ ks → a.meter = i →
      t.metering n = { s.metering n with history := .fresh, lastTemp := none, hold := 0, unauthorised := 0 }) ∧
    (∀ n, (∀ a, s.armEntry n = some a → .meter ∉ ks ∨ a.meter ≠ i) → t.metering n = s.metering n) ∧
    (∀ j, j ≠ i → t.slot j = s.slot j) ∧
    (.injector ∈ ks → t.slot i = (s.slot i).map fun x => { x with request := none, flight := x.flight.filter fun f => f.owned }) ∧
    (.injector ∉ ks → t.slot i = s.slot i) := by
  have hnames : ∀ n, v.names n i = s.names n i := fun n => by rw [State.names, State.armEntry, hbatch, State.names, State.armEntry]
  have hmetering : ∀ n, v.metering n = s.metering n := fun n => by rw [State.metering, hmeter, State.metering]
  have hslot : ∀ j, v.slot j = s.slot j := fun j => by rw [State.slot, hadd, State.slot]
  refine ⟨fun hp => ?_, fun hp => ?_, fun n a ha hk hi => ?_, fun n hn => ?_, fun j hj => ?_, fun hk => ?_, fun hk => ?_⟩
  · have hrest := h.rest
    rwa [if_neg hp, State.withRecords, hadd] at hrest
  · have hrest := h.rest
    rw [if_pos hp, permissivesNoticed_off, hbatch] at hrest
    intro off dark
    have hdark : dark.additive = s.additive := by
      have hoff : ∀ (x : State) (l : Lane), (off x l).additive = x.additive := fun x l => by
        simp only [off]
        split <;> rfl
      rw [hoff, hoff]
      exact hadd
    rw [← hdark]
    simp only [dark, off, hbatch]
    exact hrest
  · rw [h.metering, hnames, if_pos ⟨hk, by simp [State.names, ha, hi]⟩, hmetering]
    rfl
  · rw [h.metering, hnames, hmetering, if_neg]
    rintro ⟨hk, hname⟩
    obtain ⟨a, ha, hi⟩ := (Option.any_eq_true ..).mp hname
    exact (hn a ha).elim (fun hno => hno hk) fun hno => hno (of_decide_eq_true hi)
  · rw [h.slot, if_neg fun e => hj e.2, hslot]
  · rw [h.slot, if_pos ⟨hk, rfl⟩, hslot]
    rfl
  · rw [h.slot, if_neg fun e => hk e.1, hslot]

theorem serving_and_iff (s : State) (b : Bool) : (s.serving && b) = true ↔ s.port.mode ≠ .outOfService ∧ b = true := by
  rw [Bool.and_eq_true, serving_iff]

/-- Settles O24: the checks of R19, then the entry is written and its owners are told. -/
theorem deviceWriteEffect : Obligations.DeviceWriteEffect := by
  intro s hs
  refine ⟨fun q hr hbad => ?form, fun ix addr kindCode assocCode tmo lim kind hr haddr hkind => ⟨fun hbad => ?value,
    fun i assoc hix haddr' hassoc htmo htmo' hlim hlim' => ?entry⟩⟩
  case form =>
    by_cases hlen : q.length = 6
    · obtain ⟨ha, hk⟩ := hbad.resolve_left (not_not_intro hlen)
      exact request_next hr (deviceWrite_of_no_kind hlen ha hk) hs
    · exact request_next hr (deviceWrite_of_length_ne hlen) hs
  case value =>
    have hr' : s.Reaches (1 + [ix, addr, kindCode, assocCode, tmo, lim].length) := hr
    by_cases hix : 31 < ix.toNat
    · exact request_next hr' (deviceWrite_of_bad_index haddr hkind (devIxOf_of_lt hix)) hs
    · by_cases hassoc : assocOf kind assocCode = none
      · exact request_next hr' (deviceWrite_of_bad_value haddr hkind (parseDevice_of_no_assoc hassoc)) hs
      · have hrange := (hbad.resolve_left hix).imp_right fun h => h.resolve_left hassoc
        exact request_next hr' (deviceWrite_of_bad_value haddr hkind (parseDevice_of_bad_range hrange)) hs
  case entry =>
    intro d wrongMode inUse taken u
    have hr' : s.Reaches (1 + [ix, addr, kindCode, assocCode, tmo, lim].length) := hr
    have hwrite : s.deviceWrite [ix, addr, kindCode, assocCode, tmo, lim] = s.writeDevice i (some d) :=
      deviceWrite_of_entry haddr hkind (hix ▸ devIxOf_ofNat i)
        (parseDevice_of_good hassoc ⟨haddr', htmo, htmo', hlim, hlim'⟩)
    have hwrong : (s.serving && wrongModeWrite (s.device i) (some d)) = true ↔ wrongMode := by
      rw [serving_and_iff]
      refine and_congr_right fun _ => ?_
      cases s.device i <;> simp [wrongModeWrite, d]
    refine ⟨fun hw => ?_, fun hw ⟨o, ho, hu⟩ => ?_, fun hw hu ht => ?_, fun hw hu ht => ?_⟩
    · exact request_next hr' (hwrite.trans (writeDevice_of_wrongMode (hwrong.mpr hw))) hs
    · exact request_next hr' (hwrite.trans (writeDevice_of_inUse (mt hwrong.mp hw) ho hu)) hs
    all_goals have hfree := hwrite.trans (writeDevice_of_free (mt hwrong.mp hw) hu)
    · exact request_next hr' (hfree.trans (if_pos ((addressTaken_iff s i addr).mpr ht))) hs
    · have hput := hfree.trans (if_neg (mt (addressTaken_iff s i addr).mp ht))
      have hexec := request_settles (owner := fun s => s.deviceWrite [ix, addr, kindCode, assocCode, tmo, lim]) hr' hput
      refine ⟨⟨_, hexec, fun j => putDevice_device s i j d⟩, fun hnone => ?_, fun o ho => ?_⟩
      · rw [putDevice_of_empty hnone] at hexec
        exact hexec
      · intro told v off dark
        have htold : ∀ k, k ∈ kindsChanged o d ↔ told k := mem_kindsChanged o d
        refine ⟨fun hmeter hmonitor hqueue => ⟨_, hexec, ?_⟩, fun hp => ⟨_, hexec, ?_⟩⟩
        · have hrecords := (putDevice_told (d := d) ho (fun h => hmeter ((htold _).mp h)) (fun h => hmonitor ((htold _).mp h))
            hqueue).records (s := s) (rewriteNoticed_batch _ i o) (rewriteNoticed_meter _ i o) (rewriteNoticed_additive _ i o)
          have hother : ∀ k, k ≠ .injector → (k ∈ kindsRewritten o d ↔ told k) := fun k hk => by
            rw [mem_kindsRewritten]
            simp only [hk, and_false, or_false]
            rfl
          have hinjector : .injector ∈ kindsRewritten o d ↔ o.kind = .injector ∨ told .injector := by
            rw [mem_kindsRewritten, or_comm]
            simp only [and_true]
            rfl
          rw [hother _ (by decide), hother _ (by decide), hinjector] at hrecords
          obtain ⟨h1, h2, h3, h4, h5, h6, h7⟩ := hrecords
          exact ⟨h1, h2, h3, h4, h5, h6, fun hne hno => h7 (not_or.mpr ⟨hne, hno⟩)⟩
        · rw [putDevice_of_present ho]
          have hstep := injectorRewritten_unhalting ((s.written i (some d)).announceRewrite i o d) i o.kind
          obtain ⟨hoff, hhalts⟩ := announceRewrite_halts (s := s.written i (some d)) (i := i) (new := d) hp.1 hp.2
          exact ⟨hstep.permissive.trans hoff, fun n b hb hh hl => hstep.halted n _ (hhalts n b hb hh hl)⟩

/-- Settles O25: the checks of R19, then the entry is emptied, the change noticed and its owners told. -/
theorem deviceEmptyEffect : Obligations.DeviceEmptyEffect := by
  intro s hs
  refine ⟨fun ix q hr hq => ?form, fun ix q hr hq hix => ?value, fun i q hr hq => ?entry⟩
  case form =>
    refine request_next (owner := fun s => s.deviceWrite (ix :: 0#8 :: q)) hr (deviceWrite_of_length_ne ?_) hs
    rw [List.length_cons, List.length_cons]
    omega
  case value =>
    have hr' : s.Reaches (3 + q.length) := hq ▸ hr
    refine request_next (owner := fun s => s.deviceWrite (ix :: 0#8 :: q)) hr' ((deviceWrite_empty hq).trans ?_) hs
    rw [devIxOf_of_lt hix]
  case entry =>
    intro ix u
    have hr' : s.Reaches (3 + q.length) := hq ▸ hr
    have hwrite : s.deviceWrite (ix :: 0#8 :: q) = s.writeDevice i none := by
      refine (deviceWrite_empty hq).trans ?_
      rw [devIxOf_ofNat]
    have hexec := fun (hm : ¬ (s.serving && wrongModeWrite (s.device i) none) = true)
      (hu : ¬ ∃ o, s.device i = some o ∧ s.deviceInUse i o = true) =>
        request_settles (owner := fun s => s.deviceWrite (ix :: 0#8 :: q)) hr' (hwrite.trans (writeDevice_of_free hm hu))
    refine ⟨fun hnone => ?_, fun o ho => ?_⟩
    · have hremove : s.removeDevice i = u := by
        rw [State.removeDevice, hnone]
        rfl
      rw [← hremove]
      refine hexec ?_ (by rintro ⟨o, ho, -⟩; rw [hnone] at ho; exact nomatch ho)
      rw [hnone]
      simp [wrongModeWrite]
    · have hwrong : (s.serving && wrongModeWrite (s.device i) none) = true ↔ s.port.mode ≠ .outOfService := by
        rw [serving_and_iff, ho]
        exact and_iff_left rfl
      refine ⟨fun hm => ?_, fun hm hu => ?_, fun hm hu => ?_⟩
      · exact request_next (owner := fun s => s.deviceWrite (ix :: 0#8 :: q)) hr'
          (hwrite.trans (writeDevice_of_wrongMode (hwrong.mpr hm))) hs
      · exact request_next (owner := fun s => s.deviceWrite (ix :: 0#8 :: q)) hr'
          (hwrite.trans (writeDevice_of_inUse (mt hwrong.mp (not_not_intro hm)) ho hu)) hs
      · intro v off dark
        have hfree := hexec (mt hwrong.mp (not_not_intro hm)) fun ⟨p, hp, hpu⟩ => by
          rw [ho, Option.some.injEq] at hp
          rw [← hp, hu] at hpu
          exact Bool.noConfusion hpu
        have hqueue : o.kind = .injector → ∀ x, s.slot i = some x → x.queue = [] := fun hk x hx => by
          have hbusy : s.injectorBusy i = false := by
            rw [← hu, State.deviceInUse, hk]
          rw [State.injectorBusy, hx] at hbusy
          simpa using (Bool.or_eq_false_iff.mp hbusy).1
        refine ⟨⟨_, hfree, removeDevice_device s i⟩, fun hmeter hmonitor => ⟨_, hfree, ?_⟩, fun hk => ⟨_, hfree, ?_⟩⟩
        · have hrecords := (removeDevice_told ho hmeter hmonitor hqueue).records (s := s) rfl rfl rfl
          simp only [List.mem_singleton, eq_comm (b := o.kind)] at hrecords
          exact hrecords
        · rw [removeDevice_of_present ho, hk, handOn_permissive_of_quiet quiet_removed]
          have hoff : ∀ l : Lane, Lanes.get (⟨false, false⟩ : Lanes Bool) l = false := fun l => by cases l <;> rfl
          exact ⟨setPermissives_permissive, fun n b hb hh hl =>
            setPermissives_halts (s := (s.written i none).raiseNotice .device (.device i) 0x05#8) hb hh hl (hoff _)⟩

end Sys2Proof.Machine
end

section
/-! PROOF. PASSTHROUGH and its reply (R36, R37), and the ends of lines: reply sent, telegram sent, quiet time (R9, R12, R38). -/

namespace Sys2Proof.Machine

/-! ### PASSTHROUGH (R36) -/

section Passthrough

variable {s : State} {ix kind : Byte} {payload : List Byte}

theorem passthroughRequest_of_bad_length {q : List Byte} (h : q.length < 2 ∨ 66 < q.length) :
    s.passthroughRequest q = (s, .refuse .badFormat) :=
  if_pos (by omega)

variable (h : payload.length ≤ 64)

include h

theorem passthroughRequest_of_bad_index (hi : devIxOf ix = none) :
    s.passthroughRequest (ix :: kind :: payload) = (s, .refuse .badValue) := by
  refine (if_neg (by simp only [List.length_cons]; omega)).trans ?_
  simp only [byteAt, List.getD_cons_zero, hi]
  rfl

variable {i : DevIx} (hi : devIxOf ix = some i)

include hi

theorem passthroughRequest_of_empty (hd : s.device i = none) :
    s.passthroughRequest (ix :: kind :: payload) = (s, .refuse .notFound) := by
  refine (if_neg (by simp only [List.length_cons]; omega)).trans ?_
  simp only [byteAt, List.getD_cons_zero, hi, hd]
  rfl

theorem passthroughRequest_of_present {d : Device} (hd : s.device i = some d) :
    s.passthroughRequest (ix :: kind :: payload) =
      if ¬ s.passes d.kind kind then (s, .refuse .notAllowed)
      else if s.deviceInUse i d then (s, .refuse .inUse)
      else if s.scan.slot.isSome then (s, .refuse .busy)
      else ({ s with scan := { s.scan with slot := some ⟨i, kind, payload⟩, wake := true } }, .accept) := by
  refine (if_neg (by simp only [List.length_cons]; omega)).trans ?_
  simp only [byteAt, List.getD_cons_zero, List.getD_cons_succ, hi, hd]
  rfl

end Passthrough

theorem passes_iff (s : State) (k : DeviceKind) (kind : Byte) : s.passes k kind = true ↔
    0x60 ≤ kind.toNat ∧ kind.toNat ≤ 0x7F ∧ (s.scan.filter[k.index]).getLsbD (kind.toNat - 0x60) = true := by
  simp only [State.passes, Bool.and_eq_true, decide_eq_true_eq, and_assoc]

/-- A device is in use by its arm, or by its injector's queue and stream (R19, R36). -/
theorem deviceInUse_iff (s : State) (i : DevIx) (d : Device) : s.deviceInUse i d = true ↔
    (∃ n : Arm, (d.kind = .meter ∨ d.kind = .valve) ∧ d.assoc = .arm n ∧ (s.holder n).isSome) ∨
      (d.kind = .injector ∧ ∃ x, s.slot i = some x ∧ (x.queue ≠ [] ∨ x.stream.state ≠ .idle)) := by
  have hbusy : s.injectorBusy i = true ↔ ∃ x, s.slot i = some x ∧ (x.queue ≠ [] ∨ x.stream.state ≠ .idle) := by
    rw [State.injectorBusy]
    cases s.slot i <;> simp
  unfold State.deviceInUse
  split
  case h_1 n hk ha => simp [hk, ha]
  case h_2 n hk ha => simp [hk, ha]
  case h_3 hk => simp [hk, hbusy]
  case h_4 hinjector hmeter hvalve =>
    refine iff_of_false Bool.false_ne_true ?_
    rintro (⟨n, hk | hk, ha, -⟩ | ⟨hk, -⟩)
    · exact hmeter n hk ha
    · exact hvalve n hk ha
    · exact hinjector hk

theorem freeBus_eq_freed (s : State) (t : Transaction) : s.freeBus t = s.freed t.step := by
  unfold State.freeBus State.freed
  cases t.step <;> rfl

/-- With no character of a reply taken, the bus falls free with its receiver as it was. -/
theorem freed_of_clear_rx {s : State} {step : PickStep} (h : s.scan.rx = ⟨[], false, none⟩) (hc : step.clearsHolds = true) :
    s.freed step = { s with
      scan := { s.scan with
        devices := s.scan.devices.map fun e => e.map fun e => { e with retryHold := false }
        transaction := none
        wake := true }
      pads := { s.pads with bde := false } } := by
  have hrx : { s.scan.rx with buffer := [], broken := false } = s.scan.rx := by rw [h]
  have hstep : ¬ (step = .urgentClose ∨ step = .valve) := by
    rintro (rfl | rfl) <;> exact Bool.noConfusion hc
  rw [State.freed, hrx, if_neg hstep]

/-- The reply of a passthrough transaction frees the bus, is noticed and empties the slot (R37). -/
theorem replyEnd_of_passthrough {s : State} {t : Transaction} {d : Device} (h : s.AwaitsReply t d) (hstep : t.step = .passthrough)
    (kind : Byte) (payload : List Byte) : s.replyEnd t (.diagnostic kind payload) = State.raiseNoticeAt { s with
      scan := { s.scan with
        devices := s.scan.devices.map fun e => e.map fun e => { e with retryHold := false }
        transaction := none
        slot := none
        wake := true }
      pads := { s.pads with bde := false } } .passthrough (.device t.device) 0x00#8 s.time.record (some (kind, payload)) := by
  obtain ⟨-, -, hw, hrx, -⟩ := h
  rw [State.replyEnd, hw, if_neg Bool.false_ne_true, if_pos hstep, State.passReply, freeBus_eq_freed,
    freed_of_clear_rx hrx (by rw [hstep]; rfl)]
  rfl

/-- Settles O33: the checks of R36 in order, and the reply's way. -/
theorem passthroughServed : Obligations.PassthroughServed := by
  refine ⟨fun s hs => ⟨fun q hr hq => request_next hr (passthroughRequest_of_bad_length hq) hs,
    fun ix kind payload hlen hr => ?request⟩, fun kind payload s t d hs haw hstep htel hlow hhigh hlen => ?reply⟩
  case request =>
    intro q
    have hr' : s.Reaches q.length := (show 2 + payload.length = q.length by simp only [q, List.length_cons]; omega) ▸ hr
    refine ⟨fun hix => request_next hr' (passthroughRequest_of_bad_index hlen (devIxOf_of_lt hix)) hs, fun i hix => ?_⟩
    have hi : devIxOf ix = some i := hix ▸ devIxOf_ofNat i
    refine ⟨fun hd => request_next hr' (passthroughRequest_of_empty hlen hi hd) hs, fun d hd => ?_⟩
    intro allowed inUse
    have hpresent : s.passthroughRequest q = _ := passthroughRequest_of_present hlen hi hd
    have hallowed := passes_iff s d.kind kind
    have hused := deviceInUse_iff s i d
    refine ⟨fun hno => ?_, fun hok hu => ?_, fun hok hu hslot => ?_, fun hok hu hslot => ?_⟩
    · exact request_next hr' (hpresent.trans (if_pos (mt hallowed.mp hno))) hs
    all_goals have hnext := hpresent.trans (if_neg (not_not_intro (hallowed.mpr hok)))
    · exact request_next hr' (hnext.trans (if_pos (hused.mpr hu))) hs
    all_goals have hlast := hnext.trans (if_neg (mt hused.mp hu))
    · exact request_next hr' (hlast.trans (if_pos hslot)) hs
    · exact request_settles hr' (hlast.trans (if_neg (by rw [hslot]; exact Bool.false_ne_true)))
  case reply =>
    have hfits : replyFits (.diagnostic kind payload) = true := by simp [replyFits, hlow, hhigh, hlen]
    have hlisted : replyKindOk (replyKind (.diagnostic kind payload)) t.telegram.isDiagnostic = true := by
      simp [replyKindOk, replyKind, htel, hlow, hhigh]
    exact congrArg (fun v => Host.Outcome.next (State.settle v))
      ((deliverReply_ends haw hfits hlisted).trans (replyEnd_of_passthrough haw hstep kind payload))

/-! ### The ends of lines (R9, R12, R38) -/

/-- The counters after a held character, if there is one, has been taken for its error alone. -/
def BusCounters.countHeld (k : BusCounters) : Option BusChar → BusCounters
  | none => k
  | some c => k.countError (BusChar.error c)

/-- With no transaction waiting for a reply, a held character that is taken only counts its error (R13). -/
theorem takeBusHeld_of_unsent {s : State} (h : ∀ t, s.scan.transaction = some t → t.sent = false) : s.takeBusHeld = { s with
    scan := { s.scan with
      rx := { s.scan.rx with held := none }
      counters := BusCounters.countHeld s.scan.counters s.scan.rx.held } } := by
  have hfilter : s.scan.transaction.filter (fun t => t.sent) = none := by
    rw [Option.filter_eq_none_iff]
    intro t ht
    rw [h t ht]
    exact Bool.false_ne_true
  unfold State.takeBusHeld
  cases hheld : s.scan.rx.held with
  | none =>
    have hrx : { s.scan.rx with held := none } = s.scan.rx := by rw [← hheld]
    simp only [hrx, BusCounters.countHeld]
  | some c =>
    simp only [State.takeBusChar, hfilter]
    rfl

/-- Settles O34: a reply, a telegram and the quiet time end. -/
theorem linesReleased : Obligations.LinesReleased := by
  intro s hs
  refine ⟨rfl, fun t ht hsent => ?sent, fun hall => ?idle, fun hq => ?quiet, fun hq => ?notQuiet⟩
  case sent =>
    have hheld := takeBusHeld_of_unsent (s := s) fun t' ht' => by
      rw [ht, Option.some.injEq] at ht'
      rw [← ht', hsent]
    refine congrArg Host.Outcome.next ?_
    rw [State.telegramSent, ht]
    simp only [hsent, Bool.false_eq_true, if_false, hheld]
    rfl
  case idle =>
    refine congrArg Host.Outcome.next ?_
    rw [State.telegramSent]
    cases ht : s.scan.transaction with
    | none => rfl
    | some t => exact if_pos (hall t ht)
  case quiet =>
    refine congrArg (fun v => Host.Outcome.next (State.settle v)) ?_
    exact if_pos hq
  case notQuiet =>
    have hsame : s.quietEnds = s := if_neg (by rw [hq]; exact Bool.false_ne_true)
    exact congrArg Host.Outcome.next ((congrArg State.settle hsame).trans (settle_of_settled hs))

end Sys2Proof.Machine
end

section
/-! PROOF. The timers of arm and batch, of lanes and of shots (R81, R86, R89 to R91, R106, R109, R142, R152). -/

namespace Sys2Proof.Machine

/-! ### The timers of an arm and its batch -/

theorem pendingLapse_of_start {s : State} {n : Arm} {l : Lane} (h : ∃ p ∈ (s.arm n).starts, p.lane = l) :
    s.pendingLapse n l = (s.dropStart n l).post l .armBusy :=
  if_pos (List.any_eq_true.mpr (by simpa using h))

theorem pendingLapse_of_no_start {s : State} {n : Arm} {l : Lane} (h : ∀ p ∈ (s.arm n).starts, p.lane ≠ l) : s.pendingLapse n l = s :=
  if_neg (by simpa using h)

theorem noFlowExpires_of_stopped {s : State} {n : Arm} (h : ∀ b, s.holder n = some b → b.noFlowTimer = none) :
    s.noFlowExpires n = s := by
  refine if_neg fun hany => ?_
  obtain ⟨b, hb, ht⟩ := (Option.any_eq_true ..).mp hany
  rw [h b hb] at ht
  exact Bool.noConfusion ht

theorem noFlowExpires_of_running {s : State} {n : Arm} {b : Batch} (hb : s.holder n = some b) (ht : b.noFlowTimer ≠ none) :
    s.noFlowExpires n = (s.setArm n { s.arm n with holder := some { b with noFlowTimer := none } }).haltBatch n .noFlow := by
  have hset : s.modBatch n (fun b => { b with noFlowTimer := none }) = _ := modBatch_of_holder hb _
  rw [← hset]
  exact if_pos (by rw [hb]; exact Option.isSome_iff_ne_none.mpr ht)

theorem stopExpires_of_stopped {s : State} {n : Arm} (h : ∀ b, s.holder n = some b → b.stopTimer = none) : s.stopExpires n = s := by
  refine if_neg fun hany => ?_
  obtain ⟨b, hb, ht⟩ := (Option.any_eq_true ..).mp hany
  rw [h b hb] at ht
  exact Bool.noConfusion ht

theorem stopExpires_of_running {s : State} {n : Arm} {b : Batch} (hb : s.holder n = some b) (ht : b.stopTimer ≠ none) :
    s.stopExpires n = (s.setArm n { s.arm n with
      holder := some { b with stopTimer := none, exceptions := setExc .meterLost b.exceptions } }).endStopping n := by
  have hset : (s.modBatch n fun b => { b with stopTimer := none }).setBatchExc n .meterLost = s.setArm n { s.arm n with
      holder := some { b with stopTimer := none, exceptions := setExc .meterLost b.exceptions } } := by
    rw [modBatch_of_holder hb, State.setBatchExc, modBatch_of_holder (holder_setArm_self ..), arm_setArm_self, setArm_setArm]
  rw [← hset]
  exact if_pos (by rw [hb]; exact Option.isSome_iff_ne_none.mpr ht)

theorem endStopping_of_halted {s : State} {n : Arm} {b : Batch} (hb : s.holder n = some b) (hr : b.stopReason ≠ some .preset)
    (he : b.ending = false) : s.endStopping n = s.enterHalted n b := by
  rw [State.endStopping, hb]
  exact if_neg (by simp [hr, he])

theorem setDesired_of_desired {s : State} {n : Arm} {st : Stage} (h : (s.arm n).desired = st) : s.setDesired n st = s := if_pos h

/-- The state of a batch changes where the desired stage stays (R76). -/
theorem setBatchState_of_desired {s : State} {n : Arm} {b : Batch} (hb : s.holder n = some b) {st : BatchState}
    (hd : (s.arm n).desired = desiredFor st b.degraded) :
    s.setBatchState n st = s.setArm n { s.arm n with holder := some { b with state := st } } := by
  rw [State.setBatchState, hb]
  dsimp only
  rw [modBatch_of_holder hb]
  exact setDesired_of_desired (by rw [arm_setArm_self]; exact hd)

/-- Entry to HALTED of a batch whose stage is CLOSED already (R89). -/
theorem enterHalted_of_closed {s : State} {n : Arm} {b : Batch} (hb : s.holder n = some b) (hd : (s.arm n).desired = .closed) :
    s.enterHalted n b = State.post ((s.setArm n { s.arm n with
      holder := some { b with state := .halted, stopTimer := none, exceptions := setExc .halted b.exceptions } }).reportHalted
        b.lane b.compartment) b.lane .halted := by
  have hset := setBatchState_of_desired (st := .halted) hb hd
  rw [State.enterHalted, hset, modBatch_of_holder (holder_setArm_self ..), arm_setArm_self, setArm_setArm]

theorem post_arm (s : State) (l : Lane) (c : DisplayCode) (n : Arm) : (s.post l c).arm n = s.arm n := by
  rw [State.arm, post_batch, State.arm]

theorem post_holder (s : State) (l : Lane) (c : DisplayCode) (n : Arm) : (s.post l c).holder n = s.holder n := by
  rw [State.holder, post_arm, State.holder]

theorem post_lane (s : State) (l k : Lane) (c : DisplayCode) : (s.post l c).lane k = s.lane k := by
  rw [State.lane, post_load, State.lane]

/-! ### The shot timer (R106, R109) -/

theorem shotExpires_of_idle {s : State} {i : DevIx}
    (h : ∀ x f, s.slot i = some x → x.flight = some f → f.phase ≠ .awaiting ∨ f.timer = none) : s.shotExpires i = s := by
  unfold State.shotExpires
  split
  case h_1 => rfl
  case h_2 f hf =>
    obtain ⟨x, hx, hflight⟩ := Option.bind_eq_some_iff.mp hf
    refine if_neg fun ⟨hphase, htimer⟩ => ?_
    rcases h x f hx hflight with hne | hnone
    · exact hne hphase
    · rw [hnone] at htimer
      exact Bool.noConfusion htimer

section ShotTimer

variable {s : State} {i : DevIx} {x : InjectorSlot} {f : Flight} (hx : s.slot i = some x) (hf : x.flight = some f)

include hx hf

theorem shotExpires_of_awaiting (hp : f.phase = .awaiting) (ht : f.timer ≠ none) :
    s.shotExpires i = if f.owned then s.queryShot i f else s.endUnowned i := by
  have hbind : (s.slot i).bind (fun x => x.flight) = some f := by rw [hx]; exact hf
  rw [State.shotExpires, hbind]
  exact if_pos ⟨hp, Option.isSome_iff_ne_none.mpr ht⟩

omit hf in
theorem queryShot_of_slot : s.queryShot i f = { s with
    additive := { s.additive with slots := s.additive.slots.set i (some { x with
      flight := some { f with phase := .querying, timer := none }, request := some .shotQuery }) }
    scan := { s.scan with wake := true } } := by
  rw [State.queryShot, State.setFlight, State.postRequest, modSlot_modSlot, State.modSlot, hx]
  rfl

theorem endUnowned_of_no_queue (ho : f.owned = false) (hq : x.queue = []) :
    s.endUnowned i = s.setSlot i (some { x with flight := none }) := by
  have hset : (s.modSlot i fun x => { x with flight := none }) = s.setSlot i (some { x with flight := none }) := by
    rw [State.modSlot, hx]
    rfl
  rw [State.endUnowned, if_pos (by simp [hx, hf, ho]), hset]
  exact issueHead_of_no_queue (slot_setSlot_self ..) hq

end ShotTimer

/-- Settles O51: each timer where it runs, and where it does not. -/
theorem timersExpire : Obligations.TimersExpire := by
  refine ⟨fun n s hs => ⟨fun l hl => ?lapse, fun l hl => ?noLapse, fun h => ?noFlowIdle, fun b hb ht hh => ?noFlow,
    fun h => ?stopIdle, fun b hb ht hst hr he hd => ?stop, rfl⟩, fun l s hs => ⟨fun h => ?candidate, fun h => ?noCandidate,
    fun h => ?deadline, fun h => ?noSlot⟩, fun i s hs => ⟨fun h => ?shotIdle, fun x f hx hf hp ht => ⟨fun ho => ?owned,
    fun ho hq => ?unowned⟩⟩⟩
  case lapse => exact congrArg (fun v => Host.Outcome.next (State.settle v)) (pendingLapse_of_start hl)
  case noLapse =>
    exact congrArg Host.Outcome.next ((congrArg State.settle (pendingLapse_of_no_start hl)).trans (settle_of_settled hs))
  case noFlowIdle =>
    exact congrArg Host.Outcome.next ((congrArg State.settle (noFlowExpires_of_stopped h)).trans (settle_of_settled hs))
  case noFlow =>
    generalize hu : s.setArm n { s.arm n with holder := some { b with noFlowTimer := none } } = u
    have hholder : u.holder n = some { b with noFlowTimer := none } := by rw [← hu]; exact holder_setArm_self ..
    have harm := haltBatch_arm_self hholder hh .noFlow
    have hport := haltBatch_port hholder hh .noFlow
    rw [← hu] at harm hport
    refine ⟨_, congrArg (fun v => Host.Outcome.next (State.settle v)) (noFlowExpires_of_running hb ht), ?_, hport,
      fun m hm => (haltBatch_arm_other _ hm _).trans (arm_setArm_other s hm _), ?_⟩
    · rw [harm, State.haltedArm, want_desired]
    · rw [State.holder, harm, State.haltedArm, want_holder]
      rfl
  case stopIdle =>
    exact congrArg Host.Outcome.next ((congrArg State.settle (stopExpires_of_stopped h)).trans (settle_of_settled hs))
  case stop =>
    generalize hu : s.setArm n { s.arm n with
      holder := some { b with stopTimer := none, exceptions := setExc .meterLost b.exceptions } } = u
    have hholder : u.holder n = some { b with stopTimer := none, exceptions := setExc .meterLost b.exceptions } := by
      rw [← hu]
      exact holder_setArm_self ..
    have hdesired : (u.arm n).desired = .closed := by
      rw [← hu, arm_setArm_self]
      exact hd
    have hend : s.stopExpires n = _ := ((stopExpires_of_running hb ht).trans (congrArg (fun v => State.endStopping v n) hu)).trans
      ((endStopping_of_halted hholder hr he).trans (enterHalted_of_closed hholder hdesired))
    refine ⟨_, congrArg (fun v => Host.Outcome.next (State.settle v)) hend, ?_, ?_, ?_, ?_⟩
    · rw [post_holder]
      exact holder_setArm_self ..
    · rw [post_arm]
      exact (congrArg ArmRec.desired (arm_setArm_self ..)).trans hdesired
    · refine post_scan_congr ?_ b.lane .halted
      rw [← hu]
      rfl
    · rw [post_port, ← hu]
      rfl
  case candidate =>
    exact congrArg Host.Outcome.next (if_pos h)
  case noCandidate =>
    exact congrArg Host.Outcome.next (if_neg (by rw [h]; exact Bool.false_ne_true))
  case deadline => exact congrArg (fun v => Host.Outcome.next (State.settle v)) (if_pos h)
  case noSlot =>
    have hsame : s.overrideExpires l = s := if_neg (by rw [h]; exact Bool.false_ne_true)
    exact congrArg Host.Outcome.next ((congrArg State.settle hsame).trans (settle_of_settled hs))
  case shotIdle =>
    exact congrArg Host.Outcome.next ((congrArg State.settle (shotExpires_of_idle h)).trans (settle_of_settled hs))
  case owned =>
    exact congrArg (fun v => Host.Outcome.next (State.settle v))
      ((shotExpires_of_awaiting hx hf hp ht).trans ((if_pos ho).trans (queryShot_of_slot hx)))
  case unowned =>
    have hend := (shotExpires_of_awaiting hx hf hp ht).trans ((if_neg (by rw [ho]; exact Bool.false_ne_true)).trans
      (endUnowned_of_no_queue hx hf ho hq))
    exact congrArg Host.Outcome.next ((congrArg State.settle hend).trans
      (settle_of_settled (s := s.setSlot i (some { x with flight := none })) hs))

end Sys2Proof.Machine
end

section
/-! PROOF. The retained store's completions (R157, R161 to R163) and the return of the lane (R147, R177). -/

namespace Sys2Proof.Machine

/-! ### The store -/

theorem noteWriteDone_of_none {s : State} (h : ∀ l k, s.note.writing ≠ some ⟨.note l, k⟩) : s.noteWriteDone = s := by
  unfold State.noteWriteDone
  split
  case h_1 l n hw => exact absurd hw (h l n)
  case h_2 => rfl
  case h_3 => rfl

theorem calibrationWriteDone_of_none {s : State} (h : ∀ j k, s.note.writing ≠ some ⟨.calibration j, k⟩) :
    s.calibrationWriteDone = s := by
  unfold State.calibrationWriteDone
  split
  case h_1 j n hw => exact absurd hw (h j n)
  case h_2 => rfl
  case h_3 => rfl

section StartNext

variable {b : NoteBuilder} (hw : b.writing = none)

include hw

theorem startNext_of_empty (hq : b.queue = []) : b.startNext = b := by
  unfold NoteBuilder.startNext
  rw [hw, hq]

theorem startNext_of_note {m : Lane} {q : List WriteReq} (hq : b.queue = .note m :: q) :
    b.startNext = { b with queue := q, writing := some ⟨.note m, b.nextNote⟩ } := by
  unfold NoteBuilder.startNext
  rw [hw, hq]
  rfl

theorem startNext_of_calibration {j : Nat} {q : List WriteReq} (hq : b.queue = .calibration j :: q) :
    b.startNext = { b with queue := q, writing := some ⟨.calibration j, b.calCounter⟩ } := by
  unfold NoteBuilder.startNext
  rw [hw, hq]
  rfl

end StartNext

theorem calibrationWriteDone_of_writing {s : State} {j k : Nat} (h : s.note.writing = some ⟨.calibration j, k⟩) :
    s.calibrationWriteDone =
      { s with note := NoteBuilder.startNext { s.note with writing := none, calCounter := min 999999 (k + j) } } := by
  unfold State.calibrationWriteDone
  rw [h]
  rfl

/-! ### The return of the lane (R147, R177) -/

/-- The bay leaves DRAINING with the last load, and nothing else changes but RUN. -/
theorem laneReturned_frame (s : State) : s.laneReturned = { s with
    port := { s.port with
      mode := if s.port.mode = .draining ∧ (s.lane .a).state = .none ∧ (s.lane .b).state = .none then .outOfService else s.port.mode }
    pads := s.laneReturned.pads } := by
  have hload : ∀ l, ¬ s.holdsLoad l = true ↔ (s.lane l).state = .none := fun l => by simp [State.holdsLoad]
  unfold State.laneReturned
  simp only [hload]
  split
  · rfl
  · rfl

section LoadClosed

variable {s : State} {l : Lane} {endTime : TimeRec}

/-- The state with the lane at NONE, its notice raised and its code posted, before the terminal port is told. -/
def State.laneClosed (s : State) (l : Lane) (endTime : TimeRec) : State :=
  ((s.setLane l { s.lane l with state := .none, load := none, endReason := none }).raiseNoticeAt .loadClosed (.lane l) 0x00#8
    (s.closedTime endTime) none).post l .closed

theorem laneClosed_port : (s.laneClosed l endTime).port =
    (s.raiseNoticeAt .loadClosed (.lane l) 0x00#8 (s.closedTime endTime) none).port :=
  post_port ..

theorem laneClosed_note : (s.laneClosed l endTime).note = s.note := by
  rw [State.laneClosed, post_eq]
  rfl

theorem laneClosed_scan : (s.laneClosed l endTime).scan = (s.post l .closed).scan :=
  post_scan_congr (s := s) (t := (s.setLane l { s.lane l with state := .none, load := none, endReason := none }).raiseNoticeAt
    .loadClosed (.lane l) 0x00#8 (s.closedTime endTime) none) rfl l .closed

theorem laneClosed_lane (k : Lane) : (s.laneClosed l endTime).lane k =
    if k = l then { s.lane l with state := .none, load := none, endReason := none } else s.lane k := by
  rw [State.laneClosed, post_lane]
  split
  case isTrue h => rw [h]; exact lane_setLane_self ..
  case isFalse h => exact lane_setLane_other s h _

theorem loadClosed_eq : s.loadClosed l endTime = (s.laneClosed l endTime).laneReturned := rfl

theorem loadClosed_note : (s.loadClosed l endTime).note = s.note := by
  rw [loadClosed_eq, laneReturned_frame]
  exact laneClosed_note

theorem loadClosed_scan : (s.loadClosed l endTime).scan = (s.post l .closed).scan := by
  rw [loadClosed_eq, laneReturned_frame]
  exact laneClosed_scan

theorem loadClosed_lane (k : Lane) : (s.loadClosed l endTime).lane k =
    if k = l then { s.lane l with state := .none, load := none, endReason := none } else s.lane k := by
  have h : (s.loadClosed l endTime).lane k = (s.laneClosed l endTime).lane k := by
    rw [loadClosed_eq, laneReturned_frame]
    rfl
  rw [h, laneClosed_lane]

theorem loadClosed_port : (s.loadClosed l endTime).port = { (s.laneClosed l endTime).port with
    mode := if s.port.mode = .draining ∧ (s.lane (Lane.other l)).state = .none then .outOfService else s.port.mode } := by
  have hmode : (s.laneClosed l endTime).port.mode = s.port.mode := by
    rw [laneClosed_port]
    rfl
  have hnone : ((s.laneClosed l endTime).lane .a).state = .none ∧ ((s.laneClosed l endTime).lane .b).state = .none ↔
      (s.lane (Lane.other l)).state = .none := by
    cases l <;> simp [laneClosed_lane, Lane.other]
  rw [loadClosed_eq, laneReturned_frame]
  simp only [hmode, hnone]

end LoadClosed

theorem noteWriteDone_of_writing {s : State} {l : Lane} {k : Nat} {body : NoteBody} (hw : s.note.writing = some ⟨.note l, k⟩)
    (hb : s.note.closing.get l = some body) : s.noteWriteDone = State.startNextWrite (State.loadClosed { s with note := { s.note with
      writing := none
      nextNote := if k = 99999999 then 1 else k + 1
      notes := s.note.notes ++ [⟨k, body⟩]
      closing := s.note.closing.set l none } } l body.endTime) := by
  unfold State.noteWriteDone
  rw [hw]
  dsimp only
  refine congrArg State.startNextWrite ?_
  have hclosing : (s.note.storeWord ⟨.note l, k⟩).closing.get l = some body := hb
  rw [State.noteQueued, hclosing]
  rfl

/-- Settles O52: both completions, where a write of their own is in progress and where none is. -/
theorem storeWriteCompletes : Obligations.StoreWriteCompletes := by
  intro s hs
  refine ⟨fun h => ?noNote, fun h => ?noCalibration, fun l k body hw hb => ?note, fun j k hw => ?calibration⟩
  case noNote =>
    exact congrArg Host.Outcome.next ((congrArg State.settle (noteWriteDone_of_none h)).trans (settle_of_settled hs))
  case noCalibration => exact congrArg Host.Outcome.next (calibrationWriteDone_of_none h)
  case note =>
    intro word r
    generalize hu : ({ s with note := { s.note with
      writing := none, nextNote := word, notes := s.note.notes ++ [⟨k, body⟩], closing := s.note.closing.set l none } } : State) = u
    have hdone : s.noteWriteDone = (u.loadClosed l body.endTime).startNextWrite := hu ▸ noteWriteDone_of_writing hw hb
    have hnote : (u.loadClosed l body.endTime).startNextWrite.note = u.note.startNext :=
      congrArg NoteBuilder.startNext loadClosed_note
    obtain ⟨hnotes, hclosing, hword, hcal, -, -⟩ := startNext_same u.note
    have hlane : ∀ m, (u.loadClosed l body.endTime).startNextWrite.lane m =
        if m = l then { r with state := .none, load := none, endReason := none } else s.lane m := fun m =>
      hu ▸ loadClosed_lane m
    have hport : (u.loadClosed l body.endTime).startNextWrite.port = _ := loadClosed_port
    refine ⟨_, congrArg (fun v => Host.Outcome.next (State.settle v)) hdone, ?_, ?_, ?_, ?_, ?_, ?_, ?_, ?_, ?_, fun hq => ?_,
      fun m q hq => ?_, fun j q hq => ?_⟩
    · rw [hnote, hword, ← hu]
    · rw [hnote, hcal, ← hu]
    · rw [hnote, hnotes, ← hu]
    · rw [hnote, hclosing, ← hu]
      exact lanes_get_set_self ..
    · rw [hlane, if_pos rfl]
    · rw [hlane, if_neg (lane_other_ne l)]
    · rw [hport, ← hu]
      rfl
    · refine ⟨s.closedTime body.endTime, closedTime_cases s body.endTime, ?_, ?_⟩
      · rw [hport, laneClosed_port, ← hu]
        rfl
      · rw [hport, laneClosed_port, ← hu]
        rfl
    · exact (loadClosed_scan (s := u)).trans (post_scan_congr (s := s) (by rw [← hu]) l .closed)
    all_goals
      have hfree : u.note.writing = none := by rw [← hu]
      have hqueue : u.note.queue = _ := (show u.note.queue = s.note.queue by rw [← hu]).trans hq
    · rw [hnote, startNext_of_empty hfree hqueue]
      exact ⟨hfree, hqueue⟩
    · rw [hnote, startNext_of_note hfree hqueue, ← hu]
      exact ⟨rfl, rfl⟩
    · rw [hnote, startNext_of_calibration hfree hqueue, ← hu]
      exact ⟨rfl, rfl⟩
  case calibration =>
    intro word started
    let done : NoteBuilder := { s.note with writing := none, calCounter := word }
    have hstep : ∀ b, done.startNext = b → exec .calibrationWriteDone s = .next { s with note := b } := fun b hb =>
      congrArg Host.Outcome.next ((calibrationWriteDone_of_writing hw).trans (congrArg (fun b => { s with note := b }) hb))
    refine ⟨fun hq => ?_, fun m q hq => hstep _ (startNext_of_note (b := done) rfl hq),
      fun i q hq => hstep _ (startNext_of_calibration (b := done) rfl hq)⟩
    rw [hstep _ (startNext_of_empty (b := done) rfl hq)]
    simp only [done, started, hq]

end Sys2Proof.Machine
end

section
/-! PROOF. The end of an event on the bus (R26, R27, R29, R30, R32, R37): the urgent close, the visit of the scan list, and what a pick
may change. -/

namespace Sys2Proof.Machine

/-! ### What a pick may change -/

/-- The state with the parts that a pick may change taken from another. -/
def State.pickFrame (s t : State) : State :=
  { s with
    scan := { s.scan with
      devices := t.scan.devices
      pointer := t.scan.pointer
      wrap := t.scan.wrap
      slot := t.scan.slot
      transaction := t.scan.transaction
      rx := { s.scan.rx with buffer := t.scan.rx.buffer, broken := t.scan.rx.broken } }
    pads := { s.pads with bde := t.pads.bde }
    port := { s.port with notices := t.port.notices, pendingSet := t.port.pendingSet }
    additive := { s.additive with slots := t.additive.slots } }

/-- Nothing changes but what a pick may change: of the devices the retry hold, of the injectors the request and the stream's mark. -/
structure Picked (s t : State) : Prop where
  frame : t = s.pickFrame t
  device : ∀ i : DevIx, (t.device i).map (fun d => { d with retryHold := false }) =
    (s.device i).map fun d => { d with retryHold := false }
  slot : ∀ i : DevIx, (t.slot i).map (fun x => (x.entry, x.queue, x.flight, x.stream.state)) =
    (s.slot i).map fun x => (x.entry, x.queue, x.flight, x.stream.state)

theorem Picked.refl (s : State) : Picked s s := ⟨rfl, fun _ => rfl, fun _ => rfl⟩

theorem Picked.trans {s t u : State} (h : Picked s t) (k : Picked t u) : Picked s u :=
  ⟨k.frame.trans ((congrArg (fun v => v.pickFrame u) h.frame).trans rfl), fun i => (k.device i).trans (h.device i),
    fun i => (k.slot i).trans (h.slot i)⟩

theorem beginTransaction_picked (s : State) (i : DevIx) (t : Telegram) (step : PickStep) : Picked s (s.beginTransaction i t step) := by
  unfold State.beginTransaction
  split
  · exact .refl s
  · exact ⟨rfl, fun _ => rfl, fun _ => rfl⟩

theorem beginTransaction_of_present {s : State} {i : DevIx} {d : Device} (h : s.device i = some d) (t : Telegram) (step : PickStep) :
    s.beginTransaction i t step = { s with
      scan := { s.scan with
        transaction := some ⟨i, d.address, t, step, d.timeout, false, false, false⟩
        rx := { s.scan.rx with buffer := [], broken := false } }
      pads := { s.pads with bde := true } } := by
  rw [State.beginTransaction, h]

theorem sendStage_picked (s : State) (n : Arm) (step : PickStep) : Picked s (s.sendStage n step) := by
  unfold State.sendStage
  split
  · exact .refl s
  · exact beginTransaction_picked ..

theorem takeRequest_picked (s : State) (i : DevIx) : Picked s (s.takeRequest i) := by
  refine ⟨rfl, fun _ => rfl, fun j => ?_⟩
  by_cases hj : j = i
  · subst hj
    rw [State.takeRequest, slot_modSlot_self, Option.map_map]
    rfl
  · rw [State.takeRequest, State.modSlot, slot_setSlot_other s hj]

theorem advance_eq (c : Scanner) : c.advance = { c with
    pointer := if c.pointer + 1 = c.list.length then 0 else c.pointer + 1
    wrap := if c.pointer + 1 = c.list.length then true else c.wrap } := by
  unfold Scanner.advance
  split <;> rfl

theorem stepOver_frame (k : Nat) : ∀ c : Scanner,
    Scanner.stepOver k c = { c with pointer := (Scanner.stepOver k c).pointer, wrap := (Scanner.stepOver k c).wrap } := by
  induction k with
  | zero => exact fun _ => rfl
  | succ k ih =>
    intro c
    rw [Scanner.stepOver]
    split
    · rfl
    · rw [ih c.advance, advance_eq c]

theorem reach_frame (c : Scanner) : c.reach = { c with pointer := c.reach.pointer, wrap := c.reach.wrap } := by
  unfold Scanner.reach
  split
  · rfl
  · exact stepOver_frame _ c

theorem reach_picked (s : State) : Picked s { s with scan := s.scan.reach } := by
  rw [reach_frame]
  exact ⟨rfl, fun _ => rfl, fun _ => rfl⟩

/-- The pointer has moved past the entry it named. -/
def State.passed (s : State) : State := { s with scan := ({ s.scan with wrap := false }).advance }

theorem passed_eq (s : State) : s.passed = { s with scan := { s.scan with
    pointer := if s.scan.pointer + 1 = s.scan.list.length then 0 else s.scan.pointer + 1
    wrap := s.scan.pointer + 1 = s.scan.list.length } } := by
  rw [State.passed, advance_eq]
  by_cases h : s.scan.pointer + 1 = s.scan.list.length <;> simp [h]

theorem passed_picked (s : State) : Picked s s.passed := by
  rw [passed_eq]
  exact ⟨rfl, fun _ => rfl, fun _ => rfl⟩

theorem serveEntry_picked (s : State) : Picked s s.serveEntry.1 := by
  unfold State.serveEntry
  split
  · exact .refl s
  · split
    · exact .refl s
    · exact (passed_picked s).trans (beginTransaction_picked s.passed _ _ _)

theorem serveScan_picked (s : State) : Picked s s.serveScan.1 := (reach_picked s).trans (serveEntry_picked _)

theorem servePass_picked (s : State) (p : PassSlot) : Picked s (s.servePass p).1 := by
  unfold State.servePass
  split
  · exact Picked.trans (t := { s with scan := { s.scan with wrap := false } }) ⟨rfl, fun _ => rfl, fun _ => rfl⟩
      (beginTransaction_picked ..)
  · exact Picked.trans (t := s.withdrawPass p) ⟨rfl, fun _ => rfl, fun _ => rfl⟩ (serveScan_picked _)

theorem pickScan_picked (s : State) : Picked s s.pickScan.1 := by
  unfold State.pickScan
  split
  · exact serveScan_picked s
  · split
    · exact servePass_picked ..
    · dsimp only
      split
      · exact (reach_picked s).trans (servePass_picked ..)
      · exact (reach_picked s).trans (serveEntry_picked _)

theorem pickOnce_picked (s : State) : Picked s s.pickOnce.1 := by
  unfold State.pickOnce
  split
  · exact sendStage_picked ..
  · split
    · exact sendStage_picked ..
    · split
      · exact (takeRequest_picked ..).trans (beginTransaction_picked ..)
      · exact pickScan_picked s

theorem clearHolds_picked (s : State) : Picked s s.clearHolds := by
  refine ⟨rfl, fun i => ?_, fun _ => rfl⟩
  have hdevice : s.clearHolds.device i = (s.device i).map fun d => { d with retryHold := false } := by
    simp [State.clearHolds, State.device]
  rw [hdevice, Option.map_map]
  rfl

theorem pick_picked (s : State) : Picked s s.pick := by
  unfold State.pick
  dsimp only
  split
  · exact pickOnce_picked s
  · split
    · exact ((pickOnce_picked s).trans (clearHolds_picked _)).trans (pickOnce_picked _)
    · exact pickOnce_picked s

/-! ### The end of an event -/

/-- The state with no work for the bus left. -/
def State.slept (s : State) : State := { s with scan := { s.scan with wake := false } }

theorem settle_of_awake {s : State} (h : s.scan.wake = true) : s.settle =
    if s.scan.transaction.isNone && !s.scan.quiet then s.slept.pick else s.slept :=
  if_pos h

theorem settle_of_occupied {s : State} (h : s.scan.wake = true) (ho : s.scan.transaction.isSome ∨ s.scan.quiet = true) :
    s.settle = s.slept := by
  rw [settle_of_awake h, if_neg]
  rw [Bool.and_eq_true, Option.isNone_iff_eq_none, Bool.not_eq_true']
  rintro ⟨hnone, hquiet⟩
  rw [hnone, hquiet] at ho
  exact ho.elim Bool.noConfusion Bool.noConfusion

theorem settle_of_free {s : State} (h : s.scan.wake = true) (ht : s.scan.transaction = none) (hq : s.scan.quiet = false) :
    s.settle = s.slept.pick := by
  rw [settle_of_awake h, ht, hq]
  rfl

theorem settle_picked (s : State) : Picked s.slept s.settle := by
  by_cases h : s.scan.wake = true
  · rw [settle_of_awake h]
    split
    · exact pick_picked _
    · exact .refl _
  · have hs : s.Settled := Bool.eq_false_iff.mpr h
    have hsame : s.slept = s := by rw [State.slept, ← (show s.scan.wake = false from hs)]
    rw [settle_of_settled hs, hsame]
    exact .refl s

theorem pick_of_found {s : State} (h : s.pickOnce.2 = true) : s.pick = s.pickOnce.1 := if_pos h

/-! ### The urgent close (R29, R30) -/

section UrgentClose

variable {s : State} {n : Arm} {e : ArmEntry} {d : Device} (he : s.armEntry n = some e) (hd : s.device e.valve = some d)
  (hk : d.kind = .valve)

include he hd hk

theorem valveOf_eq : s.valveOf n = some (e.valve, d) := by
  have hkind : s.deviceOfKind e.valve .valve = some d := by
    rw [State.deviceOfKind, hd]
    exact if_pos (decide_eq_true hk)
  rw [State.valveOf, he, Option.bind_some, hkind]
  rfl

theorem sendStage_eq (step : PickStep) : s.sendStage n step = { s with
    scan := { s.scan with
      transaction := some ⟨e.valve, d.address, .valveSet (s.arm n).desired, step, d.timeout, false, false, false⟩
      rx := { s.scan.rx with buffer := [], broken := false } }
    pads := { s.pads with bde := true } } := by
  rw [State.sendStage, valveOf_eq he hd hk]
  exact beginTransaction_of_present hd _ _

theorem urgentArm_of_first (hset : d.setStage ≠ some .closed) (hhold : d.retryHold = false) (hdes : (s.arm n).desired = .closed)
    (hrep : (s.arm n).reported ≠ some .closed)
    (hfirst : ∀ m : Arm, m < n → (s.arm m).desired ≠ .closed ∨ (s.arm m).reported = some .closed) : s.urgentArm = some n := by
  rw [State.urgentArm, allArms_eq_finRange]
  refine find?_finRange_of_first ?_ fun m hm => ?_
  · simp [State.wantsSet, valveOf_eq he hd hk, Device.eligible, hdes, hrep, hset, hhold]
  · rw [Bool.and_eq_false_iff]
    by_cases hm' : (s.arm m).desired = .closed
    · have hreported := (hfirst m hm).resolve_left (not_not_intro hm')
      exact .inr (by simp [State.wantsSet, hm', hreported])
    · exact .inl (decide_eq_false hm')

end UrgentClose

/-! ### The visit of the scan list (R26, R32) -/

section Visit

variable {s : State}

theorem wantsSet_of_idle {n : Arm} (h : s.armEntry n = none ∨ (s.arm n).reported = some (s.arm n).desired) : s.wantsSet n = false := by
  rcases h with h | h
  · simp [State.wantsSet, State.valveOf, h]
  · simp [State.wantsSet, h]

theorem pickOnce_of_no_work (hvalve : ∀ n : Arm, s.armEntry n = none ∨ (s.arm n).reported = some (s.arm n).desired)
    (hinjector : ∀ j x, s.slot j = some x → x.request = none) : s.pickOnce = s.pickScan := by
  have hurgent : s.urgentArm = none := List.find?_eq_none.mpr fun n _ => by simp [wantsSet_of_idle (hvalve n)]
  have hopen : s.openArm = none := List.find?_eq_none.mpr fun n _ => by simp [wantsSet_of_idle (hvalve n)]
  have hwork : s.workInjector = none := List.findSome?_eq_none_iff.mpr fun j _ => by
    have hrequest : (s.slot j).bind (fun x => x.request) = none := by
      cases hx : s.slot j with
      | none => rfl
      | some x => exact hinjector j x hx
    rw [hrequest]
    split <;> rfl
  rw [State.pickOnce, hurgent, hopen, hwork]

theorem reach_of_present {c : Scanner} {i : DevIx} {d : Device} (hi : c.list[c.pointer]? = some i) (hd : c.devices[i] = some d) :
    c.reach = c := by
  have hne : c.list ≠ [] := fun h => by simp [h] at hi
  have hhere : c.presentHere = true := by
    have hpresent : (c.devices[i]).isSome = true := by rw [hd]; rfl
    rw [Scanner.presentHere, hi]
    exact hpresent
  rw [Scanner.reach, if_neg hne]
  cases hlen : c.list.length with
  | zero => exact absurd (List.length_eq_zero_iff.mp hlen) hne
  | succ k => rw [Scanner.stepOver, if_pos hhere]

variable {i : DevIx} {d : Device} (hi : s.scan.list[s.scan.pointer]? = some i) (hd : s.device i = some d)

include hi hd

theorem serveEntry_of_present : s.serveEntry = ({ s with
    scan := { s.scan with
      transaction := some ⟨i, d.address, if d.kind = .station then (d.display.elim .poll .stationShow) else .poll, .scan,
        d.timeout, false, false, false⟩
      rx := { s.scan.rx with buffer := [], broken := false }
      pointer := if s.scan.pointer + 1 = s.scan.list.length then 0 else s.scan.pointer + 1
      wrap := s.scan.pointer + 1 = s.scan.list.length }
    pads := { s.pads with bde := true } }, true) := by
  have hvisit : d.visit = if d.kind = .station then (d.display.elim .poll .stationShow) else .poll := by
    unfold Device.visit
    cases d.display with
    | none => simp
    | some c => rfl
  have hdev : s.passed.device i = some d := by
    rw [passed_eq]
    exact hd
  have hserve : s.serveEntry = (s.passed.beginTransaction i d.visit .scan, true) := by
    rw [State.serveEntry, hi]
    dsimp only
    rw [hd]
    rfl
  rw [hserve, beginTransaction_of_present hdev, passed_eq, hvisit]

theorem pickScan_of_present (hslot : s.scan.slot = none) : s.pickScan = s.serveEntry := by
  rw [State.pickScan, hslot]
  dsimp only
  rw [State.serveScan, reach_of_present hi hd]

end Visit

/-- Settles O55: nothing to pick, an urgent close, a visit of the scan list, and the frame of every pick. -/
theorem eventEndPicks : Obligations.EventEndPicks := by
  refine ⟨fun s hw ho => settle_of_occupied hw ho, fun s n e d hw ht hq he hd hk hset hhold hdes hrep hfirst => ?urgent,
    fun s i d hw ht hq hvalve hinjector hslot hi hd => ?visit, fun s => ?frame⟩
  case urgent =>
    have harm : s.slept.urgentArm = some n := urgentArm_of_first (s := s.slept) he hd hk hset hhold hdes hrep hfirst
    have hpick : s.slept.pickOnce = (s.slept.sendStage n .urgentClose, true) := by
      rw [State.pickOnce, harm]
    rw [settle_of_free hw ht hq, pick_of_found (by rw [hpick]), hpick]
    refine (sendStage_eq (s := s.slept) he hd hk .urgentClose).trans ?_
    have hdesired : (s.slept.arm n).desired = .closed := hdes
    rw [hdesired]
    rfl
  case visit =>
    intro last
    have hpick : s.slept.pickOnce = _ := (pickOnce_of_no_work (s := s.slept) hvalve hinjector).trans
      ((pickScan_of_present (s := s.slept) hi hd hslot).trans (serveEntry_of_present (s := s.slept) hi hd))
    rw [settle_of_free hw ht hq, pick_of_found (by rw [hpick]), hpick]
    rfl
  case frame =>
    have h := settle_picked s
    exact ⟨h.frame, h.device, h.slot⟩

end Sys2Proof.Machine
end

section
/-! PROOF. A device state moved by replies and misses, and handed on (R21 to R24, R87, R110, R111). -/

namespace Sys2Proof.Machine

/-! ### What a hand-on other than to ONLINE leaves -/

theorem modBatch_same (s : State) (n : Arm) (f : Batch → Batch) : SameBay s (s.modBatch n f) :=
  ⟨rfl, rfl, rfl, rfl, rfl, rfl, rfl, rfl⟩

theorem raiseNotice_same (s : State) (kind : NoticeKind) (subject : Subject) (code : Byte) :
    SameBay s (s.raiseNotice kind subject code) :=
  ⟨rfl, rfl, rfl, rfl, rfl, rfl, rfl, rfl⟩

theorem setArm_same (s : State) (n : Arm) (r : ArmRec) : SameBay s (s.setArm n r) :=
  ⟨rfl, rfl, rfl, rfl, rfl, rfl, rfl, rfl⟩

theorem setDesired_same (s : State) (n : Arm) (st : Stage) : SameBay s (s.setDesired n st) :=
  (setArm_same s n _).trans (.of_sans (setDesired_sans s n st))

theorem degradeBatch_same (s : State) (n : Arm) : SameBay s (s.degradeBatch n) := by
  unfold State.degradeBatch
  split
  · exact (modBatch_same ..).trans (setDesired_same ..)
  · exact .refl s

theorem applyRequests_same (rs : List AddRequest) : ∀ s : State, SameBay s (s.applyRequests rs) := by
  induction rs with
  | nil => exact .refl
  | cons r rs ih =>
    intro s
    have hone : SameBay s (s.applyRequest r) := by
      cases r with
      | halt n => exact haltBatch_same s n .additive
      | degrade n => exact (modBatch_same s n _).trans (degradeBatch_same _ n)
    exact hone.trans (ih _)

theorem noticeFault_same (s : State) (n : Arm) (required : Bool) (cause : FaultCause) : SameBay s (s.noticeFault n required cause) := by
  unfold State.noticeFault
  dsimp only
  split
  · exact raiseNotice_same ..
  · exact (raiseNotice_same ..).trans (modBatch_same ..)

theorem faultSchedule_same (s : State) (n : Arm) (i : DevIx) (cause : FaultCause) : SameBay s (s.faultSchedule n i cause).1 := by
  unfold State.faultSchedule
  split
  · exact .refl s
  · split
    · exact .refl s
    · rename_i c _ _
      refine SameBay.trans ?_ (noticeFault_same _ n c.required cause)
      cases c.mode
      · exact .of_sans ((withdrawShots_sans ..).trans (modSchedule_sans ..))
      · exact .of_sans ((stopStream_sans ..).trans (modSchedule_sans ..))

theorem faultScheduleNow_same (s : State) (n : Arm) (i : DevIx) (cause : FaultCause) :
    SameBay s (s.faultScheduleNow n i cause) :=
  (faultSchedule_same s n i cause).trans (applyRequests_same _ _)

theorem faultSchedulesOn_same (s : State) (i : DevIx) (cause : FaultCause) : SameBay s (s.faultSchedulesOn i cause) :=
  foldl_allArms_keeps (P := SameBay s) (fun u n h => h.trans (faultScheduleNow_same u n i cause)) (.refl s)

theorem modSlot_same (s : State) (i : DevIx) (f : InjectorSlot → InjectorSlot) : SameBay s (s.modSlot i f) := .of_sans (modSlot_sans ..)

theorem stopStreamOnce_same (s : State) (i : DevIx) : SameBay s (s.stopStreamOnce i) := .of_sans (stopStreamOnce_sans ..)

theorem injectorFaulted_same (s : State) (i : DevIx) (source : FaultSource) : SameBay s (s.injectorFaulted i source) := by
  unfold State.injectorFaulted
  extract_lets cause s1 s2
  have h : SameBay s s2 := (modSlot_same ..).trans (faultSchedulesOn_same ..)
  split
  · exact h.trans (stopStreamOnce_same ..)
  · exact h

theorem injectorSilent_same (s : State) (i : DevIx) : SameBay s (s.injectorSilent i) := by
  unfold State.injectorSilent
  split
  · exact .refl s
  · split
    · exact .of_sans (endUnowned_sans ..)
    · split
      · exact .refl s
      · exact (faultSchedulesOn_same ..).trans (.of_sans (stopStreamOnce_sans ..))

theorem injectorChanged_same (s : State) (i : DevIx) (before after : DeviceState) : SameBay s (s.injectorChanged i before after) := by
  cases after with
  | unknown => exact .of_sans (injectorUnknown_sans ..)
  | online => exact .refl s
  | silent => exact injectorSilent_same s i
  | faulted source =>
    rw [State.injectorChanged]
    split
    · exact .refl s
    · exact injectorFaulted_same s i source

theorem meterDown_same (s : State) (n : Arm) (before : DeviceState) (halts : Bool) : SameBay s (s.meterDown n before halts) := by
  unfold State.meterDown
  split
  · split
    · exact modBatch_same ..
    · exact .refl s
  · split
    · exact haltBatch_same ..
    · exact .refl s

/-- A change to LOW states keeps the device table. -/
theorem handOn_of_offline_devices (s : State) (i : DevIx) (k : DeviceKind) (before : DeviceState) {after : Option DeviceState}
    (h : after ≠ some .online) : (s.handOn i k before after).scan.devices = s.scan.devices := by
  cases k with
  | meter =>
    refine Eq.trans (SameBay.devices (s := s.meterChanged i) ?_) (by rw [meterChanged_scan])
    rw [State.handOn, State.meterHanded]
    refine foldl_allArms_keeps (P := SameBay (s.meterChanged i)) (fun u n hu => ?_) (.refl _)
    split
    · rw [State.batchMeter, if_neg h]
      exact hu.trans (meterDown_same ..)
    · exact hu
  | valve =>
    refine SameBay.devices ?_
    rw [State.handOn, State.valveHanded]
    refine foldl_allArms_keeps (P := SameBay s) (fun u n hu => ?_) (.refl s)
    split
    · rw [State.batchValve, if_neg h]
      split
      · exact hu.trans (haltBatch_same ..)
      · exact hu
    · exact hu
  | injector => exact (injectorChanged_same ..).devices
  | station => rfl
  | permissive => rw [State.handOn, if_neg h, setPermissives_devices]

/-! ### A valve that is lost (R87) -/

/-- The batches of the arms that name a lost valve are halted in turn. -/
theorem valveHanded_of_lost (s : State) (i : DevIx) {after : DeviceState} (h : after.lost = true) : s.valveHanded i (some after) =
    allArms.foldl (fun u n => if (u.armEntry n).any fun e => e.valve = i then u.haltBatch n .valveLost else u) s := by
  have hne : some after ≠ some DeviceState.online := fun e => by rw [Option.some.inj e] at h; exact Bool.noConfusion h
  unfold State.valveHanded State.batchValve
  simp only [if_neg hne, Option.any_some, h, if_true]

theorem valveHanded_halts {s : State} {i : DevIx} {after : DeviceState} (h : after.lost = true) {n : Arm} {a : ArmEntry} {b : Batch}
    (ha : s.armEntry n = some a) (hv : a.valve = i) (hb : s.holder n = some b) (hh : b.state.haltable = true) :
    (s.valveHanded i (some after)).arm n = s.haltedArm n .valveLost b := by
  rw [valveHanded_of_lost s i h]
  refine foldl_halts_arm (fun u m => ?_) hb hh fun u hsame _ => ?_
  · split
    · exact .inr rfl
    · exact .inl rfl
  · rw [hsame.armEntry, ha]
    exact if_pos (decide_eq_true hv)

theorem valveHanded_of_free {s : State} {i : DevIx} {after : DeviceState} (h : after.lost = true)
    (hfree : ∀ n a, s.armEntry n = some a → a.valve = i → s.holder n = none) : s.valveHanded i (some after) = s := by
  rw [valveHanded_of_lost s i h]
  refine foldl_allArms_idle fun n => ?_
  split
  case isFalse => rfl
  case isTrue hany =>
    obtain ⟨a, ha, hv⟩ := (Option.any_eq_true ..).mp hany
    exact haltBatch_of_still (fun b hb => by rw [hfree n a ha (of_decide_eq_true hv)] at hb; exact nomatch hb) _

/-! ### A device state moved (R21, R22) -/

theorem moveDevice_of_same {s : State} {i : DevIx} {d : Device} (h : s.device i = some d) : s.moveDevice i d.state = s := by
  rw [State.moveDevice, h]
  exact if_pos rfl

theorem moveDevice_of_other {s : State} {i : DevIx} {d : Device} {after : DeviceState} (h : s.device i = some d) (hne : d.state ≠ after) :
    s.moveDevice i after = ((s.setDevice i (some { d with state := after, setStage := none })).raiseNotice .device (.device i)
      after.noticeCode).handOn i d.kind d.state (some after) := by
  rw [State.moveDevice, h]
  exact if_neg hne

/-- The device after a move to a state other than ONLINE. -/
theorem moveDevice_device {s : State} {i : DevIx} {d : Device} {after : DeviceState} (h : s.device i = some d)
    (hoff : after ≠ .online) : (s.moveDevice i after).device i =
      some { d with state := after, setStage := if d.state = after then d.setStage else none } := by
  by_cases hs : d.state = after
  · subst hs
    rw [moveDevice_of_same h, h, if_pos rfl]
  · have hhand := handOn_of_offline_devices ((s.setDevice i (some { d with state := after, setStage := none })).raiseNotice .device
      (.device i) after.noticeCode) i d.kind d.state (after := some after) (by simpa using hoff)
    rw [moveDevice_of_other h hs, device_of_devices hhand i, if_neg hs]
    exact device_setDevice_self ..

theorem afterMisses_eq (st : DeviceState) : st.afterMisses = if st = .faulted .part then .faulted .part else .silent := by
  rcases st with _ | _ | _ | (_ | _) <;> rfl

section Missed

variable {s : State} {i : DevIx} {d : Device} (h : s.device i = some d)

include h

theorem deviceMissed_of_below (hlow : d.misses + 1 < d.missLimit) :
    s.deviceMissed i = s.setDevice i (some { d with misses := d.misses + 1 }) := by
  have hmin : min d.missLimit (d.misses + 1) = d.misses + 1 := Nat.min_eq_right (Nat.le_of_lt hlow)
  rw [State.deviceMissed, h]
  dsimp only
  rw [hmin, if_neg (Nat.ne_of_lt hlow)]

theorem deviceMissed_of_limit (hlim : d.missLimit ≤ d.misses + 1) :
    s.deviceMissed i = (s.setDevice i (some { d with misses := d.missLimit })).moveDevice i d.state.afterMisses := by
  rw [State.deviceMissed, h]
  dsimp only
  rw [Nat.min_eq_left hlim, if_pos rfl]

/-- At the limit the device is SILENT, or keeps its fault from PART. -/
theorem deviceMissed_device (hlim : d.missLimit ≤ d.misses + 1) : ∃ g, (s.deviceMissed i).device i =
    some { d with misses := d.missLimit, state := d.state.afterMisses, setStage := g } := by
  have hoff : d.state.afterMisses ≠ .online := by
    rw [afterMisses_eq]
    split <;> simp
  have hmoved := moveDevice_device (s := s.setDevice i (some { d with misses := d.missLimit })) (device_setDevice_self ..) hoff
  rw [deviceMissed_of_limit h hlim, hmoved]
  exact ⟨_, rfl⟩

/-- A device that was neither SILENT nor failed by its part is noticed SILENT and handed on. -/
theorem deviceMissed_silences (hlim : d.missLimit ≤ d.misses + 1) (hsilent : d.state ≠ .silent) (hpart : d.state ≠ .faulted .part)
    {k : DeviceKind} (hk : d.kind = k) : s.deviceMissed i = ((s.setDevice i (some { d with
      misses := d.missLimit, state := .silent, setStage := none })).raiseNotice .device (.device i) 0x02#8).handOn i k d.state
      (some .silent) := by
  subst hk
  have hafter : d.state.afterMisses = .silent := by rw [afterMisses_eq, if_neg hpart]
  have hmoved := moveDevice_of_other (s := s.setDevice i (some { d with misses := d.missLimit })) (after := .silent)
    (device_setDevice_self ..) hsilent
  rw [deviceMissed_of_limit h hlim, hafter, hmoved, setDevice_setDevice]
  rfl

end Missed

end Sys2Proof.Machine
end

section
/-! PROOF. The response timeout as a miss (R22, R27, R30, R31, R104, R106, R107, R112). -/

namespace Sys2Proof.Machine

/-! ### The slot of an injector -/

theorem modSlot_of_slot {s : State} {i : DevIx} {x : InjectorSlot} (hx : s.slot i = some x) (f : InjectorSlot → InjectorSlot) :
    s.modSlot i f = s.setSlot i (some (f x)) := by
  rw [State.modSlot, hx]
  rfl

theorem wakeBus_of_awake {s : State} (h : s.scan.wake = true) : s.wakeBus = s := by
  cases s with
  | mk _ _ _ _ _ _ _ _ _ scan _ _ =>
    cases scan
    cases h
    rfl

/-- A slot changed and a request posted on an awake bus. -/
theorem postRequest_modSlot {s : State} {i : DevIx} {x : InjectorSlot} (hx : s.slot i = some x) (hw : s.scan.wake = true)
    (f : InjectorSlot → InjectorSlot) (r : InjRequest) :
    (s.modSlot i f).postRequest i r = s.setSlot i (some { f x with request := some r }) := by
  rw [State.postRequest, modSlot_modSlot, modSlot_of_slot hx]
  exact wakeBus_of_awake (s := s.setSlot i _) hw

theorem declareFailed_device {s : State} {i : DevIx} {d : Device} (hd : s.device i = some d) (hk : d.kind = .injector) :
    ∃ e, (s.declareFailed i).device i = some e ∧ e.state = .faulted .part := by
  have hof : s.deviceOfKind i .injector = some d := by rw [State.deviceOfKind, hd]; simp [hk]
  rw [State.declareFailed, hof]
  dsimp only
  split
  case isTrue h => exact ⟨d, hd, h⟩
  case isFalse h =>
    exact ⟨_, ((injectorChanged_same ..).device i).trans (device_setDevice_self s i _), rfl⟩

/-! ### A miss told to the additive scheduler (R31) -/

section MissTold

variable {s : State} {i : DevIx} {x : InjectorSlot} (hx : s.slot i = some x)

include hx

theorem injectorOutcome_shot_miss {f : Flight} (hf : x.flight = some f) (hp : f.phase = .sending) (hr : x.request = none)
    (outlet dose : Nat) : s.injectorOutcome i (.shot outlet dose) .miss =
      s.setSlot i (some { x with flight := some { f with phase := .awaiting, timer := some f.timeout } }) := by
  have hout : s.shotOutcome i x .miss = s.awaitReport i f := by
    unfold State.shotOutcome
    rw [hf]
    exact if_pos ⟨hp, hr⟩
  rw [State.injectorOutcome, hx]
  exact hout.trans (modSlot_of_slot hx _)

theorem injectorOutcome_query_miss {f : Flight} (hf : x.flight = some f) (hp : f.phase = .querying) (ho : f.owned = true)
    (hr : x.request = none) : s.injectorOutcome i .shotQuery .miss = s.attemptFailed i := by
  have hout : s.queryOutcome i x .miss = s.attemptFailed i := by
    unfold State.queryOutcome
    rw [hf]
    exact if_pos ⟨hp, ho, hr⟩
  rw [State.injectorOutcome, hx]
  exact hout

theorem attemptFailed_of_active {f : Flight} (hf : x.flight = some f) {c : Schedule} (hc : s.schedule f.arm i = some c)
    (ha : c.state = .active) : s.attemptFailed i =
      if f.attempt = 1 then
        (s.modSlot i fun x => { x with flight := some { f with attempt := 2, busy := 0, phase := .sending, timer := none } }).postRequest
          i (.shot f.outlet f.dose)
      else s.declareFailed i := by
  have hflight : ((s.slot i).bind fun x => x.flight) = some f := by rw [hx]; exact hf
  have hactive : ¬ ¬ ((s.schedule f.arm i).any fun c => c.state = .active) = true := by simp [hc, ha]
  rw [State.attemptFailed, hflight]
  exact if_neg hactive

theorem attemptFailed_first {f : Flight} (hf : x.flight = some f) {c : Schedule} (hc : s.schedule f.arm i = some c)
    (ha : c.state = .active) (hw : s.scan.wake = true) (h1 : f.attempt = 1) : s.attemptFailed i = s.setSlot i (some { x with
      flight := some { f with attempt := 2, busy := 0, phase := .sending, timer := none }
      request := some (.shot f.outlet f.dose) }) := by
  rw [attemptFailed_of_active hx hf hc ha, if_pos h1]
  exact postRequest_modSlot hx hw _ _

theorem attemptFailed_second {f : Flight} (hf : x.flight = some f) {c : Schedule} (hc : s.schedule f.arm i = some c)
    (ha : c.state = .active) (h2 : f.attempt = 2) : s.attemptFailed i = s.declareFailed i := by
  rw [attemptFailed_of_active hx hf hc ha, if_neg (by rw [h2]; decide)]

theorem repeatStart_of_schedule {n : Arm} {c : Schedule} (hn : x.entry.servedArm = some n) (hc : s.schedule n i = some c)
    (hw : s.scan.wake = true) : s.repeatStart i x = s.setSlot i (some { x with
      stream := { x.stream with attempt := 2, taken := false }, request := some (.streamStart c.outlet c.ratio) }) := by
  have hbind : (x.entry.servedArm.bind fun n => s.schedule n i) = some c := by rw [hn]; exact hc
  rw [State.repeatStart, hbind]
  exact postRequest_modSlot hx hw _ _

theorem injectorOutcome_streamStart_miss {n : Arm} {c : Schedule} (hn : x.entry.servedArm = some n) (hc : s.schedule n i = some c)
    (hw : s.scan.wake = true) (hst : x.stream.state = .starting) (ht : x.stream.taken = true) (hs : x.stream.stopWanted = false)
    (h1 : x.stream.attempt = 1) (outlet ratio : Nat) : s.injectorOutcome i (.streamStart outlet ratio) .miss =
      s.setSlot i (some { x with
        stream := { x.stream with attempt := 2, taken := false }, request := some (.streamStart c.outlet c.ratio) }) := by
  have hout : s.startOutcome i x .miss = s.startFailed i x := if_pos ⟨hst, ht⟩
  rw [State.injectorOutcome, hx]
  refine hout.trans ?_
  rw [State.startFailed, if_neg (by rw [hs]; exact Bool.false_ne_true), if_pos h1, repeatStart_of_schedule hx hn hc hw]

theorem injectorOutcome_streamStop_miss (hw : s.scan.wake = true) (hst : x.stream.state = .stopping) (ht : x.stream.taken = true)
    (ho : x.stream.once = false) (h1 : x.stream.attempt = 1) : s.injectorOutcome i .streamStop .miss =
      s.setSlot i (some { x with
        stream := { x.stream with attempt := 2, taken := false, stopWanted := false }, request := some .streamStop }) := by
  have hout : s.stopOutcome i x .miss = s.stopEnded i x .miss :=
    (if_pos ⟨hst, ht⟩).trans (if_neg (by rw [ho]; exact Bool.false_ne_true))
  rw [State.injectorOutcome, hx]
  have hstream : ({ x.stream with state := .stopping, attempt := 2, stopWanted := false, taken := false, once := false } : Stream) =
      { x.stream with attempt := 2, taken := false, stopWanted := false } := by simp [hst, ho]
  rw [← hstream]
  exact hout.trans ((if_pos h1).trans (postRequest_modSlot hx hw _ _))

end MissTold

/-- A silent SHOT injector keeps its owned shot (R111). -/
theorem injectorSilent_of_owned {s : State} {i : DevIx} {x : InjectorSlot} (hx : s.slot i = some x) (hm : x.entry.mode = .shot)
    {f : Flight} (hf : x.flight = some f) (ho : f.owned = true) : s.injectorSilent i = s := by
  rw [State.injectorSilent, hx]
  dsimp only
  rw [hm]
  exact if_neg (by simp [hx, hf, ho])

/-! ### The end of a transaction as a miss (R22, R30) -/

/-- The bus has fallen free and the device has missed, unless its entry was written meanwhile (R20). -/
def State.missTaken (s : State) (t : Transaction) : State :=
  if t.written then s.freed t.step else (s.freed t.step).deviceMissed t.device

theorem missTaken_of_written {s : State} {t : Transaction} (h : t.written = true) : s.missTaken t = s.freed t.step := if_pos h

theorem missTaken_of_unwritten {s : State} {t : Transaction} (h : t.written = false) :
    s.missTaken t = (s.freed t.step).deviceMissed t.device :=
  if_neg (by rw [h]; exact Bool.false_ne_true)

theorem missEnd_scan {s : State} {t : Transaction} (h : t.step = .scan) : s.missEnd t = s.missTaken t := by
  rw [State.missEnd, freeBus_eq_freed, h, State.missTaken, h]

theorem missEnd_injector {s : State} {t : Transaction} (h : t.step = .injector) :
    s.missEnd t = (s.missTaken t).injectorOutcome t.device t.telegram .miss := by
  rw [State.missEnd, freeBus_eq_freed, h, State.missTaken, h]

theorem missEnd_close {s : State} {t : Transaction} (h : t.step = .urgentClose ∨ t.step = .valve) :
    s.missEnd t = if t.written then s.missTaken t else (s.missTaken t).holdValve t.device := by
  rw [State.missEnd, freeBus_eq_freed]
  rcases h with h | h <;> rw [h] <;> dsimp only <;> rw [State.missTaken, h] <;> split <;> rfl

theorem missEnd_passthrough {s : State} {t : Transaction} (h : t.step = .passthrough) : s.missEnd t =
    State.raiseNotice { s.freed t.step with scan := { (s.freed t.step).scan with slot := none } } .passthrough (.device t.device) 0x01#8 := by
  rw [State.missEnd, freeBus_eq_freed, h]
  rfl

theorem freed_device (s : State) {step : PickStep} (h : step.clearsHolds = true) (i : DevIx) :
    (s.freed step).device i = (s.device i).map fun e => { e with retryHold := false } := by
  have hstep : ¬ (step = .urgentClose ∨ step = .valve) := by rintro (rfl | rfl) <;> exact Bool.noConfusion h
  rw [State.device, State.freed, if_neg hstep]
  exact Vector.getElem_map ..

theorem freed_device_close (s : State) {step : PickStep} (h : step = .urgentClose ∨ step = .valve) (i : DevIx) :
    (s.freed step).device i = s.device i := by
  rw [State.device, State.freed, if_pos h]
  rfl

/-- Below its limit the device counts the miss. -/
theorem missTaken_of_below {s : State} {t : Transaction} (hw : t.written = false) {d : Device}
    (hd : (s.freed t.step).device t.device = some d) (hlow : d.misses + 1 < d.missLimit) :
    s.missTaken t = (s.freed t.step).setDevice t.device (some { d with misses := d.misses + 1 }) :=
  (missTaken_of_unwritten hw).trans (deviceMissed_of_below hd hlow)

theorem deviceMissed_of_empty {s : State} {i : DevIx} (h : s.device i = none) : s.deviceMissed i = s := by
  rw [State.deviceMissed, h]

theorem holdValve_device {s : State} {i : DevIx} {d : Device} (h : s.device i = some d) :
    s.holdValve i = s.setDevice i (some { d with retryHold := true }) := by
  rw [State.holdValve, h]
  rfl

/-- At the limit an injector that keeps its owned shot keeps its slot. -/
theorem deviceMissed_slot {s : State} {i : DevIx} {d : Device} (hd : s.device i = some d) (hk : d.kind = .injector)
    (hlim : d.missLimit ≤ d.misses + 1) {x : InjectorSlot} (hx : s.slot i = some x) (hm : x.entry.mode = .shot)
    {f : Flight} (hf : x.flight = some f) (ho : f.owned = true) : (s.deviceMissed i).slot i = some x := by
  by_cases hstays : d.state = .silent ∨ d.state = .faulted .part
  · have hafter : d.state.afterMisses = d.state := by rcases hstays with h | h <;> rw [h] <;> rfl
    have hmoved := moveDevice_of_same (s := s.setDevice i (some { d with misses := d.missLimit })) (device_setDevice_self ..)
    rw [deviceMissed_of_limit hd hlim, hafter, hmoved]
    exact hx
  · obtain ⟨hsilent, hpart⟩ := not_or.mp hstays
    rw [deviceMissed_silences hd hlim hsilent hpart hk]
    have hkept := injectorSilent_of_owned (s := (s.setDevice i (some { d with
      misses := d.missLimit, state := .silent, setStage := none })).raiseNotice .device (.device i) 0x02#8) hx hm hf ho
    exact (congrArg (fun u : State => u.slot i) hkept).trans hx

end Sys2Proof.Machine
end

section
/-! PROOF. The response timeout (R22, R24, R27, R30, R31, R87). -/

namespace Sys2Proof.Machine

theorem exec_responseTimeout_of_sent {s : State} {t : Transaction} (ht : s.scan.transaction = some t) (hsent : t.sent = true) :
    exec .responseTimeout s = .next (s.missEnd t).settle := by
  have he : s.responseExpires = s.missEnd t := by
    rw [State.responseExpires, ht]
    exact if_pos hsent
  exact congrArg (fun v => Host.Outcome.next (State.settle v)) he

theorem exec_responseTimeout_of_unsent {s : State} (hs : s.Settled) (h : ∀ t, s.scan.transaction = some t → t.sent = false) :
    exec .responseTimeout s = .next s := by
  have he : s.responseExpires = s := by
    rw [State.responseExpires]
    split
    · rfl
    · rename_i t ht
      exact if_neg (by rw [h t ht]; exact Bool.false_ne_true)
  exact congrArg Host.Outcome.next ((congrArg State.settle he).trans (settle_of_settled hs))

/-- What a miss at the limit brings, at the device and at the owners of a station and of a valve. -/
structure MissedOut (s v : State) (i : DevIx) (d : Device) (held : Prop) : Prop where
  device : ∃ e, v.device i = some e ∧ e.misses = d.missLimit ∧ e.kind = d.kind ∧ e.assoc = d.assoc ∧ e.address = d.address ∧
    (held → e.retryHold = true) ∧ e.state = if d.state = .faulted .part then .faulted .part else .silent
  station : d.kind = .station → d.state ≠ .silent → d.state ≠ .faulted .part →
    v.port = (s.raiseNotice .device (.device i) 0x02#8).port
  valve : d.kind = .valve → d.state ≠ .silent → d.state ≠ .faulted .part → ∀ n a b, s.armEntry n = some a →
    a.valve = i → s.holder n = some b → b.state.haltable = true → v.HaltedFor n .valveLost

theorem deviceMissed_out {s : State} {i : DevIx} {d : Device} (hd : s.device i = some d) (hlim : d.missLimit ≤ d.misses + 1) :
    MissedOut s (s.deviceMissed i) i d False where
  device := by
    obtain ⟨g, hg⟩ := deviceMissed_device hd hlim
    exact ⟨_, hg, rfl, rfl, rfl, rfl, False.elim, afterMisses_eq _⟩
  station hk hsilent hpart := by
    rw [deviceMissed_silences hd hlim hsilent hpart hk]
    rfl
  valve hk hsilent hpart n a b ha hv hb hh := by
    rw [deviceMissed_silences hd hlim hsilent hpart hk]
    exact haltedFor_of_arm (valveHanded_halts (after := .silent) rfl ha hv hb hh)

theorem MissedOut.hold {s v : State} {i : DevIx} {d : Device} {held : Prop} (h : MissedOut s v i d held) :
    MissedOut s (v.holdValve i) i d True where
  device := by
    obtain ⟨e, he, hm, hk, ha, had, -, hst⟩ := h.device
    refine ⟨{ e with retryHold := true }, ?_, hm, hk, ha, had, fun _ => rfl, hst⟩
    rw [holdValve_device he]
    exact device_setDevice_self ..
  station := h.station
  valve := h.valve

/-- What a miss below the limit leaves of the additive scheduler and of the device. -/
structure MissKept (s v : State) (i : DevIx) : Prop where
  additive : v.additive = s.additive
  wake : v.scan.wake = true
  device : ∀ d, s.device i = some d → ∃ e, v.device i = some e ∧ e.kind = d.kind

theorem missTaken_kept {s : State} {t : Transaction} (hc : t.step.clearsHolds = true)
    (hlow : t.written = false → ∀ d, s.device t.device = some d → d.misses + 1 < d.missLimit) :
    MissKept s (s.missTaken t) t.device := by
  have hfree : ∀ d, s.device t.device = some d → (s.freed t.step).device t.device = some { d with retryHold := false } :=
    fun d hd => by rw [freed_device s hc, hd]; rfl
  cases hw : t.written with
  | true =>
    rw [missTaken_of_written hw]
    exact ⟨rfl, rfl, fun d hd => ⟨_, hfree d hd, rfl⟩⟩
  | false =>
    cases hd : s.device t.device with
    | none =>
      have hempty : (s.freed t.step).device t.device = none := by rw [freed_device s hc, hd]; rfl
      rw [missTaken_of_unwritten hw, deviceMissed_of_empty hempty]
      exact ⟨rfl, rfl, fun e he => nomatch hd.symm.trans he⟩
    | some d =>
      rw [missTaken_of_below hw (hfree d hd) (hlow hw d hd)]
      refine ⟨rfl, rfl, fun e he => ⟨_, device_setDevice_self .., ?_⟩⟩
      rw [← Option.some.inj (hd.symm.trans he)]

/-- Settles O35: a miss by step, below the limit and at it. -/
theorem responseTimeoutMiss : Obligations.ResponseTimeoutMiss := by
  refine fun s hs => ⟨exec_responseTimeout_of_unsent hs, fun t ht hsent => ?_⟩
  intro u close
  have hexec : ∀ {v}, s.missEnd t = v → exec .responseTimeout s = .next (State.settle v) := fun h =>
    (exec_responseTimeout_of_sent ht hsent).trans (congrArg (fun v => Host.Outcome.next (State.settle v)) h)
  have hfree : ∀ d, s.device t.device = some d → t.step.clearsHolds = true →
      u.device t.device = some { d with retryHold := false } := fun d hd hc => by
    rw [freed_device s hc, hd]
    rfl
  have hfreeClose : ∀ d, s.device t.device = some d → close → u.device t.device = some d := fun d hd hc => by
    rw [freed_device_close s hc, hd]
  refine ⟨fun hp => hexec (missEnd_passthrough hp), fun hp hw => ?scanWritten, fun hp hw => ?closeWritten,
    fun d hd hw => ⟨fun hlow hp => ?scanLow, fun hlow hp => ?closeLow, fun hlim hp => ?limit⟩,
    fun hp hlow => ?injector, fun d x f outlet dose hp hw hd hk hlim htel hx hm hf ho hph hr => ?injectorLimit⟩
  case scanWritten => exact hexec ((missEnd_scan hp).trans (missTaken_of_written hw))
  case closeWritten => exact hexec ((missEnd_close hp).trans ((if_pos hw).trans (missTaken_of_written hw)))
  case scanLow => exact hexec ((missEnd_scan hp).trans (missTaken_of_below hw (hfree d hd (by rw [hp]; rfl)) hlow))
  case closeLow =>
    refine hexec ((missEnd_close hp).trans ((if_neg (by rw [hw]; exact Bool.false_ne_true)).trans ?_))
    rw [missTaken_of_below hw (hfreeClose d hd hp) hlow, holdValve_device (device_setDevice_self ..), setDevice_setDevice]
    rfl
  case limit =>
    rcases hp with hp | hp
    · have hnot : ¬ close := by rintro (h | h) <;> exact nomatch hp.symm.trans h
      have hout := deviceMissed_out (hfree d hd (by rw [hp]; rfl)) hlim
      obtain ⟨e, he, hm, hk, ha, had, -, hst⟩ := hout.device
      exact ⟨_, hexec ((missEnd_scan hp).trans (missTaken_of_unwritten hw)),
        ⟨e, he, hm, hk, ha, had, fun h => absurd h hnot, hst⟩, hout.station, hout.valve⟩
    · have hout := (deviceMissed_out (hfreeClose d hd hp) hlim).hold
      obtain ⟨e, he, hm, hk, ha, had, hheld, hst⟩ := hout.device
      have hend : s.missEnd t = (u.deviceMissed t.device).holdValve t.device := by
        rw [missEnd_close hp, if_neg (by rw [hw]; exact Bool.false_ne_true), missTaken_of_unwritten hw]
      exact ⟨_, hexec hend, ⟨e, he, hm, hk, ha, had, fun _ => hheld trivial, hst⟩, hout.station, hout.valve⟩
  case injector =>
    intro m slotIs
    have hm : s.missTaken t = m := by
      cases hw : t.written with
      | true => rw [missTaken_of_written hw]; simp only [m, hw] <;> rfl
      | false =>
        cases hd : s.device t.device with
        | none =>
          have hempty : u.device t.device = none := by rw [freed_device s (by rw [hp]; rfl), hd]; rfl
          rw [missTaken_of_unwritten hw, deviceMissed_of_empty hempty]
          simp only [m, hw, hd] <;> rfl
        | some d =>
          rw [missTaken_of_below hw (hfree d hd (by rw [hp]; rfl)) (hlow hw d hd)]
          simp only [m, hw, hd] <;> rfl
    obtain ⟨hadd, hwake, hdevice⟩ : MissKept s m t.device := hm ▸ missTaken_kept (by rw [hp]; rfl) hlow
    have hslot : m.slot t.device = s.slot t.device := by rw [State.slot, hadd]; rfl
    have hschedule : ∀ n, m.schedule n t.device = s.schedule n t.device := fun n => by
      rw [State.schedule, State.schedules, hadd]; rfl
    have hend : ∀ {v}, m.injectorOutcome t.device t.telegram .miss = v → exec .responseTimeout s = .next (State.settle v) :=
      fun h => hexec ((missEnd_injector hp).trans (by rw [hm]; exact h))
    refine ⟨fun hx => hend (by rw [State.injectorOutcome, hslot, hx]), fun x hx => ?_⟩
    replace hx := hslot.trans hx
    refine ⟨fun f outlet dose htel hf hph hr => ?_, fun f c htel hf hph ho hr hc ha => ?_,
      fun n c outlet ratio htel hst htaken hwanted h1 hn hc => ?_, fun htel hst htaken honce h1 => ?_⟩
    · exact hend (htel ▸ injectorOutcome_shot_miss hx hf hph hr outlet dose)
    · replace hc := (hschedule f.arm).trans hc
      have hquery := injectorOutcome_query_miss hx hf hph ho hr
      refine ⟨fun h1 => hend (htel ▸ hquery.trans (attemptFailed_first hx hf hc ha hwake h1)), fun h2 d hd hk => ?_⟩
      obtain ⟨e, he, hkind⟩ := hdevice d hd
      exact ⟨_, hend (htel ▸ hquery.trans (attemptFailed_second hx hf hc ha h2)), declareFailed_device he (hkind.trans hk)⟩
    · exact hend (htel ▸ injectorOutcome_streamStart_miss hx hn ((hschedule n).trans hc) hwake hst htaken hwanted h1 outlet ratio)
    · exact hend (htel ▸ injectorOutcome_streamStop_miss hx hwake hst htaken honce h1)
  case injectorLimit =>
    have hfreed := hfree d hd (by rw [hp]; rfl)
    have hslot := deviceMissed_slot hfreed hk hlim (show u.slot t.device = some x from hx) hm hf ho
    obtain ⟨e, he, hmiss, -, -, -, -, hst⟩ := (deviceMissed_out hfreed hlim).device
    have hend : s.missEnd t = (u.deviceMissed t.device).setSlot t.device (some { x with
        flight := some { f with phase := .awaiting, timer := some f.timeout } }) := by
      rw [missEnd_injector hp, missTaken_of_unwritten hw, htel]
      exact injectorOutcome_shot_miss hslot hf hph hr outlet dose
    exact ⟨_, hexec hend, slot_setSlot_self .., e, he, hmiss, hst⟩

end Sys2Proof.Machine
end

section
/-! PROOF. A reply that is not accepted (R13, R20, R28). -/

namespace Sys2Proof.Machine

/-- A kind that fits and is no diagnostic is listed for every telegram (R13). -/
theorem replyKindOk_iff {r : DeviceReply} (h : replyFits r = true) (diag : Bool) :
    replyKindOk (replyKind r) diag = true ↔ (0x60 ≤ (replyKind r).toNat → diag = true) := by
  cases r with
  | diagnostic kind payload =>
    simp only [replyFits, Bool.and_eq_true, decide_eq_true_eq] at h
    obtain ⟨⟨hlow, hhigh⟩, -⟩ := h
    have hover : ¬ kind.toNat ≤ 0x46 := by omega
    simp [replyKindOk, replyKind, hlow, hhigh, hover]
  | _ => exact iff_of_true rfl (fun hk => absurd hk (of_decide_eq_false rfl))

/-- A diagnostic reply is one of kind 0x60 or above (R13). -/
theorem isDiagnostic_of_high {r : DeviceReply} (h : 0x60 ≤ (replyKind r).toNat) : ∃ kind payload, r = .diagnostic kind payload := by
  cases r with
  | diagnostic kind payload => exact ⟨kind, payload, rfl⟩
  | _ => exact absurd h (of_decide_eq_false rfl)

section Sent

variable {s : State} {t : Transaction} (ht : s.scan.transaction = some t) (hsent : t.sent = true)
  (hrx : s.scan.rx = ⟨[], false, none⟩) {r : DeviceReply} (hf : replyFits r = true)

include ht hsent hrx hf

/-- A reply to a telegram sent, before any of its characters: judged as a whole. -/
theorem deliverReply_of_sent : s.deliverReply r =
    if replyKindOk (replyKind r) t.telegram.isDiagnostic = true then s.replyEnd t r else s.breakReply := by
  have he : (some t).filter (fun t => t.sent) = some t := by simp [hsent]
  simp only [State.deliverReply, State.takeBusHeld, hrx, ht, he, hf, and_self, true_and, if_true]

theorem exec_unacceptedReply_of_listed (hk : 0x60 ≤ (replyKind r).toNat → t.telegram.isDiagnostic = true)
    (hend : s.replyEnd t r = s.missEnd t) : exec (.unacceptedReply r) s = exec .responseTimeout s := by
  have hd : s.deliverReply r = s.missEnd t := by
    rw [deliverReply_of_sent ht hsent hrx hf, if_pos ((replyKindOk_iff hf _).mpr hk), hend]
  exact (congrArg (fun v => Host.Outcome.next (State.settle v)) hd).trans (exec_responseTimeout_of_sent ht hsent).symm

end Sent

/-- With no telegram sent and no character held a reply changes nothing. -/
theorem deliverReply_of_unsent {s : State} (h : ∀ t, s.scan.transaction = some t → t.sent = false)
    (hrx : s.scan.rx = ⟨[], false, none⟩) (r : DeviceReply) : s.deliverReply r = s := by
  have he : s.scan.transaction.filter (fun t => t.sent) = none := by
    rw [Option.filter_eq_none_iff]
    exact fun t ht => by rw [h t ht]; exact Bool.false_ne_true
  simp only [State.deliverReply, State.takeBusHeld, hrx, he]

theorem replyEnd_of_written {s : State} {t : Transaction} (h : t.written = true) (r : DeviceReply) : s.replyEnd t r = s.missEnd t :=
  if_pos h

theorem replyEnd_passthrough_of_other {s : State} {t : Transaction} (h : t.step = .passthrough) {r : DeviceReply}
    (hr : ¬ 0x60 ≤ (replyKind r).toNat) (hf : replyFits r = true) : s.replyEnd t r = s.missEnd t := by
  have hpass : s.passReply t r = s.missEnd t := by
    cases r with
    | diagnostic kind payload =>
      simp only [replyFits, Bool.and_eq_true, decide_eq_true_eq] at hf
      exact absurd hf.1.1 hr
    | _ => rfl
  rw [State.replyEnd, hpass, if_pos h]
  exact ite_self _

theorem replyEnd_of_unaccepted {s : State} {t : Transaction} {d : Device} (hd : s.device t.device = some d)
    (h : t.step ≠ .passthrough) {r : DeviceReply} (hr : d.kind.accepts r = false) : s.replyEnd t r = s.missEnd t := by
  have hno : ¬ d.kind.accepts r = true := by rw [hr]; exact Bool.false_ne_true
  rw [State.replyEnd, if_neg h, hd]
  simp only [if_neg hno, ite_self]

/-- The kinds a device answers with (R28). -/
def DeviceKind.replyKinds : DeviceKind → List Byte
  | .meter => [0x41#8]
  | .valve => [0x42#8]
  | .injector => [0x43#8, 0x44#8]
  | .station => [0x45#8]
  | .permissive => [0x46#8]

theorem replyKind_mem_of_accepts {k : DeviceKind} {r : DeviceReply} (h : k.accepts r = true) : replyKind r ∈ k.replyKinds := by
  unfold DeviceKind.accepts at h
  split at h
  case h_7 => exact absurd h Bool.false_ne_true
  all_goals simp [replyKind, DeviceKind.replyKinds]

/-- Settles O36: an unaccepted reply is judged by its kind, and then ends as the response timeout does. -/
theorem unacceptedReplyIsMiss : Obligations.UnacceptedReplyIsMiss := by
  refine fun r s hs hf hrx => ⟨fun hun => ?unsent, fun t d haw => ?sent⟩
  case unsent =>
    exact congrArg Host.Outcome.next ((congrArg State.settle (deliverReply_of_unsent hun hrx r)).trans (settle_of_settled hs))
  case sent =>
    obtain ⟨ht, hsent, hw, -, hd⟩ := haw
    intro kinds diagnostic
    have hkinds : kinds = d.kind.replyKinds := by cases hk : d.kind <;> simp only [kinds, hk] <;> rfl
    refine ⟨fun hdiag htel => ?broken, fun hcase => ?missed, fun hk => ?written⟩
    case broken =>
      have hbreak : s.deliverReply r = { s with scan := { s.scan with
          rx := ⟨[], true, none⟩, counters := { s.scan.counters with check := min 65535 (s.scan.counters.check + 1) } } } := by
        have hno : ¬ replyKindOk (replyKind r) t.telegram.isDiagnostic = true := by
          rw [replyKindOk_iff hf, htel]
          exact fun h => Bool.false_ne_true (h hdiag)
        rw [deliverReply_of_sent ht hsent hrx hf, if_neg hno, State.breakReply, State.countBusCheck, satInc_eq_min]
        simp only [hrx]
      exact congrArg Host.Outcome.next ((congrArg State.settle hbreak).trans (settle_of_settled hs))
    case missed =>
      rcases hcase with ⟨hstep, hkind, hk⟩ | ⟨hstep, hlow⟩
      · have hend := replyEnd_of_unaccepted hd hstep (Bool.eq_false_iff.mpr fun ha => hkind (hkinds ▸ replyKind_mem_of_accepts ha))
        exact ⟨_, rfl, (exec_unacceptedReply_of_listed ht hsent hrx hf hk hend).symm⟩
      · have hend := replyEnd_passthrough_of_other (s := s) hstep hlow hf
        exact ⟨_, rfl, (exec_unacceptedReply_of_listed ht hsent hrx hf (fun h => absurd h hlow) hend).symm⟩
    case written =>
      let w : State := { s with scan := { s.scan with transaction := some { t with written := true } } }
      exact exec_unacceptedReply_of_listed (s := w) (t := { t with written := true }) rfl hsent hrx hf hk (replyEnd_of_written rfl r)

end Sys2Proof.Machine
end

section
/-! PROOF. A frame passes its check, and a reply that fits is read back from its payload (R6, R13, R15). -/

namespace Sys2Proof.Machine

/-! ### The check (R6) -/

/-- The check takes its own top bit: a shift without feedback. -/
theorem crcBit_shiftLeft (c : BitVec 16) {k j : Nat} (h : j + k = 15) : crcBit (c <<< k) (c.getLsbD j) = c <<< (k + 1) := by
  have hmsb : (c <<< k).msb = c.getLsbD j := by
    rw [BitVec.msb_eq_getLsbD_last, BitVec.getLsbD_shiftLeft]
    simp [show ¬ 15 < k by omega, show 15 - k = j by omega]
  rw [crcBit, hmsb]
  simp [BitVec.shiftLeft_add]

/-- The check takes its own high byte: a shift by eight without feedback. -/
theorem crcByte_high {c : BitVec 16} {b : Byte} (h : ∀ i, i < 8 → b.getLsbD i = c.getLsbD (8 + i)) : crcByte c b = c <<< 8 := by
  have hfirst : crcBit c (c.getLsbD 15) = c <<< 1 := by simpa using crcBit_shiftLeft c (k := 0) (j := 15) rfl
  simp only [crcByte, List.foldl_cons, List.foldl_nil]
  rw [h 7 (by decide), h 6 (by decide), h 5 (by decide), h 4 (by decide), h 3 (by decide), h 2 (by decide), h 1 (by decide),
    h 0 (by decide)]
  simp only [Nat.reduceAdd, hfirst, crcBit_shiftLeft]

theorem crc_append_check (body : List Byte) : crc (body ++ beBytes 2 (crc body).toNat) = 0#16 := by
  generalize hc : crc body = c
  have hhigh : ∀ i, i < 8 → (BitVec.ofNat 8 (c.toNat / 256 ^ 1)).getLsbD i = c.getLsbD (8 + i) := fun i hi => by
    rw [BitVec.getLsbD_ofNat, show 256 ^ 1 = 2 ^ 8 from rfl, Nat.testBit_div_two_pow]
    simp [hi, BitVec.getLsbD, Nat.add_comm]
  have hlow : ∀ i, i < 8 → (BitVec.ofNat 8 (c.toNat / 256 ^ 0)).getLsbD i = (c <<< 8).getLsbD (8 + i) := fun i hi => by
    rw [BitVec.getLsbD_ofNat, BitVec.getLsbD_shiftLeft]
    simp [hi, BitVec.getLsbD, show 8 + i < 16 by omega]
  rw [crc, List.foldl_append, ← crc, hc]
  simp only [beBytes, List.foldl_cons, List.foldl_nil, crcByte_high hhigh, crcByte_high hlow]
  rw [← BitVec.shiftLeft_add]
  exact BitVec.shiftLeft_eq_zero (by decide)

/-! ### A frame (R6, R14) -/

section Frame

variable (address kind : Byte) (payload : List Byte)

theorem crc_frame : crc (frame address kind payload) = 0#16 := crc_append_check _

theorem frame_length : (frame address kind payload).length = 5 + payload.length := by
  simp only [frame, List.length_append, List.length_cons, beBytes_length]
  omega

theorem frame_payload : ((frame address kind payload).drop 3).take payload.length = payload := by
  simp [frame]

theorem frame_count (h : payload.length < 256) : (byteAt (frame address kind payload) 2).toNat = payload.length :=
  Nat.mod_eq_of_lt h

end Frame

/-! ### The replies read back (R15) -/

theorem eventBytes_length (e : StationEvent) : (eventBytes e).length = 7 := by
  cases e <;> simp [eventBytes, cardBytes, beBytes_length]

theorem parseEvent_eventBytes (e : StationEvent) : parseEvent (eventBytes e) = some e := by
  cases e with
  | card digits cls =>
    have hdigits : fieldAt (eventBytes (.card digits cls)) 1 5 = digits.toNat := fieldAt_append [0x01#8] [cls] digits.isLt
    rw [parseEvent, hdigits, BitVec.ofNat_toNat]
    simp [eventBytes, cardBytes, beBytes, byteAt]
  | start arm comp => rfl
  | stop arm => rfl
  | estop => rfl

theorem parseEvents_flatMap (es : List StationEvent) : parseEvents es.length (es.flatMap eventBytes) = some es := by
  induction es with
  | nil => rfl
  | cons e es ih =>
    rw [List.flatMap_cons, List.length_cons, parseEvents, List.take_left' (eventBytes_length e), List.drop_left' (eventBytes_length e),
      parseEvent_eventBytes, ih]

theorem flatMap_eventBytes_length (es : List StationEvent) : (es.flatMap eventBytes).length = 7 * es.length := by
  induction es with
  | nil => rfl
  | cons e es ih =>
    rw [List.flatMap_cons, List.length_append, eventBytes_length, ih, List.length_cons]
    omega

/-- A reply that fits has a short payload (R13). -/
theorem replyPayload_length_le {r : DeviceReply} (h : replyFits r = true) : (replyPayload r).length ≤ 32 := by
  cases r with
  | stationEvents es =>
    simp only [replyFits, Bool.and_eq_true, decide_eq_true_eq] at h
    rw [replyPayload, List.length_cons, flatMap_eventBytes_length]
    omega
  | diagnostic kind payload =>
    simp only [replyFits, Bool.and_eq_true, decide_eq_true_eq] at h
    exact h.2
  | _ => simp [replyPayload, beBytes_length]

theorem parseReply_meterSample (pulses : BitVec 32) (interval temp : BitVec 16) (flags : Byte) :
    parseReply 0x41#8 (replyPayload (.meterSample pulses interval temp flags)) = some (.meterSample pulses interval temp flags) := by
  have hpulses : fieldAt (replyPayload (.meterSample pulses interval temp flags)) 0 4 = pulses.toNat := by
    rw [replyPayload, List.append_assoc, List.append_assoc, fieldAt_zero_append pulses.isLt]
  have hinterval : fieldAt (replyPayload (.meterSample pulses interval temp flags)) 4 2 = interval.toNat := by
    rw [replyPayload, List.append_assoc]
    exact fieldAt_append (beBytes 4 pulses.toNat) _ interval.isLt
  have htemp : fieldAt (replyPayload (.meterSample pulses interval temp flags)) 6 2 = temp.toNat :=
    fieldAt_append (beBytes 4 pulses.toNat ++ beBytes 2 interval.toNat) [flags] temp.isLt
  rw [parseReply, hpulses, hinterval, htemp, BitVec.ofNat_toNat, BitVec.ofNat_toNat, BitVec.ofNat_toNat]
  rfl

theorem parseReply_shotReport {outlet status : Byte} {dose : BitVec 16} (h : replyFits (.shotReport outlet dose status) = true) :
    parseReply 0x43#8 (replyPayload (.shotReport outlet dose status)) = some (.shotReport outlet dose status) := by
  have hdose : fieldAt (replyPayload (.shotReport outlet dose status)) 1 2 = dose.toNat := fieldAt_append [outlet] [status] dose.isLt
  rw [parseReply, hdose, BitVec.ofNat_toNat]
  exact Option.filter_some_pos h

theorem parseReply_injectorState {state flags : Byte} {dose : BitVec 32} (h : replyFits (.injectorState state dose flags) = true) :
    parseReply 0x44#8 (replyPayload (.injectorState state dose flags)) = some (.injectorState state dose flags) := by
  have hdose : fieldAt (replyPayload (.injectorState state dose flags)) 1 4 = dose.toNat := fieldAt_append [state] [flags] dose.isLt
  rw [parseReply, hdose, BitVec.ofNat_toNat]
  exact Option.filter_some_pos h

theorem parseReply_stationEvents {es : List StationEvent} (h : replyFits (.stationEvents es) = true) :
    parseReply 0x45#8 (replyPayload (.stationEvents es)) = some (.stationEvents es) := by
  have hlen : es.length ≤ 4 := by
    simp only [replyFits, Bool.and_eq_true, decide_eq_true_eq] at h
    exact h.1
  have hcount : (byteAt (replyPayload (.stationEvents es)) 0).toNat = es.length := Nat.mod_eq_of_lt (by omega)
  have hlength : (replyPayload (.stationEvents es)).length = 1 + 7 * es.length := by
    rw [replyPayload, List.length_cons, flatMap_eventBytes_length, Nat.add_comm]
  have hevents : parseEvents es.length ((replyPayload (.stationEvents es)).drop 1) = some es := parseEvents_flatMap es
  rw [parseReply, hcount, hlength, hevents]
  simp [h]

theorem parseReply_diagnostic {kind : Byte} {payload : List Byte} (h : replyFits (.diagnostic kind payload) = true) :
    parseReply kind payload = some (.diagnostic kind payload) := by
  have hfits := h
  simp only [replyFits, Bool.and_eq_true, decide_eq_true_eq] at hfits
  obtain ⟨⟨hlow, hhigh⟩, -⟩ := hfits
  have hno : ∀ k : Byte, k.toNat < 0x60 → kind ≠ k := fun k hk e => by subst e; omega
  rw [parseReply]
  simp only [hno 0x41#8 (by decide), hno 0x42#8 (by decide), hno 0x43#8 (by decide), hno 0x44#8 (by decide), hno 0x45#8 (by decide),
    hno 0x46#8 (by decide), false_and, if_false, hlow, hhigh, and_self, if_true]
  exact Option.filter_some_pos h

/-- A reply that fits is read back from its kind and its payload. -/
theorem parseReply_of_fits {r : DeviceReply} (h : replyFits r = true) : parseReply (replyKind r) (replyPayload r) = some r := by
  cases r with
  | meterSample pulses interval temp flags => exact parseReply_meterSample ..
  | valveState stage flags => exact Option.filter_some_pos h
  | shotReport outlet dose status => exact parseReply_shotReport h
  | injectorState state dose flags => exact parseReply_injectorState h
  | stationEvents es => exact parseReply_stationEvents h
  | permissiveState flags => rfl
  | diagnostic kind payload => exact parseReply_diagnostic h

end Sys2Proof.Machine
end

section
/-! PROOF. Characters on the Bay Bus (R2 to R5, R13, R27). -/

namespace Sys2Proof.Machine

/-! ### The end of a reply frees the bus -/

theorem replyEnd_congr {s u : State} {t : Transaction} (hfree : u.freeBus t = s.freeBus t) (hdev : u.device t.device = s.device t.device)
    (r : DeviceReply) : u.replyEnd t r = s.replyEnd t r := by
  simp only [State.replyEnd, State.passReply, State.missEnd, State.acceptReply, hfree, hdev]

theorem Kept.no_transaction {s u : State} (h : Kept s u) (hs : s.scan.transaction = none) : u.scan.transaction = none := by
  have ht : u.scan.transaction.map Transaction.sansCode = s.scan.transaction.map Transaction.sansCode := congrArg Outer.transaction h.outer
  rw [hs] at ht
  exact Option.map_eq_none_iff.mp ht

theorem freeBus_transaction (s : State) (t : Transaction) : (s.freeBus t).scan.transaction = none := by
  rw [freeBus_eq_freed]
  rfl

theorem missEnd_transaction (s : State) (t : Transaction) : (s.missEnd t).scan.transaction = none := by
  have hfree := freeBus_transaction s t
  have hmissed : ((if t.written then s.freeBus t else (s.freeBus t).deviceMissed t.device) : State).scan.transaction = none := by
    split
    · exact hfree
    · exact (deviceMissed_kept (.refl _) _).no_transaction hfree
  unfold State.missEnd
  dsimp only
  split
  · exact hfree
  · split
    · exact hfree
    · exact (setDevice_kept (deviceMissed_kept (.refl _) _) ..).no_transaction hfree
  · split
    · exact hfree
    · exact (setDevice_kept (deviceMissed_kept (.refl _) _) ..).no_transaction hfree
  · exact (injectorOutcome_kept (.refl _) ..).no_transaction hmissed
  · exact hmissed

/-- Whatever a reply brings, no transaction is in flight behind it. -/
theorem replyEnd_transaction (s : State) (t : Transaction) (r : DeviceReply) : (s.replyEnd t r).scan.transaction = none := by
  have hfree := freeBus_transaction s t
  have haccept : ∀ d, (s.acceptReply t d r).scan.transaction = none := fun d => by
    have hnoted := (noteShown_kept (noteSet_kept (deviceReplied_kept (.refl (s.freeBus t)) t.device (replyFault r)) t) t)
    unfold State.acceptReply
    dsimp only
    split
    · exact (routeFault_kept hnoted t).no_transaction hfree
    · exact (route_kept hnoted t d r).no_transaction hfree
  have hpass : (s.passReply t r).scan.transaction = none := by
    unfold State.passReply
    split
    · exact hfree
    · exact missEnd_transaction s t
  unfold State.replyEnd
  split
  · exact missEnd_transaction s t
  · split
    · exact hpass
    · split
      · exact missEnd_transaction s t
      · split
        · exact haccept _
        · exact missEnd_transaction s t

/-! ### A character taken (R3, R4, R13) -/

/-- The state with another receiver and other error counters. -/
def State.hears (s : State) (rx : BusRx) (k : BusCounters) : State := { s with scan := { s.scan with counters := k, rx := rx } }

/-- The counters after a reply found broken for another reason than a character error (R5). -/
def BusCounters.countCheck (k : BusCounters) : BusCounters := { k with check := min 65535 (k.check + 1) }

theorem settle_hears {s : State} (h : s.Settled) (rx : BusRx) (k : BusCounters) : (s.hears rx k).settle = s.hears rx k :=
  settle_of_settled h

theorem countBusError_eq (s : State) (e : CharError) : s.countBusError e = s.hears s.scan.rx (s.scan.counters.countError e) := rfl

theorem breakReply_eq (s : State) : s.breakReply = s.hears { s.scan.rx with broken := true } s.scan.counters.countCheck := by
  rw [State.breakReply, State.countBusCheck, satInc_eq_min]
  rfl

/-- With no telegram sent, or in a broken reply, a character only counts its error. -/
theorem takeBusChar_of_idle {s : State} (h : (∀ t, s.scan.transaction = some t → t.sent = false) ∨ s.scan.rx.broken = true)
    (c : BusChar) : s.takeBusChar c = s.countBusError (BusChar.error c) := by
  unfold State.takeBusChar
  split
  · rfl
  · rename_i t ht
    obtain ⟨ht, hsent⟩ := Option.filter_eq_some_iff.mp ht
    have hb : s.scan.rx.broken = true := h.resolve_left fun hno => by rw [hno t ht] at hsent; exact Bool.noConfusion hsent
    rw [if_pos hb]

section InReply

variable {s : State} {t : Transaction} (ht : s.scan.transaction = some t) (hsent : t.sent = true) (hb : s.scan.rx.broken = false)

include ht hsent hb

theorem takeBusChar_in_reply (c : BusChar) : s.takeBusChar c =
    if BusChar.error c ≠ .none then State.countBusError { s with scan.rx.broken := true } (BusChar.error c)
    else if c.ninth = true then s.breakReply else s.addReplyByte t c.data := by
  have he : (some t).filter (fun t => t.sent) = some t := by simp [hsent]
  simp only [State.takeBusChar, ht, he, hb, Bool.false_eq_true, if_false]

theorem takeBusChar_of_error {c : BusChar} (h : BusChar.error c ≠ .none) : s.takeBusChar c =
    s.hears { s.scan.rx with broken := true } (s.scan.counters.countError (BusChar.error c)) := by
  rw [takeBusChar_in_reply ht hsent hb, if_pos h]
  rfl

theorem takeBusChar_of_ninth {c : BusChar} (h : BusChar.error c = .none) (h9 : c.ninth = true) : s.takeBusChar c = s.breakReply := by
  rw [takeBusChar_in_reply ht hsent hb, if_neg (not_not_intro h), if_pos h9]

theorem takeBusChar_of_good {c : BusChar} (h : BusChar.error c = .none) (h9 : c.ninth = false) :
    s.takeBusChar c = s.addReplyByte t c.data := by
  rw [takeBusChar_in_reply ht hsent hb, if_neg (not_not_intro h), if_neg (by rw [h9]; exact Bool.false_ne_true)]

end InReply

/-- The byte just added breaks the head of a reply: another address, an unlisted kind, a length above 64 (R13). -/
theorem headBroken_append (t : Transaction) (got : List Byte) (b : Byte) : headBroken t (got ++ [b]) = true ↔
    ((got ++ [b]).length = 1 ∧ b ≠ t.address) ∨
      ((got ++ [b]).length = 2 ∧ ¬ (0x41 ≤ b.toNat ∧ b.toNat ≤ 0x46) ∧
        ¬ (t.telegram.isDiagnostic = true ∧ 0x60 ≤ b.toNat ∧ b.toNat ≤ 0x7F)) ∨
      ((got ++ [b]).length = 3 ∧ 64 < b.toNat) := by
  have hlast : byteAt (got ++ [b]) got.length = b := by simp [byteAt]
  have hkind : (replyKindOk b t.telegram.isDiagnostic = false) ↔ ¬ (0x41 ≤ b.toNat ∧ b.toNat ≤ 0x46) ∧
      ¬ (t.telegram.isDiagnostic = true ∧ 0x60 ≤ b.toNat ∧ b.toNat ≤ 0x7F) := by
    rw [← Bool.not_eq_true, replyKindOk, ← not_or]
    simp only [Bool.or_eq_true, Bool.and_eq_true, decide_eq_true_eq, and_assoc]
  have hat : ∀ k, (got ++ [b]).length = k + 1 → byteAt (got ++ [b]) k = b := fun k hk => by
    have : k = got.length := by simpa using hk.symm
    rw [this, hlast]
  simp only [headBroken, Bool.or_eq_true, Bool.and_eq_true, decide_eq_true_eq, Bool.not_eq_true', or_assoc]
  refine or_congr (and_congr_right fun h => ?_) (or_congr (and_congr_right fun h => ?_) (and_congr_right fun h => ?_))
  · rw [hat 0 h]
  · rw [hat 1 h, hkind]
  · rw [hat 2 h]

section GoodByte

variable {s : State} {t : Transaction} {b : Byte}

theorem addReplyByte_of_head (h : headBroken t (s.scan.rx.buffer ++ [b]) = true) :
    s.addReplyByte t b = State.breakReply { s with scan.rx.buffer := s.scan.rx.buffer ++ [b] } :=
  if_pos h

theorem addReplyByte_of_partial (h : ¬ headBroken t (s.scan.rx.buffer ++ [b]) = true)
    (hl : ¬ (3 ≤ (s.scan.rx.buffer ++ [b]).length ∧
      (s.scan.rx.buffer ++ [b]).length = 5 + (byteAt (s.scan.rx.buffer ++ [b]) 2).toNat)) :
    s.addReplyByte t b = { s with scan.rx.buffer := s.scan.rx.buffer ++ [b] } :=
  (if_neg h).trans (if_neg hl)

theorem addReplyByte_of_last (h : ¬ headBroken t (s.scan.rx.buffer ++ [b]) = true)
    (hl : 3 ≤ (s.scan.rx.buffer ++ [b]).length ∧
      (s.scan.rx.buffer ++ [b]).length = 5 + (byteAt (s.scan.rx.buffer ++ [b]) 2).toNat) :
    s.addReplyByte t b =
      State.completeReply { s with scan.rx.buffer := s.scan.rx.buffer ++ [b] } t (s.scan.rx.buffer ++ [b]) :=
  (if_neg h).trans (if_pos hl)

end GoodByte

theorem completeReply_of_bad {s : State} {t : Transaction} {bs : List Byte}
    (h : crc bs ≠ 0#16 ∨ parseReply (byteAt bs 1) ((bs.drop 3).take (byteAt bs 2).toNat) = none) :
    s.completeReply t bs = s.breakReply := by
  unfold State.completeReply
  split
  · rfl
  · rename_i hcrc
    rw [h.resolve_left hcrc]

theorem completeReply_of_valid {s : State} {t : Transaction} {bs : List Byte} {r : DeviceReply} (hcrc : crc bs = 0#16)
    (hr : parseReply (byteAt bs 1) ((bs.drop 3).take (byteAt bs 2).toNat) = some r) : s.completeReply t bs = s.replyEnd t r := by
  rw [State.completeReply, if_neg (not_not_intro hcrc), hr]

/-- The last character of a reply that fits brings what the reply brings as a whole. -/
theorem addReplyByte_of_frame {s : State} {t : Transaction} {b : Byte} {r : DeviceReply} (hf : replyFits r = true)
    (hframe : frame t.address (replyKind r) (replyPayload r) = s.scan.rx.buffer ++ [b]) :
    s.addReplyByte t b = State.replyEnd { s with scan.rx.buffer := s.scan.rx.buffer ++ [b] } t r := by
  have hshort : (replyPayload r).length < 256 := Nat.lt_of_le_of_lt (replyPayload_length_le hf) (by decide)
  have hcount : (byteAt (s.scan.rx.buffer ++ [b]) 2).toNat = (replyPayload r).length := by rw [← hframe, frame_count _ _ _ hshort]
  have hlength : (s.scan.rx.buffer ++ [b]).length = 5 + (replyPayload r).length := by rw [← hframe, frame_length]
  have hhead : ¬ headBroken t (s.scan.rx.buffer ++ [b]) = true := by
    rw [headBroken_append, hlength]
    omega
  rw [addReplyByte_of_last hhead ⟨by omega, by rw [hlength, hcount]⟩]
  refine completeReply_of_valid (by rw [← hframe, crc_frame]) ?_
  rw [hcount, ← hframe, frame_payload]
  exact parseReply_of_fits hf

/-- The character completes a reply in progress (R13). -/
def State.EndsReply (s : State) (c : BusChar) : Prop :=
  (∃ t, s.scan.transaction = some t ∧ t.sent = true) ∧ s.scan.rx.broken = false ∧ BusChar.error c = .none ∧ c.ninth = false ∧
    3 ≤ (s.scan.rx.buffer ++ [c.data]).length ∧
    (s.scan.rx.buffer ++ [c.data]).length = 5 + (byteAt (s.scan.rx.buffer ++ [c.data]) 2).toNat

/-- A character that completes no reply changes receiver and counters alone, and leaves the held stage. -/
theorem takeBusChar_of_unended {s : State} {c : BusChar} (h : ¬ s.EndsReply c) :
    ∃ rx k, s.takeBusChar c = s.hears rx k ∧ rx.held = s.scan.rx.held := by
  by_cases hidle : (∀ t, s.scan.transaction = some t → t.sent = false) ∨ s.scan.rx.broken = true
  · exact ⟨_, _, takeBusChar_of_idle hidle c, rfl⟩
  obtain ⟨hsome, hb⟩ := not_or.mp hidle
  simp only [Classical.not_forall, Bool.not_eq_false, exists_prop] at hsome hb
  rw [Bool.not_eq_true] at hb
  obtain ⟨t, ht, hsent⟩ := hsome
  by_cases herr : BusChar.error c = .none
  case neg => exact ⟨_, _, takeBusChar_of_error ht hsent hb herr, rfl⟩
  cases h9 : c.ninth with
  | true => exact ⟨_, _, (takeBusChar_of_ninth ht hsent hb herr h9).trans (breakReply_eq s), rfl⟩
  | false =>
    rw [takeBusChar_of_good ht hsent hb herr h9]
    by_cases hhead : headBroken t (s.scan.rx.buffer ++ [c.data]) = true
    · exact ⟨_, _, (addReplyByte_of_head hhead).trans (breakReply_eq _), rfl⟩
    · exact ⟨_, _, addReplyByte_of_partial hhead fun hl => h ⟨⟨t, ht, hsent⟩, hb, herr, h9, hl⟩, rfl⟩

/-- Behind a character that completes a reply, valid or not, no reply is in progress. -/
theorem takeBusChar_idles {s : State} {c : BusChar} (h : s.EndsReply c) :
    (∀ t, (s.takeBusChar c).scan.transaction = some t → t.sent = false) ∨ (s.takeBusChar c).scan.rx.broken = true := by
  obtain ⟨⟨t, ht, hsent⟩, hb, herr, h9, hl⟩ := h
  rw [takeBusChar_of_good ht hsent hb herr h9]
  by_cases hhead : headBroken t (s.scan.rx.buffer ++ [c.data]) = true
  · right
    rw [addReplyByte_of_head hhead, breakReply_eq]
    rfl
  rw [addReplyByte_of_last hhead hl]
  unfold State.completeReply
  split
  · right
    rw [breakReply_eq]
    rfl
  · split
    · right
      rw [breakReply_eq]
      rfl
    · left
      rw [replyEnd_transaction]
      exact fun _ hno => nomatch hno

/-! ### A character completes (R4, R27) -/

theorem busGatesOff_iff (s : State) (c : BusChar) : s.busGatesOff c = true ↔ s.pads.bde = true ∧ c.gap = false := by
  simp [State.busGatesOff]

theorem takeBusHeld_of_none {s : State} (h : s.scan.rx.held = none) : s.takeBusHeld = s := by rw [State.takeBusHeld, h]

theorem takeBusHeld_of_some {s : State} {c : BusChar} (h : s.scan.rx.held = some c) :
    s.takeBusHeld = State.takeBusChar { s with scan.rx.held := none } c := by rw [State.takeBusHeld, h]

section Opened

variable {s : State} {c : BusChar} (h : ¬ (s.pads.bde = true ∧ c.gap = false))

include h

theorem busChar_of_accepted (hb : c.blocked = false) : s.busChar c = s.takeBusHeld.takeBusChar c := by
  rw [State.busChar, if_neg (mt (busGatesOff_iff s c).mp h), if_neg (by rw [hb]; exact Bool.false_ne_true)]

theorem busChar_of_blocked (hb : c.blocked = true) (hf : c.frees = false) : s.busChar c = s.holdBusChar c := by
  rw [State.busChar, if_neg (mt (busGatesOff_iff s c).mp h), if_pos hb, if_neg (by rw [hf]; exact Bool.false_ne_true)]

theorem busChar_of_frees (hb : c.blocked = true) (hf : c.frees = true) : s.busChar c = (s.holdBusChar c).takeBusHeld := by
  rw [State.busChar, if_neg (mt (busGatesOff_iff s c).mp h), if_pos hb, if_pos hf]

end Opened

theorem holdBusChar_of_none {s : State} (h : s.scan.rx.held = none) (c : BusChar) :
    s.holdBusChar c = { s with scan.rx.held := some c } := by
  rw [State.holdBusChar, h]
  exact if_neg Bool.false_ne_true

/-- The counters after a character lost to an occupied held stage (R5). -/
def BusCounters.countOverrun (k : BusCounters) : BusCounters := { k with overrun := min 65535 (k.overrun + 1) }

/-- A lost character counts, and breaks the reply in progress. -/
theorem holdBusChar_of_some {s : State} {held : BusChar} (h : s.scan.rx.held = some held) (c : BusChar) : s.holdBusChar c =
    s.hears ⟨s.scan.rx.buffer, if s.scan.transaction.any (fun t => t.sent) then true else s.scan.rx.broken, some held⟩
      s.scan.counters.countOverrun := by
  have hover : s.holdBusChar c = s.busOverrun := if_pos (by rw [h]; rfl)
  rw [hover, State.busOverrun]
  split
  · rw [State.countBusOverrun, satInc_eq_min, ← h]
    rfl
  · rw [State.countBusOverrun, satInc_eq_min, ← h]
    rfl

end Sys2Proof.Machine
end

section
/-! PROOF. One character on the Bay Bus, judged (R2 to R5, R13, R27). -/

namespace Sys2Proof.Machine

/-- A lost character whose held one is taken at once: the held one counts its error alone. -/
theorem takeBusHeld_of_lost {s : State} {buffer : List Byte} {broken : Bool} {held : BusChar} {k : BusCounters}
    (h : (∀ t, s.scan.transaction = some t → t.sent = false) ∨ broken = true) :
    (s.hears ⟨buffer, broken, some held⟩ k).takeBusHeld = s.hears ⟨buffer, broken, none⟩ (k.countError (BusChar.error held)) := by
  have hidle := takeBusChar_of_idle (s := s.hears ⟨buffer, broken, none⟩ k) h held
  exact hidle.trans (countBusError_eq _ _)

/-- A blocked character at an occupied held stage (R4). -/
theorem busChar_of_lost {s : State} {c held : BusChar} (hs : s.Settled) (hopen : ¬ (s.pads.bde = true ∧ c.gap = false))
    (hb : c.blocked = true) (hheld : s.scan.rx.held = some held) {broken : Bool}
    (hbroken : (if s.scan.transaction.any (fun t => t.sent) then true else s.scan.rx.broken) = broken)
    (hidle : (∀ t, s.scan.transaction = some t → t.sent = false) ∨ broken = true) :
    (c.frees = false → exec (.busCharacter c) s =
      .next (s.hears ⟨s.scan.rx.buffer, broken, some held⟩ s.scan.counters.countOverrun)) ∧
    (c.frees = true → exec (.busCharacter c) s =
      .next (s.hears ⟨s.scan.rx.buffer, broken, none⟩ (s.scan.counters.countOverrun.countError (BusChar.error held)))) := by
  have hhold := holdBusChar_of_some hheld c
  rw [hbroken] at hhold
  refine ⟨fun hf => ?_, fun hf => ?_⟩
  · exact congrArg Host.Outcome.next ((congrArg State.settle ((busChar_of_blocked hopen hb hf).trans hhold)).trans (settle_hears hs _ _))
  · have htaken : s.busChar c = _ := (busChar_of_frees hopen hb hf).trans
      ((congrArg State.takeBusHeld hhold).trans (takeBusHeld_of_lost hidle))
    exact congrArg Host.Outcome.next ((congrArg State.settle htaken).trans (settle_hears hs _ _))

/-- The state without its held character. -/
def State.unheld (s : State) : State := { s with scan := { s.scan with rx := { s.scan.rx with held := none } } }

/-- The held character, taken as if it came now. -/
theorem exec_heldChar {s : State} (held : BusChar) : exec (.busCharacter { held with blocked := false, gap := true }) s.unheld =
    .next (s.unheld.takeBusChar held).settle := by
  have hopen : ¬ (s.unheld.pads.bde = true ∧ true = false) := fun h => Bool.noConfusion h.2
  have hchar : s.unheld.busChar { held with blocked := false, gap := true } = s.unheld.takeBusChar held :=
    (busChar_of_accepted (c := { held with blocked := false, gap := true }) hopen rfl).trans
      (congrArg (fun u => State.takeBusChar u { held with blocked := false, gap := true }) (takeBusHeld_of_none rfl))
  exact congrArg (fun u => Host.Outcome.next (State.settle u)) hchar

/-- Settles O37: the receiver's cases in the order of the statement. -/
theorem busCharacterJudged : Obligations.BusCharacterJudged := by
  refine fun c s hs => ?_
  intro shut
  have hexec : ∀ {v}, s.busChar c = v → exec (.busCharacter c) s = .next v.settle :=
    fun h => congrArg (fun v => Host.Outcome.next (State.settle v)) h
  refine ⟨fun hshut => ?gated, fun hopen hb hheld => ⟨fun hf => ?holds, fun hf => ?holdsFrees⟩, fun hopen hb held hheld => ?lost,
    fun hopen hb hheld => ?taken, fun hopen hb held hheld => ?behind⟩
  case gated =>
    have hsame : s.busChar c = s := if_pos ((busGatesOff_iff s c).mpr hshut)
    exact (hexec hsame).trans (congrArg Host.Outcome.next (settle_of_settled hs))
  case holds =>
    have hkeeps := (busChar_of_blocked hopen hb hf).trans (holdBusChar_of_none hheld c)
    exact (hexec hkeeps).trans (congrArg Host.Outcome.next (settle_of_settled hs))
  case holdsFrees =>
    have hthis : s.busChar c = s.takeBusChar c := by
      have hsame : ({ s with scan.rx.held := none } : State) = s := by rw [← hheld]
      rw [busChar_of_frees hopen hb hf, holdBusChar_of_none hheld, takeBusHeld_of_some rfl]
      exact congrArg (fun u => State.takeBusChar u c) hsame
    have hfree : s.busChar { c with blocked := false } = s.takeBusChar c :=
      (busChar_of_accepted (c := { c with blocked := false }) hopen rfl).trans
        (congrArg (fun u => State.takeBusChar u { c with blocked := false }) (takeBusHeld_of_none hheld))
    exact (hexec hthis).trans (congrArg (fun v => Host.Outcome.next (State.settle v)) hfree).symm
  case lost =>
    intro counted lost
    refine ⟨fun hun => ?_, fun t ht hsent => ?_⟩
    · have hany : ¬ (s.scan.transaction.any fun t => t.sent) = true := by
        rw [Option.any_eq_true]
        rintro ⟨t, ht, hsent⟩
        rw [hun t ht] at hsent
        exact Bool.noConfusion hsent
      exact busChar_of_lost hs hopen hb hheld (if_neg hany) (.inl hun)
    · exact busChar_of_lost hs hopen hb hheld (if_pos (by rw [ht]; exact hsent)) (.inr rfl)
  case taken =>
    intro counted checked
    have hnow : ∀ {v}, s.takeBusChar c = v → exec (.busCharacter c) s = .next v.settle := fun h =>
      hexec ((busChar_of_accepted hopen hb).trans (by rw [takeBusHeld_of_none hheld]; exact h))
    have hheard : ∀ {rx k}, s.takeBusChar c = s.hears rx k → exec (.busCharacter c) s = .next (s.hears rx k) := fun h =>
      (hnow h).trans (congrArg Host.Outcome.next (settle_hears hs _ _))
    refine ⟨fun hidle => hheard (takeBusChar_of_idle hidle c), fun t got ht hsent hrx => ?_⟩
    intro all wrong last
    have hb : s.scan.rx.broken = false := by rw [hrx]
    have hbuf : s.scan.rx.buffer = got := by rw [hrx]
    have hbreak : s.breakReply = s.hears ⟨got, true, none⟩ checked := by rw [breakReply_eq, hrx]; rfl
    have hadd : ({ s with scan.rx.buffer := s.scan.rx.buffer ++ [c.data] } : State) = s.hears ⟨all, false, none⟩ s.scan.counters := by
      have hparts : ({ s with scan.rx.buffer := s.scan.rx.buffer ++ [c.data] } : State) =
          s.hears ⟨s.scan.rx.buffer ++ [c.data], s.scan.rx.broken, s.scan.rx.held⟩ s.scan.counters := rfl
      rw [hparts, hbuf, hb, hheld]
    have haddBreak : State.breakReply { s with scan.rx.buffer := s.scan.rx.buffer ++ [c.data] } = s.hears ⟨all, true, none⟩ checked := by
      rw [hadd, breakReply_eq]; rfl
    have hwrong : headBroken t (s.scan.rx.buffer ++ [c.data]) = true ↔ wrong := by rw [hbuf]; exact headBroken_append t got c.data
    refine ⟨fun herr => ?_, fun herr h9 => hheard ((takeBusChar_of_ninth ht hsent hb herr h9).trans hbreak), fun herr h9 => ?_⟩
    · exact hheard ((takeBusChar_of_error ht hsent hb herr).trans (by rw [hrx]))
    have hgood := takeBusChar_of_good ht hsent hb herr h9
    refine ⟨fun hbad => ?_, fun hno hpart => ?_, fun r hf hk hframe => ?_⟩
    · by_cases hhead : wrong
      · exact hheard (hgood.trans ((addReplyByte_of_head (hwrong.mpr hhead)).trans haddBreak))
      · obtain ⟨hlast, hcheck⟩ := hbad.resolve_left hhead
        have hcomplete := addReplyByte_of_last (s := s) (t := t) (b := c.data) (mt hwrong.mp hhead) (by rw [hbuf]; exact hlast)
        exact hheard (hgood.trans (hcomplete.trans ((completeReply_of_bad (by rw [hbuf]; exact hcheck)).trans haddBreak)))
    · exact hheard (hgood.trans ((addReplyByte_of_partial (mt hwrong.mp hno) (by rw [hbuf]; exact hpart)).trans hadd))
    · let w : State := { s with scan := { s.scan with rx := ⟨[], false, none⟩ } }
      have hcleared : (s.hears ⟨all, false, none⟩ s.scan.counters).replyEnd t r = w.replyEnd t r := replyEnd_congr rfl rfl r
      have hend : s.takeBusChar c = w.replyEnd t r :=
        hgood.trans ((addReplyByte_of_frame hf (by rw [hbuf]; exact hframe)).trans (by rw [hadd]; exact hcleared))
      have hdelivered : w.deliverReply r = w.replyEnd t r := by
        rw [deliverReply_of_sent (s := w) ht hsent rfl hf, if_pos ((replyKindOk_iff hf _).mpr hk)]
      exact (hnow hend).trans (congrArg (fun v => Host.Outcome.next (State.settle v)) hdelivered).symm
  case behind =>
    intro got ends freed first
    have hfirst : exec (.busCharacter first) freed = .next (freed.takeBusChar held).settle := exec_heldChar held
    have hthis : s.busChar c = (freed.takeBusChar held).takeBusChar c :=
      (busChar_of_accepted hopen hb).trans (congrArg (fun u => State.takeBusChar u c) (takeBusHeld_of_some hheld))
    refine ⟨fun hno => ?_, fun hends herr => ?_⟩
    · obtain ⟨rx, k, hheard, hrx⟩ := takeBusChar_of_unended (s := freed) (c := held) hno
      refine ⟨freed.hears rx k, hfirst.trans (by rw [hheard, settle_hears (s := freed) hs]), hrx, ?_⟩
      have hnext : (freed.hears rx k).busChar c = (freed.hears rx k).takeBusChar c :=
        (busChar_of_accepted (s := freed.hears rx k) hopen hb).trans (by rw [takeBusHeld_of_none hrx])
      exact (hexec (hthis.trans (by rw [hheard]))).trans (congrArg (fun v => Host.Outcome.next (State.settle v)) hnext).symm
    · have hquiet := takeBusChar_of_idle (takeBusChar_idles (s := freed) (c := held) hends) c
      have hsame : (freed.takeBusChar held).takeBusChar c = freed.takeBusChar held := by rw [hquiet, herr]; rfl
      exact (hexec (hthis.trans hsame)).trans hfirst.symm

end Sys2Proof.Machine
end

section
/-! PROOF. A meter sample while no batch runs, and a METER FAULT (R21, R24, R55 to R58, R63, R64, R70, R87). -/

namespace Sys2Proof.Machine

/-! ### A reply with its fault flag set (R21, R33) -/

/-- A poll's reply with its fault flag set moves the device to FAULTED and reaches no owner. -/
theorem deliver_faulted {s : State} {t : Transaction} {d : Device} (h : s.AwaitsOnline t d) (hstep : t.step = .scan)
    (htel : t.telegram = .poll) {r : DeviceReply} (hfits : replyFits r = true) (hlisted : replyKindOk (replyKind r) false = true)
    (ha : d.kind.accepts r = true) (hf : replyFault r = true) :
    s.deliverReply r = (s.polled t.device d).moveDevice t.device (.faulted .device) := by
  obtain ⟨haw, -, hon⟩ := h
  have hend := deliverReply_ends haw hfits (by rw [htel]; exact hlisted)
  obtain ⟨-, -, hw, hrx, hd⟩ := haw
  have hfree : s.freeBus t = s.freed t.step := freeBus_eq_freed s t
  have hclear : t.step.clearsHolds = true := by rw [hstep]; rfl
  have hdevice : (s.freed t.step).device t.device = some { d with retryHold := false } := by
    rw [freed_device s hclear, hd]
    rfl
  have hreplied : (s.freed t.step).deviceReplied t.device true = (s.polled t.device d).moveDevice t.device (.faulted .device) := by
    have hafter : d.state.afterReply true = .faulted .device := by rw [hon]; rfl
    rw [State.deviceReplied, hdevice, freed_of_clear_rx hrx hclear]
    dsimp only
    rw [hafter]
    rfl
  have haccept : s.acceptReply t d r = (s.polled t.device d).moveDevice t.device (.faulted .device) := by
    unfold State.acceptReply
    rw [if_pos hf, hf, hfree, hreplied]
    simp only [State.noteSet, State.noteShown, State.routeFault, htel, hstep]
    rfl
  rw [hend, State.replyEnd, hw, if_neg Bool.false_ne_true, if_neg (by rw [hstep]; exact nofun), hd]
  dsimp only
  rw [if_pos ha, haccept]

/-! ### The meter handed on (R55, R87, R90) -/

theorem haltBatch_of_free {s : State} {n : Arm} (h : s.holder n = none) (r : StopReason) : s.haltBatch n r = s :=
  haltBatch_of_still (fun _ hb => nomatch h.symm.trans hb) r

theorem meterDown_of_free {s : State} {n : Arm} (h : s.holder n = none) (before : DeviceState) (halts : Bool) :
    s.meterDown n before halts = s := by
  rw [State.meterDown, h, if_neg (by simp), haltBatch_of_free h, ite_self]

theorem meterDown_of_haltable {s : State} {n : Arm} {b : Batch} (hb : s.holder n = some b) (hh : b.state.haltable = true)
    (before : DeviceState) : s.meterDown n before true = s.haltBatch n .meterLost := by
  have hno : ¬ (s.holder n).any (fun b => b.state = .stopping) = true := by
    rw [hb]
    intro hst
    rw [of_decide_eq_true hst] at hh
    exact Bool.noConfusion hh
  rw [State.meterDown, if_neg hno, if_pos rfl]

theorem meterDown_arm_other (s : State) {m n : Arm} (h : m ≠ n) (before : DeviceState) (halts : Bool) :
    (s.meterDown n before halts).arm m = s.arm m := by
  unfold State.meterDown
  split
  · split
    · exact arm_modBatch_other _ h _
    · rfl
  · split
    · exact haltBatch_arm_other s h _
    · rfl

/-- Turns of which each touches its own arm alone: what the turn of an arm finds and leaves. -/
theorem foldl_own_arms {f : State → Arm → State} (hsame : ∀ u m, SameBay u (f u m)) (hother : ∀ u m k, k ≠ m → (f u m).arm k = u.arm k)
    (s : State) (n : Arm) : ∃ u, SameBay s u ∧ u.arm n = s.arm n ∧ (allArms.foldl f s).arm n = (f u n).arm n :=
  foldl_allArms_turn (P := fun u => SameBay s u ∧ u.arm n = s.arm n)
    (Q := fun v => ∃ u, SameBay s u ∧ u.arm n = s.arm n ∧ v.arm n = (f u n).arm n) n
    (fun u m hm ⟨hs, ha⟩ => ⟨hs.trans (hsame u m), (hother u m n (Ne.symm hm)).trans ha⟩)
    (fun u ⟨hs, ha⟩ => ⟨u, hs, ha, rfl⟩)
    (fun v m hm ⟨u, hs, ha, hv⟩ => ⟨u, hs, ha, (hother v m n (Ne.symm hm)).trans hv⟩) ⟨.refl s, rfl⟩

theorem names_iff (s : State) (n : Arm) (i : DevIx) : s.names n i = true ↔ ∃ a, s.armEntry n = some a ∧ a.meter = i := by
  simp only [State.names, Option.any_eq_true, decide_eq_true_eq]

/-- The turn of one arm when a meter other than to ONLINE is handed on. -/
def State.meterTurn (i : DevIx) (before : DeviceState) (halts : Bool) (s : State) (n : Arm) : State :=
  if s.names n i then s.meterDown n before halts else s

theorem meterTurn_same (i : DevIx) (before : DeviceState) (u : State) (m : Arm) : SameBay u (State.meterTurn i before true u m) := by
  unfold State.meterTurn
  split
  · exact meterDown_same ..
  · exact .refl u

theorem meterTurn_arm_other (i : DevIx) (before : DeviceState) (u : State) (m k : Arm) (h : k ≠ m) : (State.meterTurn i before true u m).arm k = u.arm k := by
  unfold State.meterTurn
  split
  · exact meterDown_arm_other u h ..
  · rfl

section MeterLost

variable {i : DevIx} {before after : DeviceState} (hlost : after.lost = true)

include hlost

theorem meterHanded_of_lost (s : State) : s.meterHanded i before (some after) =
    allArms.foldl (State.meterTurn i before true) (s.meterChanged i) := by
  have hne : some after ≠ some DeviceState.online := fun e => by
    rw [Option.some.inj e] at hlost
    exact Bool.noConfusion hlost
  unfold State.meterHanded State.batchMeter
  simp only [if_neg hne, Option.any_some, hlost]
  rfl

theorem meterHanded_same (s : State) : SameBay (s.meterChanged i) (s.meterHanded i before (some after)) := by
  rw [meterHanded_of_lost hlost]
  exact foldl_allArms_keeps (P := SameBay (s.meterChanged i)) (fun u m h => h.trans (meterTurn_same i before u m)) (.refl _)

/-- An arm that does not name the meter. -/
theorem meterHanded_arm_other {s : State} {n : Arm} (h : s.names n i = false) :
    (s.meterHanded i before (some after)).arm n = s.arm n := by
  obtain ⟨u, hsame, harm, hturn⟩ := foldl_own_arms (meterTurn_same i before) (meterTurn_arm_other i before) (s.meterChanged i) n
  have hname : u.names n i = false := by rw [State.names, hsame.armEntry, State.armEntry, meterChanged_batch]; exact h
  rw [meterHanded_of_lost hlost, hturn, State.meterTurn, hname, if_neg Bool.false_ne_true, harm, State.arm, meterChanged_batch,
    State.arm]

/-- An arm that names the meter, with a batch that a halt acts on. -/
theorem meterHanded_arm_self {s : State} {n : Arm} (h : s.names n i = true) {b : Batch} (hb : s.holder n = some b)
    (hh : b.state.haltable = true) : ∃ u, SameBay (s.meterChanged i) u ∧
      (s.meterHanded i before (some after)).arm n = u.haltedArm n .meterLost b := by
  obtain ⟨u, hsame, harm, hturn⟩ := foldl_own_arms (meterTurn_same i before) (meterTurn_arm_other i before) (s.meterChanged i) n
  have hname : u.names n i = true := by rw [State.names, hsame.armEntry, State.armEntry, meterChanged_batch]; exact h
  have hholder : u.holder n = some b := by rw [State.holder, harm, State.arm, meterChanged_batch]; exact hb
  refine ⟨u, hsame, ?_⟩
  rw [meterHanded_of_lost hlost, hturn, State.meterTurn, if_pos hname, meterDown_of_haltable hholder hh,
    haltBatch_arm_self hholder hh]

/-- With the arms that name the meter free, only the meter computer acts. -/
theorem meterHanded_of_idle {s : State} (h : ∀ n, s.names n i = true → s.holder n = none) :
    s.meterHanded i before (some after) = s.meterChanged i := by
  rw [meterHanded_of_lost hlost]
  refine foldl_allArms_idle fun n => ?_
  unfold State.meterTurn
  split
  case isFalse => rfl
  case isTrue hname =>
    rw [State.names, State.armEntry, meterChanged_batch] at hname
    refine meterDown_of_free ?_ ..
    rw [State.holder, State.arm, meterChanged_batch]
    exact h n hname

end MeterLost

/-! ### A sample taken (R56 to R58, R63, R64, R70) -/

/-- The record after stage 6 (R63, R64). -/
theorem tempStage_record (m : Metering) (valid : Bool) (reading : Int) (tref : Nat) : (tempStage m valid reading tref).2 =
    if tempUsable valid reading then { m with lastTemp := some reading, hold := 0 }
    else { m with hold := if m.lastTemp.isSome then min 6 (m.hold + 1) else m.hold } := by
  unfold tempStage
  split
  · rfl
  · split
    case h_1 hlast => rw [if_pos (by rw [hlast]; rfl)]
    case h_2 hlast => rw [if_neg (by rw [hlast]; exact Bool.false_ne_true)]

theorem tempUsable_iff (valid : Bool) (reading : Int) :
    tempUsable valid reading = true ↔ valid = true ∧ -4000 ≤ reading ∧ reading ≤ 6000 := by
  simp only [tempUsable, Bool.and_eq_true, decide_eq_true_eq, and_assoc]

section Delivered

variable {s : State} {t : Transaction} {d : Device} {n : Arm} {e : ArmEntry} (haw : s.AwaitsOnline t d) (hstep : t.step = .scan)
  (htel : t.telegram = .poll) (hk : d.kind = .meter) (pulses : BitVec 32) (interval temperature : BitVec 16) {flags : Byte}

include haw hstep htel hk

/-- A sample of the arm's meter reaches the meter computer (R33, R56). -/
theorem exec_meterSample (ha : d.assoc = .arm n) (he : s.armEntry n = some e) (hm : e.meter = t.device)
    (hfault : flags.getLsbD 1 = false) : exec (.meterSample pulses interval temperature flags) s = .next
      ((s.polled t.device d).takeSample n e pulses interval.toNat (flags.getLsbD 0) temperature.toInt).settle := by
  have hroute : s.deliverReply (.meterSample pulses interval temperature flags) =
      (s.polled t.device d).meterSample t.device n pulses interval temperature flags := by
    rw [deliver_polled (r := .meterSample pulses interval temperature flags) haw hstep htel rfl rfl (by rw [hk]; rfl) hfault]
    unfold State.route
    rw [ha]
  have htake : (s.polled t.device d).meterSample t.device n pulses interval temperature flags =
      (s.polled t.device d).takeSample n e pulses interval.toNat (flags.getLsbD 0) temperature.toInt := by
    have he' : (s.polled t.device d).armEntry n = some e := he
    rw [State.meterSample, he']
    exact if_pos hm
  exact congrArg (fun v => Host.Outcome.next (State.settle v)) (hroute.trans htake)

/-- A sample with METER FAULT moves the meter and reaches no block (R21, R33). -/
theorem exec_meterSample_faulted (hfault : flags.getLsbD 1 = true) : exec (.meterSample pulses interval temperature flags) s =
    .next (((s.polled t.device d).setDevice t.device (some { d with
      retryHold := false, misses := 0, state := .faulted .device, setStage := none })).raiseNotice .device (.device t.device)
        0x03#8 |>.meterHanded t.device d.state (some (.faulted .device))).settle := by
  have hne : ({ d with retryHold := false, misses := 0 } : Device).state ≠ .faulted .device := by
    show d.state ≠ _
    rw [haw.2.2]
    exact nofun
  have hdev : (s.polled t.device d).device t.device = some { d with retryHold := false, misses := 0 } := by
    rw [polled_device, if_pos rfl]
  have hmoved := (deliver_faulted (r := .meterSample pulses interval temperature flags) haw hstep htel rfl rfl (by rw [hk]; rfl)
    hfault).trans (moveDevice_of_other hdev hne)
  refine congrArg (fun v => Host.Outcome.next (State.settle v)) (hmoved.trans ?_)
  dsimp only
  rw [hk]
  rfl

end Delivered

theorem takeSample_fresh {s : State} {n : Arm} {e : ArmEntry} (h : (s.metering n).history = .fresh) (pulses : BitVec 32)
    (interval : Nat) (valid : Bool) (reading : Int) : s.takeSample n e pulses interval valid reading =
      s.setMetering n ((s.metering n).takeFresh pulses valid reading s.batch.settings.tref) := by
  rw [State.takeSample, h]

/-- A sample of an arm whose batch is not measured. -/
theorem takeSample_idle {s : State} {n : Arm} {e : ArmEntry} (h : (s.metering n).history = .tracking)
    (hb : ∀ b, s.holder n = some b → b.state.measured = false) (pulses : BitVec 32) (interval : Nat) (valid : Bool) (reading : Int) :
    s.takeSample n e pulses interval valid reading = s.idleSample n e { s.metering n with lastPulses := pulses }
      (pulseDelta pulses (s.metering n).lastPulses) valid reading := by
  have hnone : (s.holder n).filter (fun b => b.state.measured) = none := by
    rw [Option.filter_eq_none_iff]
    exact fun b hholder => by rw [hb b hholder]; exact Bool.false_ne_true
  unfold State.takeSample
  dsimp only
  split
  case h_1 hfresh => exact nomatch hfresh.symm.trans h
  case h_2 => rw [hnone]

/-- The unauthorised-flow watch on a record just written (R70). -/
theorem watchFlow_setMetering (s : State) (n : Arm) (m : Metering) (delta leak : Nat) : (s.setMetering n m).watchFlow n delta leak =
    if delta ≤ leak then s.setMetering n { m with unauthorised := 0 }
    else if 2 ≤ m.unauthorised then (s.setMetering n { m with unauthorised := 0 }).raiseNotice .unauthorisedFlow (.arm n) 0x00#8
    else s.setMetering n { m with unauthorised := m.unauthorised + 1 } := by
  have htwice : ∀ k : Metering, (s.setMetering n m).setMetering n k = s.setMetering n k := fun k => by
    simp only [State.setMetering, Vector.set_set]
  simp only [State.watchFlow, metering_setMetering_self, htwice]

/-- Settles O38: the sample by history, pulse delta and watch; the fault by the hand-on of the meter. -/
theorem meterSampleIdle : Obligations.MeterSampleIdle := by
  refine fun pulses interval temperature flags s t d n e hs haw hstep htel hk ha he hm => ?_
  intro m u usable delta m1
  refine ⟨fun m2 husable hunusable hfault => ?sample, fun hfault => ?fault⟩
  case sample =>
    have hexec := exec_meterSample haw hstep htel hk pulses interval temperature ha he hm hfault
    have hiff : tempUsable (flags.getLsbD 0) temperature.toInt = true ↔ usable := tempUsable_iff ..
    have hrecord : { (tempStage m (flags.getLsbD 0) temperature.toInt u.batch.settings.tref).2 with
        lastPulses := pulses, history := .tracking } = m2 := by
      rw [tempStage_record]
      by_cases h : usable
      · rw [if_pos (hiff.mpr h), husable h]
      · rw [if_neg (mt hiff.mp h), hunusable h]
    refine ⟨fun hfresh => ?_, fun htrack hfree => ?_⟩
    · have htaken := takeSample_fresh (s := u) (n := n) (e := e) hfresh pulses interval.toNat (flags.getLsbD 0) temperature.toInt
      have hm2 : (u.metering n).takeFresh pulses (flags.getLsbD 0) temperature.toInt u.batch.settings.tref = m2 := hrecord
      rw [hm2] at htaken
      exact hexec.trans (congrArg (fun v => Host.Outcome.next (State.settle v)) htaken)
    have hstill : ∀ b, u.holder n = some b → b.state.measured = false := by
      intro b hb
      rcases hfree with hnone | ⟨c, hc, harmed⟩
      · exact nomatch hnone.symm.trans hb
      · rw [Option.some.inj (hb.symm.trans hc), harmed]
        rfl
    have hm1 : m1 = { m with lastPulses := pulses } := by simp only [m1, ← htrack]
    have hm2 : (tempStage { m with lastPulses := pulses } (flags.getLsbD 0) temperature.toInt u.batch.settings.tref).2 = m2 := by
      rw [tempStage_record]
      by_cases h : usable
      · rw [if_pos (hiff.mpr h), husable h, hm1]
      · rw [if_neg (mt hiff.mp h), hunusable h, hm1]
    have hwatch : m2.unauthorised = m.unauthorised := by
      by_cases h : usable
      · rw [husable h]
      · rw [hunusable h]
    have htaken : u.takeSample n e pulses interval.toNat (flags.getLsbD 0) temperature.toInt =
        if e.maxPulses < delta then u.setMetering n m2 else (u.setMetering n m2).watchFlow n delta e.leak := by
      rw [takeSample_idle (s := u) htrack hstill, State.idleSample]
      exact hm2 ▸ rfl
    have hdone : ∀ {v}, u.takeSample n e pulses interval.toNat (flags.getLsbD 0) temperature.toInt = v →
        exec (.meterSample pulses interval temperature flags) s = .next (State.settle v) :=
      fun h => hexec.trans (congrArg (fun v => Host.Outcome.next (State.settle v)) h)
    have hwatched : delta ≤ e.maxPulses → u.takeSample n e pulses interval.toNat (flags.getLsbD 0) temperature.toInt =
        if delta ≤ e.leak then u.setMetering n { m2 with unauthorised := 0 }
        else if 2 ≤ m.unauthorised then (u.setMetering n { m2 with unauthorised := 0 }).raiseNotice .unauthorisedFlow (.arm n) 0x00#8
        else u.setMetering n { m2 with unauthorised := m.unauthorised + 1 } := by
      intro hle
      rw [htaken, if_neg (Nat.not_lt.mpr hle), watchFlow_setMetering, hwatch]
    refine ⟨fun hover => hdone (htaken.trans (if_pos hover)), fun hle hlow => hdone ((hwatched hle).trans (if_pos hlow)),
      fun hle hhigh hfew => ?_, fun hle hhigh hmany => ?_⟩
    · exact hdone ((hwatched hle).trans ((if_neg (Nat.not_le.mpr hhigh)).trans (if_neg (Nat.not_le.mpr hfew))))
    · exact hdone ((hwatched hle).trans ((if_neg (Nat.not_le.mpr hhigh)).trans (if_pos hmany)))
  case fault =>
    have hexec := exec_meterSample_faulted haw hstep htel hk pulses interval temperature hfault
    generalize hw : ((u.setDevice t.device (some { d with
      retryHold := false, misses := 0, state := .faulted .device, setStage := none })).raiseNotice .device (.device t.device)
        0x03#8) = w at hexec
    have hlost : (DeviceState.faulted .device).lost = true := rfl
    have hsame := meterHanded_same (i := t.device) (before := d.state) hlost w
    have hdevice : w.device t.device = some { d with retryHold := false, misses := 0, state := .faulted .device, setStage := none } := by
      rw [← hw]
      exact device_setDevice_self ..
    have hmetering : ∀ k, (w.meterHanded t.device d.state (some (.faulted .device))).metering k =
        if s.names k t.device then (s.metering k).meterChanged else s.metering k := fun k => by
      rw [hsame.metering, meterChanged_metering, ← hw]
      rfl
    have hnamed : ∀ k a, s.armEntry k = some a → a.meter = t.device → w.names k t.device = true := fun k a hka hmeter => by
      rw [← hw]
      exact (names_iff s k t.device).mpr ⟨a, hka, hmeter⟩
    have hunnamed : ∀ k, (∀ a, s.armEntry k = some a → a.meter ≠ t.device) → s.names k t.device = false := fun k hno =>
      Bool.eq_false_iff.mpr fun hyes => by
        obtain ⟨a, hka, hmeter⟩ := (names_iff s k t.device).mp hyes
        exact hno a hka hmeter
    refine ⟨_, hexec, ?_, fun k a hka hmeter => ?_, fun k hno => ⟨?_, ?_⟩, fun k a b hka hmeter hb hh => ?_, fun hfree => ?_⟩
    · rw [hsame.device, State.device, meterChanged_scan]
      exact hdevice
    · rw [hmetering, if_pos ((names_iff s k t.device).mpr ⟨a, hka, hmeter⟩)]
      rfl
    · rw [hmetering, hunnamed k hno, if_neg Bool.false_ne_true]
    · have hwno : w.names k t.device = false := by rw [← hw]; exact hunnamed k hno
      rw [meterHanded_arm_other hlost hwno, ← hw]
      rfl
    · have hwb : w.holder k = some b := by rw [← hw]; exact hb
      obtain ⟨v, -, harm⟩ := meterHanded_arm_self (before := d.state) hlost (hnamed k a hka hmeter) hwb hh
      refine ⟨v.haltedBatch k .meterLost b, ?_, rfl, rfl, rfl, rfl, ?_⟩
      · rw [State.holder, harm, State.haltedArm, want_holder]
      · rw [harm, State.haltedArm, want_desired]
    · have hidle : w.meterHanded t.device d.state (some (.faulted .device)) = w.meterChanged t.device :=
        meterHanded_of_idle hlost fun k hname => by
          rw [← hw] at hname ⊢
          obtain ⟨a, hka, hmeter⟩ := (names_iff s k t.device).mp hname
          exact hfree k a hka hmeter
      rw [hidle, meterChanged_frame, ← hw]
      exact ⟨rfl, rfl, rfl, rfl, rfl, rfl⟩

end Sys2Proof.Machine
end

section
/-! PROOF. A measured meter sample up to the decisions (R56 to R69): stages, totals, and what passing the increment does where the
batch has no schedules. -/

namespace Sys2Proof.Machine

/-! ### The batch that holds an arm, written -/

/-- The arm is held by a batch. -/
def State.heldBy (s : State) (n : Arm) (b : Batch) : State := s.setArm n { s.arm n with holder := some b }

section Holding

variable (s : State) (n : Arm) (b : Batch)

@[simp] theorem holder_heldBy : (s.heldBy n b).holder n = some b := holder_setArm_self ..

@[simp] theorem arm_heldBy_self : (s.heldBy n b).arm n = { s.arm n with holder := some b } := arm_setArm_self ..

theorem arm_heldBy_other {m : Arm} (h : m ≠ n) : (s.heldBy n b).arm m = s.arm m := arm_setArm_other s h _

theorem modBatch_heldBy (f : Batch → Batch) : (s.heldBy n b).modBatch n f = s.heldBy n (f b) := by
  rw [modBatch_of_holder (holder_heldBy s n b), arm_heldBy_self, State.heldBy, setArm_setArm, State.heldBy]

theorem haltedArm_heldBy (r : StopReason) (c : Batch) : (s.heldBy n b).haltedArm n r c = s.haltedArm n r c := by
  rw [State.haltedArm, arm_heldBy_self]
  rfl

end Holding

theorem modBatch_eq_heldBy {s : State} {n : Arm} {b : Batch} (h : s.holder n = some b) (f : Batch → Batch) :
    s.modBatch n f = s.heldBy n (f b) := modBatch_of_holder h f

/-! ### Stages (R59 to R68) -/

/-- Stages 2 to 8 with a usable reading. -/
theorem runStages_of_usable {valid : Bool} {reading : Int} (h : tempUsable valid reading = true) (e : ArmEntry) (alpha tref : Nat)
    (m : Metering) (pulses : Nat) (fault : Bool) (interval : Nat) :
    let raw := (pulses * 1000000000 + m.r1) / e.km
    let rate := raw * 60 / (min 5000 (max 1 interval) * 1000)
    let gross := (raw * meterFactor rate e.curve + m.r2) / 100000
    let factor := vcf alpha reading tref
    runStages e alpha tref m pulses fault interval valid reading =
      (⟨pulses, raw, gross, (gross * factor + m.r3) / 100000, rate, reading, fault, false, false, false, vcfClamped alpha reading tref⟩,
        { m with
          lastTemp := some reading, hold := 0, r1 := (pulses * 1000000000 + m.r1) % e.km
          r2 := (raw * meterFactor rate e.curve + m.r2) % 100000, r3 := (gross * factor + m.r3) % 100000 }) := by
  have htemp : tempStage m valid reading tref = (⟨reading, false, false, false⟩, { m with lastTemp := some reading, hold := 0 }) :=
    if_pos h
  intro raw rate gross factor
  rw [runStages, htemp]
  rfl

/-- Without pulses, and with remainders in range, no volume is measured and no remainder moves. -/
theorem runStages_of_no_pulses {valid : Bool} {reading : Int} (h : tempUsable valid reading = true) {e : ArmEntry} {m : Metering}
    (hm : m.InRange e.km) (alpha tref : Nat) (fault : Bool) (interval : Nat) :
    runStages e alpha tref m 0 fault interval valid reading =
      (⟨0, 0, 0, 0, 0, reading, fault, false, false, false, vcfClamped alpha reading tref⟩,
        { m with lastTemp := some reading, hold := 0 }) := by
  obtain ⟨h1, h2, h3⟩ := hm
  rw [runStages_of_usable h]
  simp only [Nat.zero_mul, Nat.zero_add, Nat.div_eq_of_lt h1, Nat.mod_eq_of_lt h1, Nat.zero_div, Nat.div_eq_of_lt h2,
    Nat.mod_eq_of_lt h2, Nat.div_eq_of_lt h3, Nat.mod_eq_of_lt h3]

/-! ### Totals (R69) -/

/-- The batch after an increment whose sums fit their formats. -/
def Batch.taken (b : Batch) (r : SampleResult) : Batch :=
  { b with
    raw := b.raw + r.raw
    gross := b.gross + r.gross
    net := b.net + r.net
    weightBase := b.weightBase + r.gross
    tempWeight := b.tempWeight + r.temp * r.gross
    exceptions := if r.vcfClamp then setExc .vcfClamp b.exceptions else b.exceptions }

theorem addIncrements_of_fit {b : Batch} {r : SampleResult} (h : b.incrementsFit r = true) (k : Nat) : b.addIncrements r k =
    { b with
      raw := b.raw + r.raw, gross := b.gross + r.gross, net := b.net + r.net, weightBase := b.weightBase + r.gross
      tempWeight := b.tempWeight + r.temp * r.gross } := by
  simp only [Batch.incrementsFit, Bool.and_eq_true] at h
  obtain ⟨⟨⟨⟨hraw, hgross⟩, hnet⟩, hbase⟩, hweight⟩ := h
  simp only [Batch.addIncrements, hraw, hgross, hnet, hbase, hweight, if_true]

theorem addResult_of_fit {s : State} {n : Arm} {b : Batch} {r : SampleResult} (hb : s.holder n = some b)
    (hfit : b.incrementsFit r = true) (hheld : r.tempHeld = false) : s.addResult n b r = s.heldBy n (b.taken r) := by
  have hadd : (s.modBatch n fun b => b.addIncrements r s.free) = s.heldBy n (b.addIncrements r s.free) := modBatch_eq_heldBy hb _
  rw [State.addResult, hadd, addIncrements_of_fit hfit]
  simp only [hfit, hheld, if_true, Bool.false_eq_true, if_false, State.setBatchExc, modBatch_heldBy, Batch.taken]
  cases r.vcfClamp <;> rfl

/-! ### The increment where there are no schedules -/

theorem passIncrement_of_none {s : State} {n : Arm} (h : s.schedules n = []) (e : ArmEntry) (gross : Nat) :
    s.passIncrement n e gross = s := by
  rw [State.passIncrement, h]
  rfl

theorem leaveFlowing_of_none {s : State} {n : Arm} (h : s.schedules n = []) : s.leaveFlowing n = s := by
  rw [State.leaveFlowing, h]
  rfl

theorem setDesired_additive (s : State) (n : Arm) (st : Stage) : (s.setDesired n st).additive = s.additive := by
  unfold State.setDesired
  split <;> rfl

theorem setBatchState_additive (s : State) (n : Arm) (st : BatchState) : (s.setBatchState n st).additive = s.additive := by
  unfold State.setBatchState
  split
  · rfl
  · exact setDesired_additive ..

theorem enterStopping_additive {s : State} {n : Arm} (h : s.schedules n = []) (r : StopReason) :
    (s.enterStopping n r).additive = s.additive := by
  have hbefore : ((((s.modBatch n fun b => { b with stopReason := some r, noFlowTimer := none }).setBatchState n
      .stopping).startStopTimerIfLost n).additive) = s.additive := by
    unfold State.startStopTimerIfLost
    split
    · exact setBatchState_additive ..
    · exact setBatchState_additive ..
  have hnone : State.schedules (((s.modBatch n fun b => { b with stopReason := some r, noFlowTimer := none }).setBatchState n
      .stopping).startStopTimerIfLost n) n = [] := by
    rw [State.schedules, hbefore]
    exact h
  rw [State.enterStopping, leaveFlowing_of_none hnone, hbefore]

theorem haltBatch_additive {s : State} {n : Arm} (h : s.schedules n = []) (r : StopReason) : (s.haltBatch n r).additive = s.additive := by
  unfold State.haltBatch
  split
  · exact enterStopping_additive (s := s.modBatch n fun b => b.clearCounts r) h r
  · rfl

/-! ### The sample (R56, R69, R84) -/

/-- A sample of an arm whose batch is measured runs the stages and reaches the batch. -/
theorem takeSample_measured {s : State} {n : Arm} {e : ArmEntry} {b : Batch} (h : (s.metering n).history = .tracking)
    (hb : s.holder n = some b) (hm : b.state.measured = true) {pulses : BitVec 32} {interval : Nat} {valid : Bool} {reading : Int}
    {r : SampleResult} {m : Metering} (hrun : runStages e (s.alphaOf b) s.batch.settings.tref { s.metering n with lastPulses := pulses }
      (if e.maxPulses < pulseDelta pulses (s.metering n).lastPulses then 0 else pulseDelta pulses (s.metering n).lastPulses)
      (decide (e.maxPulses < pulseDelta pulses (s.metering n).lastPulses)) interval valid reading = (r, m)) :
    s.takeSample n e pulses interval valid reading = (s.setMetering n m).takeResult n e b r := by
  have hsome : (s.holder n).filter (fun b => b.state.measured) = some b := by rw [hb]; simp [hm]
  unfold State.takeSample
  dsimp only
  split
  case h_1 hfresh => exact nomatch hfresh.symm.trans h
  case h_2 =>
    rw [hsome]
    simp only [decide_eq_true_eq, hrun]

theorem flowing_iff {st : BatchState} : st.flowing = true ↔ st = .startup ∨ st = .full ∨ st = .topoff := by
  cases st <;> simp [BatchState.flowing]

/-- A result whose sums fit, at a batch in STARTUP, FULL or TOPOFF. -/
theorem takeResult_flowing {s : State} {n : Arm} {e : ArmEntry} {b : Batch} {r : SampleResult} (hb : s.holder n = some b)
    (hfit : b.incrementsFit r = true) (hheld : r.tempHeld = false) (hflow : b.state.flowing = true) : s.takeResult n e b r =
      (((s.heldBy n (b.taken r)).decide n e (b.taken r) r).feedNoFlow n r.pulses e.leak).passIncrement n e r.gross := by
  rw [State.takeResult, addResult_of_fit hb hfit hheld, holder_heldBy]
  dsimp only
  rcases flowing_iff.mp hflow with hst | hst | hst <;> rw [hst]

theorem feedNoFlow_of_stopped {s : State} {n : Arm} {b : Batch} (hb : s.holder n = some b) (h : b.state.flowing = false)
    (pulses leak : Nat) : s.feedNoFlow n pulses leak = s := by
  rw [State.feedNoFlow, hb]
  exact if_neg fun hflow => by
    rw [Option.any_some, h] at hflow
    exact Bool.false_ne_true hflow.2.2

end Sys2Proof.Machine
end

section
/-! PROOF. A meter sample of a batch that flows, and one that ends its flow (R57 to R69, R76, R84 to R88). -/

namespace Sys2Proof.Machine

/-- The state of no meter changes when one that is ONLINE has been polled. -/
theorem polled_meterOnline {s : State} {i : DevIx} {d : Device} (hd : s.device i = some d) (n : Arm) :
    (s.polled i d).meterOnline n = s.meterOnline n := by
  have hof : ∀ j, ((s.polled i d).deviceOfKind j .meter).any (fun d => d.state = .online) =
      (s.deviceOfKind j .meter).any fun d => d.state = .online := fun j => by
    rw [State.deviceOfKind, State.deviceOfKind, polled_device]
    split
    case isTrue h =>
      subst h
      rw [hd]
      by_cases hk : d.kind = .meter <;> simp [hk]
    case isFalse => cases s.device j <;> simp [Option.filter, apply_ite]
  have hentry : (s.polled i d).armEntry n = s.armEntry n := rfl
  rw [State.meterOnline, State.meterOnline, hentry]
  simp only [hof]

/-! ### Decisions (R84) -/

section Decided

variable {s : State} {n : Arm} {e : ArmEntry} {b : Batch} {r : SampleResult}

theorem decide_of_fault (h : r.pulseFault = true) : s.decide n e b r = s.haltBatch n .pulseFault := if_pos h

theorem decide_of_lead (hp : r.pulseFault = false) (hx : r.holdExhausted = false) (hl : s.atStopLead n b = true) :
    s.decide n e b r = s.enterStopping n .preset := by
  rw [State.decide, hp, hx, if_neg Bool.false_ne_true, if_neg Bool.false_ne_true, if_pos hl]

/-- A FULL batch that is neither near its end nor too fast has its overspeed count back at 0. -/
theorem decide_of_full (hp : r.pulseFault = false) (hx : r.holdExhausted = false) (hl : s.atStopLead n b = false)
    (hst : b.state = .full) (hs : b.remainingWithin e.slowdown = false) (hd : b.degraded = false) (hr : r.rate ≤ e.maxFlow) :
    s.decide n e b r = s.modBatch n fun b => { b with overspeed := 0 } := by
  rw [State.decide, hp, hx, hl, hst]
  simp only [Bool.false_eq_true, if_false, hs, hd]
  exact if_pos hr

end Decided

/-- The no-flow timer after a sample of a flowing batch (R86). -/
theorem feedNoFlow_heldBy {s : State} {n : Arm} {b : Batch} (h : b.state.flowing = true) (pulses leak : Nat) :
    (s.heldBy n b).feedNoFlow n pulses leak = s.heldBy n { b with
      noFlowTimer := if leak < pulses ∧ ((s.arm n).reported = some .low ∨ (s.arm n).reported = some .high) then
        some s.batch.settings.noFlowTimeout else b.noFlowTimer } := by
  have hopen : (s.heldBy n b).reportsOpen n = true ↔ (s.arm n).reported = some .low ∨ (s.arm n).reported = some .high := by
    rw [State.reportsOpen, arm_heldBy_self]
    simp only [Bool.or_eq_true, decide_eq_true_eq]
  have hflow : ((s.heldBy n b).holder n).any (fun b => b.state.flowing) = true := by rw [holder_heldBy]; exact h
  have hiff : (leak < pulses ∧ (s.heldBy n b).reportsOpen n = true ∧ ((s.heldBy n b).holder n).any (fun b => b.state.flowing) = true) ↔
      leak < pulses ∧ ((s.arm n).reported = some .low ∨ (s.arm n).reported = some .high) :=
    and_congr_right fun _ => ⟨fun h => hopen.mp h.1, fun h => ⟨hopen.mpr h, hflow⟩⟩
  rw [State.feedNoFlow]
  by_cases hfed : leak < pulses ∧ ((s.arm n).reported = some .low ∨ (s.arm n).reported = some .high)
  · rw [if_pos (hiff.mpr hfed), if_pos hfed, State.startNoFlowTimer, modBatch_heldBy]
    rfl
  · rw [if_neg (mt hiff.mp hfed), if_neg hfed]

/-- Sums that fit, as the statements give them. -/
theorem incrementsFit_of {b : Batch} {r : SampleResult} (hraw : b.raw + r.raw < 2 ^ 48) (hgross : b.gross + r.gross < 2 ^ 48)
    (hnet : b.net + r.net < 2 ^ 48) (hbase : b.weightBase + r.gross < 2 ^ 48) (hlow : -(2 ^ 63) ≤ b.tempWeight + r.temp * r.gross)
    (hhigh : b.tempWeight + r.temp * r.gross < 2 ^ 63) : b.incrementsFit r = true := by
  simp only [Batch.incrementsFit, fits48, fits64, Bool.and_eq_true, decide_eq_true_eq]
  exact ⟨⟨⟨⟨hraw, hgross⟩, hnet⟩, hbase⟩, hlow, hhigh⟩

theorem alphaOf_of_product {s : State} {b : Batch} {x : Product} (h : s.product b.product = some x) : s.alphaOf b = x.alpha := by
  rw [State.alphaOf, h]
  rfl

/-- A sample of a measured batch: the result of the stages reaches it. -/
theorem exec_meterSample_measured {s : State} {t : Transaction} {d : Device} {n : Arm} {e : ArmEntry} {b : Batch} {x : Product}
    (haw : s.AwaitsOnline t d) (hstep : t.step = .scan) (htel : t.telegram = .poll) (hk : d.kind = .meter) (ha : d.assoc = .arm n)
    (he : s.armEntry n = some e) (hm : e.meter = t.device) (hb : s.holder n = some b) (hst : b.state.measured = true)
    (hx : s.product b.product = some x) (htrack : (s.metering n).history = .tracking) {pulses : BitVec 32}
    {interval temperature : BitVec 16} {flags : Byte} (hfault : flags.getLsbD 1 = false) {r : SampleResult} {m : Metering}
    (hrun : runStages e x.alpha s.batch.settings.tref { s.metering n with lastPulses := pulses }
      (if e.maxPulses < (pulses - (s.metering n).lastPulses).toNat then 0 else (pulses - (s.metering n).lastPulses).toNat)
      (decide (e.maxPulses < (pulses - (s.metering n).lastPulses).toNat)) interval.toNat (flags.getLsbD 0) temperature.toInt = (r, m)) :
    exec (.meterSample pulses interval temperature flags) s =
      .next (((s.polled t.device d).setMetering n m).takeResult n e b r).settle := by
  rw [← alphaOf_of_product (s := s.polled t.device d) hx] at hrun
  have htaken := takeSample_measured (s := s.polled t.device d) htrack hb hst hrun
  exact (exec_meterSample haw hstep htel hk pulses interval temperature ha he hm hfault).trans
    (congrArg (fun v => Host.Outcome.next (State.settle v)) htaken)

theorem atStopLead_eq_false {s : State} {n : Arm} {b : Batch}
    (h : (((s.arm n).stopLead.getD 0 : Nat) : Int) * 100000 < b.remaining) : s.atStopLead n b = false :=
  decide_eq_false (Int.not_le.mpr h)

theorem taken_state (b : Batch) (r : SampleResult) : (b.taken r).state = b.state := rfl

theorem taken_remaining (b : Batch) (r : SampleResult) :
    (b.taken r).remaining = (b.preset : Int) * 1000000 - ((b.gross + r.gross : Nat) : Int) := rfl

section Full

variable {w : State} {n : Arm} {e : ArmEntry} {b : Batch} {r : SampleResult} (hb : w.holder n = some b) (hst : b.state = .full)
  (hdeg : b.degraded = false) (hsch : w.schedules n = []) (hfit : b.incrementsFit r = true) (hheld : r.tempHeld = false)
  (hp : r.pulseFault = false) (hx : r.holdExhausted = false) (hrate : r.rate ≤ e.maxFlow)
  (hlead : (((w.arm n).stopLead.getD 0 : Nat) : Int) * 100000 < (b.preset : Int) * 1000000 - ((b.gross + r.gross : Nat) : Int))
  (hslow : (e.slowdown : Int) * 1000000 < (b.preset : Int) * 1000000 - ((b.gross + r.gross : Nat) : Int))

include hb hst hdeg hsch hfit hheld hp hx hrate hlead hslow

/-- A FULL batch that stays FULL takes the increment, and its overspeed count and no-flow timer follow. -/
theorem takeResult_stays_full : w.takeResult n e b r = w.heldBy n { b with
      raw := b.raw + r.raw, gross := b.gross + r.gross, net := b.net + r.net, weightBase := b.weightBase + r.gross
      tempWeight := b.tempWeight + r.temp * r.gross, overspeed := 0
      exceptions := if r.vcfClamp then setExc .vcfClamp b.exceptions else b.exceptions
      noFlowTimer := if e.leak < r.pulses ∧ ((w.arm n).reported = some .low ∨ (w.arm n).reported = some .high) then
        some w.batch.settings.noFlowTimeout else b.noFlowTimer } := by
  have hflow : b.state.flowing = true := by rw [hst]; rfl
  have hstop : (w.heldBy n (b.taken r)).atStopLead n (b.taken r) = false := by
    refine atStopLead_eq_false ?_
    rw [arm_heldBy_self, taken_remaining]
    exact hlead
  have hfar : (b.taken r).remainingWithin e.slowdown = false := by
    refine decide_eq_false ?_
    rw [taken_remaining]
    exact Int.not_le.mpr hslow
  have hdecide : (w.heldBy n (b.taken r)).decide n e (b.taken r) r = w.heldBy n { b.taken r with overspeed := 0 } := by
    rw [decide_of_full hp hx hstop hst hfar hdeg hrate, modBatch_heldBy]
  have hfed := feedNoFlow_heldBy (s := w) (n := n) (b := { b.taken r with overspeed := 0 }) hflow r.pulses e.leak
  rw [takeResult_flowing hb hfit hheld hflow, hdecide, hfed]
  exact passIncrement_of_none (s := w.heldBy n _) hsch e r.gross

end Full

/-- Settles O39: the stages, the totals, and the decision of a FULL batch that stays FULL. -/
theorem meterSampleFlowing : Obligations.MeterSampleFlowing := by
  refine fun pulses interval temperature flags s t d n e b x hs haw hstep htel hk ha he hm hb hst hdeg hx hsch htrack hvalid hfault
    hcold hwarm => ?_
  intro m delta raw rate gross factor net remaining hmax hrate hlead hslow hraw48 hgross48 hnet48 hbase48 hlow64 hhigh64 u
  have husable : tempUsable (flags.getLsbD 0) temperature.toInt = true := (tempUsable_iff ..).mpr ⟨hvalid, hcold, hwarm⟩
  have hnofault : ¬ e.maxPulses < delta := Nat.not_lt.mpr hmax
  let r : SampleResult := ⟨delta, raw, gross, net, rate, temperature.toInt, false, false, false, false,
    vcfClamped x.alpha temperature.toInt s.batch.settings.tref⟩
  let m2 : Metering := ⟨.tracking, pulses, some temperature.toInt, 0, (delta * 1000000000 + m.r1) % e.km,
    (raw * meterFactor rate e.curve + m.r2) % 100000, (gross * factor + m.r3) % 100000, m.unauthorised⟩
  have hrun : runStages e x.alpha s.batch.settings.tref { m with lastPulses := pulses } (if e.maxPulses < delta then 0 else delta)
      (decide (e.maxPulses < delta)) interval.toNat (flags.getLsbD 0) temperature.toInt = (r, m2) := by
    rw [if_neg hnofault, decide_eq_false hnofault, runStages_of_usable husable]
    simp only [r, m2, ← htrack]
    rfl
  have hexec := exec_meterSample_measured haw hstep htel hk ha he hm hb (by rw [hst]; rfl) hx htrack hfault hrun
  have hfit : b.incrementsFit r = true := incrementsFit_of hraw48 hgross48 hnet48 hbase48 hlow64 hhigh64
  exact hexec.trans (congrArg (fun v => Host.Outcome.next (State.settle v)) (takeResult_stays_full (w := u.setMetering n m2) hb hst
    hdeg hsch hfit rfl rfl rfl hrate hlead hslow))

section Ended

variable {w : State} {n : Arm} {e : ArmEntry} {b : Batch} {r : SampleResult} (hb : w.holder n = some b)
  (hflow : b.state.flowing = true) (hsch : w.schedules n = []) (hfit : b.incrementsFit r = true) (hheld : r.tempHeld = false)

theorem haltable_of_flowing {st : BatchState} (h : st.flowing = true) : st.haltable = true := by
  rcases flowing_iff.mp h with h | h | h <;> rw [h] <;> rfl

include hb hflow hsch hfit hheld

/-- A pulse fault halts the batch (R58, R84, R88). -/
theorem takeResult_faults (hp : r.pulseFault = true) :
    w.takeResult n e b r = (w.heldBy n (b.taken r)).haltBatch n .pulseFault := by
  have hhalt : (b.taken r).state.haltable = true := haltable_of_flowing hflow
  have harm := haltBatch_arm_self (holder_heldBy w n (b.taken r)) hhalt .pulseFault
  have hholder : ((w.heldBy n (b.taken r)).haltBatch n .pulseFault).holder n =
      some ((w.heldBy n (b.taken r)).haltedBatch n .pulseFault (b.taken r)) := by
    rw [State.holder, harm, State.haltedArm, want_holder]
  rw [takeResult_flowing hb hfit hheld hflow, decide_of_fault hp, feedNoFlow_of_stopped hholder rfl]
  refine passIncrement_of_none ?_ ..
  rw [State.schedules, haltBatch_additive (s := w.heldBy n (b.taken r)) hsch]
  exact hsch

/-- A batch at its stop lead goes to STOPPING (R84). -/
theorem takeResult_ends (hp : r.pulseFault = false) (hx : r.holdExhausted = false)
    (hlead : (b.preset : Int) * 1000000 - ((b.gross + r.gross : Nat) : Int) ≤ (((w.arm n).stopLead.getD 0 : Nat) : Int) * 100000) :
    w.takeResult n e b r = (w.heldBy n (b.taken r)).enterStopping n .preset := by
  have hstop : (w.heldBy n (b.taken r)).atStopLead n (b.taken r) = true := by
    refine decide_eq_true ?_
    rw [arm_heldBy_self, taken_remaining]
    exact hlead
  have harm := (arm_of_sans (enterStopping_sans (holder_heldBy w n (b.taken r)) .preset) n).trans (arm_setArm_self ..)
  have hholder : ((w.heldBy n (b.taken r)).enterStopping n .preset).holder n =
      some ((w.heldBy n (b.taken r)).stopped n .preset (b.taken r)) := by
    rw [State.holder, harm, want_holder]
  rw [takeResult_flowing hb hfit hheld hflow, decide_of_lead hp hx hstop, feedNoFlow_of_stopped hholder rfl]
  refine passIncrement_of_none ?_ ..
  rw [State.schedules, enterStopping_additive (s := w.heldBy n (b.taken r)) hsch]
  exact hsch

end Ended

/-- The batch after a pulse fault that brings no volume. -/
theorem haltedBatch_taken (w : State) (n : Arm) (b : Batch) {r : SampleResult} (hraw : r.raw = 0) (hgross : r.gross = 0)
    (hnet : r.net = 0) : w.haltedBatch n .pulseFault (b.taken r) = { b with
      state := .stopping, noFlowTimer := none
      exceptions := if r.vcfClamp then setExc .vcfClamp b.exceptions else b.exceptions
      stopTimer := if w.meterOnline n then b.stopTimer else some w.batch.settings.noFlowTimeout
      stopReason := some .pulseFault, noFlow := 0, overspeed := 0 } := by
  simp only [State.haltedBatch, State.stopped, Batch.clearCounts, Batch.taken, hraw, hgross, hnet, Nat.add_zero, Int.natCast_zero,
    Int.mul_zero, Int.add_zero]
  rfl

/-- The batch after the increment that brings it to its stop lead. -/
theorem stopped_taken (w : State) (n : Arm) (b : Batch) (r : SampleResult) : w.stopped n .preset (b.taken r) = { b with
    state := .stopping, noFlowTimer := none
    exceptions := if r.vcfClamp then setExc .vcfClamp b.exceptions else b.exceptions
    stopTimer := if w.meterOnline n then b.stopTimer else some w.batch.settings.noFlowTimeout
    stopReason := some .preset, raw := b.raw + r.raw, gross := b.gross + r.gross, net := b.net + r.net
    weightBase := b.weightBase + r.gross, tempWeight := b.tempWeight + r.temp * r.gross } := rfl

/-- Settles O40: the pulse fault by the halt, the last increment by the entry to STOPPING. -/
theorem sampleEndsFlow : Obligations.SampleEndsFlow := by
  refine fun pulses interval temperature flags s t d n e b x hs haw hstep htel hk ha he hm hb hflow hx hsch htrack hrange hvalid
    hfault hcold hwarm => ?_
  intro m delta raw rate gross net fits clamp stopped
  have husable : tempUsable (flags.getLsbD 0) temperature.toInt = true := (tempUsable_iff ..).mpr ⟨hvalid, hcold, hwarm⟩
  have hmeasured : b.state.measured = true := by
    rcases flowing_iff.mp hflow with h | h | h <;> rw [h] <;> rfl
  have hdev : s.device t.device = some d := haw.1.2.2.2.2
  let u := s.polled t.device d
  have honline : ∀ m2, (u.setMetering n m2).meterOnline n = s.meterOnline n := fun _ => polled_meterOnline hdev n
  have honline' : ∀ m2 c, ((u.setMetering n m2).heldBy n c).meterOnline n = s.meterOnline n := fun m2 _ => honline m2
  refine ⟨fun hover hfits => ?fault, fun hmax hfits hlead => ?preset⟩
  case fault =>
    let r : SampleResult := ⟨0, 0, 0, 0, 0, temperature.toInt, true, false, false, false,
      vcfClamped x.alpha temperature.toInt s.batch.settings.tref⟩
    let m2 : Metering := { m with lastPulses := pulses, lastTemp := some temperature.toInt, hold := 0 }
    have hrun : runStages e x.alpha s.batch.settings.tref { m with lastPulses := pulses } (if e.maxPulses < delta then 0 else delta)
        (decide (e.maxPulses < delta)) interval.toNat (flags.getLsbD 0) temperature.toInt = (r, m2) := by
      rw [if_pos hover, decide_eq_true hover]
      exact runStages_of_no_pulses husable (m := { m with lastPulses := pulses }) hrange ..
    obtain ⟨hraw48, hgross48, hnet48, hbase48, hlow64, hhigh64⟩ := hfits
    have hfit : b.incrementsFit r = true := incrementsFit_of hraw48 hgross48 hnet48 hbase48 hlow64 hhigh64
    have hexec := exec_meterSample_measured haw hstep htel hk ha he hm hb hmeasured hx htrack hfault hrun
    let w : State := u.setMetering n m2
    let h : State := w.heldBy n (b.taken r)
    rw [takeResult_faults (w := w) hb hflow hsch hfit rfl rfl] at hexec
    have hhalt : (b.taken r).state.haltable = true := haltable_of_flowing (taken_state b r ▸ hflow)
    have hholder := holder_heldBy w n (b.taken r)
    have harm := haltBatch_arm_self hholder hhalt .pulseFault
    refine ⟨_, hexec, ?_, ?_, haltBatch_port hholder hhalt .pulseFault, ?_, fun k hk => ⟨?_, ?_⟩⟩
    · have hbatch := haltedBatch_taken h n b (r := r) rfl rfl rfl
      rw [State.holder, harm, State.haltedArm, want_holder, hbatch, honline' m2 _]
      rfl
    · rw [harm, State.haltedArm, want_desired]
    · rw [(haltBatch_same ..).metering]
      exact metering_setMetering_self ..
    · exact (haltBatch_arm_other _ hk _).trans (arm_heldBy_other w n _ hk)
    · rw [(haltBatch_same ..).metering]
      exact metering_setMetering_other (s := u) hk _
  case preset =>
    let r : SampleResult := ⟨delta, raw, gross, net, rate, temperature.toInt, false, false, false, false,
      vcfClamped x.alpha temperature.toInt s.batch.settings.tref⟩
    have hnofault : ¬ e.maxPulses < delta := Nat.not_lt.mpr hmax
    obtain ⟨m2, hrun, hlast⟩ : ∃ m2 : Metering, runStages e x.alpha s.batch.settings.tref { m with lastPulses := pulses }
        (if e.maxPulses < delta then 0 else delta) (decide (e.maxPulses < delta)) interval.toNat (flags.getLsbD 0)
        temperature.toInt = (r, m2) ∧ m2.lastPulses = pulses := by
      rw [if_neg hnofault, decide_eq_false hnofault, runStages_of_usable husable]
      exact ⟨_, rfl, rfl⟩
    obtain ⟨hraw48, hgross48, hnet48, hbase48, hlow64, hhigh64⟩ := hfits
    have hfit : b.incrementsFit r = true := incrementsFit_of hraw48 hgross48 hnet48 hbase48 hlow64 hhigh64
    have hexec := exec_meterSample_measured haw hstep htel hk ha he hm hb hmeasured hx htrack hfault hrun
    let w : State := u.setMetering n m2
    let h : State := w.heldBy n (b.taken r)
    rw [takeResult_ends (w := w) hb hflow hsch hfit rfl rfl rfl hlead] at hexec
    have hsans := enterStopping_sans (holder_heldBy w n (b.taken r)) .preset
    have hsame : SameBay h (h.enterStopping n .preset) := (setArm_same ..).trans (.of_sans hsans)
    have harm := (arm_of_sans hsans n).trans (arm_setArm_self ..)
    refine ⟨_, hexec, ?_, ?_, ?_, ?_, fun k hk => ⟨?_, ?_⟩⟩
    · rw [State.holder, harm, want_holder, stopped_taken, honline' m2 _]
      rfl
    · rw [harm, want_desired]
    · exact (port_of_sans hsans).trans rfl
    · rw [hsame.metering]
      exact (congrArg Metering.lastPulses (metering_setMetering_self ..)).trans hlast
    · exact (arm_of_sans hsans k).trans ((arm_setArm_other _ hk _).trans (arm_heldBy_other w n _ hk))
    · rw [hsame.metering]
      exact metering_setMetering_other (s := u) hk _

end Sys2Proof.Machine
end

section
/-! PROOF. What the end of a batch leaves: HALTED, DONE, and the lane with one batch fewer (R89, R96, R97, R109, R118, R126, R144 to
R146). -/

namespace Sys2Proof.Machine

/-! ### States that differ in the scanner and the additive scheduler alone -/

/-- The states agree but for the additive scheduler's records, the scanner and the free-value counter. -/
def State.SameCore (s t : State) : Prop := ∃ a c k, t = { s with additive := a, scan := c, free := k }

theorem State.SameCore.refl (s : State) : State.SameCore s s := ⟨_, _, _, rfl⟩

theorem State.SameCore.trans {s t u : State} (h : State.SameCore s t) (k : State.SameCore t u) : State.SameCore s u := by
  obtain ⟨_, _, _, rfl⟩ := h
  obtain ⟨_, _, _, rfl⟩ := k
  exact ⟨_, _, _, rfl⟩

theorem State.SameCore.symm {s t : State} (h : State.SameCore s t) : State.SameCore t s := by
  obtain ⟨_, _, _, rfl⟩ := h
  exact ⟨s.additive, s.scan, s.free, rfl⟩

theorem State.SameCore.of_sans {s t : State} (h : t.sansAdditive = s.sansAdditive) : State.SameCore s t := by
  refine ⟨t.additive, t.scan, t.free, ?_⟩
  rw [← pads_of_sans h, ← port_of_sans h, ← time_of_sans h, ← permits_of_sans h, ← load_of_sans h, ← batch_of_sans h,
    ← meter_of_sans h, ← note_of_sans h, ← pending_of_sans h]

theorem post_core (s : State) (l : Lane) (c : DisplayCode) : State.SameCore s (s.post l c) := ⟨_, _, _, post_eq s l c⟩

section Core

variable {s t : State} (h : State.SameCore s t)

include h

theorem State.SameCore.batch : t.batch = s.batch := by
  obtain ⟨_, _, _, rfl⟩ := h
  rfl

theorem State.SameCore.arm (n : Arm) : t.arm n = s.arm n := by
  obtain ⟨_, _, _, rfl⟩ := h
  rfl

theorem State.SameCore.holder (n : Arm) : t.holder n = s.holder n := by
  obtain ⟨_, _, _, rfl⟩ := h
  rfl

theorem State.SameCore.load : t.load = s.load := by
  obtain ⟨_, _, _, rfl⟩ := h
  rfl

theorem State.SameCore.lane (l : Lane) : t.lane l = s.lane l := by
  obtain ⟨_, _, _, rfl⟩ := h
  rfl

theorem State.SameCore.port : t.port = s.port := by
  obtain ⟨_, _, _, rfl⟩ := h
  rfl

theorem State.SameCore.permits : t.permits = s.permits := by
  obtain ⟨_, _, _, rfl⟩ := h
  rfl

theorem State.SameCore.note : t.note = s.note := by
  obtain ⟨_, _, _, rfl⟩ := h
  rfl

theorem State.SameCore.setArm (n : Arm) (r : ArmRec) : State.SameCore (s.setArm n r) (t.setArm n r) := by
  obtain ⟨_, _, _, rfl⟩ := h
  exact ⟨_, _, _, rfl⟩

theorem State.SameCore.modEntry (l : Lane) (comp : Nat) (f : CompEntry → CompEntry) :
    State.SameCore (s.modEntry l comp f) (t.modEntry l comp f) := by
  obtain ⟨_, _, _, rfl⟩ := h
  exact ⟨_, _, _, rfl⟩

end Core

theorem setDesired_core (s : State) (n : Arm) (st : Stage) :
    State.SameCore (s.setArm n ((s.arm n).want st s.batch.settings.noFlowTimeout)) (s.setDesired n st) :=
  .of_sans (setDesired_sans s n st)

theorem setBatchState_core {s : State} {n : Arm} {b : Batch} (h : s.holder n = some b) (st : BatchState) :
    State.SameCore (s.setArm n (ArmRec.want { s.arm n with holder := some { b with state := st } }
      (desiredFor st b.degraded) s.batch.settings.noFlowTimeout)) (s.setBatchState n st) :=
  .of_sans (setBatchState_sans h st)

/-! ### HALTED (R89) -/

/-- The batch as it enters HALTED. -/
def Batch.halt (b : Batch) : Batch := { b with state := .halted, stopTimer := none, exceptions := setExc .halted b.exceptions }

theorem enterHalted_core {s : State} {n : Arm} {b : Batch} (h : s.holder n = some b) : State.SameCore
    ((s.setArm n { (s.arm n).want .closed s.batch.settings.noFlowTimeout with holder := some b.halt }).reportHalted b.lane b.compartment)
    (s.enterHalted n b) := by
  have hset := setBatchState_core h .halted
  have hholder : (s.setBatchState n .halted).holder n = some { b with state := .halted } := by
    rw [hset.holder, holder_setArm_self, want_holder]
  have harm : (s.setBatchState n .halted).arm n = ArmRec.want { s.arm n with holder := some { b with state := .halted } } .closed
      s.batch.settings.noFlowTimeout := by
    rw [hset.arm, arm_setArm_self]
    rfl
  have hwritten : State.SameCore (s.setArm n { (s.arm n).want .closed s.batch.settings.noFlowTimeout with holder := some b.halt })
      ((s.setBatchState n .halted).modBatch n fun b => { b with stopTimer := none, exceptions := setExc .halted b.exceptions }) := by
    rw [modBatch_of_holder hholder, harm, want_holder_update]
    have hover := hset.setArm n (ArmRec.want { s.arm n with holder := some b.halt } .closed s.batch.settings.noFlowTimeout)
    rw [setArm_setArm] at hover
    rw [want_holder_update]
    exact hover
  exact (hwritten.modEntry ..).trans (post_core ..)

/-! ### DONE (R96, R97, R109, R118) -/

/-- The arm's stop lead after learning (R97). -/
def State.leadAfter (s : State) (n : Arm) (b : Batch) : Option Nat :=
  match s.armEntry n with
  | none => (s.arm n).stopLead
  | some e =>
    if b.teaches then (s.arm n).stopLead.map fun lead => learnedLead lead (toDl b.gross) b.preset e.leadMin e.leadMax
    else (s.arm n).stopLead

theorem learnLead_eq (s : State) (n : Arm) (b : Batch) :
    s.learnLead n b = s.setArm n { s.arm n with stopLead := s.leadAfter n b } := by
  rw [State.learnLead, State.leadAfter]
  cases s.armEntry n with
  | none => exact (setArm_arm s n).symm
  | some e =>
    dsimp only
    split
    · rfl
    · exact (setArm_arm s n).symm

/-- The permits after the gross dL is charged to the permit of the lane's load (R126). -/
def State.chargedFor (s : State) (l : Lane) (dl : Nat) : List Permit :=
  (s.lane l).load.elim s.permits fun x => s.permits.map fun q => if q.card = x.card then q.charge s.today dl else q

theorem chargeLoad_eq (s : State) (l : Lane) (dl : Nat) : s.chargeLoad l dl = { s with permits := s.chargedFor l dl } := by
  unfold State.chargeLoad State.chargedFor
  cases (s.lane l).load <;> rfl

/-- The results of the batch's schedules (R118). -/
def State.results (s : State) (n : Arm) (b : Batch) : List AddResult := (s.schedules n).map fun c => c.result b.gross

/-- The lane after the batch's result has reached its load (R96 step 4, R148). -/
def State.resultLane (s : State) (n : Arm) (b : Batch) : LaneRec :=
  { s.lane b.lane with
    slot := (s.lane b.lane).slot.filter fun x => x.target ≠ .arm n
    load := (s.lane b.lane).load.map fun x => x.modEntry b.compartment fun e =>
      e.result n (b.noteShort (s.results n b)) (s.results n b) }

/-- The arm after its release (R96 step 9, R97). -/
def State.releasedArm (s : State) (n : Arm) (b : Batch) : ArmRec :=
  { (s.arm n).want .closed s.batch.settings.noFlowTimeout with
    holder := none, excess := 0, stopLead := s.leadAfter n (b.noteShort (s.results n b)) }

/-- The state after R96 steps 1 to 9, before the pending starts are served. -/
def State.released (s : State) (n : Arm) (b0 : Batch) : State :=
  let s1 := ((s.setBatchState n .done).modBatch n Batch.stopTimers).armTargetGone b0.lane n
  let b := b0.noteShort (s.results n b0)
  let s2 := (s1.closeSchedules n).modEntry b0.lane b.compartment fun e => e.result n b (s.results n b0)
  let s3 := (s2.chargeLoad b0.lane (toDl b.gross)).learnLead n b
  ((s3.raiseNotice .batchDone (.arm n) (stopCode b.stopReason)).post b0.lane .complete).releaseArm n

theorem batchDone_eq {s : State} {n : Arm} {b : Batch} (h : s.holder n = some b) :
    s.batchDone n = ((s.released n b).serveStarts n ((s.released n b).arm n).starts).oneFewer b.lane := by
  rw [State.batchDone, h]
  rfl

theorem noteShort_frame (b : Batch) (rs : List AddResult) : b.noteShort rs = { b with exceptions := (b.noteShort rs).exceptions } := by
  unfold Batch.noteShort
  split <;> rfl

theorem releaseArm_of_closed {s : State} {n : Arm} (h : (s.arm n).desired = .closed) :
    s.releaseArm n = s.setArm n { s.arm n with holder := none, excess := 0 } :=
  setDesired_of_desired (by rw [arm_setArm_self]; exact h)

/-! The states that R96 passes through: the arm, the lane's record and the permits, all else as it was. -/

/-- The state with another arm record, lane record and permit table. -/
def State.put (s : State) (n : Arm) (r : ArmRec) (l : Lane) (x : LaneRec) (ps : List Permit) : State :=
  { s with
    permits := ps
    load := { s.load with lanes := s.load.lanes.set l x }
    batch := { s.batch with arms := s.batch.arms.set n r } }

section Put

variable (s : State) (n : Arm) (r : ArmRec) (l : Lane) (x : LaneRec) (ps : List Permit)

@[simp] theorem put_arm_self : (s.put n r l x ps).arm n = r := by simp [State.put, State.arm]

theorem put_arm_other {m : Arm} (h : m ≠ n) : (s.put n r l x ps).arm m = s.arm m := arm_setArm_other s h r

@[simp] theorem put_lane_self : (s.put n r l x ps).lane l = x := lanes_get_set_self ..

theorem put_lane_other {k : Lane} (h : k ≠ l) : (s.put n r l x ps).lane k = s.lane k := lane_setLane_other s h x

@[simp] theorem setArm_put (q : ArmRec) : (s.put n r l x ps).setArm n q = s.put n q l x ps := by
  simp only [State.put, State.setArm, Vector.set_set]

@[simp] theorem setLane_put (y : LaneRec) : (s.put n r l x ps).setLane l y = s.put n r l y ps := by
  simp only [State.put, State.setLane, lanes_set_set]

theorem put_setArm (h : Lane) : s.setArm n r = s.put n r h (s.lane h) s.permits := by
  have hset : s.load.lanes.set h (s.lane h) = s.load.lanes := by cases h <;> rfl
  rw [State.put, hset]
  rfl

theorem armTargetGone_put : (s.put n r l x ps).armTargetGone l n =
    s.put n r l { x with slot := x.slot.filter fun y => y.target ≠ .arm n } ps := by
  rw [State.armTargetGone, put_lane_self, setLane_put]

theorem modEntry_put (comp : Nat) (f : CompEntry → CompEntry) : (s.put n r l x ps).modEntry l comp f =
    s.put n r l { x with load := x.load.map fun y => y.modEntry comp f } ps := by
  rw [State.modEntry, put_lane_self, setLane_put]

theorem chargeLoad_put (f : Load → Load) (hf : ∀ y, (f y).card = y.card) (hx : x.load = (s.lane l).load.map f) (dl : Nat) :
    (s.put n r l x s.permits).chargeLoad l dl = s.put n r l x (s.chargedFor l dl) := by
  have hcharged : (s.put n r l x s.permits).chargedFor l dl = s.chargedFor l dl := by
    rw [State.chargedFor, State.chargedFor, put_lane_self, hx]
    cases (s.lane l).load with
    | none => rfl
    | some y =>
      simp only [Option.map_some, Option.elim_some, hf]
      rfl
  rw [chargeLoad_eq, hcharged]
  rfl

theorem learnLead_put (hr : r.stopLead = (s.arm n).stopLead) (b : Batch) :
    (s.put n r l x ps).learnLead n b = s.put n { r with stopLead := s.leadAfter n b } l x ps := by
  have hlead : (s.put n r l x ps).leadAfter n b = s.leadAfter n b := by
    unfold State.leadAfter
    rw [put_arm_self, hr]
    rfl
  rw [learnLead_eq, hlead, put_arm_self, setArm_put]

/-- A released arm among notices. -/
theorem releaseArm_put (hr : r.desired = .closed) (kind : NoticeKind) (subject : Subject) (code : Byte) :
    (State.raiseNotice (s.put n r l x ps) kind subject code).releaseArm n =
      State.raiseNotice (s.put n { r with holder := none, excess := 0 } l x ps) kind subject code := by
  have harm : (State.raiseNotice (s.put n r l x ps) kind subject code).arm n = r := put_arm_self s n r l x ps
  rw [releaseArm_of_closed (by rw [harm]; exact hr), harm, ← setArm_put s n r l x ps { r with holder := none, excess := 0 }]
  rfl

end Put

/-- A function of the state that does not look at scanner and additive scheduler. -/
theorem State.SameCore.map {s t : State} (h : State.SameCore s t) {f : State → State}
    (hf : ∀ a c k, State.SameCore (f s) (f { s with additive := a, scan := c, free := k })) : State.SameCore (f s) (f t) := by
  obtain ⟨a, c, k, rfl⟩ := h
  exact hf a c k

theorem chargeLoad_core {s t : State} (h : State.SameCore s t) (l : Lane) (dl : Nat) :
    State.SameCore (s.chargeLoad l dl) (t.chargeLoad l dl) :=
  h.map (f := fun u => u.chargeLoad l dl) fun a c k => by
    simp only [chargeLoad_eq]
    exact ⟨_, _, _, rfl⟩

theorem learnLead_core {s t : State} (h : State.SameCore s t) (n : Arm) (b : Batch) :
    State.SameCore (s.learnLead n b) (t.learnLead n b) :=
  h.map (f := fun u => u.learnLead n b) fun a c k => by
    simp only [learnLead_eq]
    exact ⟨_, _, _, rfl⟩

theorem releaseArm_core {s t : State} (h : State.SameCore s t) (n : Arm) : State.SameCore (s.releaseArm n) (t.releaseArm n) :=
  h.map (f := fun u => u.releaseArm n) fun _ _ _ =>
    (setDesired_core ..).symm.trans (State.SameCore.trans ⟨_, _, _, rfl⟩ (setDesired_core ..))


/-- The batch of the arm as its result is taken, its timers stopped (R96 steps 1 to 3). -/
theorem doneBatch_core {s : State} {n : Arm} {b : Batch} (h : s.holder n = some b) : ∃ r : ArmRec,
    State.SameCore (s.setArm n r) ((s.setBatchState n .done).modBatch n Batch.stopTimers) ∧ r.desired = .closed ∧
      r.stopLead = (s.arm n).stopLead ∧ ∀ lead, { r with holder := none, excess := 0, stopLead := lead } =
        { (s.arm n).want .closed s.batch.settings.noFlowTimeout with holder := none, excess := 0, stopLead := lead } := by
  have hset := setBatchState_core h .done
  have hholder : (s.setBatchState n .done).holder n = some { b with state := .done } := by
    rw [hset.holder, holder_setArm_self, want_holder]
  refine ⟨ArmRec.want { s.arm n with holder := some (Batch.stopTimers { b with state := .done }) } .closed
    s.batch.settings.noFlowTimeout, ?_, want_desired .., want_stopLead .., fun lead => by rw [← want_holder_update]⟩
  have harm : (s.setBatchState n .done).arm n = ArmRec.want { s.arm n with holder := some { b with state := .done } } .closed
      s.batch.settings.noFlowTimeout := by
    rw [hset.arm, arm_setArm_self]
    rfl
  rw [modBatch_of_holder hholder, harm, want_holder_update]
  have hover := hset.setArm n (ArmRec.want { s.arm n with holder := some (Batch.stopTimers { b with state := .done }) } .closed
    s.batch.settings.noFlowTimeout)
  rw [setArm_setArm] at hover
  exact hover

/-- A batch's arm released (R96 steps 4 to 9). -/
theorem released_core {s : State} {n : Arm} {b : Batch} (h : s.holder n = some b) : State.SameCore
    (State.raiseNotice (s.put n (s.releasedArm n b) b.lane (s.resultLane n b) (s.chargedFor b.lane (toDl b.gross))) .batchDone (.arm n)
      (stopCode b.stopReason)) (s.released n b) := by
  obtain ⟨r, hdone, hclosed, hlead, hreleased⟩ := doneBatch_core h
  have hframe := noteShort_frame b (s.results n b)
  have hgross : (b.noteShort (s.results n b)).gross = b.gross := by rw [hframe]
  have hcomp : (b.noteShort (s.results n b)).compartment = b.compartment := by rw [hframe]
  have hreason : (b.noteShort (s.results n b)).stopReason = b.stopReason := by rw [hframe]
  unfold State.released
  dsimp only
  rw [hgross, hcomp, hreason]
  rw [put_setArm s n r b.lane] at hdone
  have hgone := hdone.map (f := fun u => u.armTargetGone b.lane n) fun _ _ _ => ⟨_, _, _, rfl⟩
  rw [armTargetGone_put] at hgone
  have hentry := (hgone.trans (.of_sans (closeSchedules_sans _ n))).modEntry b.lane b.compartment fun e =>
    e.result n (b.noteShort (s.results n b)) (s.results n b)
  rw [modEntry_put] at hentry
  have hlearned := learnLead_core (chargeLoad_core hentry b.lane (toDl b.gross)) n (b.noteShort (s.results n b))
  rw [chargeLoad_put (f := fun y => y.modEntry b.compartment fun e => e.result n (b.noteShort (s.results n b)) (s.results n b))
    (hf := fun _ => rfl) (hx := rfl), learnLead_put (hr := hlead)] at hlearned
  have hnoticed := hlearned.map (f := fun u => u.raiseNotice .batchDone (.arm n) (stopCode b.stopReason)) fun _ _ _ => ⟨_, _, _, rfl⟩
  refine State.SameCore.trans ?_ (releaseArm_core (hnoticed.trans (post_core _ b.lane .complete)) n)
  dsimp only
  have hrelease := releaseArm_put s n { r with stopLead := s.leadAfter n (b.noteShort (s.results n b)) } b.lane (s.resultLane n b)
    (s.chargedFor b.lane (toDl b.gross)) hclosed .batchDone (.arm n) (stopCode b.stopReason)
  rw [State.releasedArm, ← hreleased]
  exact hrelease ▸ .refl _

section Released

variable {s : State} {n : Arm} {b : Batch} (h : s.holder n = some b)

include h

theorem released_arm_self : (s.released n b).arm n = s.releasedArm n b :=
  ((released_core h).arm n).trans (put_arm_self s n _ b.lane (s.resultLane n b) (s.chargedFor b.lane (toDl b.gross)))

theorem released_arm_other {m : Arm} (hm : m ≠ n) : (s.released n b).arm m = s.arm m :=
  ((released_core h).arm m).trans (put_arm_other s n _ b.lane (s.resultLane n b) (s.chargedFor b.lane (toDl b.gross)) hm)

theorem released_lane_self : (s.released n b).lane b.lane = s.resultLane n b :=
  ((released_core h).lane b.lane).trans (put_lane_self s n (s.releasedArm n b) b.lane _ (s.chargedFor b.lane (toDl b.gross)))

theorem released_lane_other {l : Lane} (hl : l ≠ b.lane) : (s.released n b).lane l = s.lane l :=
  ((released_core h).lane l).trans
    (put_lane_other s n (s.releasedArm n b) b.lane (s.resultLane n b) (s.chargedFor b.lane (toDl b.gross)) hl)

/-- The load of the batch's lane holds its result. -/
theorem released_load {x : Load} (hx : (s.lane b.lane).load = some x) :
    ((s.released n b).lane b.lane).load = some (x.modEntry b.compartment fun e =>
      e.result n (b.noteShort (s.results n b)) (s.results n b)) := by
  rw [released_lane_self h, State.resultLane, hx]
  rfl

end Released

/-! ### What is left of the additive scheduler (R109) -/

theorem issueHead_schedules (s : State) (i : DevIx) : (s.issueHead i).additive.schedules = s.additive.schedules := by
  unfold State.issueHead
  repeat' split
  all_goals rfl

theorem disown_schedules (s : State) (n : Arm) (i : DevIx) : (s.disown n i).additive.schedules = s.additive.schedules := by
  unfold State.disown
  split
  · rfl
  · split
    · exact issueHead_schedules ..
    · rfl

theorem closeSchedules_schedules (s : State) (n : Arm) :
    (s.closeSchedules n).additive.schedules = s.additive.schedules.set n [] := by
  have hfold := foldl_keeps (fun u : State => u.additive.schedules) (fun (u : State) (c : Schedule) =>
    match c.mode with
    | .shot => u.disown n c.injector
    | .stream => u.modStream c.injector fun t =>
        if t.owned ∧ (u.slot c.injector).any (fun x => x.entry.servedArm = some n) then { t with owned := false } else t)
    (fun u c => by
      split
      · exact disown_schedules ..
      · rfl) (s.schedules n) s
  unfold State.closeSchedules
  exact congrArg (fun v => v.set n []) hfold

theorem released_schedules (s : State) (n : Arm) (b : Batch) : (s.released n b).additive.schedules = s.additive.schedules.set n [] := by
  have hbefore : ∀ c : Batch, (((s.setBatchState n .done).modBatch n Batch.stopTimers).armTargetGone c.lane n).additive = s.additive :=
    fun _ => setBatchState_additive ..
  unfold State.released
  dsimp only
  rw [State.releaseArm, setDesired_additive, setArm_additive, post_additive, raiseNotice_additive, learnLead_eq, setArm_additive,
    chargeLoad_eq]
  exact (closeSchedules_schedules _ n).trans (by rw [hbefore b])

theorem schedules_of_set {s t : State} {n : Arm} (h : t.additive.schedules = s.additive.schedules.set n []) :
    t.schedules n = [] ∧ ∀ m, m ≠ n → t.schedules m = s.schedules m := by
  refine ⟨?_, fun m hm => ?_⟩
  · simp [State.schedules, h]
  · have hne : n.val ≠ m.val := fun e => hm (Fin.ext e.symm)
    simp [State.schedules, h, hne]

/-! ### One batch fewer (R144 to R146) -/

/-- What the load manager's part may change: the lane's state and its load's end time, pending starts, the note builder's pipeline. -/
structure LaneFewer (s v : State) (l : Lane) : Prop where
  port : v.port = s.port
  permits : v.permits = s.permits
  time : v.time = s.time
  pads : v.pads = s.pads
  meter : v.meter = s.meter
  additive : v.additive = s.additive
  notes : v.note.notes = s.note.notes
  nextNote : v.note.nextNote = s.note.nextNote
  calCounter : v.note.calCounter = s.note.calCounter
  other : ∀ k, k ≠ l → v.lane k = s.lane k
  entries : ∀ x, (s.lane l).load = some x → ∃ y, (v.lane l).load = some y ∧ y.entries = x.entries
  arm : ∀ n, { v.arm n with starts := [] } = { s.arm n with starts := [] }
  starts : ∀ n, (v.arm n).starts.Sublist (s.arm n).starts

theorem LaneFewer.refl (s : State) (l : Lane) : LaneFewer s s l where
  port := rfl
  permits := rfl
  time := rfl
  pads := rfl
  meter := rfl
  additive := rfl
  notes := rfl
  nextNote := rfl
  calCounter := rfl
  other _ _ := rfl
  entries x hx := ⟨x, hx, rfl⟩
  arm _ := rfl
  starts _ := .refl _

theorem LaneFewer.trans {s t u : State} {l : Lane} (h : LaneFewer s t l) (k : LaneFewer t u l) : LaneFewer s u l where
  port := k.port.trans h.port
  permits := k.permits.trans h.permits
  time := k.time.trans h.time
  pads := k.pads.trans h.pads
  meter := k.meter.trans h.meter
  additive := k.additive.trans h.additive
  notes := k.notes.trans h.notes
  nextNote := k.nextNote.trans h.nextNote
  calCounter := k.calCounter.trans h.calCounter
  other j hj := (k.other j hj).trans (h.other j hj)
  entries x hx := by
    obtain ⟨y, hy, he⟩ := h.entries x hx
    obtain ⟨z, hz, hf⟩ := k.entries y hy
    exact ⟨z, hz, hf.trans he⟩
  arm n := (k.arm n).trans (h.arm n)
  starts n := (k.starts n).trans (h.starts n)

theorem closeLoad_fewer (s : State) (l : Lane) : LaneFewer s (s.closeLoad l) l := by
  unfold State.closeLoad
  split
  · exact .refl s l
  · rename_i x hx
    obtain ⟨hnotes, -⟩ := request_notes
      { s.note with closing := s.note.closing.set l (some (NoteBody.ofLoad l x s.time.record s.note.calDue)) } (.note l)
    obtain ⟨hnext, hcal, -⟩ := request_words
      { s.note with closing := s.note.closing.set l (some (NoteBody.ofLoad l x s.time.record s.note.calDue)) } (.note l)
    exact {
      port := rfl, permits := rfl, time := rfl, pads := rfl, meter := rfl, additive := rfl
      notes := hnotes, nextNote := hnext, calCounter := hcal
      other := fun k hk => lane_setLane_other s hk _
      entries := fun y hy => by
        rw [Option.some.inj (hy.symm.trans hx)]
        exact ⟨_, congrArg LaneRec.load (lane_setLane_self s l _), rfl⟩
      arm := fun _ => rfl
      starts := fun _ => .refl _ }

theorem closeIfIdle_fewer (s : State) (l : Lane) : LaneFewer s (s.closeIfIdle l) l := by
  unfold State.closeIfIdle
  split
  · exact closeLoad_fewer s l
  · exact .refl s l

theorem markEnding_fewer (s : State) (l : Lane) (r : EndReason) : LaneFewer s (s.markEnding l r) l where
  port := post_port ..
  permits := post_permits ..
  time := post_time ..
  pads := post_pads ..
  meter := post_meter ..
  additive := post_additive ..
  notes := congrArg NoteBuilder.notes (post_note ..)
  nextNote := congrArg NoteBuilder.nextNote (post_note ..)
  calCounter := congrArg NoteBuilder.calCounter (post_note ..)
  other k hk := (post_lane ..).trans (lane_setLane_other s hk _)
  entries x hx := ⟨x, (congrArg LaneRec.load ((post_lane ..).trans (lane_setLane_self s l _))).trans hx, rfl⟩
  arm n := by rw [State.markEnding, post_arm]; rfl
  starts n := by rw [State.markEnding, post_arm]; exact .refl _

theorem dropLaneStarts_arm (s : State) (l : Lane) (n : Arm) :
    (s.dropLaneStarts l).arm n = { s.arm n with starts := (s.arm n).starts.filter fun p => p.lane ≠ l } :=
  Vector.getElem_map ..

theorem dropLaneStarts_fewer (s : State) (l k : Lane) : LaneFewer s (s.dropLaneStarts l) k where
  port := rfl
  permits := rfl
  time := rfl
  pads := rfl
  meter := rfl
  additive := rfl
  notes := rfl
  nextNote := rfl
  calCounter := rfl
  other _ _ := rfl
  entries x hx := ⟨x, hx, rfl⟩
  arm n := by rw [dropLaneStarts_arm]
  starts n := by
    rw [dropLaneStarts_arm]
    exact List.filter_sublist

theorem oneFewer_fewer (s : State) (l : Lane) : LaneFewer s (s.oneFewer l) l := by
  unfold State.oneFewer
  split
  · exact ((markEnding_fewer ..).trans (dropLaneStarts_fewer ..)).trans (closeIfIdle_fewer ..)
  · exact closeIfIdle_fewer s l

end Sys2Proof.Machine
end

section
/-! PROOF. A meter sample of a STOPPING batch, and the end that the third sample without flow brings (R69, R89, R96, R97). -/

namespace Sys2Proof.Machine

/-! ### DONE where no start waits -/

/-- What the end of a batch leaves where no start waits for its arm (R96). -/
structure DoneOut (s v : State) (n : Arm) (b : Batch) : Prop where
  holder : v.holder n = none
  desired : (v.arm n).desired = .closed
  starts : (v.arm n).starts = []
  excess : (v.arm n).excess = 0
  stopLead : (v.arm n).stopLead = s.leadAfter n (b.noteShort (s.results n b))
  others : ∀ m, m ≠ n → v.holder m = s.holder m ∧ (v.arm m).desired = (s.arm m).desired
  port : v.port = (s.raiseNotice .batchDone (.arm n) (stopCode b.stopReason)).port
  permits : v.permits = s.chargedFor b.lane (toDl b.gross)
  entries : ∀ x, (s.lane b.lane).load = some x → ∃ y, (v.lane b.lane).load = some y ∧ y.entries = x.entries.map fun c =>
    if c.compartment = b.compartment then c.result n (b.noteShort (s.results n b)) (s.results n b) else c
  schedules : v.schedules n = [] ∧ ∀ m, m ≠ n → v.schedules m = s.schedules m
  time : v.time = s.time
  meter : v.meter = s.meter
  pads : v.pads = s.pads
  notes : v.note.notes = s.note.notes
  nextNote : v.note.nextNote = s.note.nextNote
  calCounter : v.note.calCounter = s.note.calCounter

/-- The arm's fields but its pending starts follow the lane's part. -/
theorem LaneFewer.arm_eq {s v : State} {l : Lane} (h : LaneFewer s v l) (n : Arm) :
    v.arm n = { s.arm n with starts := (v.arm n).starts } :=
  congrArg (fun r : ArmRec => { r with starts := (v.arm n).starts }) (h.arm n)

theorem batchDone_out {s : State} {n : Arm} {b : Batch} (h : s.holder n = some b) (hs : (s.arm n).starts = []) :
    DoneOut s (s.batchDone n) n b := by
  have harm := released_arm_self h
  have hstarts : ((s.released n b).arm n).starts = [] := by rw [harm, State.releasedArm, want_starts, hs]
  have hdone : s.batchDone n = (s.released n b).oneFewer b.lane := by
    rw [batchDone_eq h, hstarts]
    rfl
  have hfewer := oneFewer_fewer (s.released n b) b.lane
  rw [← hdone] at hfewer
  have harm' := hfewer.arm_eq n
  rw [harm] at harm'
  have hadditive := hfewer.additive
  have hschedules := schedules_of_set ((congrArg AdditiveScheduler.schedules hadditive).trans (released_schedules s n b))
  obtain ⟨a, c, k, hframe⟩ := released_core h
  refine {
    holder := by rw [State.holder, harm']; rfl
    desired := by rw [harm']; exact want_desired ..
    starts := List.eq_nil_of_sublist_nil (hstarts ▸ hfewer.starts n)
    excess := by rw [harm']; rfl
    stopLead := by rw [harm']; rfl
    others := fun m hm => ?_
    port := by rw [hfewer.port, hframe]; rfl
    permits := by rw [hfewer.permits, hframe]; rfl
    entries := fun x hx => ?_
    schedules := hschedules
    time := by rw [hfewer.time, hframe]; rfl
    meter := by rw [hfewer.meter, hframe]; rfl
    pads := by rw [hfewer.pads, hframe]; rfl
    notes := by rw [hfewer.notes, hframe]; rfl
    nextNote := by rw [hfewer.nextNote, hframe]; rfl
    calCounter := by rw [hfewer.calCounter, hframe]; rfl }
  · rw [State.holder, hfewer.arm_eq m, released_arm_other h hm]
    exact ⟨rfl, rfl⟩
  · obtain ⟨y, hy, he⟩ := hfewer.entries _ (released_load h hx)
    exact ⟨y, hy, he⟩

/-! ### The stop lead (R97) -/

theorem hasExc_setExc_other {e f : Exc} (h : e.bit ≠ f.bit) (x : BitVec 16) :
    hasExc e (setExc f x) = hasExc e x := by
  rw [hasExc, setExc, BitVec.getLsbD_or, BitVec.getLsbD_shiftLeft, BitVec.getLsbD_one]
  have hne : ¬ (e.bit - f.bit = 0 ∧ f.bit ≤ e.bit) := by omega
  rcases Nat.lt_or_ge e.bit f.bit with hlt | hge
  · simp [hlt, hasExc]
  · simp [hasExc, show ¬ e.bit - f.bit = 0 by omega]

/-- The exceptions of an increment leave METER LOST as it was. -/
theorem taken_meterLost (b : Batch) (r : SampleResult) : hasExc .meterLost (b.taken r).exceptions = hasExc .meterLost b.exceptions := by
  unfold Batch.taken
  dsimp only
  split
  · exact hasExc_setExc_other (by decide) _
  · rfl

/-! ### Samples of a STOPPING batch (R89) -/

theorem takeResult_stopping {w : State} {n : Arm} {e : ArmEntry} {b : Batch} {r : SampleResult} (hb : w.holder n = some b)
    (hst : b.state = .stopping) (hfit : b.incrementsFit r = true) (hheld : r.tempHeld = false) :
    w.takeResult n e b r = (w.heldBy n (b.taken r)).countStop n (b.taken r) r e.leak := by
  rw [State.takeResult, addResult_of_fit hb hfit hheld, holder_heldBy]
  dsimp only
  rw [hst]

section Counted

variable (w : State) (n : Arm) {c : Batch} {r : SampleResult} {leak : Nat}

theorem countStop_of_fault (h : r.pulseFault = true) : (w.heldBy n c).countStop n c r leak = w.heldBy n c := if_pos h

theorem countStop_of_flow (hp : r.pulseFault = false) (h : leak < r.pulses) :
    (w.heldBy n c).countStop n c r leak = w.heldBy n { c with noFlow := 0 } := by
  rw [State.countStop, hp, if_neg Bool.false_ne_true, if_pos h, modBatch_heldBy]

theorem countStop_of_few (hp : r.pulseFault = false) (h : r.pulses ≤ leak) (hk : c.noFlow < 2) :
    (w.heldBy n c).countStop n c r leak = w.heldBy n { c with noFlow := c.noFlow + 1 } := by
  rw [State.countStop, hp, if_neg Bool.false_ne_true, if_neg (Nat.not_lt.mpr h), if_neg (Nat.not_le.mpr hk), modBatch_heldBy]

theorem countStop_of_third (hp : r.pulseFault = false) (h : r.pulses ≤ leak) (hk : 2 ≤ c.noFlow) :
    (w.heldBy n c).countStop n c r leak = (w.heldBy n c).endStopping n := by
  rw [State.countStop, hp, if_neg Bool.false_ne_true, if_neg (Nat.not_lt.mpr h), if_pos hk]

end Counted

theorem endStopping_of_done {s : State} {n : Arm} {b : Batch} (hb : s.holder n = some b)
    (h : b.stopReason = some .preset ∨ b.ending = true) : s.endStopping n = s.batchDone n := by
  rw [State.endStopping, hb]
  exact if_pos h

end Sys2Proof.Machine
end

section
/-! PROOF. A meter sample of a STOPPING batch, case by case (R69, R89, R96, R97, R126). -/

namespace Sys2Proof.Machine

/-- What the entry to HALTED leaves (R89). -/
structure HaltOut (s v : State) (n : Arm) (b : Batch) : Prop where
  holder : v.holder n = some b.halt
  desired : (v.arm n).desired = .closed
  port : v.port = s.port
  load : ∀ y, (s.lane b.lane).load = some y → (v.lane b.lane).load = some { y with entries := y.entries.map fun c =>
    if c.compartment = b.compartment then { c with state := .halted } else c }

theorem enterHalted_out {s : State} {n : Arm} {b : Batch} (h : s.holder n = some b) : HaltOut s (s.enterHalted n b) n b := by
  have hcore := enterHalted_core h
  refine ⟨?_, ?_, hcore.port.trans rfl, fun y hy => ?_⟩
  · exact (hcore.holder n).trans (holder_setArm_self ..)
  · exact (congrArg ArmRec.desired ((hcore.arm n).trans (arm_setArm_self ..))).trans (want_desired ..)
  · refine (congrArg LaneRec.load ((hcore.lane b.lane).trans (lane_setLane_self ..))).trans ?_
    exact congrArg (Option.map _) hy

theorem teaches_iff (b : Batch) : b.teaches = true ↔ b.stopReason = some .preset ∧ b.resumed = 0 ∧ hasExc .meterLost b.exceptions = false := by
  simp only [Batch.teaches, Bool.and_eq_true, decide_eq_true_eq, Bool.not_eq_true', and_assoc]

theorem noteShort_nil (b : Batch) : b.noteShort [] = b := rfl

/-- The increment's explicit form. -/
theorem taken_eq (b : Batch) (r : SampleResult) : b.taken r = { b with
    raw := b.raw + r.raw, gross := b.gross + r.gross, net := b.net + r.net, weightBase := b.weightBase + r.gross
    tempWeight := b.tempWeight + r.temp * r.gross
    exceptions := if r.vcfClamp then setExc .vcfClamp b.exceptions else b.exceptions } := rfl

/-- Settles O41: the count by the sample's pulses, and the third sample by the end it brings. -/
theorem stoppingSampleCounts : Obligations.StoppingSampleCounts := by
  refine fun pulses interval temperature flags s t d n e b x hs haw hstep htel hk ha he hm hb hst hx hsch htrack hrange hvalid
    hfault hcold hwarm => ?_
  intro m delta fault raw rate gross net hraw48 hgross48 hnet48 hbase48 hlow64 hhigh64 b' cmd counts
  have husable : tempUsable (flags.getLsbD 0) temperature.toInt = true := (tempUsable_iff ..).mpr ⟨hvalid, hcold, hwarm⟩
  let u := s.polled t.device d
  let r : SampleResult := ⟨if e.maxPulses < delta then 0 else delta, raw, gross, net, rate, temperature.toInt,
    decide (e.maxPulses < delta), false, false, false, vcfClamped x.alpha temperature.toInt s.batch.settings.tref⟩
  obtain ⟨m2, hrun⟩ : ∃ m2 : Metering, runStages e x.alpha s.batch.settings.tref { m with lastPulses := pulses }
      (if e.maxPulses < delta then 0 else delta) (decide (e.maxPulses < delta)) interval.toNat (flags.getLsbD 0)
      temperature.toInt = (r, m2) := ⟨_, runStages_of_usable husable ..⟩
  have hfit : b.incrementsFit r = true := incrementsFit_of hraw48 hgross48 hnet48 hbase48 hlow64 hhigh64
  have hexec := exec_meterSample_measured haw hstep htel hk ha he hm hb (by rw [hst]; rfl) hx htrack hfault hrun
  let w : State := u.setMetering n m2
  rw [takeResult_stopping (w := w) hb hst hfit rfl] at hexec
  have hlane := congrArg Batch.lane (taken_eq b r)
  have hnoFlow := congrArg Batch.noFlow (taken_eq b r)
  have hreason := congrArg Batch.stopReason (taken_eq b r)
  have hending := congrArg Batch.ending (taken_eq b r)
  have hlost := taken_meterLost b r
  have hb' : b.taken r = b' := taken_eq b r
  rw [hb'] at hexec hlane hnoFlow hreason hending hlost
  have hresumed : b'.resumed = b.resumed := rfl
  have hpreset : b'.preset = b.preset := rfl
  have hcomp : b'.compartment = b.compartment := rfl
  have hlane' : b'.lane = b.lane := rfl
  have hnoFlow' : b'.noFlow = b.noFlow := rfl
  have hreason' : b'.stopReason = b.stopReason := rfl
  have hending' : b'.ending = b.ending := rfl
  have hsame : { b' with noFlow := b.noFlow } = b' := rfl
  clear hlane hnoFlow hreason hending hb'
  clear_value b'
  have harm : ∀ c, (w.heldBy n c).arm n = { s.arm n with holder := some c } := fun c => arm_heldBy_self w n c
  have hpulses : ¬ fault → delta ≤ e.leak → r.pulses ≤ e.leak := fun hno hfew => by
    show (if e.maxPulses < delta then 0 else delta) ≤ e.leak
    rw [if_neg hno]
    exact hfew
  have hcount : ∀ k, (w.heldBy n b').countStop n b' r e.leak = w.heldBy n { b' with noFlow := k } → counts k := fun k hcounted => by
    rw [hcounted] at hexec
    exact ⟨_, hexec, holder_heldBy .., by rw [harm], rfl, rfl⟩
  refine ⟨fun hover => ?fault, fun hno hflow => ?flow, fun hfew hno hlt => ?few, fun hfew hno hthird hnp hne => ?halted,
    fun hfew hno hthird hends hnone => ?done⟩
  case fault =>
    refine hcount _ ?_
    rw [hsame]
    exact countStop_of_fault w n (decide_eq_true hover)
  case flow =>
    refine hcount 0 (countStop_of_flow w n (decide_eq_false hno) ?_)
    show e.leak < if e.maxPulses < delta then 0 else delta
    rw [if_neg hno]
    exact hflow
  case few =>
    have hcounted := countStop_of_few w n (c := b') (decide_eq_false hno) (hpulses hno hfew) (hnoFlow'.symm ▸ hlt)
    rw [hnoFlow'] at hcounted
    exact hcount _ hcounted
  case halted =>
    have hheld := holder_heldBy w n b'
    have hthird' := countStop_of_third w n (decide_eq_false hno) (hpulses hno hfew) (hnoFlow'.symm ▸ hthird)
    rw [hthird', endStopping_of_halted hheld (hreason'.symm ▸ hnp) (hending'.trans hne)] at hexec
    have hout := enterHalted_out hheld
    have hload := hout.load
    rw [hlane', hcomp] at hload
    exact ⟨_, hexec, hout.holder, hout.desired, hout.port, hload⟩
  case done =>
    have hheld := holder_heldBy w n b'
    have hthird' := countStop_of_third w n (decide_eq_false hno) (hpulses hno hfew) (hnoFlow'.symm ▸ hthird)
    rw [hthird', endStopping_of_done hheld (hreason'.symm ▸ hending'.symm ▸ hends)] at hexec
    have hout := batchDone_out hheld ((congrArg ArmRec.starts (harm b')).trans hnone)
    have hresults : (w.heldBy n b').results n b' = [] := by
      rw [State.results]
      exact congrArg (List.map _) hsch
    have hlead := hout.stopLead
    have hport := hout.port
    have hpermits := hout.permits
    have hentries := hout.entries
    rw [hresults, noteShort_nil] at hlead hentries
    rw [hlane'] at hentries hpermits
    rw [hreason'] at hport
    refine ⟨_, hexec, hout.holder, hout.desired, hout.excess, hlead.trans ?_, hport.trans ?_, fun y hy => ⟨hpermits.trans ?_, ?_⟩⟩
    · have hentry : (w.heldBy n b').armEntry n = some e := he
      have hteaches : b'.teaches = true ↔ b.stopReason = some .preset ∧ b.resumed = 0 ∧ hasExc .meterLost b.exceptions = false := by
        rw [teaches_iff, hreason', hresumed, hlost]
      have hlead' : ((w.heldBy n b').arm n).stopLead = (s.arm n).stopLead := by rw [harm]
      rw [State.leadAfter, hentry, hlead']
      simp only [hteaches, learnedLead, hpreset]
      cases (s.arm n).stopLead <;> rfl
    · cases b.stopReason <;> rfl
    · rw [State.chargedFor]
      exact congrArg (fun x : Option Load => x.elim s.permits _) hy
    · obtain ⟨z, hz, hmap⟩ := hentries y hy
      rw [hcomp] at hmap
      refine ⟨z, hz, hmap.trans ?_⟩
      simp only [CompEntry.result, hreason']

end Sys2Proof.Machine
end

section
/-! PROOF. BATCH ABORT (R94): refusals, and the table by the state of the batch. -/

namespace Sys2Proof.Machine

/-! ### The schedules of other arms when a batch leaves its flowing states (R108) -/

/-- Only the schedules of one arm differ. -/
def SchedulesOff (s v : State) (n : Arm) : Prop := ∀ m, m ≠ n → v.schedules m = s.schedules m

theorem SchedulesOff.of_additive {s v : State} {n : Arm} (h : v.additive.schedules = s.additive.schedules) : SchedulesOff s v n :=
  fun m _ => by rw [State.schedules, h, State.schedules]

theorem SchedulesOff.trans {s t v : State} {n : Arm} (h : SchedulesOff s t n) (k : SchedulesOff t v n) : SchedulesOff s v n :=
  fun m hm => (k m hm).trans (h m hm)

theorem modSchedule_off (s : State) (n : Arm) (i : DevIx) (f : Schedule → Schedule) : SchedulesOff s (s.modSchedule n i f) n :=
  fun _ hm => schedules_setSchedules_other s hm _

theorem withdrawShots_off (s : State) (n : Arm) (i : DevIx) : SchedulesOff s (s.withdrawShots n i) n := by
  unfold State.withdrawShots
  split
  · exact modSchedule_off _ _ _ _
  · exact .trans (.of_additive rfl) (modSchedule_off _ _ _ _)

theorem startStream_schedules (s : State) (n : Arm) (i : DevIx) :
    (s.startStream n i).additive.schedules = s.additive.schedules := by
  unfold State.startStream
  split <;> rfl

theorem streamIdle_schedules (s : State) (i : DevIx) : (s.streamIdle i).additive.schedules = s.additive.schedules := by
  unfold State.streamIdle
  dsimp only
  split
  · rfl
  · split
    · exact startStream_schedules ..
    · rfl

theorem stopStream_schedules (s : State) (i : DevIx) : (s.stopStream i).additive.schedules = s.additive.schedules := by
  unfold State.stopStream
  split
  · rfl
  · split
    · rfl
    · split
      · rfl
      · exact streamIdle_schedules ..
    · rfl
    · rfl

theorem leaveFlowing_off (s : State) (n : Arm) : SchedulesOff s (s.leaveFlowing n) n := by
  intro m hm
  have hturn : ∀ (u : State) (c : Schedule), State.schedules (if c.state ≠ .active then u else
      match c.mode with
      | .shot => u.withdrawShots n c.injector
      | .stream => u.stopStream c.injector) m = u.schedules m := fun u c => by
    split
    · rfl
    · split
      · exact withdrawShots_off u n c.injector m hm
      · exact SchedulesOff.of_additive (n := n) (stopStream_schedules u c.injector) m hm
  exact foldl_keeps (fun u : State => u.schedules m) _ hturn _ s

theorem stopBatch_off (s : State) (n : Arm) (r : StopReason) : SchedulesOff s (s.stopBatch n r) n := by
  have hbefore : ∀ u : State, (((u.modBatch n fun b => { b with stopReason := some r, noFlowTimer := none }).setBatchState n
      .stopping).startStopTimerIfLost n).additive = u.additive := fun u => by
    unfold State.startStopTimerIfLost
    split
    · exact setBatchState_additive ..
    · exact setBatchState_additive ..
  have hadditive := hbefore (s.modBatch n fun b => b.clearCounts r)
  exact .trans (.of_additive (congrArg AdditiveScheduler.schedules hadditive)) (leaveFlowing_off _ n)

/-! ### What a stop leaves (R88, R94, R95) -/

/-- What the stop of a batch leaves, for the reasons of terminal and driver. -/
structure StopOut (s v : State) (n : Arm) (r : StopReason) (b : Batch) : Prop where
  same : SameBay s v
  arm : v.arm n = s.haltedArm n r b
  others : ∀ m, m ≠ n → v.arm m = s.arm m
  schedules : SchedulesOff s v n
  port : v.port = (s.raiseNotice .batchHalted (.arm n) r.code).port

theorem stopBatch_out {s : State} {n : Arm} {b : Batch} (h : s.holder n = some b) (r : StopReason) :
    StopOut s (s.stopBatch n r) n r b := by
  have hsans := stopBatch_sans h r
  exact {
    same := .trans (t := (s.setArm n (s.haltedArm n r b)).raiseNotice .batchHalted (.arm n) r.code)
      ⟨rfl, rfl, rfl, rfl, rfl, rfl, rfl, rfl⟩ (.of_sans hsans)
    arm := (arm_of_sans hsans n).trans (arm_setArm_self ..)
    others := fun m hm => (arm_of_sans hsans m).trans (arm_setArm_other s hm _)
    schedules := stopBatch_off s n r
    port := (port_of_sans hsans).trans rfl }

/-! ### The result of a compartment (R96, R118) -/

theorem result_noteShort (e : CompEntry) (n : Arm) (b : Batch) (rs : List AddResult) : e.result n (b.noteShort rs) rs = { e with
    arm := some n, state := .done, gross := toDl b.gross, net := toDl b.net, avgTemp := b.avgTemp, vcf := b.reportedVcf
    reason := b.stopReason, additives := rs
    exceptions := if rs.any fun r => r.status = .short then setExc .additiveShort b.exceptions else b.exceptions } := by
  unfold CompEntry.result Batch.noteShort
  split <;> rfl

theorem noteShort_teaches {b : Batch} {rs : List AddResult} (h : b.stopReason ≠ some .preset) : (b.noteShort rs).teaches = false := by
  rw [Batch.teaches, noteShort_frame]
  exact Bool.and_eq_false_iff.mpr (.inl (Bool.and_eq_false_iff.mpr (.inl (decide_eq_false h))))

theorem leadAfter_of_unlearned {s : State} {n : Arm} {b : Batch} (h : b.teaches = false) : s.leadAfter n b = (s.arm n).stopLead := by
  rw [State.leadAfter]
  cases s.armEntry n with
  | none => rfl
  | some e => exact if_neg (h ▸ Bool.false_ne_true)

/-! ### The request (R94) -/

section Abort

variable {p : List Byte} {s : State}

theorem batchAbort_of_length (h : p.length ≠ 1) : s.batchAbort p = s.refuse .badFormat := if_pos h

theorem batchAbort_of_value (h : p.length = 1) (hv : 5 < (byteAt p 0).toNat) : s.batchAbort p = s.refuse .badValue := by
  have hnone : armOf (byteAt p 0) = none := dif_neg (by omega)
  rw [State.batchAbort, if_neg (not_not_intro h), hnone]

theorem batchAbort_of_arm (n : Arm) (h : ¬ ((s.holder n).isNone ∧ (s.arm n).starts = [])) :
    s.batchAbort [BitVec.ofNat 8 n.val] = ((s.dropAllStarts n).abortHolder n).accept := by
  have harm : armOf (byteAt [BitVec.ofNat 8 n.val] 0) = some n := armOf_ofNat n
  rw [State.batchAbort, if_neg (show ¬ [BitVec.ofNat 8 n.val].length ≠ 1 from not_not_intro rfl), harm]
  exact if_neg h

theorem batchAbort_of_free (n : Arm) (hh : s.holder n = none) (hs : (s.arm n).starts = []) :
    s.batchAbort [BitVec.ofNat 8 n.val] = s.refuse .notFound := by
  have harm : armOf (byteAt [BitVec.ofNat 8 n.val] 0) = some n := armOf_ofNat n
  rw [State.batchAbort, if_neg (show ¬ [BitVec.ofNat 8 n.val].length ≠ 1 from not_not_intro rfl), harm]
  exact if_pos ⟨by rw [hh]; rfl, hs⟩

end Abort

section Holder

variable {s : State} {n : Arm} {b : Batch} (h : s.holder n = some b)

include h

theorem abortHolder_of_stopping (hst : b.state = .stopping) : s.abortHolder n =
    s.setArm n { s.arm n with holder := some { b with stopReason := some .aborted, ending := true } } := by
  have hmarked : (s.setReason n .aborted).markBatchEnding n = s.heldBy n { b with stopReason := some .aborted, ending := true } := by
    rw [State.setReason, modBatch_eq_heldBy h, State.markBatchEnding, modBatch_heldBy]
  refine Eq.trans ?_ hmarked
  rw [State.abortHolder, h]
  dsimp only
  rw [hst]

theorem abortHolder_of_flowing (hst : b.state.flowing = true) : s.abortHolder n =
    (s.setArm n { s.arm n with holder := some { b with ending := true } }).stopBatch n .aborted := by
  rw [State.abortHolder, h]
  dsimp only
  rw [← modBatch_of_holder h fun b => { b with ending := true }]
  rcases flowing_iff.mp hst with hst | hst | hst <;> rw [hst] <;> rfl

theorem abortHolder_of_still (hst : b.state = .armed ∨ b.state = .halted) : s.abortHolder n =
    (s.setArm n { s.arm n with holder := some { b with stopReason := some .aborted } }).batchDone n := by
  rw [State.abortHolder, h]
  dsimp only
  rw [← modBatch_of_holder h fun b => { b with stopReason := some .aborted }]
  rcases hst with hst | hst <;> rw [hst] <;> rfl

end Holder

/-- Settles O20: the refusals in order, then the table by the state of the batch. -/
theorem batchAbortEffect : Obligations.BatchAbortEffect := by
  refine fun p s hs hr => ⟨fun hlen => request_next hr (batchAbort_of_length hlen) hs,
    fun hlen hv => request_next hr (batchAbort_of_value hlen hv) hs, ?_⟩
  rintro n rfl
  have hdropped : (s.dropAllStarts n).arm n = { s.arm n with starts := [] } := arm_setArm_self ..
  refine ⟨fun hfree hnone => request_next hr (batchAbort_of_free n hfree hnone) hs, fun hfree hsome => ?starts, fun b hb => ?holder⟩
  case starts =>
    have habort : (s.dropAllStarts n).abortHolder n = s.dropAllStarts n := by
      rw [State.abortHolder, show (s.dropAllStarts n).holder n = none from (holder_setArm_self ..).trans hfree]
    have hbatch := batchAbort_of_arm n (s := s) fun h => hsome h.2
    rw [habort] at hbatch
    exact request_next (u := s.dropAllStarts n) hr hbatch hs
  case holder =>
    have hheld : (s.dropAllStarts n).holder n = some b := (holder_setArm_self ..).trans hb
    have hbatch := batchAbort_of_arm n (s := s) fun h => by
      rw [hb] at h
      exact Bool.noConfusion h.1
    refine ⟨fun hst => ?stopping, fun hst => ?flowing, fun hst => ?still⟩
    case stopping =>
      rw [abortHolder_of_stopping hheld hst, hdropped, State.dropAllStarts, setArm_setArm] at hbatch
      exact request_next (u := s.setArm n _) hr hbatch hs
    case flowing =>
      rw [abortHolder_of_flowing hheld (flowing_iff.mpr hst), hdropped, State.dropAllStarts, setArm_setArm] at hbatch
      have hout := stopBatch_out (s := s.setArm n { s.arm n with starts := [], holder := some { b with ending := true } })
        (b := { b with ending := true }) (holder_setArm_self ..) .aborted
      have harm := hout.arm
      rw [State.haltedArm, arm_setArm_self] at harm
      refine ⟨_, request_settles hr hbatch, ?_, ?_, ?_, ?_, ?_, fun m hm => ⟨?_, ?_⟩, hout.port, hout.same.load, hout.same.permits,
        hout.same.note, hout.same.time, hout.same.meter, hout.same.pads⟩
      · rw [State.holder, harm, want_holder]
        rfl
      · rw [harm, want_desired]
      · rw [harm, want_starts]
      · rw [harm, want_reported]
      · rw [harm, want_stopLead]
      · exact (hout.others m hm).trans (arm_setArm_other s hm _)
      · exact hout.schedules m hm
    case still =>
      rw [abortHolder_of_still hheld hst, hdropped, State.dropAllStarts, setArm_setArm] at hbatch
      let c : Batch := { b with stopReason := some .aborted }
      let u : State := s.setArm n { s.arm n with starts := [], holder := some c }
      have harm : u.arm n = { s.arm n with starts := [], holder := some c } := arm_setArm_self ..
      have hout := batchDone_out (s := u) (b := c) (holder_setArm_self ..) (by rw [harm])
      refine ⟨_, request_settles hr hbatch, hout.holder, hout.desired, hout.starts, hout.excess, ?_, hout.schedules.1,
        fun m hm => ?_, hout.port, hout.time, hout.meter, hout.pads, hout.notes, hout.nextNote, hout.calCounter, fun x hx => ?_⟩
      · rw [hout.stopLead, leadAfter_of_unlearned (noteShort_teaches (by simp [c])), harm]
      · obtain ⟨hholder, hdesired⟩ := hout.others m hm
        have hother := arm_setArm_other s hm { s.arm n with starts := [], holder := some c }
        exact ⟨hholder.trans (congrArg ArmRec.holder hother), hdesired.trans (congrArg ArmRec.desired hother),
          hout.schedules.2 m hm⟩
      · obtain ⟨y, hy, hentries⟩ := hout.entries x hx
        refine ⟨hout.permits.trans ?_, y, hy, hentries.trans ?_⟩
        · rw [State.chargedFor]
          exact congrArg (fun x : Option Load => x.elim s.permits _) hx
        · simp only [result_noteShort]
          rfl

end Sys2Proof.Machine
end

section
/-! PROOF. The VALVE STATE (R21, R30, R33, R86, R91). -/

namespace Sys2Proof.Machine

/-! ### A routed VALVE STATE -/

theorem want_excess {r : ArmRec} (h : r.excess = 0) (st : Stage) (k : Nat) : (r.want st k).excess = 0 := by
  unfold ArmRec.want
  split
  · exact h
  · rfl

theorem heldBy_of_holder {s : State} {n : Arm} {b : Batch} (h : s.holder n = some b) : s.heldBy n b = s := by
  have harm : { s.arm n with holder := some b } = s.arm n := by
    rw [← h]
    rfl
  rw [State.heldBy, harm, setArm_arm]

/-- The no-flow timer of the batch is all that follows the reported stage (R86). -/
theorem followStage_held {s : State} {n : Arm} {b : Batch} (h : s.holder n = some b) (before : Option Stage) (after : Stage) :
    ∃ k, s.followStage n before after = s.heldBy n { b with noFlowTimer := k } := by
  unfold State.followStage
  split
  · exact ⟨none, modBatch_eq_heldBy h _⟩
  · split
    · exact ⟨some s.batch.settings.noFlowTimeout, modBatch_eq_heldBy h _⟩
    · exact ⟨b.noFlowTimer, (heldBy_of_holder h).symm⟩

theorem followStage_of_free {s : State} {n : Arm} (h : s.holder n = none) (before : Option Stage) (after : Stage) :
    s.followStage n before after = s := by
  unfold State.followStage
  split
  · have hsame : { s.arm n with holder := none } = s.arm n := by
      rw [← h]
      rfl
    rw [State.modBatch, h, Option.map_none, hsame, setArm_arm]
  · exact if_neg fun hflow => by
      rw [h] at hflow
      exact Bool.noConfusion hflow.2

section Judged

variable {s : State} {n : Arm} {st : Stage}

theorem judgeStage_of_free (h : s.holder n = none) : s.judgeStage n st = s.setExcess n 0 := by
  refine if_neg fun hexcess => ?_
  rw [h] at hexcess
  exact Bool.noConfusion hexcess.2.1

section Late

variable {b : Batch} (hb : s.holder n = some b) (hh : b.state.haltable = true) (ht : (s.arm n).travelTimer = none)
  (hrank : (s.arm n).desired.rank < st.rank)

include hb hh ht hrank

theorem judgeStage_of_first (h : (s.arm n).excess = 0) : s.judgeStage n st = s.setExcess n 1 := by
  have hlate : (s.arm n).travelTimer = none ∧ (s.holder n).any (fun b => b.state.haltable) ∧ (s.arm n).desired.rank < st.rank :=
    ⟨ht, by rw [hb]; exact hh, hrank⟩
  rw [State.judgeStage, if_pos hlate, h]
  exact if_neg (by decide)

theorem judgeStage_of_second (h : 1 ≤ (s.arm n).excess) : s.judgeStage n st = (s.setExcess n 0).haltBatch n .valveLost := by
  have hlate : (s.arm n).travelTimer = none ∧ (s.holder n).any (fun b => b.state.haltable) ∧ (s.arm n).desired.rank < st.rank :=
    ⟨ht, by rw [hb]; exact hh, hrank⟩
  rw [State.judgeStage, if_pos hlate, if_pos h]

end Late

end Judged

theorem valveReply_of_entry {s : State} {i : DevIx} {n : Arm} {e : ArmEntry} (he : s.armEntry n = some e) (hv : e.valve = i)
    (stage : Byte) : s.valveReply i n stage = State.judgeStage (State.followStage
      (s.setArm n { s.arm n with reported := some (stageOf stage) }) n (s.arm n).reported (stageOf stage)) n (stageOf stage) := by
  rw [State.valveReply, he]
  exact if_pos hv

/-- The reply for a free arm (R91). -/
theorem valveReply_of_free {s : State} {i : DevIx} {n : Arm} {e : ArmEntry} (he : s.armEntry n = some e) (hv : e.valve = i)
    (h : s.holder n = none) (stage : Byte) : s.valveReply i n stage =
      s.setArm n { s.arm n with reported := some (stageOf stage), excess := 0 } := by
  have hfree : (s.setArm n { s.arm n with reported := some (stageOf stage) }).holder n = none := (holder_setArm_self ..).trans h
  rw [valveReply_of_entry he hv, followStage_of_free hfree, judgeStage_of_free hfree, State.setExcess, arm_setArm_self, setArm_setArm]

/-! ### The reply to a VALVE SET (R30) -/

/-- The bus free, the miss count 0 and the set stage noted. -/
def State.valveWasSet (s : State) (i : DevIx) (d : Device) (st : Stage) : State :=
  { s with
    scan := { s.scan with
      devices := s.scan.devices.set i (some { d with misses := 0, setStage := some st })
      transaction := none
      wake := true }
    pads := { s.pads with bde := false } }

/-- The reply to a VALVE SET reaches its owner with the set stage noted (R21, R30, R33). -/
theorem deliver_valveSet {s : State} {t : Transaction} {d : Device} (h : s.AwaitsOnline t d)
    (hstep : t.step = .urgentClose ∨ t.step = .valve) {st : Stage} (htel : t.telegram = .valveSet st) {r : DeviceReply}
    (hfits : replyFits r = true) (hlisted : replyKindOk (replyKind r) false = true) (ha : d.kind.accepts r = true)
    (hf : replyFault r = false) : s.deliverReply r = (s.valveWasSet t.device d st).route t d r := by
  obtain ⟨haw, hp, hon⟩ := h
  have hend := deliverReply_ends haw hfits (by rw [htel]; exact hlisted)
  obtain ⟨-, -, hw, hrx, hd⟩ := haw
  have hdev : (s.freed t.step).device t.device = some d := (freed_device_close s hstep t.device).trans hd
  have hreplied : (s.freed t.step).deviceReplied t.device false = (s.freed t.step).setDevice t.device (some { d with misses := 0 }) := by
    have hset : ((s.freed t.step).setDevice t.device (some { d with misses := 0 })).device t.device = some { d with misses := 0 } :=
      device_setDevice_self ..
    have hafter : d.state.afterReply false = ({ d with misses := 0 } : Device).state := by
      rw [hon]
      rfl
    rw [State.deviceReplied, hdev]
    dsimp only
    rw [hafter]
    exact moveDevice_of_same hset
  have hrx' : { s.scan.rx with buffer := [], broken := false } = s.scan.rx := by rw [hrx]
  have hset : ((s.freed t.step).setDevice t.device (some { d with misses := 0 })).noteSet t = s.valveWasSet t.device d st := by
    rw [State.noteSet, htel]
    dsimp only
    rw [device_setDevice_self, setDevice_setDevice, State.freed, hrx', if_pos hstep]
    rfl
  have haccept : s.acceptReply t d r = (s.valveWasSet t.device d st).route t d r := by
    unfold State.acceptReply
    rw [hf, freeBus_eq_freed, hreplied, hset]
    simp only [State.noteShown, htel]
    exact if_neg Bool.false_ne_true
  have hd' : s.device t.device = some d := hd
  rw [hend, State.replyEnd, hw, if_neg Bool.false_ne_true, if_neg hp, hd']
  exact (if_pos ha).trans haccept

section Valve

variable {stage flags : Byte} {s : State} {t : Transaction} {d : Device} {n : Arm}

theorem route_valveState (ha : d.assoc = .arm n) (u : State) : u.route t d (.valveState stage flags) = u.valveReply t.device n stage := by
  unfold State.route
  rw [ha]

end Valve

/-- Settles O42: a free arm, a batch judged after its travel allowance, and a valve that reports a fault. -/
theorem valveStateReported : Obligations.ValveStateReported := by
  refine fun stage flags s t d n e hs haw hstage hk ha he hv => ?_
  intro st r
  have hfits : replyFits (.valveState stage flags) = true := decide_eq_true hstage
  have haccepts : d.kind.accepts (.valveState stage flags) = true := by
    rw [hk]
    rfl
  have hpolled : flags.getLsbD 0 = false → t.step = .scan → t.telegram = .poll →
      exec (.valveState stage flags) s = .next ((s.polled t.device d).valveReply t.device n stage).settle := fun hfault hstep htel =>
    congrArg (fun v => Host.Outcome.next (State.settle v))
      ((deliver_polled (r := .valveState stage flags) haw hstep htel hfits rfl haccepts hfault).trans (route_valveState ha _))
  refine ⟨fun hfault hstep htel hfree => ?free, fun w hfault hstep htel hfree => ?set,
    fun b hfault hstep htel hb hh htravel hrank => ?judged, fun hfault hstep htel hfree => ?fault⟩
  case free =>
    exact (hpolled hfault hstep htel).trans (congrArg (fun v => Host.Outcome.next (State.settle v))
      (valveReply_of_free (s := s.polled t.device d) he hv hfree stage))
  case set =>
    have hdeliver := (deliver_valveSet (r := .valveState stage flags) haw hstep htel hfits rfl haccepts hfault).trans
      ((route_valveState ha _).trans (valveReply_of_free (s := s.valveWasSet t.device d w) he hv hfree stage))
    exact congrArg (fun v => Host.Outcome.next (State.settle v)) hdeliver
  case judged =>
    let u := s.polled t.device d
    let w : State := u.setArm n { r with reported := some st }
    have hholder : w.holder n = some b := (holder_setArm_self ..).trans hb
    obtain ⟨k, hfollow⟩ := followStage_held hholder r.reported st
    have harm : (w.heldBy n { b with noFlowTimer := k }).arm n = { r with reported := some st, holder := some { b with noFlowTimer := k } } := by
      rw [arm_heldBy_self]
      exact congrArg (fun r : ArmRec => { r with holder := some { b with noFlowTimer := k } }) (arm_setArm_self ..)
    have hheld := holder_heldBy w n { b with noFlowTimer := k }
    have hexec := (hpolled hfault hstep htel).trans (congrArg (fun v => Host.Outcome.next (State.settle v))
      ((valveReply_of_entry (s := u) he hv stage).trans (congrArg (fun v => State.judgeStage v n st) hfollow)))
    refine ⟨fun hfirst => ?_, fun hsecond => ?_⟩
    · rw [judgeStage_of_first hheld hh (by rw [harm]; exact htravel) (by rw [harm]; exact hrank) (by rw [harm]; exact hfirst)] at hexec
      have hset : ((w.heldBy n { b with noFlowTimer := k }).setExcess n 1).arm n =
          { r with reported := some st, holder := some { b with noFlowTimer := k }, excess := 1 } := by
        rw [State.setExcess, arm_setArm_self, harm]
      exact ⟨_, hexec, by rw [hset], by rw [hset], by rw [hset], { b with noFlowTimer := k }, by rw [State.holder, hset], rfl⟩
    · rw [judgeStage_of_second hheld hh (by rw [harm]; exact htravel) (by rw [harm]; exact hrank) (by rw [harm]; exact hsecond)] at hexec
      have hset : ((w.heldBy n { b with noFlowTimer := k }).setExcess n 0).arm n =
          { r with reported := some st, holder := some { b with noFlowTimer := k }, excess := 0 } := by
        rw [State.setExcess, arm_setArm_self, harm]
      have hhalted := haltBatch_arm_self (s := (w.heldBy n { b with noFlowTimer := k }).setExcess n 0) (b := { b with noFlowTimer := k })
        (by rw [State.holder, hset]) hh .valveLost
      obtain ⟨c, hc, hstate, hreason, hdesired⟩ := haltedFor_of_arm hhalted
      rw [State.haltedArm, hset] at hhalted
      refine ⟨_, hexec, ?_, ?_, hdesired, c, hc, hstate, hreason⟩
      · rw [hhalted]
        exact want_excess rfl ..
      · rw [hhalted, want_reported]
  case fault =>
    have hne : ({ d with retryHold := false, misses := 0 } : Device).state ≠ .faulted .device := by
      show d.state ≠ _
      rw [haw.2.2]
      exact nofun
    have hdev : (s.polled t.device d).device t.device = some { d with retryHold := false, misses := 0 } := by
      rw [polled_device, if_pos rfl]
    have hmoved := (deliver_faulted (r := .valveState stage flags) haw hstep htel hfits rfl haccepts hfault).trans
      (moveDevice_of_other hdev hne)
    let v : State := ((s.polled t.device d).setDevice t.device (some { d with
      retryHold := false, misses := 0, state := .faulted .device, setStage := none })).raiseNotice .device (.device t.device) 0x03#8
    have hidle : v.handOn t.device d.kind d.state (some (.faulted .device)) = v := by
      rw [hk]
      exact valveHanded_of_free (s := v) rfl hfree
    refine ⟨v, congrArg (fun v => Host.Outcome.next (State.settle v)) (hmoved.trans hidle), ?_, rfl, rfl⟩
    exact (device_setDevice_self (s.polled t.device d) t.device _).trans rfl

end Sys2Proof.Machine
end

section
/-! PROOF. Shots and streams of one schedule: shot reports (R104, R105, R114), injector states (R112, R113, R115), gross increments
(R101 to R103). -/

namespace Sys2Proof.Machine

/-! ### The one schedule of an arm on an injector (R43, R99) -/

/-- The arm's schedules, with the one on an injector picked out. -/
structure HasSchedule (s : State) (n : Arm) (i : DevIx) (before : List Schedule) (c : Schedule) (after : List Schedule) : Prop where
  all : s.schedules n = before ++ c :: after
  injector : c.injector = i
  before_other : ∀ k ∈ before, k.injector ≠ i
  after_other : ∀ k ∈ after, k.injector ≠ i

namespace HasSchedule

variable {s : State} {n : Arm} {i : DevIx} {before after : List Schedule} {c : Schedule} (h : HasSchedule s n i before c after)

include h

theorem schedule : s.schedule n i = some c := by
  have hnone : before.find? (fun c => c.injector = i) = none :=
    List.find?_eq_none.mpr fun k hk => by simpa using h.before_other k hk
  rw [State.schedule, h.all, List.find?_append, hnone, Option.none_or]
  exact List.find?_cons_of_pos (decide_eq_true h.injector)

theorem modSchedule (f : Schedule → Schedule) : s.modSchedule n i f = s.setSchedules n (before ++ f c :: after) := by
  have hkeep : ∀ l : List Schedule, (∀ k ∈ l, k.injector ≠ i) → (l.map fun c => if c.injector = i then f c else c) = l := fun l hl =>
    (List.map_congr_left fun k hk => if_neg (hl k hk)).trans (List.map_id'' (fun _ => rfl) l)
  rw [State.modSchedule, h.all, List.map_append, List.map_cons, hkeep before h.before_other, hkeep after h.after_other,
    if_pos h.injector]

/-- Another value in the schedule's place. -/
theorem replaced {v : State} {c' : Schedule} (hv : v.schedules n = before ++ c' :: after) (hc : c'.injector = i) :
    HasSchedule v n i before c' after := ⟨hv, hc, h.before_other, h.after_other⟩

end HasSchedule

theorem setDelivered_of_fit {s : State} {n : Arm} {i : DevIx} {before after : List Schedule} {c : Schedule}
    (h : HasSchedule s n i before c after) {base dose : Nat} (hfit : base + dose < 2 ^ 32) :
    s.setDelivered n i base dose = s.setSchedules n (before ++ { c with delivered := base + dose } :: after) := by
  rw [State.setDelivered, if_pos hfit, h.modSchedule, addDose, if_pos hfit]

theorem checkDeviation_of_within {s : State} {n : Arm} {i : DevIx} {c : Schedule} (h : s.schedule n i = some c)
    (hin : c.deviates = false) : s.checkDeviation n i = (s, []) := by
  rw [State.checkDeviation, h]
  exact if_neg (by simp [hin])

/-- A dose within tolerance, as the statements give it. -/
theorem deviates_of_within {c : Schedule} (h : c.settled * c.shotSize < 5 * c.shotSize ∨
    (((c.settled * c.shotSize : Nat) : Int) - c.delivered).natAbs * 100 ≤ c.tolerance * (c.settled * c.shotSize)) :
    c.deviates = false := by
  simp only [Schedule.deviates, Bool.and_eq_false_iff, decide_eq_false_iff_not, Int.not_le, Int.not_lt]
  rcases h with h | h
  · exact .inl (by exact_mod_cast h)
  · refine .inr ?_
    rw [Int.natCast_mul] at h
    exact_mod_cast h

/-! ### Shots -/

/-- A schedule with nothing pending joins no queue. -/
theorem joinQueue_of_settled {s : State} {n : Arm} {i : DevIx} {c : Schedule} (h : s.schedule n i = some c) (hp : c.pending = 0)
    {x : InjectorSlot} (hx : s.slot i = some x) (hq : x.queue = []) : s.joinQueue n i = s := by
  have hsame : (s.modSlot i fun x => if 0 < c.pending ∧ ¬ x.queue.contains n then { x with queue := x.queue ++ [n] } else x) = s := by
    rw [modSlot_of_slot hx, hp, if_neg (fun h => Nat.lt_irrefl 0 h.1), ← hx]
    exact setSlot_slot s i
  rw [State.joinQueue, h]
  dsimp only
  rw [hsame, issueHead_of_no_queue hx hq]

/-- A report settles the one shot of the queue (R105). -/
theorem settleShot_of_within {s : State} {i : DevIx} {f : Flight} {before after : List Schedule} {c : Schedule}
    (h : HasSchedule s f.arm i before c after) {x : InjectorSlot} (hx : s.slot i = some x) (hf : x.flight = some f)
    (ho : f.owned = true) (hq : x.queue = [f.arm]) {dose : Nat} (hfit : c.delivered + dose < 2 ^ 32) (hpending : c.pending = 1)
    (hsettled : c.settled < 16777215)
    (hin : Schedule.deviates { c with delivered := c.delivered + dose, settled := c.settled + 1, pending := 0 } = false) :
    s.settleShot i f dose = (s.setSchedules f.arm (before ++
      { c with delivered := c.delivered + dose, settled := c.settled + 1, pending := 0 } :: after)).setSlot i
        (some { x with queue := [], flight := none, request := none }) := by
  have hcredit := setDelivered_of_fit h hfit
  have hcredited := h.replaced (v := s.setDelivered f.arm i c.delivered dose) (c' := { c with delivered := c.delivered + dose })
    (by rw [hcredit, schedules_setSchedules_self]) h.injector
  have hsum : addSettled c.settled 1 = c.settled + 1 := Nat.min_eq_right (by omega)
  have hsettle := hcredited.modSchedule fun c => { c with settled := addSettled c.settled 1, pending := c.pending - 1 }
  dsimp only at hsettle
  rw [hsum, hpending, hcredit, setSchedules_setSchedules] at hsettle
  generalize hu : s.setSchedules f.arm (before ++
    { c with delivered := c.delivered + dose, settled := c.settled + 1, pending := 0 } :: after) = u at hsettle ⊢
  have hux : u.slot i = some x := by rw [← hu]; exact hx
  have hdrop : (u.dropFlight i).withdrawRequest i = u.setSlot i (some { x with queue := [], flight := none, request := none }) := by
    have hhead : (if (x.flight.any fun f => f.owned) = true then x.queue.drop 1 else x.queue) = [] := by
      rw [hf, hq]
      exact if_pos ho
    rw [State.dropFlight, State.withdrawRequest, modSlot_modSlot, modSlot_of_slot hux, hhead]
  have hone := h.replaced (v := u.setSlot i (some { x with queue := [], flight := none, request := none }))
    (c' := { c with delivered := c.delivered + dose, settled := c.settled + 1, pending := 0 })
    (by rw [← hu]; exact schedules_setSchedules_self ..) h.injector
  have hcheck := checkDeviation_of_within hone.schedule hin
  rw [State.settleShot, h.schedule]
  dsimp only
  rw [hcredit, hsettle, hdrop, hcheck]
  have hslot := slot_setSlot_self u i (some { x with queue := [], flight := none, request := none })
  exact (congrArg (fun v => State.issueHead v i) (joinQueue_of_settled hone.schedule rfl hslot rfl)).trans
    (issueHead_of_no_queue hslot rfl)

/-- A SHOT REPORT by poll reaches the shot in flight (R105). -/
theorem route_shotReport {s : State} {t : Transaction} {d : Device} (hstep : t.step = .scan) {x : InjectorSlot}
    (hx : s.slot t.device = some x) (hm : x.entry.mode = .shot) (outlet : Byte) (dose : BitVec 16) (status : Byte) :
    s.route t d (.shotReport outlet dose status) = s.polledReport t.device x outlet dose.toNat status := by
  have hpolled : s.injectorPolled t.device (.shotReport outlet dose status) = s.polledReport t.device x outlet dose.toNat status := by
    rw [State.injectorPolled, hx]
    dsimp only
    rw [hm]
  unfold State.route
  rw [hstep]
  exact (if_neg (by decide)).trans hpolled

/-- Settles O44: the report by its outlet and its status. -/
theorem shotReportSettles : Obligations.ShotReportSettles := by
  refine fun outlet dose status s t d x f c before after hs haw hstep htel hk houtlet hstatus hx hm hf hp ho hq hall hinj hbefore hafter
    hactive hpending hfit hsettled => ?_
  intro u c' settledDose within
  have hfits : replyFits (.shotReport outlet dose status) = true :=
    Bool.and_eq_true_iff.mpr ⟨decide_eq_true houtlet, decide_eq_true hstatus⟩
  have haccepts : d.kind.accepts (.shotReport outlet dose status) = true := by
    rw [hk]
    rfl
  have hux : u.slot t.device = some x := hx
  have hreport : u.polledReport t.device x outlet dose.toNat status = if outlet.toNat = f.outlet then
      u.takeReport t.device f dose.toNat status else u := by
    have hphase : f.phase ≠ .sending := by
      rw [hp]
      exact nofun
    rw [State.polledReport, hf]
    dsimp only
    by_cases h : outlet.toNat = f.outlet
    · rw [if_pos ⟨hphase, h⟩, if_pos h]
    · rw [if_neg (fun hc => h hc.2), if_neg h]
  have hexec : exec (.shotReport outlet dose status) s = .next (State.settle (if outlet.toNat = f.outlet then
      u.takeReport t.device f dose.toNat status else u)) :=
    congrArg (fun v => Host.Outcome.next (State.settle v)) ((deliver_polled (r := .shotReport outlet dose status) haw hstep htel
      hfits rfl haccepts rfl).trans ((route_shotReport (s := u) hstep hux hm ..).trans hreport))
  refine ⟨fun hnamed hstatus hin => ?settled, fun hnamed hfail => ?failed, fun hother => by rw [hexec, if_neg hother]⟩
  case settled =>
    have hone : HasSchedule u f.arm t.device before c after := ⟨hall, hinj, hbefore, hafter⟩
    have hsettle := settleShot_of_within hone hux hf ho hq hfit hpending hsettled (deviates_of_within hin)
    have htake : u.takeReport t.device f dose.toNat status = u.settleShot t.device f dose.toNat := by
      rw [State.takeReport, if_pos ho, if_neg hstatus]
    rw [hexec, if_pos hnamed, htake, hsettle]
    rfl
  case failed =>
    have htake : u.takeReport t.device f dose.toNat status = u.queryShot t.device f := by
      rw [State.takeReport, if_pos ho, if_pos hfail]
    rw [hexec, if_pos hnamed, htake, queryShot_of_slot hux]
    rfl

end Sys2Proof.Machine
end

section
/-! PROOF. INJECTOR STATEs at the scheduler (R104, R112, R113, R115), and the increment that orders a shot (R101 to R103). -/

namespace Sys2Proof.Machine

/-! ### INJECTOR STATE -/

section Polled

variable {s : State} {i : DevIx} {x : InjectorSlot} (hx : s.slot i = some x)

include hx

/-- A SHOT injector's state is discarded by poll (R104). -/
theorem injectorPolled_of_shot (hm : x.entry.mode = .shot) (state : Byte) (dose : BitVec 32) (flags : Byte) :
    s.injectorPolled i (.injectorState state dose flags) = s := by
  rw [State.injectorPolled, hx]
  dsimp only
  rw [hm]

theorem injectorPolled_of_stream (hm : x.entry.mode = .stream) (state : Byte) (dose : BitVec 32) (flags : Byte) :
    s.injectorPolled i (.injectorState state dose flags) = s.polledState i x dose := by
  rw [State.injectorPolled, hx]
  dsimp only
  rw [hm]

/-- The busy answer to STREAM START (R112). -/
theorem injectorOutcome_of_busy (hst : x.stream.state = .starting) (htaken : x.stream.taken = true)
    (hwanted : x.stream.stopWanted = false) (outlet ratio : Nat) (dose : BitVec 32) (flags : Byte) :
    s.injectorOutcome i (.streamStart outlet ratio) (.reply (.injectorState 0x01#8 dose flags)) =
      s.setSlot i (some { x with stream := { x.stream with state := .running, baseline := dose } }) := by
  have hopened : s.streamOpened i x dose = s.setSlot i (some { x with stream := { x.stream with state := .running, baseline := dose } }) := by
    rw [State.streamOpened, State.modStream, modSlot_of_slot hx, hwanted, if_neg Bool.false_ne_true, ← hwanted]
  rw [State.injectorOutcome, hx]
  exact (if_pos ⟨hst, htaken⟩).trans ((if_pos rfl).trans hopened)

end Polled

/-- A running stream within its tolerance credits its schedule and no more (R113, R115). -/
theorem polledState_of_running {s : State} {n : Arm} {i : DevIx} {before after : List Schedule} {c : Schedule}
    (h : HasSchedule s n i before c after) {x : InjectorSlot} (hserved : x.entry.servedArm = some n) (hst : x.stream.state = .running)
    (howned : x.stream.owned = true) {dose : BitVec 32} (hfit : x.stream.startDose + (dose - x.stream.baseline).toNat < 2 ^ 32)
    (hin : Schedule.strays { c with delivered := x.stream.startDose + (dose - x.stream.baseline).toNat } = false) :
    s.polledState i x dose = s.setSchedules n
      (before ++ { c with delivered := x.stream.startDose + (dose - x.stream.baseline).toNat } :: after) := by
  have hcredit := setDelivered_of_fit h hfit
  have hcredited := h.replaced (v := s.setDelivered n i x.stream.startDose (dose - x.stream.baseline).toNat)
    (c' := { c with delivered := x.stream.startDose + (dose - x.stream.baseline).toNat })
    (by rw [hcredit, schedules_setSchedules_self]) h.injector
  have hstream : s.creditStream i x dose = s.setDelivered n i x.stream.startDose (dose - x.stream.baseline).toNat := by
    rw [State.creditStream, hserved]
    exact if_pos howned
  have hcheck : (s.setDelivered n i x.stream.startDose (dose - x.stream.baseline).toNat).checkStream i x =
      s.setDelivered n i x.stream.startDose (dose - x.stream.baseline).toNat := by
    rw [State.checkStream, hserved]
    refine if_neg fun hstrays => ?_
    rw [hcredited.schedule, Option.any_some, hin] at hstrays
    exact Bool.noConfusion hstrays.2.2
  rw [State.polledState, hst]
  dsimp only
  rw [hstream, hcheck, hcredit]

/-- A dose within tolerance of its target, as the statements give it. -/
theorem strays_of_within {c : Schedule} (h : doseTarget c.streamed c.ratio < c.streamMin ∨
    ((doseTarget c.streamed c.ratio : Int) - c.delivered).natAbs * 100 ≤ c.tolerance * doseTarget c.streamed c.ratio) :
    c.strays = false := by
  simp only [Schedule.strays, Bool.and_eq_false_iff, decide_eq_false_iff_not, Nat.not_le, Nat.not_lt]
  exact h

theorem route_injectorState_polled {t : Transaction} {d : Device} (hstep : t.step = .scan) (s : State) (state : Byte) (dose : BitVec 32)
    (flags : Byte) : s.route t d (.injectorState state dose flags) = s.injectorPolled t.device (.injectorState state dose flags) := by
  unfold State.route
  rw [hstep]
  exact if_neg (by decide)

theorem route_injectorState_asked {t : Transaction} {d : Device} (hstep : t.step = .injector) (s : State) (state : Byte)
    (dose : BitVec 32) (flags : Byte) : s.route t d (.injectorState state dose flags) =
      s.injectorOutcome t.device t.telegram (.reply (.injectorState state dose flags)) := by
  unfold State.route
  exact if_pos hstep

/-- Settles O45: the state by the injector's mode, and as the answer to STREAM START. -/
theorem injectorStateCredits : Obligations.InjectorStateCredits := by
  refine fun state dose flags s t d x hs haw hk hstate hfault hx => ?_
  intro u
  have hfits : replyFits (.injectorState state dose flags) = true := decide_eq_true hstate
  have haccepts : d.kind.accepts (.injectorState state dose flags) = true := by
    rw [hk]
    rfl
  have hux : u.slot t.device = some x := hx
  have hpolled : t.step = .scan → t.telegram = .poll → exec (.injectorState state dose flags) s =
      .next (u.injectorPolled t.device (.injectorState state dose flags)).settle := fun hstep htel =>
    congrArg (fun v => Host.Outcome.next (State.settle v)) ((deliver_polled (r := .injectorState state dose flags) haw hstep htel
      hfits rfl haccepts hfault).trans (route_injectorState_polled hstep ..))
  refine ⟨fun hm hstep htel => ?shot, fun n c before after hm hstep htel hserved hrunning howned hall hinj hbefore hafter hfit => ?stream,
    fun outlet ratio hstep htel hbusy hst htaken hwanted => ?start⟩
  case shot => rw [hpolled hstep htel, injectorPolled_of_shot hux hm]
  case stream =>
    intro delivered target hin credited
    have hone : HasSchedule u n t.device before c after := ⟨hall, hinj, hbefore, hafter⟩
    have hcredit := polledState_of_running hone hserved hrunning howned hfit (strays_of_within hin)
    rw [hpolled hstep htel, injectorPolled_of_stream hux hm, hcredit]
    rfl
  case start =>
    have hend := deliverReply_ends (r := .injectorState state dose flags) haw.1 hfits (by rw [htel]; rfl)
    have hroute := replyEnd_routes (r := .injectorState state dose flags) haw (.inl hstep) (by simp [htel]) (by simp [htel])
      haccepts hfault
    have hopened : u.route t d (.injectorState state dose flags) = u.setSlot t.device (some { x with
        stream := { x.stream with state := .running, baseline := dose } }) := by
      rw [route_injectorState_asked hstep, htel, hbusy]
      exact injectorOutcome_of_busy hux hst htaken hwanted outlet ratio dose flags
    exact congrArg (fun v => Host.Outcome.next (State.settle v)) ((hend.trans hroute).trans hopened)

/-! ### A gross increment at the one SHOT schedule (R101 to R103) -/

section Increment

variable {s : State} {n : Arm} {e : ArmEntry} {b : Batch} {c : Schedule} (hb : s.holder n = some b) (hflow : b.state.flowing = true)
  (hall : s.schedules n = [c]) (hm : c.mode = .shot)

include hb hflow

theorem aboveCutoff_eq (cutoff : Nat) : s.aboveCutoff n cutoff = decide ((cutoff : Int) * 1000000 < b.remaining) := by
  rw [State.aboveCutoff, hb, Option.any_some, hflow, Bool.true_and]

include hall hm

theorem passIncrement_of_cutoff (h : b.remaining ≤ (e.cutoff : Int) * 1000000) (gross : Nat) : s.passIncrement n e gross = s := by
  rw [State.passIncrement, hall, aboveCutoff_eq hb hflow, decide_eq_false (Int.not_lt.mpr h), List.foldl_cons, List.foldl_nil,
    State.scheduleIncrement, hm]
  rfl

theorem passIncrement_of_above (h : (e.cutoff : Int) * 1000000 < b.remaining) (gross : Nat) : s.passIncrement n e gross =
    (s.shotIncrement n c gross).1.applyRequests (s.shotIncrement n c gross).2 := by
  rw [State.passIncrement, hall, aboveCutoff_eq hb hflow, decide_eq_true h, List.foldl_cons, List.foldl_nil,
    State.scheduleIncrement, hm]
  rfl

end Increment

theorem shotIncrement_of_active {s : State} {n : Arm} {c : Schedule} (hall : s.schedules n = [c]) (ha : c.state = .active) (gross : Nat) :
    s.shotIncrement n c gross = State.shotsDue (dueCount (c.countdown - gross) c.interval)
      (s.setSchedules n [{ c with countdown := c.countdown - gross }]) n c.injector := by
  have hone : HasSchedule s n c.injector [] c [] := ⟨hall, rfl, by simp, by simp⟩
  rw [State.shotIncrement, if_pos ha, hone.modSchedule]
  rfl

/-- The head of the queue is issued where no shot is in flight (R103). -/
theorem issueHead_of_head {s : State} {n : Arm} {i : DevIx} {c : Schedule} (h : s.schedule n i = some c) {x : InjectorSlot}
    (hx : s.slot i = some x) (hf : x.flight = none) {rest : List Arm} (hq : x.queue = n :: rest) : s.issueHead i = State.wakeBus
      (s.setSlot i (some { x with
        request := some (.shot c.outlet c.shotSize)
        flight := some ⟨n, c.outlet, c.shotSize, c.shotTimeout, 1, .sending, none, 0, true⟩ })) := by
  have hpost : ∀ f : Flight, (s.modSlot i fun x => { x with flight := some f }).postRequest i (.shot c.outlet c.shotSize) =
      State.wakeBus (s.setSlot i (some { x with request := some (.shot c.outlet c.shotSize), flight := some f })) := fun f => by
    rw [State.postRequest, modSlot_modSlot, modSlot_of_slot hx]
  refine Eq.trans ?_ (hpost ..)
  rw [State.issueHead, hx]
  dsimp only
  rw [hf, hq]
  dsimp only
  rw [h]

/-- A pending shot on an idle injector is issued at once (R103). -/
theorem joinQueue_of_idle {s : State} {n : Arm} {i : DevIx} {c : Schedule} (h : s.schedule n i = some c) (hp : 0 < c.pending)
    {x : InjectorSlot} (hx : s.slot i = some x) (hf : x.flight = none) (hq : x.queue = []) : s.joinQueue n i = State.wakeBus
      (s.setSlot i (some { x with
        queue := [n], request := some (.shot c.outlet c.shotSize)
        flight := some ⟨n, c.outlet, c.shotSize, c.shotTimeout, 1, .sending, none, 0, true⟩ })) := by
  have hjoin : (s.modSlot i fun x => if 0 < c.pending ∧ ¬ x.queue.contains n then { x with queue := x.queue ++ [n] } else x) =
      s.setSlot i (some { x with queue := [n] }) := by
    rw [modSlot_of_slot hx, hq, if_pos ⟨hp, by simp⟩]
    rfl
  have hissue := issueHead_of_head (s := s.setSlot i (some { x with queue := [n] })) h (slot_setSlot_self ..) hf rfl
  rw [setSlot_setSlot] at hissue
  rw [State.joinQueue, h]
  dsimp only
  rw [hjoin, hissue]

/-- One due shot with none pending is ordered (R101 to R103). -/
theorem shotsDue_of_one {s : State} {n : Arm} {i : DevIx} {c : Schedule} (h : HasSchedule s n i [] c []) (ha : c.state = .active)
    (hdue : c.countdown ≤ 0) (hp : c.pending = 0) {x : InjectorSlot} (hx : s.slot i = some x) (hf : x.flight = none)
    (hq : x.queue = []) : State.shotsDue 1 s n i = (State.wakeBus ((s.setSchedules n
      [{ c with countdown := c.countdown + c.interval, pending := 1 }]).setSlot i (some { x with
        queue := [n], request := some (.shot c.outlet c.shotSize)
        flight := some ⟨n, c.outlet, c.shotSize, c.shotTimeout, 1, .sending, none, 0, true⟩ })), []) := by
  have hgain := h.modSchedule fun c => { c with countdown := c.countdown + c.interval }
  have hgained := h.replaced (v := s.modSchedule n i fun c => { c with countdown := c.countdown + c.interval })
    (c' := { c with countdown := c.countdown + c.interval }) (by rw [hgain, schedules_setSchedules_self]) h.injector
  have hpend := hgained.modSchedule fun c => { c with pending := c.pending + 1 }
  dsimp only at hpend
  rw [hp, hgain, setSchedules_setSchedules] at hpend
  have hpending := h.replaced (v := s.setSchedules n [{ c with countdown := c.countdown + c.interval, pending := 1 }])
    (c' := { c with countdown := c.countdown + c.interval, pending := 1 }) (schedules_setSchedules_self ..) h.injector
  have hjoin := joinQueue_of_idle hpending.schedule Nat.one_pos (x := x) hx hf hq
  have hshot : (s.modSchedule n i fun c => { c with countdown := c.countdown + c.interval }).shotDue n i c =
      ((s.setSchedules n [{ c with countdown := c.countdown + c.interval, pending := 1 }]).joinQueue n i, []) := by
    rw [State.shotDue, if_pos (by rw [hp]; decide), hgain]
    exact congrArg (fun v => (State.joinQueue v n i, [])) hpend
  rw [State.shotsDue, h.schedule]
  dsimp only
  rw [if_pos ⟨ha, hdue⟩, hshot, hjoin]
  rfl

/-- Settles O46: by the cut-off and the countdown. -/
theorem incrementOrdersShot : Obligations.IncrementOrdersShot := by
  refine fun s n e b c x gross hb hflow hall hm ha => ⟨fun hcut => passIncrement_of_cutoff hb hflow hall hm hcut gross,
    fun habove hrest => ?counts, fun habove hdue hover hp hx hf hq => ?orders⟩
  case counts =>
    have hcount : dueCount (c.countdown - gross) c.interval = 0 := if_neg (Int.not_le.mpr hrest)
    rw [passIncrement_of_above hb hflow hall hm habove, shotIncrement_of_active hall ha, hcount]
    rfl
  case orders =>
    have hcount : dueCount (c.countdown - gross) c.interval = 1 := by
      have hsmall : (c.countdown - gross).natAbs / c.interval = 0 := Nat.div_eq_of_lt (by omega)
      rw [dueCount, if_pos hdue, hsmall]
    have hone : HasSchedule (s.setSchedules n [{ c with countdown := c.countdown - gross }]) n c.injector []
        { c with countdown := c.countdown - gross } [] := ⟨schedules_setSchedules_self .., rfl, by simp, by simp⟩
    have hshot := shotsDue_of_one hone ha hdue hp (x := x) hx hf hq
    rw [setSchedules_setSchedules] at hshot
    rw [passIncrement_of_above hb hflow hall hm habove, shotIncrement_of_active hall ha, hcount, hshot]
    rfl

end Sys2Proof.Machine
end

section
/-! PROOF. The two-part override (R117, R148, R150, R151): what each completion leaves, and the terminal half. -/

namespace Sys2Proof.Machine

/-! ### Lanes and candidates -/

theorem setLane_setLane (s : State) (l : Lane) (x y : LaneRec) : (s.setLane l x).setLane l y = s.setLane l y := by
  rw [State.setLane, State.setLane, State.setLane, lanes_set_set]

/-- Candidate and slot of a lane both gone (R148, R151). -/
theorem clearSlot_dropCandidate (s : State) (l : Lane) :
    (s.dropCandidate l).clearSlot l = s.setLane l { s.lane l with candidate := none, slot := none } := by
  rw [State.clearSlot, State.dropCandidate, lane_setLane_self, setLane_setLane]

theorem other_ne (l : Lane) : Lane.other l ≠ l := by cases l <;> exact nofun

/-! ### A load opens (R141, R151) -/

theorem raiseNotice_port_congr {s t : State} (hport : t.port = s.port) (htime : t.time = s.time) (kind : NoticeKind) (subject : Subject)
    (code : Byte) : (t.raiseNotice kind subject code).port = (s.raiseNotice kind subject code).port := by
  unfold State.raiseNotice State.raiseNoticeAt
  rw [hport, htime]

/-- What the opening of a load leaves. -/
structure OpenOut (s v : State) (l : Lane) (card : Nat) (driverRef : BitVec 16) (o : Order) (overridden : Bool) : Prop where
  lane : v.lane l = { (s.lane l).sansOrder o.reference with
    state := .opened, load := some (o.load card driverRef s.time.record overridden) }
  other : ∀ k, k ≠ l → v.lane k = (s.lane k).sansOrder o.reference
  orders : v.load.orders = s.load.orders.filter fun o' => o'.reference ≠ o.reference
  port : v.port = (s.raiseNotice .loadOpened (.lane l) (if overridden then 0x01#8 else 0x00#8)).port
  scan : v.scan = (s.post l .opened).scan
  permits : v.permits = s.permits
  batch : v.batch = s.batch
  additive : v.additive = s.additive
  note : v.note = s.note
  time : v.time = s.time
  meter : v.meter = s.meter

theorem removeOrder_lane (s : State) (ref : BitVec 32) (k : Lane) : (s.removeOrder ref).lane k = (s.lane k).sansOrder ref := by
  rw [removeOrder_eq]
  cases k <;> rfl

theorem openLoad_out (s : State) (l : Lane) (card : Nat) (driverRef : BitVec 16) (o : Order) (overridden : Bool) :
    OpenOut s (s.openLoad l card driverRef o overridden) l card driverRef o overridden := by
  let s1 := s.removeOrder o.reference
  let r : LaneRec := { s1.lane l with state := .opened, load := some (o.load card driverRef s.time.record overridden) }
  let v := (s1.setLane l r).raiseNotice .loadOpened (.lane l) (if overridden then 0x01#8 else 0x00#8)
  have hopen : s.openLoad l card driverRef o overridden = v.post l .opened := rfl
  have hremove : s1 = _ := removeOrder_eq s o.reference
  have hport : s1.port = s.port := by rw [hremove]
  have hscan : s1.scan = s.scan := by rw [hremove]
  have hpermits : s1.permits = s.permits := by rw [hremove]
  have hbatch : s1.batch = s.batch := by rw [hremove]
  have hadditive : s1.additive = s.additive := by rw [hremove]
  have hnote : s1.note = s.note := by rw [hremove]
  have htime : s1.time = s.time := by rw [hremove]
  have hmeter : s1.meter = s.meter := by rw [hremove]
  have hlane : ∀ k, v.lane k = (s1.setLane l r).lane k := fun _ => rfl
  rw [hopen]
  exact {
    lane := by rw [post_lane, hlane, lane_setLane_self, ← removeOrder_lane]
    other := fun k hk => by rw [post_lane, hlane, lane_setLane_other _ hk, removeOrder_lane]
    orders := by
      rw [post_load]
      exact congrArg (fun s : State => s.load.orders) hremove
    port := (post_port ..).trans (raiseNotice_port_congr hport htime ..)
    scan := by
      refine post_scan_congr ?_ l .opened
      exact hscan
    permits := (post_permits ..).trans hpermits
    batch := (post_batch ..).trans hbatch
    additive := (post_additive ..).trans hadditive
    note := (post_note ..).trans hnote
    time := (post_time ..).trans htime
    meter := (post_meter ..).trans hmeter }

/-! ### An override completes (R117, R151) -/

/-- The schedules of a batch after its additive override (R117). -/
def suspended (cs : List Schedule) : List Schedule := cs.map fun c => if c.state = .faulted then { c with state := .suspended } else c

theorem suspendFaulted_eq (s : State) (n : Arm) :
    s.suspendFaulted n = (s.setSchedules n (suspended (s.schedules n))).setBatchExc n .additiveOverridden := by
  refine congrArg (fun l => (s.setSchedules n l).setBatchExc n .additiveOverridden) (List.map_congr_left fun c _ => ?_)
  cases c.state <;> rfl

/-- The additive override of a batch: its FAULTED schedules suspended, the lane's slot empty. -/
theorem overrideArm_of_holder {s : State} {n : Arm} {b : Batch} (h : s.holder n = some b) (l : Lane) : s.overrideArm l n =
    State.post (State.raiseNotice { s with
      batch := { s.batch with arms := s.batch.arms.set n { s.arm n with holder := some { b with
        additiveOverride := true, exceptions := setExc .additiveOverridden b.exceptions } } }
      additive := { s.additive with schedules := s.additive.schedules.set n ((s.schedules n).map fun c =>
        if c.state = .faulted then { c with state := .suspended } else c) }
      load := { s.load with lanes := s.load.lanes.set l { s.lane l with slot := none } } }
      .overrideApplied (.arm n) 0x01#8) l .overrideApplied := by
  let u := s.heldBy n { b with additiveOverride := true }
  have hset : (s.modBatch n fun b => { b with additiveOverride := true }) = u := modBatch_eq_heldBy h _
  have hexc : (u.setSchedules n (suspended (s.schedules n))).setBatchExc n .additiveOverridden =
      State.heldBy (s.setSchedules n (suspended (s.schedules n))) n { b with
        additiveOverride := true, exceptions := setExc .additiveOverridden b.exceptions } :=
    modBatch_heldBy (s.setSchedules n (suspended (s.schedules n))) n { b with additiveOverride := true }
      fun b => { b with exceptions := setExc .additiveOverridden b.exceptions }
  have hsuspend := (suspendFaulted_eq u n).trans hexc
  rw [State.overrideArm, hset, hsuspend]
  rfl

/-- A refused card: candidate and slot of the lane gone, the code posted and noticed (R142, R151). -/
theorem overrideFailed_eq (s : State) (l : Lane) (code : DisplayCode) : s.overrideFailed l code = (State.raiseNotice (State.post { s with
    load := { s.load with lanes := s.load.lanes.set l { s.lane l with candidate := none, slot := none } } } l code)
    .loadRefused (.lane l) code.code, .refuse .notAllowed) := by
  rw [State.overrideFailed, clearSlot_dropCandidate]
  rfl

theorem overrideLoad_of_refused {s : State} {l : Lane} {c : Candidate} {code : DisplayCode}
    (h : s.openingPermit l c.card = .error code) : s.overrideLoad l c = s.overrideFailed l code := by
  rw [State.overrideLoad, h]

/-- The override opens the candidate's order. -/
def State.overrideOpened (s : State) (l : Lane) (card : Nat) (driverRef : BitVec 16) (o : Order) : State :=
  (((s.openLoad l card driverRef o true).dropCandidate l).clearSlot l).raiseNotice .overrideApplied (.lane l) 0x00#8

theorem overrideLoad_of_opened {s : State} {l : Lane} {c : Candidate} {q : Permit} (h : s.openingPermit l c.card = .ok q) {o : Order}
    (ho : s.order c.order = some o) : s.overrideLoad l c = (s.overrideOpened l c.card q.driverRef o, .accept) := by
  rw [State.overrideLoad, h]
  dsimp only
  rw [ho]
  rfl

/-- What the opening by override leaves. -/
structure OverrideOut (s v : State) (l : Lane) (card : Nat) (driverRef : BitVec 16) (o : Order) : Prop where
  state : (v.lane l).state = .opened
  candidate : (v.lane l).candidate = none
  slot : (v.lane l).slot = none
  load : (v.lane l).load = some ⟨o.reference, o.carrier, o.tanker, card, driverRef, s.time.record, none, true, true,
    o.lines.map OrderLine.entry⟩
  orders : v.load.orders = s.load.orders.filter fun o' => o'.reference ≠ o.reference
  permits : v.permits = s.permits
  port : v.port = ((s.raiseNotice .loadOpened (.lane l) 0x01#8).raiseNotice .overrideApplied (.lane l) 0x00#8).port
  scan : v.scan = (s.post l .opened).scan

theorem overrideOpened_out (s : State) (l : Lane) (card : Nat) (driverRef : BitVec 16) (o : Order) :
    OverrideOut s (s.overrideOpened l card driverRef o) l card driverRef o := by
  have hout := openLoad_out s l card driverRef o true
  have hclear := clearSlot_dropCandidate (s.openLoad l card driverRef o true) l
  let w := s.openLoad l card driverRef o true
  have hlane : (s.overrideOpened l card driverRef o).lane l = { w.lane l with candidate := none, slot := none } := by
    have hself := lane_setLane_self w l { w.lane l with candidate := none, slot := none }
    rw [← hclear] at hself
    exact hself
  have hload : (w.lane l).load = some (o.load card driverRef s.time.record true) := by rw [hout.lane]
  exact {
    state := by rw [hlane, hout.lane]
    candidate := by rw [hlane]
    slot := by rw [hlane]
    load := by rw [hlane]; exact hload
    orders := hout.orders
    permits := hout.permits
    port := raiseNotice_port_congr hout.port hout.time ..
    scan := hout.scan }

/-! ### The terminal half (R150) -/

section Terminal

variable {p : List Byte} {s : State} {l : Lane} {g : Target}

theorem overrideRequest_of_length (h : p.length ≠ 2) : s.overrideRequest p = s.refuse .badFormat := if_pos h

theorem overrideRequest_of_value (h : p.length = 2) (hv : laneOf (byteAt p 0) = none ∨ targetOf (byteAt p 1) = none) :
    s.overrideRequest p = s.refuse .badValue := by
  rw [State.overrideRequest, if_neg (not_not_intro h)]
  rcases hv with hv | hv
  · rw [hv]
  · rw [hv]
    cases laneOf (byteAt p 0) <;> rfl

section Parsed

variable (h : p.length = 2) (hl : laneOf (byteAt p 0) = some l) (hg : targetOf (byteAt p 1) = some g)

include h hl hg

theorem overrideRequest_of_empty (hslot : (s.lane l).slot = none) : s.overrideRequest p =
    if s.targetExists l g then (s.armSlot l g .terminal).accept else s.refuse .noTarget := by
  rw [State.overrideRequest, if_neg (not_not_intro h), hl, hg]
  dsimp only
  rw [hslot]

theorem overrideRequest_of_other {x : OverrideSlot} (hslot : (s.lane l).slot = some x) (hx : x.target ≠ g) :
    s.overrideRequest p = s.refuse .noTarget := by
  rw [State.overrideRequest, if_neg (not_not_intro h), hl, hg]
  dsimp only
  rw [hslot]
  exact if_pos hx

theorem overrideRequest_of_terminal {x : OverrideSlot} (hslot : (s.lane l).slot = some x) (hx : x.target = g)
    (hhalf : x.half = .terminal) : s.overrideRequest p = s.accept := by
  rw [State.overrideRequest, if_neg (not_not_intro h), hl, hg]
  dsimp only
  rw [hslot]
  dsimp only
  rw [if_neg (not_not_intro hx), hhalf]

theorem overrideRequest_of_supervisor {x : OverrideSlot} (hslot : (s.lane l).slot = some x) (hx : x.target = g)
    (hhalf : x.half = .supervisor) : s.overrideRequest p = s.completeOverride l g := by
  rw [State.overrideRequest, if_neg (not_not_intro h), hl, hg]
  dsimp only
  rw [hslot]
  dsimp only
  rw [if_neg (not_not_intro hx), hhalf]

end Parsed

end Terminal

theorem armTarget_iff (s : State) (l : Lane) (n : Arm) : s.armTarget l n = true ↔
    ∃ b, s.holder n = some b ∧ b.lane = l ∧ b.state = .halted ∧ b.stopReason = some .additive := by
  simp only [State.armTarget, Option.any_eq_true, Bool.and_eq_true, decide_eq_true_eq, and_assoc]

theorem completeOverride_load {s : State} {l : Lane} {c : Candidate} (h : (s.lane l).candidate = some c) :
    s.completeOverride l .load = s.overrideLoad l c := by
  rw [State.completeOverride, h]

/-- Settles O21: the refusals in order, then the table of R150 by the lane's slot. -/
theorem overrideEffect : Obligations.OverrideEffect := by
  refine fun p s hs hr => ⟨fun hlen => request_next hr (overrideRequest_of_length hlen) hs,
    fun hlen hv => request_next hr (overrideRequest_of_value hlen hv) hs, fun l g hlen hl hg => ?_⟩
  intro there
  have hthere : s.targetExists l g = true ↔ there := by
    cases g
    case load => exact Iff.rfl
    case arm n => exact armTarget_iff s l n
  refine ⟨fun hslot hyes => ?armed, fun hslot hno => ?noTarget, fun x hslot => ⟨fun hx => ?other, fun hx hhalf => ?repeated,
    fun n b hx hhalf hgn hb => ?batch, fun c o hx hhalf hgl hc ho => ?order⟩⟩
  case armed =>
    have hreq := (overrideRequest_of_empty hlen hl hg hslot).trans (if_pos (hthere.mpr hyes))
    exact request_next (u := s.armSlot l g .terminal) hr hreq hs
  case noTarget => exact request_next hr ((overrideRequest_of_empty hlen hl hg hslot).trans (if_neg (mt hthere.mp hno))) hs
  case other => exact request_next hr (overrideRequest_of_other hlen hl hg hslot hx) hs
  case repeated => exact request_next hr (overrideRequest_of_terminal hlen hl hg hslot hx hhalf) hs
  case batch =>
    have hreq := overrideRequest_of_supervisor hlen hl hg hslot hx hhalf
    subst hgn
    have hcomplete : s.completeOverride l (.arm n) = (s.overrideArm l n).accept := rfl
    rw [hcomplete, overrideArm_of_holder hb] at hreq
    refine ⟨_, request_settles hr hreq, ?_, ?_, ?_, ?_, ?_, ?_, fun m hm => ⟨?_, ?_⟩, ?_, ?_, ?_, ?_, ?_, ?_⟩
    · rw [post_holder]
      exact holder_setArm_self s n { s.arm n with holder := some { b with
        additiveOverride := true, exceptions := setExc .additiveOverridden b.exceptions } }
    · rw [State.schedules, post_additive]
      exact schedules_setSchedules_self s n _
    · rw [post_lane]
      exact lane_setLane_self s l { s.lane l with slot := none }
    · rw [post_lane]
      exact lane_setLane_other s (other_ne l) { s.lane l with slot := none }
    · rw [post_port]
      exact raiseNotice_port_congr rfl rfl ..
    · refine post_scan_congr ?_ l .overrideApplied
      rfl
    · rw [post_arm]
      exact arm_setArm_other s hm { s.arm n with holder := some { b with
        additiveOverride := true, exceptions := setExc .additiveOverridden b.exceptions } }
    · rw [State.schedules, post_additive]
      exact schedules_setSchedules_other s hm _
    · rw [post_permits]
      rfl
    · rw [post_note]
      rfl
    · rw [post_time]
      rfl
    · rw [post_meter]
      rfl
    · rw [post_pads]
      rfl
    · rw [post_load]
      rfl
  case order =>
    have hreq := overrideRequest_of_supervisor hlen hl hg hslot hx hhalf
    subst hgl
    rw [completeOverride_load hc] at hreq
    refine ⟨fun d hd => ?refused, fun q hq => ?opened⟩
    case refused =>
      rw [overrideLoad_of_refused hd, overrideFailed_eq] at hreq
      refine ⟨_, request_settles hr hreq, ?_, ?_, ?_, ?_, ?_⟩
      · exact (post_lane ..).trans (lane_setLane_self s l { s.lane l with candidate := none, slot := none })
      · exact (post_lane ..).trans (lane_setLane_other s (other_ne l) { s.lane l with candidate := none, slot := none })
      · rw [raiseNotice_load, post_load]
      · exact raiseNotice_port_congr (post_port ..) (post_time ..) ..
      · rw [raiseNotice_scan]
        refine post_scan_congr ?_ l d
        rfl
    case opened =>
      rw [overrideLoad_of_opened hq ho] at hreq
      have hout := overrideOpened_out s l c.card q.driverRef o
      exact ⟨_, request_settles hr hreq, hout.state, hout.candidate, hout.slot, hout.load, hout.orders, hout.port, hout.scan⟩

end Sys2Proof.Machine
end

section
/-! PROOF. A supervisor card (R117, R139, R148, R149, R151). -/

namespace Sys2Proof.Machine

/-- A single event of a station's list (R33, R34). -/
theorem exec_stationEvent {s : State} {t : Transaction} {d : Device} {l : Lane} (haw : s.AwaitsOnline t d) (hstep : t.step = .scan)
    (htel : t.telegram = .poll) (hk : d.kind = .station) (ha : d.assoc = .lane l) {e : StationEvent} (hf : StationEvent.fits e = true) :
    exec (.stationEventList [e]) s = .next ((s.polled t.device d).stationEvent l e).settle := by
  have hfits : replyFits (.stationEvents [e]) = true := by
    simp only [replyFits, List.all_cons, List.all_nil, hf]
    rfl
  exact congrArg (fun v => Host.Outcome.next (State.settle v)) (deliver_stationEvents haw hstep htel hk ha hfits)

/-! ### The supervisor's permit (R149) -/

/-- The failure of a supervisor's permit in the words of R149. -/
def Permit.supervisorCode (p : Permit) (today : Date) : Option DisplayCode :=
  if p.state = .revoked then some .revoked
  else if p.state = .suspended then some .suspended
  else if p.expiry.key < today.key then some .expired
  else if p.cls ≠ .supervisor then some .notAllowed
  else none

theorem supervisorFailure_of_unknown {s : State} {card : Nat} (h : s.permit card = none) :
    s.supervisorFailure card = some .unknownCard := by
  rw [State.supervisorFailure, h]

theorem supervisorFailure_of_permit {s : State} {card : Nat} {p : Permit} (h : s.permit card = some p) :
    s.supervisorFailure card = p.supervisorCode s.today := by
  rw [State.supervisorFailure, h]
  dsimp only
  rw [Permit.stateFailure, Permit.supervisorCode]
  cases p.state
  case revoked => rfl
  case suspended => rfl
  case active => simp only [Permit.expired, decide_eq_true_eq, reduceCtorEq, if_false]

/-! ### The supervisor half (R149) -/

theorem cardEvent_of_supervisor (s : State) (l : Lane) (digits : BitVec 40) :
    s.stationEvent l (.card digits 0x01#8) = s.supervisorCard l (bcdNat (cardBytes digits)) := by
  rw [State.stationEvent, State.cardEvent]
  exact if_neg (by decide)

theorem cardEvent_of_driver (s : State) (l : Lane) (digits : BitVec 40) :
    s.stationEvent l (.card digits 0x00#8) = s.driverCard l (bcdNat (cardBytes digits)) := by
  rw [State.stationEvent, State.cardEvent]
  exact if_pos rfl

section Card

variable {s : State} {l : Lane} {card : Nat}

theorem supervisorCard_of_closing (h : (s.lane l).state = .ending ∨ (s.lane l).state = .closing) :
    s.supervisorCard l card = s.post l .loadClosing := by
  rw [State.supervisorCard]
  rcases h with h | h <;> rw [h]

theorem supervisorCard_of_open (h : (s.lane l).state = .none ∨ (s.lane l).state = .opened) :
    s.supervisorCard l card = s.supervisorHalf l card := by
  rw [State.supervisorCard]
  rcases h with h | h <;> rw [h]

theorem supervisorHalf_of_failure {code : DisplayCode} (h : s.supervisorFailure card = some code) :
    s.supervisorHalf l card = s.post l code := by
  rw [State.supervisorHalf, h]

section Passed

variable (h : s.supervisorFailure card = none)

include h

theorem supervisorHalf_of_empty (hslot : (s.lane l).slot = none) : s.supervisorHalf l card = s.supervisorArms l := by
  rw [State.supervisorHalf, h]
  dsimp only
  rw [hslot]

theorem supervisorHalf_of_supervisor {x : OverrideSlot} (hslot : (s.lane l).slot = some x) (hx : x.half = .supervisor) :
    s.supervisorHalf l card = s := by
  rw [State.supervisorHalf, h]
  dsimp only
  rw [hslot]
  dsimp only
  rw [hx]

theorem supervisorHalf_of_terminal {x : OverrideSlot} (hslot : (s.lane l).slot = some x) (hx : x.half = .terminal) :
    s.supervisorHalf l card = (s.completeOverride l x.target).1 := by
  rw [State.supervisorHalf, h]
  dsimp only
  rw [hslot]
  dsimp only
  rw [hx]

end Passed

theorem supervisorArms_of_candidate (h : (s.lane l).candidate.isSome = true) :
    s.supervisorArms l = (s.armSlot l .load .supervisor).post l .overrideArmed := if_pos h

theorem supervisorArms_of_halted (hnone : (s.lane l).candidate = none) {n : Arm} (hn : s.armTarget l n = true)
    (hfirst : ∀ m, s.armTarget l m = true → n ≤ m) :
    s.supervisorArms l = (s.armSlot l (.arm n) .supervisor).post l .overrideArmed := by
  have hfind : (allArms.find? fun n => s.armTarget l n) = some n := by
    rw [allArms_eq_finRange]
    exact find?_finRange_of_first hn fun m hm => Bool.eq_false_iff.mpr fun hmt => absurd (hfirst m hmt) (Fin.not_le.mpr hm)
  rw [State.supervisorArms, hnone, hfind]
  exact if_neg Bool.false_ne_true

theorem supervisorArms_of_none (hnone : (s.lane l).candidate = none) (h : ∀ n, ¬ s.armTarget l n = true) :
    s.supervisorArms l = s.post l .noTarget := by
  have hfind : (allArms.find? fun n => s.armTarget l n) = none := List.find?_eq_none.mpr fun n _ => h n
  rw [State.supervisorArms, hnone, hfind]
  exact if_neg Bool.false_ne_true

end Card

/-- Settles O50: the lane's load state, the permit's failure, then the slot. -/
theorem supervisorHalf : Obligations.SupervisorHalf := by
  refine fun s t d l digits hs haw hstep htel hk ha hfit => ?_
  intro u card fails halted armed
  let k := bcdNat (cardBytes digits)
  have hcard := cardEvent_of_supervisor u l digits
  have hexec : exec card s = .next (u.supervisorCard l k).settle :=
    (exec_stationEvent haw hstep htel hk ha hfit).trans
      (congrArg (fun v => Host.Outcome.next (State.settle v)) hcard)
  have hfails : u.supervisorFailure k = fails := by
    simp only [fails]
    cases hp : s.permits.find? fun q => q.card = bcdNat (cardBytes digits) with
    | none => exact supervisorFailure_of_unknown hp
    | some p => exact supervisorFailure_of_permit hp
  have htarget : ∀ n, u.armTarget l n = true ↔ halted n := fun n => armTarget_iff u l n
  refine ⟨fun hclosing => ?closing, fun hopen => ?_⟩
  case closing => rw [hexec, supervisorCard_of_closing (s := u) hclosing]
  rw [supervisorCard_of_open (s := u) hopen] at hexec
  refine ⟨fun code hcode => ?refused, fun hpass hslot => ⟨fun hcand => ?candidate, fun n hcand hn hfirst => ?first,
    fun hcand hnone => ?noTarget⟩, fun x hpass hslot => ⟨fun hhalf => ?repeated, fun n b hhalf htgt hb => ?batch,
    fun c o hhalf htgt hc ho => ?order⟩⟩
  case refused => rw [hexec, supervisorHalf_of_failure (hfails.trans hcode)]
  case candidate =>
    rw [supervisorHalf_of_empty (hfails.trans hpass) hslot, supervisorArms_of_candidate (s := u) hcand] at hexec
    exact hexec
  case first =>
    rw [supervisorHalf_of_empty (hfails.trans hpass) hslot, supervisorArms_of_halted (s := u) hcand ((htarget n).mpr hn)
      fun m hm => hfirst m ((htarget m).mp hm)] at hexec
    exact hexec
  case noTarget =>
    rw [hexec, supervisorHalf_of_empty (hfails.trans hpass) hslot, supervisorArms_of_none (s := u) hcand
      fun n hn => hnone n ((htarget n).mp hn)]
  case repeated => rw [hexec, supervisorHalf_of_supervisor (hfails.trans hpass) hslot hhalf]
  case batch =>
    have hcomplete : (u.completeOverride l (.arm n)).1 = u.overrideArm l n := rfl
    rw [supervisorHalf_of_terminal (hfails.trans hpass) hslot hhalf, htgt, hcomplete, overrideArm_of_holder (s := u) hb] at hexec
    exact hexec
  case order =>
    rw [supervisorHalf_of_terminal (hfails.trans hpass) hslot hhalf, htgt, completeOverride_load (s := u) hc] at hexec
    refine ⟨fun code hcode => ?failed, fun q hq => ?opened⟩
    case failed =>
      rw [overrideLoad_of_refused (s := u) hcode, overrideFailed_eq] at hexec
      exact hexec
    case opened =>
      rw [overrideLoad_of_opened (s := u) hq ho] at hexec
      have hout := overrideOpened_out u l c.card q.driverRef o
      exact ⟨_, hexec, hout.state, hout.candidate, hout.slot, hout.load, hout.orders, hout.permits, hout.port, hout.scan⟩

end Sys2Proof.Machine
end

section
/-! PROOF. What goes on at one arm: the entry to STARTUP, the creation of a batch, pending starts served (R79, R82, R83). What these
keep of the rest of the bay. -/

namespace Sys2Proof.Machine

/-! ### What no batch operation touches -/

/-- Kind and state of a device. -/
def Device.standing (d : Device) : DeviceKind × DeviceState := (d.kind, d.state)

/-- Time, settings, arm table, device kinds and states, and card numbers stand, and no pending bit of a notice is lost. -/
structure Calm (s v : State) : Prop where
  time : v.time = s.time
  settings : v.batch.settings = s.batch.settings
  armTable : v.batch.armTable = s.batch.armTable
  standing : ∀ i, (v.device i).map Device.standing = (s.device i).map Device.standing
  bits : ∀ k, s.port.pendingSet.getLsbD k = true → v.port.pendingSet.getLsbD k = true
  cards : v.permits.map Permit.card = s.permits.map Permit.card

theorem Calm.refl (s : State) : Calm s s := ⟨rfl, rfl, rfl, fun _ => rfl, fun _ h => h, rfl⟩

theorem Calm.trans {s t v : State} (h : Calm s t) (k : Calm t v) : Calm s v where
  time := k.time.trans h.time
  settings := k.settings.trans h.settings
  armTable := k.armTable.trans h.armTable
  standing i := (k.standing i).trans (h.standing i)
  bits j hj := k.bits j (h.bits j hj)
  cards := k.cards.trans h.cards

theorem Calm.of_fields {s v : State} (htime : v.time = s.time) (hsettings : v.batch.settings = s.batch.settings)
    (htable : v.batch.armTable = s.batch.armTable) (hdevices : v.scan.devices = s.scan.devices) (hport : v.port = s.port)
    (hpermits : v.permits = s.permits) : Calm s v where
  time := htime
  settings := hsettings
  armTable := htable
  standing i := by rw [State.device, hdevices, State.device]
  bits k hk := by rw [hport]; exact hk
  cards := by rw [hpermits]

theorem Calm.of_sans {s v : State} (h : v.sansAdditive = s.sansAdditive) : Calm s v :=
  .of_fields (time_of_sans h) (by rw [batch_of_sans h]) (by rw [batch_of_sans h]) (by rw [scan_of_sans h]) (port_of_sans h)
    (permits_of_sans h)

theorem Calm.armEntry {s v : State} (h : Calm s v) (n : Arm) : v.armEntry n = s.armEntry n := by
  rw [State.armEntry, h.armTable, State.armEntry]

theorem Calm.meterOnline {s v : State} (h : Calm s v) (n : Arm) : v.meterOnline n = s.meterOnline n := by
  have hstanding : ∀ (u : State) (i : DevIx), (u.deviceOfKind i .meter).any (fun d => d.state = .online) =
      ((u.device i).map Device.standing).any fun p => p.1 = .meter && p.2 = .online := fun u i => by
    rw [State.deviceOfKind]
    cases u.device i with
    | none => rfl
    | some d => by_cases hk : d.kind = .meter <;> simp [Device.standing, hk]
  unfold State.meterOnline
  rw [h.armEntry]
  simp only [hstanding, h.standing]

theorem raiseNotice_bit (s : State) (kind : NoticeKind) (subject : Subject) (code : Byte) (h : kind.number < 16) :
    (s.raiseNotice kind subject code).port.pendingSet.getLsbD kind.number = true := by
  have hone : (1#16 <<< kind.number).getLsbD kind.number = true := by simp [h]
  exact (BitVec.getLsbD_or ..).trans (by rw [hone, Bool.or_true])

theorem raiseNotice_calm (s : State) (kind : NoticeKind) (subject : Subject) (code : Byte) : Calm s (s.raiseNotice kind subject code) where
  time := rfl
  settings := rfl
  armTable := rfl
  standing _ := rfl
  bits k hk := (BitVec.getLsbD_or ..).trans (by rw [hk, Bool.true_or])
  cards := rfl

theorem showCode_standing (d : Device) (l : Lane) (c : DisplayCode) : (d.showCode l c).standing = d.standing := by
  unfold Device.showCode
  split <;> rfl

theorem post_calm (s : State) (l : Lane) (c : DisplayCode) : Calm s (s.post l c) where
  time := post_time ..
  settings := by rw [post_batch]
  armTable := by rw [post_batch]
  standing i := by
    unfold State.post
    split
    · have hget : (s.scan.devices.map fun d => d.map fun d => d.showCode l c)[i] = (s.device i).map fun d => d.showCode l c :=
        Vector.getElem_map ..
      refine (congrArg (Option.map Device.standing) hget).trans ?_
      rw [Option.map_map]
      exact congrArg (fun f => (s.device i).map f) (funext fun d => showCode_standing d l c)
    · rfl
  bits k hk := by rw [post_port]; exact hk
  cards := by rw [post_permits]

/-! ### Operations at one arm -/

/-- What a batch keeps whatever its state: its lane, its totals and its resumptions. -/
def Batch.tally (b : Batch) : Lane × Nat × Nat × Nat × Nat := (b.lane, b.raw, b.gross, b.net, b.resumed)

/-- The batch after keeps the tally of the batch before, and its flowed mark once set. -/
def Carries (b c : Option Batch) : Prop := c.map Batch.tally = b.map Batch.tally ∧ (b.any Batch.flowed = true → c.any Batch.flowed = true)

theorem Carries.refl (b : Option Batch) : Carries b b := ⟨rfl, id⟩

theorem Carries.trans {b c d : Option Batch} (h : Carries b c) (k : Carries c d) : Carries b d := ⟨k.1.trans h.1, k.2 ∘ h.2⟩

theorem Carries.map (b : Option Batch) {f : Batch → Batch} (hf : ∀ b, (f b).tally = b.tally ∧ (b.flowed = true → (f b).flowed = true)) :
    Carries b (b.map f) := by
  cases b with
  | none => exact .refl none
  | some b => exact ⟨congrArg some (hf b).1, (hf b).2⟩

theorem Carries.lane {b c : Option Batch} (h : Carries b c) : c.map Batch.lane = b.map Batch.lane := by
  have hmap := congrArg (Option.map Prod.fst) h.1
  rw [Option.map_map, Option.map_map] at hmap
  exact hmap

/-- Arm n alone changes, keeps its pending starts and carries its batch; loads and notes stand. -/
structure OnArm (n : Arm) (s v : State) : Prop where
  calm : Calm s v
  others : ∀ k, k ≠ n → v.arm k = s.arm k
  starts : (v.arm n).starts = (s.arm n).starts
  carries : Carries (s.holder n) (v.holder n)
  load : v.load = s.load
  note : v.note = s.note

namespace OnArm

variable {n : Arm} {s t v : State}

theorem refl (n : Arm) (s : State) : OnArm n s s := ⟨.refl s, fun _ _ => rfl, rfl, .refl _, rfl, rfl⟩

theorem trans (h : OnArm n s t) (k : OnArm n t v) : OnArm n s v where
  calm := h.calm.trans k.calm
  others m hm := (k.others m hm).trans (h.others m hm)
  starts := k.starts.trans h.starts
  carries := h.carries.trans k.carries
  load := k.load.trans h.load
  note := k.note.trans h.note

theorem of_sans (h : v.sansAdditive = s.sansAdditive) : OnArm n s v :=
  ⟨.of_sans h, fun k _ => arm_of_sans h k, by rw [arm_of_sans h],
    by rw [holder_of_sans h]; exact .refl _, load_of_sans h, note_of_sans h⟩

theorem setArm {r : ArmRec} (hstarts : r.starts = (s.arm n).starts) (hcarries : Carries (s.holder n) r.holder) :
    OnArm n s (s.setArm n r) :=
  ⟨.of_fields rfl rfl rfl rfl rfl rfl, fun _ hk => arm_setArm_other s hk r, by rw [arm_setArm_self, hstarts],
    by rw [holder_setArm_self]; exact hcarries, rfl, rfl⟩

section After

variable {u : State} (h : OnArm n s u)

include h

theorem raiseNotice (kind : NoticeKind) (subject : Subject) (code : Byte) : OnArm n s (u.raiseNotice kind subject code) :=
  h.trans ⟨raiseNotice_calm .., fun _ _ => rfl, rfl, .refl _, rfl, rfl⟩

theorem setMetering (k : Arm) (m : Metering) : OnArm n s (u.setMetering k m) :=
  h.trans ⟨.of_fields rfl rfl rfl rfl rfl rfl, fun _ _ => rfl, rfl, .refl _, rfl, rfl⟩

theorem modBatch {f : Batch → Batch} (hf : ∀ b, (f b).tally = b.tally ∧ (b.flowed = true → (f b).flowed = true)) :
    OnArm n s (u.modBatch n f) := h.trans (.setArm rfl (.map _ hf))

theorem setDesired (st : Stage) : OnArm n s (u.setDesired n st) :=
  (h.trans (.setArm (want_starts ..) (by rw [want_holder]; exact .refl _))).trans (.of_sans (setDesired_sans u n st))

theorem setBatchState (st : BatchState) : OnArm n s (u.setBatchState n st) := by
  unfold State.setBatchState
  split
  · exact h
  · refine OnArm.setDesired ?_ _
    exact h.modBatch fun _ => ⟨rfl, id⟩

theorem startStopTimerIfLost : OnArm n s (u.startStopTimerIfLost n) := by
  unfold State.startStopTimerIfLost
  split
  · exact h
  · exact h.modBatch fun _ => ⟨rfl, id⟩

theorem leaveFlowing : OnArm n s (u.leaveFlowing n) := h.trans (.of_sans (leaveFlowing_sans ..))

theorem enterStopping (r : StopReason) : OnArm n s (u.enterStopping n r) := by
  refine leaveFlowing (startStopTimerIfLost (OnArm.setBatchState ?_ _))
  exact h.modBatch fun _ => ⟨rfl, id⟩

theorem stopBatch (r : StopReason) : OnArm n s (u.stopBatch n r) := by
  refine OnArm.raiseNotice (OnArm.enterStopping ?_ r) ..
  exact h.modBatch fun _ => ⟨rfl, id⟩

theorem haltBatch (r : StopReason) : OnArm n s (u.haltBatch n r) := by
  unfold State.haltBatch
  split
  · exact h.stopBatch r
  · exact h

theorem noticeFault (required : Bool) (cause : FaultCause) : OnArm n s (u.noticeFault n required cause) := by
  unfold State.noticeFault
  dsimp only
  split
  · exact h.raiseNotice ..
  · exact (h.raiseNotice ..).modBatch fun _ => ⟨rfl, id⟩

theorem setSchedules (cs : List Schedule) : OnArm n s (u.setSchedules n cs) := h.trans (.of_sans (setSchedules_sans ..))

theorem createSchedule (r : RecipeSlot) : OnArm n s (u.createSchedule n r) := by
  have hclamp : OnArm n s (if u.intervalClamped r then (u.setSchedules n (u.schedules n ++ [u.newSchedule n r])).setBatchExc n .doseClamp
      else u.setSchedules n (u.schedules n ++ [u.newSchedule n r])) := by
    split
    · exact (h.setSchedules _).modBatch fun _ => ⟨rfl, id⟩
    · exact h.setSchedules _
  unfold State.createSchedule
  dsimp only
  split
  · exact hclamp.noticeFault ..
  · exact hclamp

theorem createSchedules (product : Byte) : OnArm n s (u.createSchedules n product) := by
  have hfold : ∀ (rs : List RecipeSlot) (w : State), OnArm n s w → OnArm n s (rs.foldl (fun s r => s.createSchedule n r) w) := fun rs => by
    induction rs with
    | nil => exact fun _ hw => hw
    | cons r rs ih => exact fun w hw => ih _ (hw.createSchedule r)
  exact hfold _ _ (h.setSchedules [])

theorem firstStartup : OnArm n s (u.firstStartup n) := by
  refine OnArm.setMetering ?_ ..
  exact h.modBatch fun _ => ⟨rfl, fun _ => rfl⟩

theorem stopIfAtLead : OnArm n s (u.stopIfAtLead n) := by
  unfold State.stopIfAtLead
  split
  · exact h.enterStopping _
  · exact h

end After

end OnArm

/-- The entry to STARTUP with its no-flow timer (R83 steps 1 and 2, R86). -/
def State.startupTimed (s : State) (n : Arm) : State :=
  let s1 := (s.setBatchState n .startup).modBatch n fun b => { b with overspeed := 0, noFlow := 0 }
  if s1.reportsOpen n then s1.startNoFlowTimer n else s1

/-- The entry to STARTUP before its notice (R83 steps 1 to 4). -/
def State.startupBegun (s : State) (n : Arm) (b : Batch) : State :=
  if b.flowed then s.startupTimed n else ((s.startupTimed n).firstStartup n).createSchedules n b.product

/-- The entry to STARTUP before the halt for a FAULTED REQUIRED schedule (R83 steps 5 and 6). -/
def State.startupNoticed (s : State) (n : Arm) (b : Batch) : State :=
  ((s.startupBegun n b).raiseNotice .batchStarted (.arm n) (if b.flowed then 0x01#8 else 0x00#8)).stopIfAtLead n

theorem enterStartup_eq (s : State) (n : Arm) (b : Batch) : s.enterStartup n b =
    if (s.startupNoticed n b).requiredFaulted n then (s.startupNoticed n b).haltBatch n .additive else s.startupNoticed n b := rfl

theorem startupTimed_onArm (s : State) (n : Arm) : OnArm n s (s.startupTimed n) := by
  have hset : OnArm n s ((s.setBatchState n .startup).modBatch n fun b => { b with overspeed := 0, noFlow := 0 }) :=
    ((OnArm.refl n s).setBatchState _).modBatch fun _ => ⟨rfl, id⟩
  unfold State.startupTimed
  dsimp only
  split
  · exact hset.modBatch fun _ => ⟨rfl, id⟩
  · exact hset

theorem startupBegun_onArm (s : State) (n : Arm) (b : Batch) : OnArm n s (s.startupBegun n b) := by
  unfold State.startupBegun
  split
  · exact startupTimed_onArm s n
  · exact (startupTimed_onArm s n).firstStartup.createSchedules _

theorem enterStartup_onArm (s : State) (n : Arm) (b : Batch) : OnArm n s (s.enterStartup n b) := by
  have hnoticed : OnArm n s (s.startupNoticed n b) := ((startupBegun_onArm s n b).raiseNotice ..).stopIfAtLead
  rw [enterStartup_eq]
  split
  · exact hnoticed.haltBatch _
  · exact hnoticed

theorem tryStartup_onArm (s : State) (n : Arm) : OnArm n s (s.tryStartup n) := by
  unfold State.tryStartup
  split
  · exact .refl n s
  · split
    · exact enterStartup_onArm ..
    · exact .refl n s

/-! ### A batch created for another lane (R79, R82) -/

/-- What serving the pending starts of a free arm keeps for a lane that none of them names. -/
structure Served (n : Arm) (l : Lane) (s v : State) : Prop where
  calm : Calm s v
  others : ∀ k, k ≠ n → v.arm k = s.arm k
  starts : ∀ q ∈ (v.arm n).starts, q.lane ≠ l
  holder : ∀ c, v.holder n = some c → c.lane ≠ l
  lane : v.lane l = s.lane l
  note : v.note = s.note

theorem reportLoading_lane_other (s : State) {l k : Lane} (h : k ≠ l) (comp : Nat) (n : Arm) :
    (s.reportLoading l comp n).lane k = s.lane k := lane_setLane_other s h _

theorem modEntry_calm (s : State) (l : Lane) (comp : Nat) (f : CompEntry → CompEntry) : Calm s (s.modEntry l comp f) :=
  .of_fields rfl rfl rfl rfl rfl rfl

theorem setArm_calm (s : State) (n : Arm) (r : ArmRec) : Calm s (s.setArm n r) := .of_fields rfl rfl rfl rfl rfl rfl

theorem createBatch_served {s : State} {n : Arm} {l k : Lane} (hl : l ≠ k) (hstarts : ∀ q ∈ (s.arm n).starts, q.lane ≠ k) (comp : Nat)
    (product : Byte) (preset : Nat) : Served n k s (s.createBatch n l comp product preset) := by
  let s1 := s.setArm n { s.arm n with holder := some (Batch.new l comp product preset) }
  let s2 := s1.setDesired n .closed
  let s3 := (s2.reportLoading l comp n).post l .loading
  have hdesired : OnArm n s1 s2 := (OnArm.refl n s1).setDesired .closed
  have htry := tryStartup_onArm s3 n
  have harm1 : s1.arm n = { s.arm n with holder := some (Batch.new l comp product preset) } := arm_setArm_self ..
  have harm3 : ∀ m, s3.arm m = s2.arm m := fun m => post_arm ..
  have hcalm : Calm s (s3.tryStartup n) := (setArm_calm s n _).trans (hdesired.calm.trans ((modEntry_calm s2 l comp _).trans
    ((post_calm (s2.reportLoading l comp n) l .loading).trans htry.calm)))
  have hlane : (s3.holder n).map Batch.lane = some l :=
    (congrArg (fun r : ArmRec => r.holder.map Batch.lane) (harm3 n)).trans (hdesired.carries.lane.trans (by rw [State.holder, harm1]; rfl))
  have hstarts3 : (s3.arm n).starts = (s.arm n).starts :=
    (congrArg ArmRec.starts (harm3 n)).trans (hdesired.starts.trans (by rw [harm1]))
  have hlane2 : s2.lane k = s.lane k := by rw [State.lane, hdesired.load]; rfl
  have hlane3 : s3.lane k = s.lane k := (post_lane ..).trans ((reportLoading_lane_other _ hl.symm comp n).trans hlane2)
  refine ⟨hcalm, fun m hm => (htry.others m hm).trans ((harm3 m).trans ((hdesired.others m hm).trans (arm_setArm_other s hm _))),
    fun q hq => hstarts q ?_, fun c hc => ?_, ?_, htry.note.trans ((post_note ..).trans (hdesired.note.trans rfl))⟩
  · exact (htry.starts.trans hstarts3) ▸ hq
  · have hmap := htry.carries.lane.trans hlane
    rw [show (s3.tryStartup n).holder n = some c from hc, Option.map_some, Option.some.injEq] at hmap
    exact hmap ▸ hl
  · refine Eq.trans ?_ hlane3
    show (s3.tryStartup n).lane k = s3.lane k
    rw [State.lane, htry.load, State.lane]

theorem Served.after {n : Arm} {l : Lane} {s t v : State} (h : Served n l t v) (hcalm : Calm s t) (hothers : ∀ k, k ≠ n → t.arm k = s.arm k)
    (hlane : t.lane l = s.lane l) (hnote : t.note = s.note) : Served n l s v where
  calm := hcalm.trans h.calm
  others k hk := (h.others k hk).trans (hothers k hk)
  starts := h.starts
  holder := h.holder
  lane := h.lane.trans hlane
  note := h.note.trans hnote

theorem serveStarts_served {n : Arm} {l : Lane} (starts : List PendingStart) : ∀ {s : State}, s.holder n = none →
    (∀ q ∈ starts, q.lane ≠ l) → (∀ q ∈ (s.arm n).starts, q.lane ≠ l) → Served n l s (s.serveStarts n starts) := by
  induction starts with
  | nil =>
    intro s hfree _ hs
    exact ⟨.refl s, fun _ _ => rfl, hs, fun c hc => (nomatch hfree.symm.trans hc), rfl, rfl⟩
  | cons p rest ih =>
    intro s hfree hlanes _
    obtain ⟨hp, hrest⟩ := List.forall_mem_cons.mp hlanes
    generalize hs1 : s.setArm n { s.arm n with starts := rest } = s1
    have harm1 : s1.arm n = { s.arm n with starts := rest } := by rw [← hs1]; exact arm_setArm_self ..
    have hfree1 : s1.holder n = none := by rw [State.holder, harm1]; exact hfree
    have hrest1 : ∀ q ∈ (s1.arm n).starts, q.lane ≠ l := by
      rw [harm1]
      exact hrest
    have hstep : Served n l s1 (s.serveStarts n (p :: rest)) := by
      rw [State.serveStarts, hs1]
      split
      · exact ih hfree1 hrest hrest1
      · split
        case h_1 c _ =>
          have hserved := ih (s := s1.post p.lane c) ((post_holder ..).trans hfree1) hrest (by rw [post_arm]; exact hrest1)
          exact hserved.after (post_calm ..) (fun _ _ => post_arm ..) (post_lane ..) (post_note ..)
        case h_2 => exact createBatch_served hp hrest1 ..
    refine hstep.after ?_ (fun k hk => ?_) ?_ ?_ <;> rw [← hs1]
    · exact setArm_calm ..
    · exact arm_setArm_other s hk _
    · rfl
    · rfl

end Sys2Proof.Machine
end

section
/-! PROOF. DONE where the starts that wait for the arm are those of the other lane (R82, R96, R144 to R146). -/

namespace Sys2Proof.Machine

/-! ### The lane with one batch fewer -/

theorem lanesArms_eq_nil_iff (s : State) (l : Lane) : s.lanesArms l = [] ↔ ∀ n b, s.holder n = some b → b.lane ≠ l := by
  simp only [State.lanesArms, List.filter_eq_nil_iff, mem_allArms, true_implies, Option.any_eq_true, decide_eq_true_eq, not_exists,
    not_and]

theorem closeLoad_arm (s : State) (l : Lane) (n : Arm) : (s.closeLoad l).arm n = s.arm n := by
  unfold State.closeLoad
  split <;> rfl

theorem closeIfIdle_arm (s : State) (l : Lane) (n : Arm) : (s.closeIfIdle l).arm n = s.arm n := by
  unfold State.closeIfIdle
  split
  · exact closeLoad_arm ..
  · rfl

theorem closeLoad_endReason (s : State) (l : Lane) : ((s.closeLoad l).lane l).endReason = (s.lane l).endReason := by
  cases h : (s.lane l).load with
  | none => rw [State.closeLoad, h]
  | some x =>
    rw [State.closeLoad, h]
    exact (congrArg LaneRec.endReason (lane_setLane_self s l { s.lane l with
      state := .closing, load := some { x with endTime := some s.time.record } })).trans rfl

theorem closeLoad_state {s : State} {l : Lane} {x : Load} (h : (s.lane l).load = some x) : ((s.closeLoad l).lane l).state = .closing := by
  rw [State.closeLoad, h]
  exact congrArg LaneRec.state (lane_setLane_self ..)

/-- The lane is ENDING, or CLOSING with no batch left, and its end reason stands. -/
structure Winding (v : State) (l : Lane) (r : Option EndReason) : Prop where
  reason : (v.lane l).endReason = r
  state : (v.lane l).state = .ending ∨ (v.lane l).state = .closing ∧ v.lanesArms l = []

theorem lanesArms_of_arms {s t : State} (h : ∀ n, t.arm n = s.arm n) (l : Lane) : t.lanesArms l = s.lanesArms l := by
  have hholder : ∀ n, t.holder n = s.holder n := fun n => by rw [State.holder, h, State.holder]
  simp only [State.lanesArms, hholder]

theorem closeIfIdle_winding {s : State} {l : Lane} {r : Option EndReason} (h : Winding s l r) : Winding (s.closeIfIdle l) l r := by
  have harms := lanesArms_of_arms (closeIfIdle_arm s l) l
  refine ⟨?_, ?_⟩
  · unfold State.closeIfIdle
    split
    · exact (closeLoad_endReason ..).trans h.reason
    · exact h.reason
  · rw [harms]
    by_cases hidle : (s.lane l).state = .ending ∧ s.lanesArms l = []
    · rw [State.closeIfIdle, if_pos hidle]
      cases hload : (s.lane l).load with
      | none =>
        rw [State.closeLoad, hload]
        exact h.state
      | some x => exact .inr ⟨closeLoad_state hload, hidle.2⟩
    · rw [State.closeIfIdle, if_neg hidle]
      exact h.state

/-- With a load, a lane with no batch left is CLOSING. -/
theorem closeIfIdle_closing {s : State} {l : Lane} {r : Option EndReason} (h : Winding s l r) (hidle : s.lanesArms l = [])
    (hload : (s.lane l).load.isSome) : ((s.closeIfIdle l).lane l).state = .closing := by
  obtain ⟨x, hx⟩ := Option.isSome_iff_exists.mp hload
  rcases h.state with hst | ⟨hst, -⟩
  · rw [State.closeIfIdle, if_pos ⟨hst, hidle⟩]
    exact closeLoad_state hx
  · rw [State.closeIfIdle, if_neg (by rw [hst]; exact fun hc => nomatch hc.1)]
    exact hst

theorem closeIfIdle_calm (s : State) (l : Lane) : Calm s (s.closeIfIdle l) := by
  unfold State.closeIfIdle State.closeLoad
  split
  · split
    · exact .refl s
    · exact .of_fields rfl rfl rfl rfl rfl rfl
  · exact .refl s

theorem setLane_calm (s : State) (l : Lane) (r : LaneRec) : Calm s (s.setLane l r) := .of_fields rfl rfl rfl rfl rfl rfl

theorem markEnding_calm (s : State) (l : Lane) (r : EndReason) : Calm s (s.markEnding l r) :=
  (setLane_calm ..).trans (post_calm (s.setLane l { s.lane l with state := .ending, endReason := some r }) l
    .loadClosing)

theorem dropLaneStarts_calm (s : State) (l : Lane) : Calm s (s.dropLaneStarts l) := .of_fields rfl rfl rfl rfl rfl rfl

theorem oneFewer_calm (s : State) (l : Lane) : Calm s (s.oneFewer l) := by
  unfold State.oneFewer
  split
  · exact ((markEnding_calm ..).trans (dropLaneStarts_calm ..)).trans (closeIfIdle_calm ..)
  · exact closeIfIdle_calm s l

/-! ### The release of the arm -/

theorem chargeLoad_calm (s : State) (l : Lane) (dl : Nat) : Calm s (s.chargeLoad l dl) := by
  have hcards : (s.chargedFor l dl).map Permit.card = s.permits.map Permit.card := by
    rw [State.chargedFor]
    cases (s.lane l).load with
    | none => rfl
    | some x =>
      refine (List.map_map ..).trans (List.map_congr_left fun q _ => ?_)
      show (if q.card = x.card then q.charge s.today dl else q).card = q.card
      split
      · rw [Permit.charge, roll_frame]
      · rfl
  rw [chargeLoad_eq]
  exact ⟨rfl, rfl, rfl, fun _ => rfl, fun _ hk => hk, hcards⟩

theorem released_calm (s : State) (n : Arm) (b : Batch) : Calm s (s.released n b) := by
  have hdone : Calm s (((s.setBatchState n .done).modBatch n Batch.stopTimers).armTargetGone b.lane n) :=
    (((OnArm.refl n s).setBatchState .done).modBatch (f := Batch.stopTimers) fun _ => ⟨rfl, id⟩).calm.trans
      (.of_fields rfl rfl rfl rfl rfl rfl)
  unfold State.released
  dsimp only
  generalize ((s.setBatchState n .done).modBatch n Batch.stopTimers).armTargetGone b.lane n = s1 at hdone ⊢
  generalize b.noteShort (s.results n b) = c
  have hentered := (hdone.trans (.of_sans (closeSchedules_sans s1 n))).trans (modEntry_calm _ b.lane c.compartment
    fun e => e.result n c (s.results n b))
  have hlearned := (hentered.trans (chargeLoad_calm _ b.lane (toDl c.gross))).trans (by rw [learnLead_eq]; exact setArm_calm .. :
    Calm _ (State.learnLead _ n c))
  have hposted := (hlearned.trans (raiseNotice_calm _ .batchDone (.arm n) (stopCode c.stopReason))).trans (post_calm _ b.lane .complete)
  generalize State.post _ b.lane .complete = s4 at hposted ⊢
  exact hposted.trans ((setArm_calm s4 n { s4.arm n with holder := none, excess := 0 }).trans
    ((OnArm.refl n _).setDesired .closed).calm)

/-! ### DONE (R96, R82, R144) -/

/-- What the end of a batch leaves where the starts that wait for its arm are of the other lane. -/
structure DoneServed (s v : State) (n : Arm) (b : Batch) : Prop where
  calm : Calm s v
  others : ∀ k, k ≠ n → v.holder k = s.holder k
  armsOthers : (s.lane b.lane).state ≠ .opened → ∀ k, k ≠ n → v.arm k = s.arm k
  holder : ∀ c, v.holder n = some c → c.lane ≠ b.lane
  free : (s.arm n).starts = [] → v.holder n = none
  starts : ∀ q ∈ (v.arm n).starts, q.lane ≠ b.lane
  entries : ∀ x, (s.lane b.lane).load = some x → ∃ y, (v.lane b.lane).load = some y ∧ y.entries = x.entries.map fun c =>
    if c.compartment = b.compartment then c.result n (b.noteShort (s.results n b)) (s.results n b) else c
  bit : v.port.pendingSet.getLsbD NoticeKind.batchDone.number = true
  winding : ∀ r, (s.lane b.lane).state = .ending → (s.lane b.lane).endReason = r → Winding v b.lane r

theorem batchDone_served {s : State} {n : Arm} {b : Batch} (h : s.holder n = some b) (hs : ∀ q ∈ (s.arm n).starts, q.lane ≠ b.lane) :
    DoneServed s (s.batchDone n) n b := by
  have harm := released_arm_self h
  have hfree : (s.released n b).holder n = none := by
    rw [State.holder, harm]
    rfl
  have hstarts : ∀ q ∈ ((s.released n b).arm n).starts, q.lane ≠ b.lane := by
    rw [harm, State.releasedArm, want_starts]
    exact hs
  have hserved := serveStarts_served ((s.released n b).arm n).starts hfree hstarts hstarts
  rw [batchDone_eq h]
  have hempty : (s.arm n).starts = [] → (s.released n b).serveStarts n ((s.released n b).arm n).starts = s.released n b := fun hnone => by
    rw [harm, State.releasedArm, want_starts, hnone]
    rfl
  generalize (s.released n b).serveStarts n ((s.released n b).arm n).starts = t at hserved hempty ⊢
  have hfewer := oneFewer_fewer t b.lane
  have harms : ∀ k, (t.oneFewer b.lane).holder k = t.holder k := fun k => by
    rw [State.holder, hfewer.arm_eq k]
    rfl
  have hlane : t.lane b.lane = s.resultLane n b := hserved.lane.trans (released_lane_self h)
  have hbit : (s.released n b).port.pendingSet.getLsbD NoticeKind.batchDone.number = true := by
    rw [(released_core h).port]
    exact raiseNotice_bit _ .batchDone (.arm n) _ (by decide)
  have hclose : (s.lane b.lane).state ≠ .opened → t.oneFewer b.lane = t.closeIfIdle b.lane := fun hne => by
    refine if_neg fun hopen => hne ?_
    rw [← hopen.1, hlane]
    rfl
  refine {
    calm := ((released_calm s n b).trans hserved.calm).trans (oneFewer_calm ..)
    others := fun k hk => ?_
    armsOthers := fun hne k hk => ?_
    holder := fun c hc => hserved.holder c ((harms n).symm.trans hc)
    free := fun hnone => ?_
    starts := fun q hq => hserved.starts q ((hfewer.starts n).subset hq)
    entries := fun x hx => ?_
    bit := ?_
    winding := fun r hst hr => ?_ }
  · rw [harms, State.holder, hserved.others k hk, released_arm_other h hk]
    rfl
  · rw [hclose hne, closeIfIdle_arm, hserved.others k hk, released_arm_other h hk]
  · rw [harms, hempty hnone, hfree]
  · have hload : (t.lane b.lane).load = some (x.modEntry b.compartment fun e =>
        e.result n (b.noteShort (s.results n b)) (s.results n b)) := by
      rw [hserved.lane]
      exact released_load h hx
    obtain ⟨y, hy, he⟩ := hfewer.entries _ hload
    exact ⟨y, hy, he⟩
  · exact (oneFewer_calm t b.lane).bits _ (hserved.calm.bits _ hbit)
  · rw [hclose (by rw [hst]; exact nofun)]
    refine closeIfIdle_winding ⟨?_, .inl ?_⟩
    · rw [hlane]
      exact hr
    · rw [hlane]
      exact hst

end Sys2Proof.Machine
end

section
/-! PROOF. A station's events: START with no OPEN load, STOP and ESTOP (R33, R34, R92, R93, R143). -/

namespace Sys2Proof.Machine

/-! ### The list (R33, R34) -/

theorem exec_stationEvents {s : State} {t : Transaction} {d : Device} {l : Lane} (haw : s.AwaitsOnline t d) (hstep : t.step = .scan)
    (htel : t.telegram = .poll) (hk : d.kind = .station) (ha : d.assoc = .lane l) {es : List StationEvent} (hlen : es.length ≤ 4)
    (hfits : es.all StationEvent.fits = true) :
    exec (.stationEventList es) s = .next ((s.polled t.device d).stationEvents l es).settle :=
  congrArg (fun v => Host.Outcome.next (State.settle v)) (deliver_stationEvents haw hstep htel hk ha
    (Bool.and_eq_true_iff.mpr ⟨decide_eq_true hlen, hfits⟩))

theorem startEvent_of_no_load {s : State} {l : Lane} (h : (s.lane l).state = .none) (arm comp : Byte) :
    s.startEvent l arm comp = s.post l .noLoad := by
  rw [State.startEvent, h]

theorem startEvent_of_closing {s : State} {l : Lane} (h : (s.lane l).state = .ending ∨ (s.lane l).state = .closing) (arm comp : Byte) :
    s.startEvent l arm comp = s.post l .loadClosing := by
  rw [State.startEvent]
  rcases h with h | h <;> rw [h]

/-! ### Every batch of the lane halted (R92, R93) -/

/-- The lane's pending starts go, and its batches are halted in turn. -/
def State.haltLane (s : State) (l : Lane) (r : StopReason) : State :=
  (s.dropLaneStarts l).haltWhere (fun _ b => Decidable.decide (b.lane = l)) r

theorem stationEvent_estop (s : State) (l : Lane) : s.stationEvent l .estop = s.haltLane l .estop := rfl

theorem stationEvent_stopAll (s : State) (l : Lane) : s.stationEvent l (.stop 0xFF#8) = s.haltLane l .driver := rfl

theorem dropLaneStarts_holder (s : State) (l : Lane) (n : Arm) : (s.dropLaneStarts l).holder n = s.holder n := by
  rw [State.holder, dropLaneStarts_arm, State.holder]

section HaltLane

variable (s : State) (l : Lane) (r : StopReason) {n : Arm}

theorem haltLane_starts : ((s.haltLane l r).arm n).starts = (s.arm n).starts.filter fun p => p.lane ≠ l := by
  have hdropped : ((s.dropLaneStarts l).arm n).starts = (s.arm n).starts.filter fun p => p.lane ≠ l := by rw [dropLaneStarts_arm]
  rw [← hdropped, State.haltLane]
  by_cases h : ∃ b, (s.dropLaneStarts l).holder n = some b ∧ b.lane = l ∧ b.state.haltable = true
  · obtain ⟨b, hb, hl, hh⟩ := h
    rw [haltWhere_arm_self hb (decide_eq_true hl) hh, State.haltedArm, want_starts]
  · rw [haltWhere_arm_other fun b hb => ?_]
    by_cases hl : b.lane = l
    · exact .inr (Bool.eq_false_iff.mpr fun hh => h ⟨b, hb, hl, hh⟩)
    · exact .inl (decide_eq_false hl)

theorem haltLane_halts {b : Batch} (hb : s.holder n = some b) (hl : b.lane = l) (hh : b.state.haltable = true) :
    (s.haltLane l r).HaltedFor n r :=
  haltedFor_of_arm (haltWhere_arm_self (s := s.dropLaneStarts l) ((dropLaneStarts_holder ..).trans hb) (decide_eq_true hl) hh)

theorem haltLane_idle (h : ∀ b, s.holder n = some b → b.lane ≠ l ∨ b.state.haltable = false) :
    (s.haltLane l r).holder n = s.holder n ∧ ((s.haltLane l r).arm n).desired = (s.arm n).desired := by
  have harm : (s.haltLane l r).arm n = (s.dropLaneStarts l).arm n := haltWhere_arm_other fun b hb => by
    rw [dropLaneStarts_holder] at hb
    exact (h b hb).imp decide_eq_false id
  rw [State.holder, harm, dropLaneStarts_arm]
  exact ⟨rfl, rfl⟩

end HaltLane

/-! ### STOP at one arm (R93) -/

theorem fits_stop (n : Arm) : StationEvent.fits (.stop (BitVec.ofNat 8 n.val)) = true := by
  revert n
  decide

theorem stationEvent_stop (s : State) (l : Lane) (n : Arm) :
    s.stationEvent l (.stop (BitVec.ofNat 8 n.val)) = s.stopArm l n := by
  rw [State.stationEvent, State.stopEvent, armOf_ofNat]

theorem dropStart_holder (s : State) (l : Lane) (n : Arm) : (s.dropStart n l).holder n = s.holder n := holder_setArm_self ..

section StopArm

variable {s : State} {l : Lane} {n : Arm}

theorem stopArm_of_free (h : s.holder n = none) : s.stopArm l n = s.dropStart n l := by
  rw [State.stopArm, dropStart_holder, h]

variable {b : Batch} (h : s.holder n = some b)

include h

theorem stopArm_of_other (hl : b.lane ≠ l) : s.stopArm l n = s.dropStart n l := by
  rw [State.stopArm, dropStart_holder, h]
  exact if_pos hl

theorem stopArm_of_halted (hl : b.lane = l) (hst : b.state = .halted) :
    s.stopArm l n = ((s.dropStart n l).setReason n .driver).batchDone n := by
  rw [State.stopArm, dropStart_holder, h]
  dsimp only
  rw [if_neg (not_not_intro hl), if_pos hst]

theorem stopArm_of_running (hl : b.lane = l) (hst : b.state ≠ .halted) :
    s.stopArm l n = (s.dropStart n l).haltBatch n .driver := by
  rw [State.stopArm, dropStart_holder, h]
  dsimp only
  rw [if_neg (not_not_intro hl), if_neg hst]

end StopArm

/-- Settles O47: the list event by event, then START, ESTOP and STOP by what stands at lane and arm. -/
theorem stationEventsHandled : Obligations.StationEventsHandled := by
  refine fun s t d l hs haw hstep htel hk ha => ?_
  intro u without halted haltsLane
  have hone : ∀ e, StationEvent.fits e = true → exec (.stationEventList [e]) s = .next (u.stationEvent l e).settle :=
    fun e he => exec_stationEvent haw hstep htel hk ha he
  have hlane : ∀ e r, StationEvent.fits e = true → u.stationEvent l e = u.haltLane l r → haltsLane e r := fun e r he hev =>
    ⟨u.haltLane l r, hev ▸ hone e he, fun n => ⟨haltLane_starts u l r, fun b hb hl hh => haltLane_halts u l r hb hl hh,
      fun hidle => haltLane_idle u l r hidle⟩⟩
  refine ⟨exec_stationEvents haw hstep htel hk ha (Nat.zero_le _) rfl, fun es hlen hfits => exec_stationEvents haw hstep htel hk ha
    hlen hfits, fun arm comp hfit => ⟨fun hnone => ?noLoad, fun hclosing => ?closing⟩, hlane _ _ rfl (stationEvent_estop ..),
    hlane _ _ rfl (stationEvent_stopAll ..), fun n => ?stop⟩
  case noLoad => rw [hone _ hfit, State.stationEvent, startEvent_of_no_load (s := u) hnone]
  case closing => rw [hone _ hfit, State.stationEvent, startEvent_of_closing (s := u) hclosing]
  case stop =>
    intro stop dropped
    have hstop : exec stop s = .next (u.stopArm l n).settle := by
      rw [hone _ (fits_stop n), stationEvent_stop]
    have hdropped : u.dropStart n l = dropped := rfl
    refine ⟨fun hfree => by rw [hstop, stopArm_of_free (s := u) hfree, hdropped], fun b hb => ⟨fun hidle => ?idle, fun hl hh => ?running,
      fun hl hst => ?done⟩⟩
    case idle =>
      by_cases hl : b.lane = l
      · have hst := hidle.resolve_left (not_not_intro hl)
        have hstill : (u.dropStart n l).haltBatch n .driver = u.dropStart n l := haltBatch_of_still (fun c hc => by
          rw [dropStart_holder] at hc
          rw [← Option.some.inj (hb.symm.trans hc), hst]
          rfl) _
        rw [hstop, stopArm_of_running (s := u) hb hl (by rw [hst]; exact nofun), hstill, hdropped]
      · rw [hstop, stopArm_of_other (s := u) hb hl, hdropped]
    case running =>
      rw [stopArm_of_running (s := u) hb hl fun hst => by rw [hst] at hh; exact Bool.noConfusion hh] at hstop
      have hholder : (u.dropStart n l).holder n = some b := (dropStart_holder ..).trans hb
      have harm := haltBatch_arm_self hholder hh .driver
      refine ⟨_, hstop, haltedFor_of_arm harm, ?_, haltBatch_port hholder hh .driver, fun k hk => ?_⟩
      · rw [harm, State.haltedArm, want_starts, State.dropStart, arm_setArm_self]
        rfl
      · exact (haltBatch_arm_other _ hk _).trans (arm_setArm_other u hk _)
    case done =>
      have hholder : (u.dropStart n l).holder n = some b := (dropStart_holder ..).trans hb
      have hreason : (u.dropStart n l).setReason n .driver = (u.dropStart n l).heldBy n { b with stopReason := some .driver } :=
        modBatch_eq_heldBy hholder _
      rw [stopArm_of_halted (s := u) hb hl hst, hreason] at hstop
      have hstarts : (((u.dropStart n l).heldBy n { b with stopReason := some .driver }).arm n).starts = without n := by
        rw [arm_heldBy_self, State.dropStart, arm_setArm_self]
        rfl
      have hout := batchDone_served (holder_heldBy (u.dropStart n l) n { b with stopReason := some .driver }) fun q hq => by
        rw [hstarts] at hq
        rw [hl]
        exact of_decide_eq_true (List.mem_filter.mp hq).2
      subst hl
      refine ⟨_, hstop, fun hnone => hout.free (hstarts.trans hnone), hout.holder, fun k hk => ?_, fun k hk => hk ▸ hout.bit,
        fun y hy => ?_⟩
      · exact (hout.others k hk).trans (congrArg ArmRec.holder ((arm_heldBy_other _ n _ hk).trans (arm_setArm_other u hk _)))
      · obtain ⟨z, hz, hentries⟩ := hout.entries y hy
        refine ⟨z, hz, hentries.trans ?_⟩
        simp only [result_noteShort]
        rfl

end Sys2Proof.Machine
end

section
/-! PROOF. The lane end request (R95, R145): what the turn of each arm leaves, and what stands when all have had theirs. -/

namespace Sys2Proof.Machine

/-! ### Compartments that are DONE -/

/-- Every entry of the compartment is DONE. -/
def Load.compDone (x : Load) (comp : Nat) : Prop := ∀ e ∈ x.entries, e.compartment = comp → e.state = .done

/-- The lane keeps its load, and a compartment once DONE stays so. -/
def DoneKept (u v : State) (l : Lane) : Prop :=
  ∀ x, (u.lane l).load = some x → ∃ y, (v.lane l).load = some y ∧ ∀ comp, x.compDone comp → y.compDone comp

theorem DoneKept.of_lane {u v : State} {l : Lane} (h : v.lane l = u.lane l) : DoneKept u v l :=
  fun x hx => ⟨x, by rw [h]; exact hx, fun _ hc => hc⟩

theorem DoneKept.trans {s u v : State} {l : Lane} (h : DoneKept s u l) (k : DoneKept u v l) : DoneKept s v l := fun x hx => by
  obtain ⟨y, hy, hxy⟩ := h x hx
  obtain ⟨z, hz, hyz⟩ := k y hy
  exact ⟨z, hz, fun comp hc => hyz comp (hxy comp hc)⟩

theorem DoneKept.of_fewer {u v : State} {l : Lane} (h : LaneFewer u v l) : DoneKept u v l := fun x hx => by
  obtain ⟨y, hy, he⟩ := h.entries x hx
  refine ⟨y, hy, fun comp hc => ?_⟩
  rw [Load.compDone, he]
  exact hc

theorem result_compartment (e : CompEntry) (n : Arm) (b : Batch) (rs : List AddResult) : (e.result n b rs).compartment = e.compartment := rfl

/-- A result makes its compartment DONE and leaves the others. -/
theorem compDone_of_result {x y : Load} {n : Arm} {b c : Batch} {rs : List AddResult}
    (h : y.entries = x.entries.map fun e => if e.compartment = b.compartment then e.result n c rs else e) :
    y.compDone b.compartment ∧ ∀ comp, x.compDone comp → y.compDone comp := by
  have hentry : ∀ e ∈ y.entries, e.state = .done ∨ e ∈ x.entries ∧ e.compartment ≠ b.compartment := fun e he => by
    rw [h] at he
    obtain ⟨e', he', rfl⟩ := List.mem_map.mp he
    split
    · exact .inl rfl
    · exact .inr ⟨he', by assumption⟩
  refine ⟨fun e he hc => ?_, fun comp hx e he hc => ?_⟩
  · exact (hentry e he).resolve_right fun hne => hne.2 hc
  · rcases hentry e he with hd | ⟨hmem, -⟩
    · exact hd
    · exact hx e hmem hc

/-! ### The turn of one arm (R95) -/

/-- The lane end request at one arm. -/
def State.endTurn (l : Lane) (r : EndReason) (s : State) (n : Arm) : State :=
  match s.holder n with
  | none => s
  | some b => if b.lane = l then s.endBatch n b r else s

theorem laneEnd_eq (s : State) (l : Lane) (r : EndReason) : s.laneEnd l r = allArms.foldl (State.endTurn l r) (s.dropLaneStarts l) := rfl

/-- What the turn of an arm leaves. -/
structure TurnOut (u v : State) (l : Lane) (r : EndReason) (m : Arm) : Prop where
  calm : Calm u v
  others : ∀ k, k ≠ m → v.arm k = u.arm k
  starts : ∀ q ∈ (v.arm m).starts, q.lane ≠ l
  winding : Winding v l (some r)
  load : DoneKept u v l

section Turn

variable {u : State} {l : Lane} {r : EndReason} {m : Arm}

theorem endTurn_of_other (h : ∀ b, u.holder m = some b → b.lane ≠ l) : u.endTurn l r m = u := by
  rw [State.endTurn]
  cases hb : u.holder m with
  | none => rfl
  | some b => exact if_neg (h b hb)

theorem TurnOut.refl (h : Winding u l (some r)) (hs : ∀ q ∈ (u.arm m).starts, q.lane ≠ l) : TurnOut u u l r m :=
  ⟨.refl u, fun _ _ => rfl, hs, h, .of_lane rfl⟩

section Held

variable {b : Batch} (hb : u.holder m = some b)

include hb

theorem endTurn_of_held (hl : b.lane = l) : u.endTurn l r m = u.endBatch m b r := by
  rw [State.endTurn, hb]
  exact if_pos hl

/-- While a batch of the lane is there the lane is ENDING. -/
theorem Winding.ending_of_held (h : Winding u l (some r)) (hl : b.lane = l) : (u.lane l).state = .ending :=
  h.state.resolve_right fun hc => (lanesArms_eq_nil_iff u l).mp hc.2 m b hb hl

theorem endBatch_of_flowing (hst : b.state.flowing = true) :
    u.endBatch m b r = (u.heldBy m { b with ending := true }).stopBatch m r.stopReason := by
  have hmark : u.markBatchEnding m = u.heldBy m { b with ending := true } := modBatch_eq_heldBy hb _
  rw [← hmark]
  unfold State.endBatch
  rcases flowing_iff.mp hst with hst | hst | hst <;> rw [hst]

theorem endBatch_of_stopping (hst : b.state = .stopping) : ∃ c, u.endBatch m b r = u.heldBy m c ∧ Carries (some b) (some c) ∧
    (r = .aborted → c = { b with stopReason := some .aborted, ending := true }) := by
  cases r with
  | driver =>
    refine ⟨{ b with ending := true }, ?_, ⟨rfl, id⟩, nofun⟩
    refine Eq.trans ?_ (modBatch_eq_heldBy hb fun b => { b with ending := true })
    unfold State.endBatch
    rw [hst]
    rfl
  | aborted =>
    refine ⟨{ b with stopReason := some .aborted, ending := true }, ?_, ⟨rfl, id⟩, fun _ => rfl⟩
    have hmarked : (u.setReason m .aborted).markBatchEnding m = u.heldBy m { b with stopReason := some .aborted, ending := true } := by
      rw [State.setReason, modBatch_eq_heldBy hb, State.markBatchEnding, modBatch_heldBy]
    refine Eq.trans ?_ hmarked
    unfold State.endBatch
    rw [hst]

theorem endBatch_of_still (hst : b.state = .armed ∨ b.state = .halted) : ∃ c, u.endBatch m b r = (u.heldBy m c).batchDone m ∧
    c.lane = b.lane ∧ c.compartment = b.compartment := by
  rcases hst with hst | hst
  · refine ⟨{ b with stopReason := some r.stopReason }, ?_, rfl, rfl⟩
    have hreason : u.setReason m r.stopReason = u.heldBy m { b with stopReason := some r.stopReason } := modBatch_eq_heldBy hb _
    rw [← hreason]
    unfold State.endBatch
    rw [hst]
  · refine ⟨b, ?_, rfl, rfl⟩
    rw [heldBy_of_holder hb]
    unfold State.endBatch
    rw [hst]

/-- A batch that is left as it is or stopped keeps its arm. -/
theorem turnOut_of_onArm (h : Winding u l (some r)) (hs : ∀ q ∈ (u.arm m).starts, q.lane ≠ l) (hl : b.lane = l) {v : State}
    (hv : OnArm m u v) : TurnOut u v l r m where
  calm := hv.calm
  others := hv.others
  starts := by rw [hv.starts]; exact hs
  winding := by
    have hlane : v.lane l = u.lane l := by rw [State.lane, hv.load, State.lane]
    exact ⟨by rw [hlane]; exact h.reason, .inl (by rw [hlane]; exact h.ending_of_held hb hl)⟩
  load := .of_lane (by rw [State.lane, hv.load, State.lane])

omit hb in
theorem heldBy_onArm {c : Batch} (hc : u.holder m = some b) (hcarries : Carries (some b) (some c)) : OnArm m u (u.heldBy m c) :=
  .setArm rfl (by rw [hc]; exact hcarries)

theorem endTurn_of_flowing (h : Winding u l (some r)) (hs : ∀ q ∈ (u.arm m).starts, q.lane ≠ l) (hl : b.lane = l)
    (hst : b.state.flowing = true) : TurnOut u (u.endTurn l r m) l r m ∧
      (u.endTurn l r m).arm m = (u.heldBy m { b with ending := true }).haltedArm m r.stopReason { b with ending := true } := by
  rw [endTurn_of_held hb hl, endBatch_of_flowing hb hst]
  have hout := stopBatch_out (holder_heldBy u m { b with ending := true }) r.stopReason
  exact ⟨turnOut_of_onArm hb h hs hl (.stopBatch (heldBy_onArm (c := { b with ending := true }) hb ⟨rfl, id⟩) _), hout.arm⟩

theorem endTurn_of_stopping (h : Winding u l (some r)) (hs : ∀ q ∈ (u.arm m).starts, q.lane ≠ l) (hl : b.lane = l)
    (hst : b.state = .stopping) : TurnOut u (u.endTurn l r m) l r m ∧
      ∃ c, (u.endTurn l r m).arm m = { u.arm m with holder := some c } ∧ c.lane = b.lane ∧
        (r = .aborted → c = { b with stopReason := some .aborted, ending := true }) := by
  obtain ⟨c, hc, hcarries, haborted⟩ := endBatch_of_stopping (r := r) hb hst
  rw [endTurn_of_held hb hl, hc]
  exact ⟨turnOut_of_onArm hb h hs hl (heldBy_onArm hb hcarries), c, arm_heldBy_self .., Option.some.inj hcarries.lane, haborted⟩

/-- What the turn leaves of an ARMED or HALTED batch: DONE. -/
structure StillOut (u v : State) (l : Lane) (m : Arm) (b : Batch) : Prop where
  holder : ∀ c, v.holder m = some c → c.lane ≠ l
  free : (u.arm m).starts = [] → v.holder m = none
  load : ∀ x, (u.lane l).load = some x → ∃ y, (v.lane l).load = some y ∧ y.compDone b.compartment

theorem endTurn_of_still (h : Winding u l (some r)) (hs : ∀ q ∈ (u.arm m).starts, q.lane ≠ l) (hl : b.lane = l)
    (hst : b.state = .armed ∨ b.state = .halted) : TurnOut u (u.endTurn l r m) l r m ∧ StillOut u (u.endTurn l r m) l m b := by
  obtain ⟨c, hc, hlane, hcomp⟩ := endBatch_of_still (r := r) hb hst
  rw [endTurn_of_held hb hl, hc]
  have hending := h.ending_of_held hb hl
  have hstarts : ((u.heldBy m c).arm m).starts = (u.arm m).starts := by rw [arm_heldBy_self]
  have hcl : c.lane = l := hlane.trans hl
  subst hcl
  have hout := batchDone_served (holder_heldBy u m c) (by rw [hstarts]; exact hs)
  have hload : ∀ x, (u.lane c.lane).load = some x → ∃ y, (((u.heldBy m c).batchDone m).lane c.lane).load = some y ∧
      y.compDone b.compartment ∧ ∀ comp, x.compDone comp → y.compDone comp := fun x hx => by
    obtain ⟨y, hy, he⟩ := hout.entries x hx
    rw [hcomp] at he
    exact ⟨y, hy, compDone_of_result he⟩
  refine ⟨⟨(setArm_calm ..).trans hout.calm, fun k hk => ?_, hout.starts, hout.winding _ hending h.reason, fun x hx => ?_⟩,
    hout.holder, fun hnone => hout.free (hstarts.trans hnone), fun x hx => ?_⟩
  · exact (hout.armsOthers (by show (u.lane c.lane).state ≠ _; rw [hending]; exact nofun) k hk).trans (arm_heldBy_other u m c hk)
  · obtain ⟨y, hy, -, hkept⟩ := hload x hx
    exact ⟨y, hy, hkept⟩
  · obtain ⟨y, hy, hdone, -⟩ := hload x hx
    exact ⟨y, hy, hdone⟩

end Held

theorem endTurn_out (h : Winding u l (some r)) (hs : ∀ q ∈ (u.arm m).starts, q.lane ≠ l) : TurnOut u (u.endTurn l r m) l r m := by
  by_cases hother : ∀ b, u.holder m = some b → b.lane ≠ l
  · rw [endTurn_of_other hother]
    exact .refl h hs
  · simp only [Classical.not_forall, Classical.not_not] at hother
    obtain ⟨b, hb, hl⟩ := hother
    cases hst : b.state with
    | armed => exact (endTurn_of_still hb h hs hl (.inl hst)).1
    | startup => exact (endTurn_of_flowing hb h hs hl (by rw [hst]; rfl)).1
    | full => exact (endTurn_of_flowing hb h hs hl (by rw [hst]; rfl)).1
    | topoff => exact (endTurn_of_flowing hb h hs hl (by rw [hst]; rfl)).1
    | stopping => exact (endTurn_of_stopping hb h hs hl hst).1
    | halted => exact (endTurn_of_still hb h hs hl (.inr hst)).1
    | done =>
      have hsame : u.endTurn l r m = u := by
        rw [endTurn_of_held hb hl]
        unfold State.endBatch
        rw [hst]
      rw [hsame]
      exact .refl h hs

end Turn

/-! ### All turns -/

/-- What holds through the turns, seen from the state before them. -/
structure Ended (w u : State) (l : Lane) (r : EndReason) : Prop where
  calm : Calm w u
  starts : ∀ n, ∀ q ∈ (u.arm n).starts, q.lane ≠ l
  winding : Winding u l (some r)
  load : DoneKept w u l

theorem Ended.turn {w u : State} {l : Lane} {r : EndReason} (h : Ended w u l r) (m : Arm) : Ended w (u.endTurn l r m) l r := by
  have hout := endTurn_out h.winding (h.starts m)
  refine ⟨h.calm.trans hout.calm, fun n => ?_, hout.winding, h.load.trans hout.load⟩
  by_cases hn : n = m
  · subst hn
    exact hout.starts
  · rw [hout.others n hn]
    exact h.starts n

section Turns

variable {w : State} {l : Lane} {r : EndReason} (h : Ended w w l r)

include h

theorem turns_ended : Ended w (allArms.foldl (State.endTurn l r) w) l r :=
  foldl_allArms_keeps (P := fun u => Ended w u l r) (fun _ m hu => hu.turn m) h

/-- The turn of an arm finds it as it was before all turns and leaves it as it is after them. -/
theorem turns_arm (n : Arm) : ∃ u, Ended w u l r ∧ u.arm n = w.arm n ∧
    (allArms.foldl (State.endTurn l r) w).arm n = (u.endTurn l r n).arm n ∧
    DoneKept (u.endTurn l r n) (allArms.foldl (State.endTurn l r) w) l := by
  have hall := foldl_allArms_turn (f := State.endTurn l r) (P := fun u => Ended w u l r ∧ u.arm n = w.arm n)
    (Q := fun v => Ended w v l r ∧ ∃ u, Ended w u l r ∧ u.arm n = w.arm n ∧ v.arm n = (u.endTurn l r n).arm n ∧
      DoneKept (u.endTurn l r n) v l) n
    (fun u m hm ⟨hu, harm⟩ => ⟨hu.turn m, ((endTurn_out hu.winding (hu.starts m)).others n (Ne.symm hm)).trans harm⟩)
    (fun u ⟨hu, harm⟩ => ⟨hu.turn n, u, hu, harm, rfl, .of_lane rfl⟩)
    (fun v m hm ⟨hv, u, hu, harm, hturn, hkept⟩ => ?_) (s := w) ⟨h, rfl⟩
  · exact hall.2
  · have hout := endTurn_out hv.winding (hv.starts m)
    exact ⟨hv.turn m, u, hu, harm, (hout.others n (Ne.symm hm)).trans hturn, hkept.trans hout.load⟩

end Turns

/-! ### The entry to ENDING (R145) -/

/-- The lane before the turns: ENDING with its reason, its pending starts gone. -/
def State.endingLane (s : State) (l : Lane) (r : EndReason) : State := (s.markEnding l r).dropLaneStarts l

theorem enterEnding_eq (s : State) (l : Lane) (r : EndReason) :
    s.enterEnding l r = (allArms.foldl (State.endTurn l r) (s.endingLane l r)).closeIfIdle l := rfl

theorem endingLane_arm (s : State) (l : Lane) (r : EndReason) (n : Arm) :
    (s.endingLane l r).arm n = { s.arm n with starts := (s.arm n).starts.filter fun p => p.lane ≠ l } := by
  rw [State.endingLane, dropLaneStarts_arm, State.markEnding, post_arm]
  rfl

theorem endingLane_lane (s : State) (l : Lane) (r : EndReason) :
    (s.endingLane l r).lane l = { s.lane l with state := .ending, endReason := some r } :=
  (post_lane ..).trans (lane_setLane_self ..)

theorem endingLane_calm (s : State) (l : Lane) (r : EndReason) : Calm s (s.endingLane l r) :=
  (markEnding_calm ..).trans (dropLaneStarts_calm ..)

theorem endingLane_ended (s : State) (l : Lane) (r : EndReason) : Ended (s.endingLane l r) (s.endingLane l r) l r := by
  refine ⟨.refl _, fun n q hq => ?_, ⟨?_, .inl ?_⟩, .of_lane rfl⟩
  · rw [endingLane_arm] at hq
    exact of_decide_eq_true (List.mem_filter.mp hq).2
  · rw [endingLane_lane]
  · rw [endingLane_lane]

theorem enterEnding_ended (s : State) (l : Lane) (r : EndReason) : Ended (s.endingLane l r) (s.enterEnding l r) l r := by
  have hended := turns_ended (endingLane_ended s l r)
  rw [enterEnding_eq]
  refine ⟨hended.calm.trans (closeIfIdle_calm ..), fun n => ?_, closeIfIdle_winding hended.winding,
    hended.load.trans (.of_fewer (closeIfIdle_fewer ..))⟩
  rw [closeIfIdle_arm]
  exact hended.starts n

/-- The arm after the lane has entered ENDING, by its own turn. -/
theorem enterEnding_arm (s : State) (l : Lane) (r : EndReason) (n : Arm) : ∃ u, Ended (s.endingLane l r) u l r ∧
    u.arm n = { s.arm n with starts := (s.arm n).starts.filter fun p => p.lane ≠ l } ∧
    (s.enterEnding l r).arm n = (u.endTurn l r n).arm n ∧ DoneKept (u.endTurn l r n) (s.enterEnding l r) l := by
  obtain ⟨u, hu, harm, hturn, hkept⟩ := turns_arm (endingLane_ended s l r) n
  rw [enterEnding_eq]
  exact ⟨u, hu, harm.trans (endingLane_arm ..), (closeIfIdle_arm ..).trans hturn, hkept.trans (.of_fewer (closeIfIdle_fewer ..))⟩

end Sys2Proof.Machine
end

section
/-! PROOF. LOAD CLOSE (R95, R145, R146, R155, R161). -/

namespace Sys2Proof.Machine

/-! ### The request -/

section Request

variable {p : List Byte} {s : State}

theorem loadClose_of_length (h : p.length ≠ 1) : s.loadClose p = s.refuse .badFormat := if_pos h

theorem loadClose_of_value (h : p.length = 1) (hv : 1 < (byteAt p 0).toNat) : s.loadClose p = s.refuse .badValue := by
  have hnone : laneOf (byteAt p 0) = none := by
    have hzero : byteAt p 0 ≠ 0x00#8 := fun e => by rw [e] at hv; exact absurd hv (by decide)
    have hone : byteAt p 0 ≠ 0x01#8 := fun e => by rw [e] at hv; exact absurd hv (by decide)
    rw [laneOf, if_neg hzero, if_neg hone]
  rw [State.loadClose, if_neg (not_not_intro h), hnone]

variable {l : Lane} (h : p.length = 1) (hl : laneOf (byteAt p 0) = some l)

include h hl

theorem loadClose_of_none (hst : (s.lane l).state = .none) : s.loadClose p = s.refuse .notFound := by
  rw [State.loadClose, if_neg (not_not_intro h), hl]
  dsimp only
  rw [hst]

theorem loadClose_of_closing (hst : (s.lane l).state = .ending ∨ (s.lane l).state = .closing) : s.loadClose p = s.refuse .busy := by
  rw [State.loadClose, if_neg (not_not_intro h), hl]
  dsimp only
  rcases hst with hst | hst <;> rw [hst]

theorem loadClose_of_open (hst : (s.lane l).state = .opened) : s.loadClose p = (s.enterEnding l .aborted).accept := by
  rw [State.loadClose, if_neg (not_not_intro h), hl]
  dsimp only
  rw [hst]

end Request

/-! ### Arms after the entry to ENDING (R95) -/

section Arms

variable {s : State} {l : Lane} {r : EndReason} {n : Arm}

/-- An arm held by no batch of the lane loses the lane's pending start and no more. -/
theorem enterEnding_arm_of_other (h : ∀ b, s.holder n = some b → b.lane ≠ l) :
    (s.enterEnding l r).arm n = { s.arm n with starts := (s.arm n).starts.filter fun p => p.lane ≠ l } := by
  obtain ⟨u, -, harm, hturn, -⟩ := enterEnding_arm s l r n
  have hother : ∀ b, u.holder n = some b → b.lane ≠ l := fun b hb => h b (by rw [State.holder, harm] at hb; exact hb)
  rw [hturn, endTurn_of_other hother, harm]

variable {b : Batch} (hb : s.holder n = some b) (hl : b.lane = l)

include hb hl

theorem enterEnding_arm_of_flowing (hst : b.state.flowing = true) : ∃ u, Calm s u ∧
    u.arm n = { s.arm n with starts := (s.arm n).starts.filter fun p => p.lane ≠ l } ∧
    (s.enterEnding l r).arm n = (u.heldBy n { b with ending := true }).haltedArm n r.stopReason { b with ending := true } := by
  obtain ⟨u, hu, harm, hturn, -⟩ := enterEnding_arm s l r n
  have hheld : u.holder n = some b := by rw [State.holder, harm]; exact hb
  exact ⟨u, (endingLane_calm s l r).trans hu.calm, harm,
    hturn.trans (endTurn_of_flowing hheld hu.winding (hu.starts n) hl hst).2⟩

theorem enterEnding_arm_of_stopping (hst : b.state = .stopping) : ∃ c, (s.enterEnding l r).arm n = { s.arm n with
    starts := (s.arm n).starts.filter fun p => p.lane ≠ l, holder := some c } ∧ c.lane = b.lane ∧
      (r = .aborted → c = { b with stopReason := some .aborted, ending := true }) := by
  obtain ⟨u, hu, harm, hturn, -⟩ := enterEnding_arm s l r n
  have hheld : u.holder n = some b := by rw [State.holder, harm]; exact hb
  obtain ⟨-, c, hc, hlane, haborted⟩ := endTurn_of_stopping hheld hu.winding (hu.starts n) hl hst
  exact ⟨c, by rw [hturn, hc, harm], hlane, haborted⟩

/-- A batch that is neither ARMED nor HALTED leaves the pending starts of the other lane where they are. -/
theorem enterEnding_starts (hna : b.state ≠ .armed) (hnh : b.state ≠ .halted) :
    ((s.enterEnding l r).arm n).starts = (s.arm n).starts.filter fun p => p.lane ≠ l := by
  have hflowing : b.state.flowing = true → ((s.enterEnding l r).arm n).starts = (s.arm n).starts.filter fun p => p.lane ≠ l := fun hst => by
    obtain ⟨u, -, harm, hturn⟩ := enterEnding_arm_of_flowing (r := r) hb hl hst
    rw [hturn, State.haltedArm, want_starts, arm_heldBy_self, harm]
  cases hst : b.state with
  | armed => exact absurd hst hna
  | halted => exact absurd hst hnh
  | startup => exact hflowing (by rw [hst]; rfl)
  | full => exact hflowing (by rw [hst]; rfl)
  | topoff => exact hflowing (by rw [hst]; rfl)
  | stopping =>
    obtain ⟨c, hc, -, -⟩ := enterEnding_arm_of_stopping (r := r) hb hl hst
    rw [hc]
  | done =>
    obtain ⟨u, -, harm, hturn, -⟩ := enterEnding_arm s l r n
    have hheld : u.holder n = some b := by rw [State.holder, harm]; exact hb
    have hsame : u.endBatch n b r = u := by
      unfold State.endBatch
      rw [hst]
    rw [hturn, endTurn_of_held hheld hl, hsame, harm]

/-- An ARMED or HALTED batch is DONE. -/
theorem enterEnding_still (hst : b.state = .armed ∨ b.state = .halted) :
    ((∀ q ∈ (s.arm n).starts, q.lane = l) → (s.enterEnding l r).holder n = none) ∧
    (∀ c, (s.enterEnding l r).holder n = some c → c.lane ≠ l) ∧
    ∀ x, (s.lane l).load = some x → ∃ y, ((s.enterEnding l r).lane l).load = some y ∧ y.compDone b.compartment := by
  obtain ⟨u, hu, harm, hturn, hkept⟩ := enterEnding_arm s l r n
  have hheld : u.holder n = some b := by rw [State.holder, harm]; exact hb
  obtain ⟨-, hout⟩ := endTurn_of_still hheld hu.winding (hu.starts n) hl hst
  have hholder : (s.enterEnding l r).holder n = (u.endTurn l r n).holder n := congrArg ArmRec.holder hturn
  rw [hholder]
  refine ⟨fun hall => hout.free ?_, hout.holder, fun x hx => ?_⟩
  · rw [harm]
    exact List.filter_eq_nil_iff.mpr fun q hq => by simp [hall q hq]
  · have hending : ((s.endingLane l r).lane l).load = some x := by
      rw [endingLane_lane]
      exact hx
    obtain ⟨x', hx', -⟩ := hu.load x hending
    obtain ⟨y, hy, hdone⟩ := hout.load x' hx'
    obtain ⟨z, hz, hyz⟩ := hkept y hy
    exact ⟨z, hz, hyz _ hdone⟩

end Arms

/-- With none left to stop the load is CLOSING (R145, R146). -/
theorem enterEnding_closing {s : State} {l : Lane} {r : EndReason} {x : Load} (hx : (s.lane l).load = some x)
    (h : ∀ n b, s.holder n = some b → b.lane = l → b.state = .armed ∨ b.state = .halted) :
    ((s.enterEnding l r).lane l).state = .closing := by
  have hended := turns_ended (endingLane_ended s l r)
  have hnone : (s.enterEnding l r).lanesArms l = [] := (lanesArms_eq_nil_iff ..).mpr fun n c hc => by
    by_cases hother : ∀ b, s.holder n = some b → b.lane ≠ l
    · rw [State.holder, enterEnding_arm_of_other hother] at hc
      exact hother c hc
    · simp only [Classical.not_forall, Classical.not_not] at hother
      obtain ⟨b, hb, hl⟩ := hother
      exact (enterEnding_still hb hl (h n b hb hl)).2.1 c hc
  have hending : ((s.endingLane l r).lane l).load = some x := by
    rw [endingLane_lane]
    exact hx
  obtain ⟨y, hy, -⟩ := hended.load x hending
  rw [enterEnding_eq] at hnone ⊢
  rw [lanesArms_of_arms (closeIfIdle_arm _ l)] at hnone
  exact closeIfIdle_closing hended.winding hnone (by rw [hy]; rfl)

/-! ### A lane with no batch (R145, R146, R155, R161) -/

/-- A note-number request, which starts at once when the store is free (R161). -/
theorem request_note (b : NoteBuilder) (l : Lane) : b.request (.note l) = { b with
    writing := if b.writing.isNone then some ⟨.note l, b.nextNote⟩ else b.writing
    queue := if b.writing.isNone then b.queue else b.queue ++ [.note l] } := by
  unfold NoteBuilder.request
  cases b.writing <;> rfl

theorem markEnding_frame (s : State) (l : Lane) (r : EndReason) : s.markEnding l r = { s with
    load := { s.load with lanes := s.load.lanes.set l { s.lane l with state := .ending, endReason := some r } }
    scan := (s.post l .loadClosing).scan } := by
  have hscan : (State.post (s.setLane l { s.lane l with state := .ending, endReason := some r }) l .loadClosing).scan =
      (s.post l .loadClosing).scan := by
    refine post_scan_congr ?_ l .loadClosing
    rfl
  rw [State.markEnding, post_eq, hscan]
  rfl

/-- With no batch of the lane the load closes at once. -/
theorem enterEnding_of_idle {s : State} {l : Lane} {r : EndReason} (h : ∀ n b, s.holder n = some b → b.lane ≠ l) {x : Load}
    (hx : (s.lane l).load = some x) : s.enterEnding l r = { s with
      load := { s.load with lanes := s.load.lanes.set l { s.lane l with
        state := .closing, load := some { x with endTime := some s.time.record }, endReason := some r } }
      batch := { s.batch with arms := s.batch.arms.map fun r => { r with starts := r.starts.filter fun q => q.lane ≠ l } }
      note := s.note.close l x s.time.record
      scan := (s.post l .loadClosing).scan } := by
  have hholder : ∀ n b, (s.endingLane l r).holder n = some b → b.lane ≠ l := fun n b hb => by
    rw [State.holder, endingLane_arm] at hb
    exact h n b hb
  have hidle : allArms.foldl (State.endTurn l r) (s.endingLane l r) = s.endingLane l r :=
    foldl_allArms_idle fun n => endTurn_of_other (hholder n)
  have hclose : (s.endingLane l r).closeIfIdle l = (s.endingLane l r).closeLoad l :=
    if_pos ⟨by rw [endingLane_lane], (lanesArms_eq_nil_iff ..).mpr hholder⟩
  have hload : ((s.endingLane l r).lane l).load = some x := by
    rw [endingLane_lane]
    exact hx
  rw [enterEnding_eq, hidle, hclose, State.closeLoad, hload, endingLane_lane]
  dsimp only
  rw [State.endingLane, markEnding_frame, State.setLane]
  simp only [State.dropLaneStarts, lanes_set_set]

theorem close_eq (b : NoteBuilder) (l : Lane) (x : Load) (endTime : TimeRec) : b.close l x endTime = { b with
    closing := b.closing.set l (some ⟨l, x.reference, x.tanker, x.driverRef, x.carrier, x.startTime, endTime, b.calDue,
      x.permitOverridden, x.entries, (x.entries.map CompEntry.gross).sum, (x.entries.map CompEntry.net).sum⟩)
    writing := if b.writing.isNone then some ⟨.note l, b.nextNote⟩ else b.writing
    queue := if b.writing.isNone then b.queue else b.queue ++ [.note l] } := request_note ..

/-- Settles O19: the refusals, then what the entry to ENDING makes of lane, arms and load. -/
theorem loadCloseEffect : Obligations.LoadCloseEffect := by
  refine fun p s hs hr => ⟨fun hlen => request_next hr (loadClose_of_length hlen) hs,
    fun hlen hv => request_next hr (loadClose_of_value hlen hv) hs, fun l hp => ?_⟩
  have hlen : p.length = 1 := by rw [hp]; rfl
  have hl : laneOf (byteAt p 0) = some l := by
    rw [hp]
    cases l <;> rfl
  refine ⟨fun hst => request_next hr (loadClose_of_none hlen hl hst) hs, fun hst => request_next hr (loadClose_of_closing hlen hl hst) hs,
    fun hst => ?_⟩
  have hended := enterEnding_ended s l .aborted
  refine ⟨s.enterEnding l .aborted, request_settles hr (loadClose_of_open hlen hl hst), hended.winding.reason,
    hended.winding.state.imp_right And.left, hended.starts, fun n hstill => ?starts, fun n b hb => ⟨fun hne => ?other,
    fun hbl hflow => ?flowing, fun hbl hstop => ?stopping, fun hbl hstill => ?still⟩, fun ⟨n, b, hb, hbl, hrun⟩ => ?ending,
    fun x hx hall => enterEnding_closing hx hall, fun x hx hnone => ?idle⟩
  case starts =>
    by_cases hother : ∀ b, s.holder n = some b → b.lane ≠ l
    · rw [enterEnding_arm_of_other hother]
    · simp only [Classical.not_forall, Classical.not_not] at hother
      obtain ⟨b, hb, hbl⟩ := hother
      obtain ⟨hna, hnh⟩ := hstill b hb hbl
      exact enterEnding_starts hb hbl hna hnh
  case other =>
    rw [State.holder, enterEnding_arm_of_other fun c hc => by rw [← Option.some.inj (hb.symm.trans hc)]; exact hne]
    exact hb
  case flowing =>
    obtain ⟨u, hcalm, harm, hturn⟩ := enterEnding_arm_of_flowing (r := .aborted) hb hbl hflow
    rw [State.haltedArm] at hturn
    refine ⟨by rw [hturn, want_desired], ?_⟩
    have hmeter : (u.heldBy n { b with ending := true }).meterOnline n = s.meterOnline n := hcalm.meterOnline n
    have hsettings : (u.heldBy n { b with ending := true }).batch.settings = s.batch.settings := hcalm.settings
    rw [State.holder, hturn, want_holder, State.haltedBatch, State.stopped, hmeter, hsettings]
    rfl
  case stopping =>
    obtain ⟨c, hc, -, haborted⟩ := enterEnding_arm_of_stopping (r := .aborted) hb hbl hstop
    rw [State.holder, hc, haborted rfl]
  case still =>
    subst hbl
    exact enterEnding_still hb rfl hstill
  case ending =>
    refine hended.winding.state.resolve_right fun hclosing => ?_
    have hgone := (lanesArms_eq_nil_iff ..).mp hclosing.2 n
    rcases hrun with hflow | hstop
    · obtain ⟨u, -, -, hturn⟩ := enterEnding_arm_of_flowing (r := .aborted) hb hbl hflow
      rw [State.haltedArm] at hturn
      exact hgone _ ((congrArg ArmRec.holder hturn).trans (want_holder ..)) hbl
    · obtain ⟨c, hc, hlane, -⟩ := enterEnding_arm_of_stopping (r := .aborted) hb hbl hstop
      exact hgone c (by rw [State.holder, hc]) (hlane.trans hbl)
  case idle =>
    rw [enterEnding_of_idle hnone hx, close_eq]

end Sys2Proof.Machine
end

section
/-! PROOF. A driver card (R125, R129, R130, R135 to R137, R139 to R142, R145). -/

namespace Sys2Proof.Machine

/-! ### Steps 1 to 8 of R140 -/

/-- The code of the first of the steps 1 to 8 of R140 that fails. -/
def State.earlyCode (s : State) (l : Lane) (card : Nat) : Option DisplayCode :=
  s.bayFailure.or ((s.permit card).elim (some .unknownCard) fun p =>
    (p.cardFailure l).or (if s.chooseOrder p.carrier l = none then some .noOrder else none))

section Permit

variable {s : State} {l : Lane} {card : Nat}

theorem openingPermit_of_bay {c : DisplayCode} (h : s.bayFailure = some c) : s.openingPermit l card = .error c := by
  rw [State.openingPermit, h]

theorem openingPermit_of_unknown (h : s.bayFailure = none) (hp : s.permit card = none) :
    s.openingPermit l card = .error .unknownCard := by
  rw [State.openingPermit, h]
  dsimp only
  rw [hp]

theorem openingPermit_of_card (h : s.bayFailure = none) {p : Permit} (hp : s.permit card = some p) {c : DisplayCode}
    (hc : p.cardFailure l = some c) : s.openingPermit l card = .error c := by
  rw [State.openingPermit, h]
  dsimp only
  rw [hp]
  dsimp only
  rw [hc]

theorem openingPermit_of_pass (h : s.bayFailure = none) {p : Permit} (hp : s.permit card = some p) (hc : p.cardFailure l = none) :
    s.openingPermit l card = .ok p := by
  rw [State.openingPermit, h]
  dsimp only
  rw [hp]
  dsimp only
  rw [hc]

end Permit

section Attempt

variable {s : State} {l : Lane} {card : Nat}

theorem openingAttempt_of_error {c : DisplayCode} (h : (s.dropCandidate l).openingPermit l card = .error c) :
    s.openingAttempt l card = (s.dropCandidate l).refuseCard l c := by
  rw [State.openingAttempt, h]

variable {p : Permit} (h : (s.dropCandidate l).openingPermit l card = .ok p)

include h

theorem openingAttempt_of_no_order (ho : (s.dropCandidate l).chooseOrder p.carrier l = none) :
    s.openingAttempt l card = (s.dropCandidate l).refuseCard l .noOrder := by
  rw [State.openingAttempt, h]
  dsimp only
  rw [ho]

variable {o : Order} (ho : (s.dropCandidate l).chooseOrder p.carrier l = some o)

include ho

theorem openingAttempt_of_failure {c : DisplayCode} (hf : (p.roll s.today).orderFailure s.today ((s.dropCandidate l).orderClasses o)
    o.volumeDl = some c) : s.openingAttempt l card =
      (((s.dropCandidate l).modPermit card fun q => q.roll s.today).refuseCard l c).keepCandidate l card o := by
  rw [State.openingAttempt, h]
  dsimp only
  rw [ho]
  dsimp only
  have hf' : (p.roll (s.dropCandidate l).today).orderFailure (s.dropCandidate l).today ((s.dropCandidate l).orderClasses o)
    o.volumeDl = some c := hf
  rw [hf']
  rfl

theorem openingAttempt_of_open (hf : (p.roll s.today).orderFailure s.today ((s.dropCandidate l).orderClasses o) o.volumeDl = none) :
    s.openingAttempt l card = ((s.dropCandidate l).modPermit card fun q => q.roll s.today).openLoad l card p.driverRef o false := by
  rw [State.openingAttempt, h]
  dsimp only
  rw [ho]
  dsimp only
  have hf' : (p.roll (s.dropCandidate l).today).orderFailure (s.dropCandidate l).today ((s.dropCandidate l).orderClasses o)
    o.volumeDl = none := hf
  rw [hf']
  rfl

end Attempt

/-- The first failing step is posted and noticed. -/
theorem openingAttempt_of_early {s : State} {l : Lane} {card : Nat} {code : DisplayCode}
    (h : (s.dropCandidate l).earlyCode l card = some code) : s.openingAttempt l card = (s.dropCandidate l).refuseCard l code := by
  rw [State.earlyCode] at h
  cases hbay : (s.dropCandidate l).bayFailure with
  | some c =>
    rw [hbay, Option.some_or, Option.some.injEq] at h
    exact h ▸ openingAttempt_of_error (openingPermit_of_bay hbay)
  | none =>
    rw [hbay, Option.none_or] at h
    cases hp : (s.dropCandidate l).permit card with
    | none =>
      rw [hp, Option.elim_none, Option.some.injEq] at h
      exact h ▸ openingAttempt_of_error (openingPermit_of_unknown hbay hp)
    | some p =>
      rw [hp, Option.elim_some] at h
      cases hc : p.cardFailure l with
      | some c =>
        rw [hc, Option.some_or, Option.some.injEq] at h
        exact h ▸ openingAttempt_of_error (openingPermit_of_card hbay hp hc)
      | none =>
        rw [hc, Option.none_or] at h
        by_cases ho : (s.dropCandidate l).chooseOrder p.carrier l = none
        · rw [if_pos ho, Option.some.injEq] at h
          exact h ▸ openingAttempt_of_no_order (openingPermit_of_pass hbay hp hc) ho
        · rw [if_neg ho] at h
          exact nomatch h

theorem openingPermit_of_early {s : State} {l : Lane} {card : Nat} (h : s.earlyCode l card = none) {p : Permit}
    (hp : s.permit card = some p) : s.openingPermit l card = .ok p := by
  rw [State.earlyCode, Option.or_eq_none_iff, hp, Option.elim_some, Option.or_eq_none_iff] at h
  exact openingPermit_of_pass h.1 hp h.2.1

/-! ### The checks in the words of R140 -/

theorem bayFailure_eq (s : State) : s.bayFailure = if s.port.mode ≠ .inService then some .wrongMode
    else if s.time.timeSet = false then some .timeNotSet
    else if 16 ≤ s.note.notes.length + s.loadsHeld then some .noteFull
    else none := by
  rw [State.bayFailure, loadsHeld_eq]
  simp only [Bool.not_eq_true]

theorem cardFailure_eq (p : Permit) (l : Lane) : p.cardFailure l = if p.cls ≠ .driver then some .notAllowed
    else if p.state = .revoked then some .revoked
    else if p.state = .suspended then some .suspended
    else if p.lane ≠ none ∧ p.lane ≠ some l then some .wrongLane
    else none := by
  have hlane : (p.admitsLane l = true) ↔ ¬ (p.lane ≠ none ∧ p.lane ≠ some l) := by
    simp only [Permit.admitsLane, Bool.or_eq_true, decide_eq_true_eq, Classical.not_and_iff_not_or_not, Classical.not_not]
  rw [Permit.cardFailure, Permit.stateFailure]
  cases p.state
  case revoked => rfl
  case suspended => rfl
  case active => simp only [hlane, reduceCtorEq, if_false, ite_not]

theorem endorses_orderClasses (s : State) (p : Permit) (o : Order) : p.endorses (s.orderClasses o) =
    !(o.lines.any fun x => (s.product x.product).any fun y => !p.endorsed.getLsbD y.cls) := by
  rw [Permit.endorses, State.orderClasses, List.all_filterMap, List.not_any_eq_all_not]
  refine congrArg (List.all o.lines) (funext fun x => ?_)
  cases s.product x.product with
  | none => rfl
  | some y => simp

/-- Steps 9 to 11 of R140 on the rolled permit. -/
theorem orderFailure_eq (s : State) (p : Permit) (o : Order) (today : Date) :
    (p.roll today).orderFailure today (s.orderClasses o) o.volumeDl =
      if p.expiry.key < today.key then some .expired
      else if o.lines.any fun x => (s.product x.product).any fun y => !p.endorsed.getLsbD y.cls then some .endorsement
      else if p.dailyLimit ≠ 0 ∧ p.dailyLimit * 10 < (if p.lastLoad = some today then p.usedToday else 0) +
          (o.lines.map fun x => x.preset * 10).sum then some .limit
      else none := by
  have hused : (p.roll today).usedToday = if p.lastLoad = some today then p.usedToday else 0 := by
    rw [roll_eq]
    split <;> rfl
  have hframe := roll_frame p today
  have hexpired : (p.roll today).expired today = decide (p.expiry.key < today.key) := by rw [hframe, Permit.expired]
  have hendorses : (p.roll today).endorses (s.orderClasses o) =
      !(o.lines.any fun x => (s.product x.product).any fun y => !p.endorsed.getLsbD y.cls) := by
    rw [endorses_orderClasses, hframe]
  have hlimit : ((p.roll today).withinLimit o.volumeDl = true) ↔ ¬ (p.dailyLimit ≠ 0 ∧ p.dailyLimit * 10 <
      (if p.lastLoad = some today then p.usedToday else 0) + (o.lines.map fun x => x.preset * 10).sum) := by
    have hdaily : (p.roll today).dailyLimit = p.dailyLimit := by rw [hframe]
    simp only [Permit.withinLimit, hused, hdaily, Bool.or_eq_true, decide_eq_true_eq, Classical.not_and_iff_not_or_not, Classical.not_not, Nat.not_lt]
    rfl
  rw [Permit.orderFailure, hexpired, hendorses]
  simp only [hlimit, decide_eq_true_eq, Bool.not_eq_true', Bool.not_eq_false, Classical.not_not]

theorem dropCandidate_loadsHeld (s : State) (l : Lane) : (s.dropCandidate l).loadsHeld = s.loadsHeld := by
  cases l <;> rfl

/-- Steps 5 to 8 of R140 on the card's permit. -/
def State.cardCode (s : State) (l : Lane) (p : Permit) : Option DisplayCode :=
  if p.cls ≠ .driver then some .notAllowed
  else if p.state = .revoked then some .revoked
  else if p.state = .suspended then some .suspended
  else if p.lane ≠ none ∧ p.lane ≠ some l then some .wrongLane
  else if s.chooseOrder p.carrier l = none then some .noOrder
  else none

theorem ite_some_or {α : Type} (p : Prop) [Decidable p] (c : α) (x y : Option α) :
    (if p then some c else x).or y = if p then some c else x.or y := by
  split <;> rfl

theorem earlyCode_eq (s : State) (l : Lane) (card : Nat) : s.earlyCode l card = if s.port.mode ≠ .inService then some .wrongMode
    else if s.time.timeSet = false then some .timeNotSet
    else if 16 ≤ s.note.notes.length + s.loadsHeld then some .noteFull
    else (s.permits.find? fun q => q.card = card).elim (some .unknownCard) fun p => s.cardCode l p := by
  have hcard : ∀ p : Permit, (p.cardFailure l).or (if s.chooseOrder p.carrier l = none then some .noOrder else none) =
      s.cardCode l p := fun p => by
    rw [cardFailure_eq, State.cardCode]
    simp only [ite_some_or, Option.none_or]
  rw [State.earlyCode, bayFailure_eq, State.permit]
  simp only [hcard, ite_some_or, Option.none_or]

/-! ### The card by the lane's load state (R139) -/

section Driver

variable {s : State} {l : Lane} {card : Nat}

theorem driverCard_of_none (h : (s.lane l).state = .none) : s.driverCard l card = s.openingAttempt l card := by
  rw [State.driverCard, h]

theorem driverCard_of_closing (h : (s.lane l).state = .ending ∨ (s.lane l).state = .closing) :
    s.driverCard l card = s.post l .loadClosing := by
  rw [State.driverCard]
  rcases h with h | h <;> rw [h]

theorem driverCard_of_open (h : (s.lane l).state = .opened) {x : Load} (hx : (s.lane l).load = some x) :
    s.driverCard l card = if x.card = card then s.enterEnding l .driver else s.post l .wrongCard := by
  have hcard : s.loadHasCard l card = decide (x.card = card) := by
    rw [State.loadHasCard, State.holdsLoad, h, hx]
    rfl
  rw [State.driverCard, h, hcard]
  simp only [decide_eq_true_eq]

end Driver

/-- Settles O49: the card by the lane's load state, and the opening attempt check by check. -/
theorem openingAttemptOpens : Obligations.OpeningAttemptOpens := by
  refine fun s t d l digits hs haw hstep htel hk ha hfit => ?_
  intro u k card cleared refusal orderFor early
  have hexec : exec card s = .next (u.driverCard l k).settle :=
    (exec_stationEvent haw hstep htel hk ha hfit).trans
      (congrArg (fun v => Host.Outcome.next (State.settle v)) (cardEvent_of_driver u l digits))
  have hcleared : u.dropCandidate l = cleared := rfl
  have hheld : cleared.loadsHeld = s.loadsHeld := dropCandidate_loadsHeld u l
  have hearly : cleared.earlyCode l k = early := by
    have hpermits : cleared.permits = s.permits := rfl
    rw [earlyCode_eq, hheld, hpermits]
    simp only [early]
    cases s.permits.find? (fun q => q.card = k) <;> rfl
  refine ⟨fun hclosing => by rw [hexec, driverCard_of_closing (s := u) hclosing], fun x hopen hx => ⟨fun hne => ?wrong, fun heq => ?ending⟩,
    fun hnone => ⟨fun code hcode => ?early, fun p o hpass hp ho => ?_⟩⟩
  case wrong => rw [hexec, driverCard_of_open (s := u) hopen hx, if_neg hne]
  case ending =>
    rw [driverCard_of_open (s := u) hopen hx, if_pos heq] at hexec
    have hended := enterEnding_ended u l .driver
    exact ⟨_, hexec, hended.winding.reason, hended.winding.state.imp_right And.left,
      ((endingLane_calm u l .driver).trans hended.calm).cards⟩
  case early =>
    rw [hexec, driverCard_of_none (s := u) hnone, openingAttempt_of_early (s := u) (hearly.trans hcode)]
    rfl
  intro used rolled late
  have hpermit := openingPermit_of_early (hearly.trans hpass) hp
  have hlate : (p.roll s.today).orderFailure s.today (cleared.orderClasses o) o.volumeDl = late := orderFailure_eq cleared p o s.today
  rw [driverCard_of_none (s := u) hnone] at hexec
  refine ⟨fun code hcode => ?refused, fun hopen => ?opened⟩
  case refused =>
    intro r
    have hwindow : (State.refuseCard (cleared.modPermit k fun q => q.roll s.today) l code).batch.settings = s.batch.settings := by
      rw [State.refuseCard, raiseNotice_batch, post_batch]
      rfl
    have hkept : ((cleared.modPermit k fun q => q.roll s.today).refuseCard l code).keepCandidate l k o = State.setLane r l { r.lane l with
        candidate := some ⟨k, o.reference, s.batch.settings.overrideWindow⟩ } := by
      rw [State.keepCandidate, hwindow]
      rfl
    exact (hexec.trans (congrArg (fun v => Host.Outcome.next (State.settle v))
      (openingAttempt_of_failure (s := u) hpermit ho (hlate.trans hcode)))).trans
        (congrArg (fun v => Host.Outcome.next (State.settle v)) hkept)
  case opened =>
    rw [openingAttempt_of_open (s := u) hpermit ho (hlate.trans hopen)] at hexec
    let w := cleared.modPermit k fun q => q.roll s.today
    have hout := openLoad_out w l k p.driverRef o false
    have hlane : w.lane l = { s.lane l with candidate := none, slot := (s.lane l).slot.filter fun y => y.target ≠ .load } :=
      lane_setLane_self ..
    have hsans : (w.lane l).sansOrder o.reference = w.lane l := by
      rw [hlane]
      exact if_neg Bool.false_ne_true
    have hself := hout.lane
    rw [hsans, hlane] at hself
    refine ⟨_, hexec, ?_, ?_, ?_, ?_, ?_, hout.orders, hout.permits, hout.port, ?_, hout.batch, hout.additive, hout.note, hout.time,
      hout.meter⟩
    · exact congrArg LaneRec.state hself
    · exact congrArg LaneRec.candidate hself
    · exact congrArg LaneRec.slot hself
    · exact congrArg LaneRec.load hself
    · have hother : w.lane (Lane.other l) = s.lane (Lane.other l) := lane_setLane_other u (other_ne l) _
      exact (hout.other _ (other_ne l)).trans (congrArg (LaneRec.sansOrder o.reference) hother)
    · refine hout.scan.trans ?_
      refine post_scan_congr ?_ l .opened
      rfl

end Sys2Proof.Machine
end

section
/-! PROOF. The entry to STARTUP in full (R67, R76, R83, R84, R86, R116), and a batch created or resumed (R79). -/

namespace Sys2Proof.Machine

/-! ### STARTUP begun (R76, R83, R86) -/

/-- The batch as it enters STARTUP. -/
def State.started (s : State) (n : Arm) (b : Batch) : Batch :=
  { b with
    state := .startup, overspeed := 0, noFlow := 0
    noFlowTimer := if (s.arm n).reported = some .low ∨ (s.arm n).reported = some .high then some s.batch.settings.noFlowTimeout
      else b.noFlowTimer }

theorem State.SameCore.meter {s t : State} (h : State.SameCore s t) : t.meter = s.meter := by
  obtain ⟨_, _, _, rfl⟩ := h
  rfl

theorem State.SameCore.time {s t : State} (h : State.SameCore s t) : t.time = s.time := by
  obtain ⟨_, _, _, rfl⟩ := h
  rfl

theorem State.SameCore.heldBy {s t : State} (h : State.SameCore s t) (n : Arm) (b : Batch) :
    State.SameCore (s.heldBy n b) (t.heldBy n b) := by
  rw [State.heldBy, State.heldBy, h.arm]
  exact h.setArm n _

/-- The arm record of a batch that enters STARTUP. -/
def State.startedArm (s : State) (n : Arm) (b : Batch) : ArmRec :=
  ArmRec.want { s.arm n with holder := some (s.started n b) } .low s.batch.settings.noFlowTimeout

theorem startupTimed_core {s : State} {n : Arm} {b : Batch} (h : s.holder n = some b) :
    State.SameCore (s.setArm n (s.startedArm n b)) (s.startupTimed n) := by
  have hset := setBatchState_core h .startup
  generalize hu : s.setArm n (ArmRec.want { s.arm n with holder := some { b with state := .startup } } (desiredFor .startup b.degraded)
    s.batch.settings.noFlowTimeout) = u at hset
  have harm : u.arm n = ArmRec.want { s.arm n with holder := some { b with state := .startup } } .low s.batch.settings.noFlowTimeout := by
    rw [← hu]
    exact arm_setArm_self ..
  have hholder : (s.setBatchState n .startup).holder n = some { b with state := .startup } := by
    rw [hset.holder, State.holder, harm, want_holder]
  have hover : ∀ c : Batch, u.heldBy n c = s.setArm n (ArmRec.want { s.arm n with holder := some c } .low s.batch.settings.noFlowTimeout) :=
    fun c => by
      rw [State.heldBy, harm, want_holder_update, ← hu, setArm_setArm]
  have hmod : ∀ f : Batch → Batch, (s.setBatchState n .startup).modBatch n f =
      (s.setBatchState n .startup).heldBy n (f { b with state := .startup }) := fun f => modBatch_eq_heldBy hholder f
  have hopen : ∀ c : Batch, ((s.setBatchState n .startup).heldBy n c).reportsOpen n = true ↔
      (s.arm n).reported = some .low ∨ (s.arm n).reported = some .high := fun c => by
    rw [State.reportsOpen, arm_heldBy_self, hset.arm, harm]
    simp only [want_reported, Bool.or_eq_true, decide_eq_true_eq]
  have hsettings : (s.setBatchState n .startup).batch.settings = s.batch.settings := by
    rw [hset.batch, ← hu]
    rfl
  unfold State.startupTimed
  rw [hmod]
  dsimp only
  by_cases hrep : (s.arm n).reported = some .low ∨ (s.arm n).reported = some .high
  · rw [if_pos ((hopen _).mpr hrep), State.startNoFlowTimer, modBatch_heldBy]
    have hstarted : s.started n b = { b with
        state := .startup, overspeed := 0, noFlow := 0, noFlowTimer := some s.batch.settings.noFlowTimeout } := by
      rw [State.started, if_pos hrep]
    have hheld := hset.heldBy n (s.started n b)
    rw [hover] at hheld
    rw [State.startedArm]
    rw [hstarted] at hheld ⊢
    rw [← hsettings] at hheld ⊢
    exact hheld
  · rw [if_neg (mt (hopen _).mp hrep)]
    have hstarted : s.started n b = { b with state := .startup, overspeed := 0, noFlow := 0 } := by
      rw [State.started, if_neg hrep]
    have hheld := hset.heldBy n (s.started n b)
    rw [hover] at hheld
    rw [State.startedArm]
    rw [hstarted] at hheld ⊢
    exact hheld

theorem startupTimed_schedules (s : State) (n : Arm) : (s.startupTimed n).schedules n = s.schedules n := by
  have hset := setBatchState_additive s n .startup
  unfold State.startupTimed
  dsimp only
  split <;> exact congrArg (fun a : AdditiveScheduler => a.schedules[n]) hset

/-! ### The end of the entry (R83 step 6, R84, R116) -/

theorem stopIfAtLead_of_far {s : State} {n : Arm} {b : Batch} (h : s.holder n = some b)
    (hl : (((s.arm n).stopLead.getD 0 : Nat) : Int) * 100000 < b.remaining) : s.stopIfAtLead n = s := by
  refine if_neg ?_
  rw [h, Option.any_some, atStopLead_eq_false hl]
  exact Bool.false_ne_true

theorem stopIfAtLead_of_near {s : State} {n : Arm} {b : Batch} (h : s.holder n = some b)
    (hl : b.remaining ≤ (((s.arm n).stopLead.getD 0 : Nat) : Int) * 100000) : s.stopIfAtLead n = s.enterStopping n .preset := by
  refine if_pos ?_
  rw [h]
  exact decide_eq_true hl

theorem haltIfFaulted_of_stopped {s : State} {n : Arm} {b : Batch} (h : s.holder n = some b) (hst : b.state.haltable = false) :
    (if s.requiredFaulted n then s.haltBatch n .additive else s) = s := by
  have hstill : s.haltBatch n .additive = s := haltBatch_of_still (fun c hc => by rwa [← Option.some.inj (h.symm.trans hc)]) _
  rw [hstill, ite_self]

theorem requiredFaulted_eq_false {s : State} {n : Arm} (h : ∀ k ∈ s.schedules n, k.required = false ∨ k.state ≠ .faulted) :
    s.requiredFaulted n = false := by
  refine List.any_eq_false.mpr fun k hk => ?_
  rcases h k hk with hr | hs
  · rw [hr, Bool.false_and]
    exact Bool.false_ne_true
  · rw [decide_eq_false hs, Bool.and_false]
    exact Bool.false_ne_true

theorem core_arm {s u : State} {n : Arm} {r : ArmRec} (hcore : State.SameCore (s.setArm n r) u) : u.arm n = r :=
  (hcore.arm n).trans (arm_setArm_self ..)

/-- What the entry to STARTUP leaves of a batch that goes on flowing. -/
structure StartupOut (s v : State) (n : Arm) (c : Batch) (code : Byte) : Prop where
  holder : v.holder n = some c
  desired : (v.arm n).desired = .low
  port : v.port = (s.raiseNotice .batchStarted (.arm n) code).port
  schedules : v.schedules n = s.schedules n
  meter : v.meter = s.meter

/-- A batch that flowed before, short of its stop lead, goes on (R83, R116). -/
theorem enterStartup_again {s : State} {n : Arm} {b : Batch} (h : s.holder n = some b) (hflowed : b.flowed = true)
    (hreq : ∀ k ∈ s.schedules n, k.required = false ∨ k.state ≠ .faulted)
    (hl : (((s.arm n).stopLead.getD 0 : Nat) : Int) * 100000 < b.remaining) :
    StartupOut s (s.enterStartup n b) n (s.started n b) 0x01#8 := by
  have hcore := startupTimed_core h
  have harm : (s.startupTimed n).arm n = s.startedArm n b := core_arm hcore
  have hbegun : s.startupBegun n b = s.startupTimed n := if_pos hflowed
  let w := (s.startupTimed n).raiseNotice .batchStarted (.arm n) 0x01#8
  have hholder : w.holder n = some (s.started n b) := (congrArg ArmRec.holder harm).trans (want_holder ..)
  have hlead : (w.arm n).stopLead = (s.arm n).stopLead := (congrArg ArmRec.stopLead harm).trans (want_stopLead ..)
  have hfar : w.stopIfAtLead n = w := stopIfAtLead_of_far hholder (by rw [hlead]; exact hl)
  have hnoticed : s.startupNoticed n b = w := by
    rw [State.startupNoticed, hbegun, hflowed]
    exact hfar
  have hschedules : w.schedules n = s.schedules n := startupTimed_schedules s n
  have henter : s.enterStartup n b = w := by
    rw [enterStartup_eq, hnoticed, requiredFaulted_eq_false (by rw [hschedules]; exact hreq)]
    exact if_neg Bool.false_ne_true
  rw [henter]
  exact ⟨hholder, (congrArg ArmRec.desired harm).trans (want_desired ..), raiseNotice_port_congr hcore.port hcore.time .., hschedules,
    hcore.meter⟩

/-- A batch that flowed before and stands at its stop lead is STOPPING for its preset (R83 step 6). -/
theorem enterStartup_near {s : State} {n : Arm} {b : Batch} (h : s.holder n = some b) (hflowed : b.flowed = true)
    (hl : b.remaining ≤ (((s.arm n).stopLead.getD 0 : Nat) : Int) * 100000) :
    (∃ c, (s.enterStartup n b).holder n = some c ∧ c.state = .stopping ∧ c.stopReason = some .preset) ∧
      ((s.enterStartup n b).arm n).desired = .closed ∧
      (s.enterStartup n b).port = (s.raiseNotice .batchStarted (.arm n) 0x01#8).port := by
  have hcore := startupTimed_core h
  have harm : (s.startupTimed n).arm n = s.startedArm n b := core_arm hcore
  have hbegun : s.startupBegun n b = s.startupTimed n := if_pos hflowed
  let w := (s.startupTimed n).raiseNotice .batchStarted (.arm n) 0x01#8
  have hholder : w.holder n = some (s.started n b) := (congrArg ArmRec.holder harm).trans (want_holder ..)
  have hlead : (w.arm n).stopLead = (s.arm n).stopLead := (congrArg ArmRec.stopLead harm).trans (want_stopLead ..)
  have hnear : w.stopIfAtLead n = w.enterStopping n .preset := stopIfAtLead_of_near hholder (by rw [hlead]; exact hl)
  have hnoticed : s.startupNoticed n b = w.enterStopping n .preset := by
    rw [State.startupNoticed, hbegun, hflowed]
    exact hnear
  have hsans := enterStopping_sans hholder .preset
  have hstopped : (w.enterStopping n .preset).arm n = ArmRec.want { w.arm n with holder := some (w.stopped n .preset (s.started n b)) }
      .closed w.batch.settings.noFlowTimeout := (arm_of_sans hsans n).trans (arm_setArm_self ..)
  have hheld : (w.enterStopping n .preset).holder n = some (w.stopped n .preset (s.started n b)) := by
    rw [State.holder, hstopped, want_holder]
  have henter : s.enterStartup n b = w.enterStopping n .preset := by
    rw [enterStartup_eq, hnoticed]
    exact haltIfFaulted_of_stopped hheld rfl
  rw [henter]
  refine ⟨⟨_, hheld, rfl, rfl⟩, ?_, ?_⟩
  · rw [hstopped, want_desired]
  · exact (port_of_sans hsans).trans (raiseNotice_port_congr hcore.port hcore.time ..)

theorem begun_without_additives {t : State} {n : Arm} {c : Batch} (hc : t.holder n = some c) {p : Byte} {y : Product}
    (hy : t.product p = some y) (hrecipe : y.recipe = []) :
    (t.firstStartup n).createSchedules n p = ((t.heldBy n { c with flowed := true, startTime := some t.time.record }).setMetering n
      { t.metering n with r1 := 0, r2 := 0, r3 := 0 }).setSchedules n [] := by
  have hfirst : t.firstStartup n = (t.heldBy n { c with flowed := true, startTime := some t.time.record }).setMetering n
      { t.metering n with r1 := 0, r2 := 0, r3 := 0 } := by
    rw [State.firstStartup, modBatch_eq_heldBy hc]
  have hproduct : (t.firstStartup n).product p = some y := by
    rw [hfirst]
    exact hy
  rw [State.createSchedules, hproduct, Option.elim_some, hrecipe, hfirst]
  rfl

/-- The first entry to STARTUP of a batch without additives, short of its stop lead (R67, R83). -/
theorem enterStartup_first {s : State} {n : Arm} {b : Batch} (h : s.holder n = some b) (hflowed : b.flowed = false) {y : Product}
    (hy : s.product b.product = some y) (hrecipe : y.recipe = [])
    (hl : (((s.arm n).stopLead.getD 0 : Nat) : Int) * 100000 < b.remaining) :
    (s.enterStartup n b).holder n = some { s.started n b with flowed := true, startTime := some s.time.record } ∧
      ((s.enterStartup n b).arm n).desired = .low ∧
      (s.enterStartup n b).port = (s.raiseNotice .batchStarted (.arm n) 0x00#8).port ∧ (s.enterStartup n b).schedules n = [] ∧
      (s.enterStartup n b).metering n = { s.metering n with r1 := 0, r2 := 0, r3 := 0 } := by
  have hcore := startupTimed_core h
  have hbegun : s.startupBegun n b = ((s.startupTimed n).firstStartup n).createSchedules n b.product := by
    rw [State.startupBegun, hflowed, if_neg Bool.false_ne_true]
  generalize ht : s.startupTimed n = t at hcore hbegun
  generalize hstarted : s.startedArm n b = r at hcore
  have harm : t.arm n = r := core_arm hcore
  have hheld : t.holder n = some (s.started n b) := by
    rw [State.holder, harm, ← hstarted, State.startedArm, want_holder]
  have hproduct : t.product b.product = some y := by
    rw [State.product, hcore.batch]
    exact hy
  have hmetering : t.metering n = s.metering n := by
    rw [State.metering, hcore.meter]
    rfl
  have hport : t.port = s.port := hcore.port
  have htime : t.time = s.time := hcore.time
  rw [begun_without_additives hheld hproduct hrecipe, hmetering, htime] at hbegun
  generalize hc : ({ s.started n b with flowed := true, startTime := some s.time.record } : Batch) = c at hbegun ⊢
  have hremaining : c.remaining = b.remaining := by
    rw [← hc]
    rfl
  generalize hm : ({ s.metering n with r1 := 0, r2 := 0, r3 := 0 } : Metering) = m at hbegun ⊢
  generalize hu : ((t.heldBy n c).setMetering n m).setSchedules n [] = u at hbegun
  have huarm : u.arm n = { r with holder := some c } := by
    rw [← hu, ← harm]
    exact arm_heldBy_self ..
  have huport : u.port = s.port := by
    rw [← hu]
    exact hport
  have hutime : u.time = s.time := by
    rw [← hu]
    exact htime
  have huschedules : u.schedules n = [] := by
    rw [← hu]
    exact schedules_setSchedules_self ..
  have humetering : u.metering n = m := by
    rw [← hu]
    exact metering_setMetering_self ..
  generalize hw : u.raiseNotice .batchStarted (.arm n) 0x00#8 = w
  have hwarm : w.arm n = { r with holder := some c } := by
    rw [← hw]
    exact huarm
  have hholder : w.holder n = some c := by rw [State.holder, hwarm]
  have hlead : (w.arm n).stopLead = (s.arm n).stopLead := by rw [hwarm, ← hstarted, State.startedArm, want_stopLead]
  have hfar : w.stopIfAtLead n = w := stopIfAtLead_of_far hholder (by rw [hlead, hremaining]; exact hl)
  have hnoticed : s.startupNoticed n b = w := by
    rw [State.startupNoticed, hbegun, hflowed, if_neg Bool.false_ne_true, hw, hfar]
  have hschedules : w.schedules n = [] := by
    rw [← hw]
    exact huschedules
  have henter : s.enterStartup n b = w := by
    rw [enterStartup_eq, hnoticed, requiredFaulted_eq_false (by rw [hschedules]; simp)]
    exact if_neg Bool.false_ne_true
  rw [henter]
  refine ⟨hholder, ?_, ?_, hschedules, ?_⟩
  · rw [hwarm, ← hstarted, State.startedArm, want_desired]
  · rw [← hw]
    exact raiseNotice_port_congr huport hutime ..
  · rw [← hw]
    exact humetering

/-- The batch carries its flowed mark out of the entry to STARTUP whether it had it or not (R83). -/
theorem enterStartup_flowed {s : State} {n : Arm} {b : Batch} (h : s.holder n = some b) :
    ∃ c, (s.enterStartup n b).holder n = some c ∧ c.flowed = true ∧ c.tally = b.tally := by
  have hbegun : ((s.startupBegun n b).holder n).any Batch.flowed = true := by
    by_cases hflowed : b.flowed = true
    · exact (startupBegun_onArm s n b).carries.2 (by rw [h]; exact hflowed)
    · have hcore := startupTimed_core h
      have hheld : (s.startupTimed n).holder n = some (s.started n b) := (congrArg ArmRec.holder (core_arm hcore)).trans (want_holder ..)
      have hfirst : (((s.startupTimed n).firstStartup n).holder n).any Batch.flowed = true := by
        have hset : ((s.startupTimed n).modBatch n fun b => { b with
            flowed := true, startTime := some (s.startupTimed n).time.record }).holder n = some { s.started n b with
              flowed := true, startTime := some (s.startupTimed n).time.record } := by
          rw [modBatch_eq_heldBy hheld, holder_heldBy]
        exact (congrArg (Option.any Batch.flowed) hset).trans rfl
      rw [State.startupBegun, if_neg hflowed]
      exact ((OnArm.refl n _).createSchedules b.product).carries.2 hfirst
  have hnoticed := (((OnArm.refl n (s.startupBegun n b)).raiseNotice .batchStarted (.arm n)
    (if b.flowed then 0x01#8 else 0x00#8)).stopIfAtLead).carries.2 hbegun
  have hentered : ((s.enterStartup n b).holder n).any Batch.flowed = true := by
    rw [enterStartup_eq]
    split
    · exact ((OnArm.refl n (s.startupNoticed n b)).haltBatch _).carries.2 hnoticed
    · exact hnoticed
  obtain ⟨c, hc, hflowed⟩ := (Option.any_eq_true ..).mp hentered
  have htally := (enterStartup_onArm s n b).carries.1
  rw [hc, h, Option.map_some, Option.map_some, Option.some.injEq] at htally
  exact ⟨c, hc, hflowed, htally⟩

/-! ### The test of R83 -/

theorem tryStartup_of_ready {s : State} {n : Arm} {b : Batch} (h : s.holder n = some b) (hst : b.state = .armed)
    (hm : s.meterOnline n = true) (hv : s.valveOnline n = true) (hp : s.batch.permissive.get b.lane = true) :
    s.tryStartup n = s.enterStartup n b := by
  rw [State.tryStartup, h]
  exact if_pos ⟨hst, hm, hv, hp⟩

theorem tryStartup_of_offline {s : State} {n : Arm} (h : ¬ (s.meterOnline n = true ∧ s.valveOnline n = true)) : s.tryStartup n = s := by
  rw [State.tryStartup]
  cases s.holder n with
  | none => rfl
  | some b => exact if_neg fun hc => h ⟨hc.2.1, hc.2.2.1⟩

theorem Calm.valveOnline {s v : State} (h : Calm s v) (n : Arm) : v.valveOnline n = s.valveOnline n := by
  have hstanding : ∀ (u : State) (i : DevIx), (u.deviceOfKind i .valve).any (fun d => d.state = .online) =
      ((u.device i).map Device.standing).any fun p => p.1 = .valve && p.2 = .online := fun u i => by
    rw [State.deviceOfKind]
    cases u.device i with
    | none => rfl
    | some d => by_cases hk : d.kind = .valve <;> simp [Device.standing, hk]
  unfold State.valveOnline
  rw [h.armEntry]
  simp only [hstanding, h.standing]

theorem polled_calm {s : State} {i : DevIx} {d : Device} (h : s.device i = some d) : Calm s (s.polled i d) where
  time := rfl
  settings := rfl
  armTable := rfl
  standing j := by
    rw [polled_device]
    split
    case isTrue hj => rw [hj, h]; rfl
    case isFalse => rw [Option.map_map]; rfl
  bits _ hk := hk
  cards := rfl

end Sys2Proof.Machine
end

section
/-! PROOF. A START at an open load judged: the checks in the words of R143 and R78, and the batch it resumes or creates (R79, R80). -/

namespace Sys2Proof.Machine

/-! ### The permit (R143 step 5) -/

/-- Step 5 of R143 in its words. -/
def State.startPermitCode (s : State) (x : Load) (product : Byte) : Option DisplayCode :=
  (s.permits.find? fun q => q.card = x.card).elim (some .unknownCard) fun q =>
    if q.state = .revoked then some .revoked
    else if q.state = .suspended then some .suspended
    else if x.permitOverride then none
    else if q.expiry.key < s.today.key then some .expired
    else if (s.product product).any fun y => !q.endorsed.getLsbD y.cls then some .endorsement
    else none

theorem endorses_toList (p : Permit) (y : Option Product) :
    p.endorses (y.map fun q => q.cls).toList = !(y.any fun q => !p.endorsed.getLsbD q.cls) := by
  cases y with
  | none => rfl
  | some y => simp [Permit.endorses]

theorem startPermitFailure_eq (s : State) (x : Load) (product : Byte) : s.startPermitFailure x product = s.startPermitCode x product := by
  rw [State.startPermitFailure, State.startPermitCode, State.permit]
  cases s.permits.find? fun q => q.card = x.card with
  | none => rfl
  | some q =>
    rw [Option.elim_some]
    dsimp only
    rw [Permit.stateFailure, Permit.expired, endorses_toList]
    cases hst : q.state
    case revoked => rfl
    case suspended => rfl
    case active => simp only [reduceCtorEq, if_false, decide_eq_true_eq, Bool.not_eq_true', Bool.not_eq_false]

/-! ### The checks of R78 -/

theorem serves_iff (r : Reach) (l : Lane) : r.serves l = true ↔ r = .both ∨ (r = .a ∧ l = .a) ∨ (r = .b ∧ l = .b) := by
  cases r <;> cases l <;> decide

theorem compartmentBusy_iff (s : State) (n : Arm) (l : Lane) (comp : Nat) : s.compartmentBusy n l comp = true ↔
    (∃ m b, s.holder m = some b ∧ b.lane = l ∧ b.compartment = comp ∧ (m ≠ n ∨ b.state ≠ .halted)) ∨
      ∃ m, ∃ q ∈ (s.arm m).starts, m ≠ n ∧ q.lane = l ∧ q.compartment = comp := by
  have hheld : ∀ m, ((s.holder m).any fun b => b.lane = l && b.compartment = comp && !(m = n && b.state = .halted)) = true ↔
      ∃ b, s.holder m = some b ∧ b.lane = l ∧ b.compartment = comp ∧ (m ≠ n ∨ b.state ≠ .halted) := fun m => by
    rw [Option.any_eq_true]
    simp only [Bool.and_eq_true, decide_eq_true_eq, Bool.not_eq_true', Bool.and_eq_false_iff, decide_eq_false_iff_not, and_assoc, ne_eq]
  have hwaits : ∀ m, (m ≠ n && (s.arm m).starts.any fun p => p.lane = l && p.compartment = comp) = true ↔
      ∃ q ∈ (s.arm m).starts, m ≠ n ∧ q.lane = l ∧ q.compartment = comp := fun m => by
    simp only [Bool.and_eq_true, decide_eq_true_eq, List.any_eq_true]
    exact ⟨fun ⟨hm, q, hq, hs⟩ => ⟨q, hq, hm, hs⟩, fun ⟨q, hq, hm, hs⟩ => ⟨hm, q, hq, hs⟩⟩
  rw [State.compartmentBusy, List.any_eq_true, ← exists_or]
  refine exists_congr fun m => ?_
  rw [Bool.or_eq_true, hheld, hwaits, and_iff_right (mem_allArms m)]

theorem haltedHere_eq_some_iff (s : State) (n : Arm) (l : Lane) (comp : Nat) (b : Batch) : s.haltedHere n l comp = some b ↔
    s.holder n = some b ∧ b.lane = l ∧ b.compartment = comp ∧ b.state = .halted := by
  rw [State.haltedHere, Option.filter_eq_some_iff]
  simp only [Bool.and_eq_true, decide_eq_true_eq, and_assoc]

section Judged

variable {s : State} {n : Arm} {l : Lane} {comp : Nat} {product : Byte}

theorem startFailure_of_no_arm (h : s.armEntry n = none) : s.startFailure n l comp product = some .wrongArm := by
  rw [State.startFailure, h]

variable {a : ArmEntry} (ha : s.armEntry n = some a)

include ha

theorem startFailure_of_reach (hr : a.reach.serves l ≠ true) : s.startFailure n l comp product = some .wrongArm := by
  rw [State.startFailure, ha]
  exact if_pos hr

variable (hr : a.reach.serves l = true)

include hr

theorem startFailure_of_product (hp : a.allowed.getLsbD product.toNat = false) :
    s.startFailure n l comp product = some .wrongProduct := by
  rw [State.startFailure, ha]
  dsimp only
  rw [if_neg (not_not_intro hr), if_pos (by rw [hp]; exact Bool.false_ne_true)]

variable (hp : a.allowed.getLsbD product.toNat = true)

include hp

theorem startFailure_of_permissive (hm : s.batch.permissive.get l = false) :
    s.startFailure n l comp product = some .noPermissive := by
  rw [State.startFailure, ha]
  dsimp only
  rw [if_neg (not_not_intro hr), if_neg (not_not_intro hp), if_pos (by rw [hm]; exact Bool.false_ne_true)]

theorem startFailure_of_permitted (hm : s.batch.permissive.get l = true) :
    s.startFailure n l comp product = if s.compartmentBusy n l comp then some .compartmentBusy else none := by
  rw [State.startFailure, ha]
  dsimp only
  rw [if_neg (not_not_intro hr), if_neg (not_not_intro hp), if_neg (not_not_intro hm)]

end Judged

section Outcome

variable {s : State} {n : Arm} {l : Lane} {comp : Nat} {product : Byte} {preset : Nat}

theorem judgeStart_of_failure {c : DisplayCode} (h : s.startFailure n l comp product = some c) :
    s.judgeStart n l comp product preset = s.post l c := by
  rw [State.judgeStart, h]

variable (h : s.startFailure n l comp product = none)

include h

theorem judgeStart_of_additive {b : Batch} (hb : s.haltedHere n l comp = some b) (hr : b.stopReason = some .additive)
    (ho : b.additiveOverride = false) : s.judgeStart n l comp product preset = s.post l .additiveHalt := by
  have hheld : s.additiveHeld n l comp = true := by
    rw [State.additiveHeld, hb, Option.any_some, hr, ho]
    rfl
  rw [State.judgeStart, h]
  exact if_pos hheld

theorem judgeStart_of_halted {b : Batch} (hb : s.haltedHere n l comp = some b)
    (hr : b.stopReason ≠ some .additive ∨ b.additiveOverride = true) : s.judgeStart n l comp product preset = s.resumeBatch n b := by
  have hheld : ¬ s.additiveHeld n l comp = true := by
    rw [State.additiveHeld, hb, Option.any_some, Bool.and_eq_true, decide_eq_true_eq, Bool.not_eq_true']
    exact fun ⟨hadditive, hnone⟩ => hr.elim (fun hne => hne hadditive) fun hover => Bool.false_ne_true (hnone.symm.trans hover)
  rw [State.judgeStart, h]
  dsimp only
  rw [if_neg hheld, hb]

theorem judgeStart_of_unhalted (hb : s.haltedHere n l comp = none) : s.judgeStart n l comp product preset =
    if (s.holder n).isNone then s.createBatch n l comp product preset else s.makePending n l comp := by
  have hheld : ¬ s.additiveHeld n l comp = true := by
    rw [State.additiveHeld, hb]
    exact Bool.false_ne_true
  rw [State.judgeStart, h]
  dsimp only
  rw [if_neg hheld, hb]

end Outcome

/-! ### The START as the lane's load judges it (R143) -/

section Start

variable {s : State} {l : Lane} {n : Arm} {x : Load} {e : CompEntry}

theorem startEvent_of_unlisted {comp : Byte} (hst : (s.lane l).state = .opened) (hx : (s.lane l).load = some x)
    (he : x.entry comp.toNat = none) : s.startEvent l (BitVec.ofNat 8 n.val) comp = s.post l .noCompartment := by
  rw [State.startEvent, hst, hx, armOf_ofNat]
  dsimp only
  rw [he]

theorem startEvent_of_entry {comp : Byte} (hst : (s.lane l).state = .opened) (hx : (s.lane l).load = some x)
    (he : x.entry comp.toNat = some e) : s.startEvent l (BitVec.ofNat 8 n.val) comp = s.startEntry l n x e := by
  rw [State.startEvent, hst, hx, armOf_ofNat]
  dsimp only
  rw [he]

theorem startEntry_of_done (h : e.state = .done) : s.startEntry l n x e = s.post l .compartmentDone := by
  rw [State.startEntry, h]

theorem startEntry_of_fresh (h : e.state = .pending ∨ e.state = .loading) : s.startEntry l n x e =
    (s.startPermitCode x e.product).elim (s.judgeStart n l e.compartment e.product e.preset) fun c => s.post l c := by
  rw [← startPermitFailure_eq]
  rcases h with h | h <;>
  · rw [State.startEntry, h]
    cases s.startPermitFailure x e.product <;> rfl

theorem startEntry_of_judged
    (h : e.state = .halted ∨ ((e.state = .pending ∨ e.state = .loading) ∧ s.startPermitCode x e.product = none)) :
    s.startEntry l n x e = s.judgeStart n l e.compartment e.product e.preset := by
  rcases h with h | ⟨hfresh, hcode⟩
  · rw [State.startEntry, h]
  · rw [startEntry_of_fresh hfresh, hcode, Option.elim_none]

end Start

/-! ### A batch put on its arm (R79) -/

/-- The bay once a batch is on the arm and its compartment LOADING, before the test for STARTUP. -/
def State.loadingAt (s : State) (n : Arm) (c : Batch) (l : Lane) (r : LaneRec) : State := ((s.heldBy n c).setLane l r).post l .loading

section LoadingAt

variable (s : State) (n : Arm) (c : Batch) (l : Lane) (r : LaneRec)

theorem loadingAt_calm : Calm s (s.loadingAt n c l r) :=
  (setArm_calm s n _).trans ((setLane_calm (s.heldBy n c) l r).trans (post_calm ..))

theorem loadingAt_arm : (s.loadingAt n c l r).arm n = { s.arm n with holder := some c } :=
  (post_arm ..).trans (arm_heldBy_self ..)

theorem loadingAt_holder : (s.loadingAt n c l r).holder n = some c := congrArg ArmRec.holder (loadingAt_arm s n c l r)

theorem loadingAt_lane : (s.loadingAt n c l r).lane l = r := (post_lane ..).trans (lane_setLane_self ..)

theorem loadingAt_port : (s.loadingAt n c l r).port = s.port := post_port ..

theorem loadingAt_meter : (s.loadingAt n c l r).meter = s.meter := post_meter ..

theorem loadingAt_schedules : (s.loadingAt n c l r).schedules n = s.schedules n := by
  rw [State.schedules, State.loadingAt, post_additive]
  rfl

theorem loadingAt_batch : (s.loadingAt n c l r).batch.products = s.batch.products ∧
    (s.loadingAt n c l r).batch.permissive = s.batch.permissive := by
  rw [State.loadingAt, post_batch]
  exact ⟨rfl, rfl⟩

end LoadingAt

theorem loadingAt_of_offline {s : State} {n : Arm} (h : ¬ (s.meterOnline n = true ∧ s.valveOnline n = true)) (c : Batch) (l : Lane)
    (r : LaneRec) : (s.loadingAt n c l r).tryStartup n = s.loadingAt n c l r := by
  refine tryStartup_of_offline ?_
  rw [(loadingAt_calm ..).meterOnline, (loadingAt_calm ..).valveOnline]
  exact h

theorem loadingAt_of_online {s : State} {n : Arm} (h : s.meterOnline n = true ∧ s.valveOnline n = true) {c : Batch} {l : Lane}
    (hst : c.state = .armed) (hl : c.lane = l) (hp : s.batch.permissive.get l = true) (r : LaneRec) :
    (s.loadingAt n c l r).tryStartup n = (s.loadingAt n c l r).enterStartup n c := by
  refine tryStartup_of_ready (loadingAt_holder ..) hst ?_ ?_ ?_
  · exact ((loadingAt_calm ..).meterOnline n).trans h.1
  · exact ((loadingAt_calm ..).valveOnline n).trans h.2
  · rw [(loadingAt_batch ..).2, hl]
    exact hp

theorem resumeBatch_eq {s : State} {n : Arm} {b : Batch} (h : s.holder n = some b) (hd : (s.arm n).desired = .closed) {x : Load}
    (hx : (s.lane b.lane).load = some x) : s.resumeBatch n b = (s.loadingAt n b.resume b.lane { s.lane b.lane with
      load := some (x.modEntry b.compartment fun e => { e with state := .loading, arm := some n })
      slot := (s.lane b.lane).slot.filter fun y => y.target ≠ .arm n }).tryStartup n := by
  have hclosed : ((s.heldBy n b.resume).arm n).desired = .closed := by
    rw [arm_heldBy_self]
    exact hd
  rw [State.resumeBatch, modBatch_eq_heldBy h, setDesired_of_desired hclosed, State.reportLoading, State.modEntry, State.armTargetGone,
    setLane_setLane, lane_setLane_self]
  have hload : ((s.heldBy n b.resume).lane b.lane).load = some x := hx
  rw [hload]
  rfl

theorem createBatch_eq {s : State} {n : Arm} (hd : (s.arm n).desired = .closed) {l : Lane} {x : Load} (hx : (s.lane l).load = some x)
    (comp : Nat) (product : Byte) (preset : Nat) : s.createBatch n l comp product preset =
      (s.loadingAt n (Batch.new l comp product preset) l { s.lane l with
        load := some (x.modEntry comp fun e => { e with state := .loading, arm := some n }) }).tryStartup n := by
  have hclosed : ((s.heldBy n (Batch.new l comp product preset)).arm n).desired = .closed := by
    rw [arm_heldBy_self]
    exact hd
  have hload : ((s.heldBy n (Batch.new l comp product preset)).lane l).load = some x := hx
  rw [State.createBatch, ← State.heldBy, setDesired_of_desired hclosed, State.reportLoading, State.modEntry, hload]
  rfl

end Sys2Proof.Machine
end

section
/-! PROOF. O48, a START at an open load, from its checks to the batch it resumes, creates or leaves waiting. -/

namespace Sys2Proof.Machine

/-! ### What an ONLINE meter and valve make of the batch (R76, R79, R83, R116) -/

/-- A batch resumed at an ONLINE meter and valve. -/
theorem loadingAt_resumed (s : State) (n : Arm) (b : Batch) (l : Lane) (r : LaneRec) :
    let v := (s.loadingAt n b.resume l r).enterStartup n b.resume
    v.lane l = r ∧ ∃ c, v.holder n = some c ∧ c.flowed = true ∧ c.tally = b.resume.tally ∧
      (b.flowed = true → (∀ k ∈ s.schedules n, k.required = false ∨ k.state ≠ .faulted) →
        (((s.arm n).stopLead.getD 0 : Nat) : Int) * 100000 < b.remaining →
          c.state = .startup ∧ (v.arm n).desired = .low ∧ v.metering n = s.metering n ∧
            v.port = (s.raiseNotice .batchStarted (.arm n) 0x01#8).port) ∧
      (b.flowed = true → b.remaining ≤ (((s.arm n).stopLead.getD 0 : Nat) : Int) * 100000 →
        c.state = .stopping ∧ c.stopReason = some .preset ∧ (v.arm n).desired = .closed ∧
          v.port = (s.raiseNotice .batchStarted (.arm n) 0x01#8).port) := by
  intro v
  have hholder := loadingAt_holder s n b.resume l r
  have hlead : ((s.loadingAt n b.resume l r).arm n).stopLead = (s.arm n).stopLead := by rw [loadingAt_arm]
  have hport : ((s.loadingAt n b.resume l r).raiseNotice .batchStarted (.arm n) 0x01#8).port =
      (s.raiseNotice .batchStarted (.arm n) 0x01#8).port :=
    raiseNotice_port_congr (loadingAt_port ..) (loadingAt_calm s n b.resume l r).time ..
  have hlane : v.lane l = r := by
    refine Eq.trans ?_ (loadingAt_lane s n b.resume l r)
    rw [State.lane, (enterStartup_onArm (s.loadingAt n b.resume l r) n b.resume).load, State.lane]
  obtain ⟨c, hc, hflowed, htally⟩ := enterStartup_flowed hholder
  refine ⟨hlane, c, hc, hflowed, htally, fun hb hreq hfar => ?_, fun hb hnear => ?_⟩
  · have hout := enterStartup_again hholder hb (by rw [loadingAt_schedules]; exact hreq) (by rw [hlead]; exact hfar)
    have hstarted : c = (s.loadingAt n b.resume l r).started n b.resume := Option.some.inj (hc.symm.trans hout.holder)
    refine ⟨by rw [hstarted]; rfl, hout.desired, ?_, hout.port.trans hport⟩
    rw [State.metering, hout.meter, loadingAt_meter, State.metering]
  · obtain ⟨⟨c', hc', hstate, hreason⟩, hdesired, hnoticed⟩ := enterStartup_near hholder hb (by rw [hlead]; exact hnear)
    obtain rfl : c = c' := Option.some.inj (hc.symm.trans hc')
    exact ⟨hstate, hreason, hdesired, hnoticed.trans hport⟩

/-- A batch created at an ONLINE meter and valve, its product without additives and its preset beyond the stop lead. -/
theorem loadingAt_made {s : State} {n : Arm} {l : Lane} {comp : Nat} {product : Byte} {preset : Nat} (r : LaneRec) {y : Product}
    (hy : s.product product = some y) (hrecipe : y.recipe = [])
    (hl : (((s.arm n).stopLead.getD 0 : Nat) : Int) * 100000 < (preset : Int) * 1000000) :
    let made := Batch.new l comp product preset
    let v := (s.loadingAt n made l r).enterStartup n made
    v.lane l = r ∧ v.schedules n = [] ∧ v.metering n = { s.metering n with r1 := 0, r2 := 0, r3 := 0 } ∧ (v.arm n).desired = .low ∧
      v.port = (s.raiseNotice .batchStarted (.arm n) 0x00#8).port ∧
      v.holder n = some { made with
        state := .startup, flowed := true, startTime := some s.time.record
        noFlowTimer := if (s.arm n).reported = some .low ∨ (s.arm n).reported = some .high then some s.batch.settings.noFlowTimeout
          else none } := by
  intro made v
  have hholder := loadingAt_holder s n made l r
  have harm := loadingAt_arm s n made l r
  have hlane := loadingAt_lane s n made l r
  have hcalm := loadingAt_calm s n made l r
  have hproduct : (s.loadingAt n made l r).product made.product = some y := by
    rw [State.product, (loadingAt_batch ..).1]
    exact hy
  have hmetering : (s.loadingAt n made l r).metering n = s.metering n := by rw [State.metering, loadingAt_meter, State.metering]
  have hfar : ((((s.loadingAt n made l r).arm n).stopLead.getD 0 : Nat) : Int) * 100000 < made.remaining := by
    have hremaining : made.remaining = (preset : Int) * 1000000 := Int.sub_zero _
    rw [harm, hremaining]
    exact hl
  obtain ⟨hheld, hdesired, hport, hschedules, hreset⟩ := enterStartup_first hholder rfl hproduct hrecipe hfar
  refine ⟨?_, hschedules, hreset.trans (by rw [hmetering]), hdesired,
    hport.trans (raiseNotice_port_congr (loadingAt_port ..) hcalm.time ..), hheld.trans ?_⟩
  · refine Eq.trans ?_ hlane
    rw [State.lane, (enterStartup_onArm (s.loadingAt n made l r) n made).load, State.lane]
  · rw [State.started, harm, hcalm.settings, hcalm.time]
    rfl

/-- Settles O48: each check in its order, then the arm by its holder: the compartment's HALTED batch, none, or another batch. -/
theorem startJudged : Obligations.StartJudged := by
  unfold Obligations.StartJudged
  intro s t d l n comp x hs haw hstep htel hk ha hfirst hlast hst hx u start refused
  have hfits : StationEvent.fits (.start (BitVec.ofNat 8 n.val) comp) = true := by
    simp [StationEvent.fits, hfirst, hlast]
    omega
  have hexec : exec start s = .next (u.startEvent l (BitVec.ofNat 8 n.val) comp).settle :=
    exec_stationEvent haw hstep htel hk ha hfits
  have hrefused : ∀ {code}, u.startEvent l (BitVec.ofNat 8 n.val) comp = u.post l code → refused code :=
    fun h => hexec.trans (by rw [h])
  refine ⟨fun hnone => hrefused (startEvent_of_unlisted hst hx ?_), fun e he => ?_⟩
  · exact List.find?_eq_none.mpr fun e he => by rw [decide_eq_true_eq]; exact hnone e he
  intro fresh permitCode
  have hcode : permitCode = u.startPermitCode x e.product := by
    show _ = s.startPermitCode x e.product
    unfold permitCode State.startPermitCode
    cases s.permits.find? fun q => q.card = x.card <;> rfl
  have hentry : u.startEvent l (BitVec.ofNat 8 n.val) comp = u.startEntry l n x e := startEvent_of_entry hst hx he
  refine ⟨fun hdone => hrefused (hentry.trans (startEntry_of_done hdone)), fun k hfresh hk => hrefused ?_, fun hjudged => ?_⟩
  · rw [hentry, startEntry_of_fresh hfresh, ← hcode, hk, Option.elim_some]
  rw [hcode] at hjudged
  rw [hentry, startEntry_of_judged hjudged] at hexec hrefused
  intro busy here online loading
  refine ⟨fun hnoarm => hrefused (judgeStart_of_failure (startFailure_of_no_arm hnoarm)), fun a harm => ?_⟩
  intro reaches
  have hserves : a.reach.serves l = true ↔ reaches := serves_iff a.reach l
  refine ⟨fun hr => hrefused (judgeStart_of_failure (startFailure_of_reach harm (mt hserves.mp hr))), fun hr hp => ?_,
    fun hr hp hm => ?_, fun hr hp hm => ?_⟩
  · exact hrefused (judgeStart_of_failure (startFailure_of_product harm (hserves.mpr hr) hp))
  · exact hrefused (judgeStart_of_failure (startFailure_of_permissive harm (hserves.mpr hr) hp hm))
  have hpermitted : u.startFailure n l e.compartment e.product = if u.compartmentBusy n l e.compartment then some .compartmentBusy
      else none := startFailure_of_permitted harm (hserves.mpr hr) hp hm
  have hbusy : u.compartmentBusy n l e.compartment = true ↔ busy := compartmentBusy_iff u n l e.compartment
  have hpasses : ¬ busy → u.startFailure n l e.compartment e.product = none := fun h =>
    hpermitted.trans (if_neg (mt hbusy.mp h))
  have hcalm : Calm s u := polled_calm haw.1.2.2.2.2
  have honline : (u.meterOnline n = true ∧ u.valveOnline n = true) ↔ online := by
    rw [hcalm.meterOnline, hcalm.valveOnline]
  refine ⟨fun hb => hrefused (judgeStart_of_failure (hpermitted.trans (if_pos (hbusy.mpr hb)))), fun b hfree hhere => ?_,
    fun hfree hnone hclosed => ?_, fun b hfree hb hother => ?_⟩
  · have hhalted : u.haltedHere n l e.compartment = some b := (haltedHere_eq_some_iff ..).mpr hhere
    obtain ⟨hb, rfl, hcomp, -⟩ := hhere
    refine ⟨fun hreason hover => hrefused (judgeStart_of_additive (hpasses hfree) hhalted hreason hover), fun hreason hclosed => ?_⟩
    intro again
    have hresume := resumeBatch_eq (s := u) hb hclosed hx
    rw [judgeStart_of_halted (hpasses hfree) hhalted hreason, hresume, hcomp] at hexec
    refine ⟨fun hoff => ?_, fun hon => ?_⟩
    · rw [loadingAt_of_offline (mt honline.mp hoff)] at hexec
      exact hexec
    · rw [loadingAt_of_online (c := b.resume) (l := b.lane) (honline.mpr hon) rfl rfl hm] at hexec
      obtain ⟨hlane, c, hc, hflowed, htally, hstays, hstops⟩ := loadingAt_resumed u n b b.lane _
      refine ⟨_, hexec, congrArg LaneRec.load hlane, congrArg LaneRec.slot hlane, c, hc, hflowed, ?_, ?_, ?_, ?_, hstays, hstops⟩
      · exact congrArg (fun p => p.2.1) htally
      · exact congrArg (fun p => p.2.2.1) htally
      · exact congrArg (fun p => p.2.2.2.1) htally
      · exact congrArg (fun p => p.2.2.2.2) htally
  · have hunhalted : u.haltedHere n l e.compartment = none := by
      rw [State.haltedHere, show u.holder n = none from hnone]
      rfl
    intro made
    rw [judgeStart_of_unhalted (hpasses hfree) hunhalted, if_pos (by rw [show u.holder n = none from hnone]; rfl),
      createBatch_eq (s := u) hclosed hx] at hexec
    refine ⟨fun hoff => ?_, fun y hon hy hrecipe hfar => ?_⟩
    · rw [loadingAt_of_offline (mt honline.mp hoff)] at hexec
      exact hexec
    · rw [loadingAt_of_online (c := made) (l := l) (honline.mpr hon) rfl rfl hm] at hexec
      generalize hr : ({ u.lane l with
        load := some (x.modEntry e.compartment fun c => { c with state := .loading, arm := some n }) } : LaneRec) = r at hexec
      have hload : r.load = some loading := by rw [← hr]; rfl
      obtain ⟨hlane, hschedules, hreset, hdesired, hport, hholder⟩ := loadingAt_made (s := u) (comp := e.compartment) r hy hrecipe hfar
      refine ⟨_, hexec, by rw [hlane, hload], hschedules, hreset, hdesired, ?_, hholder⟩
      exact hport.trans (raiseNotice_port_congr rfl rfl ..)
  · have hunhalted : u.haltedHere n l e.compartment = none :=
      Option.eq_none_iff_forall_ne_some.mpr fun c hc => by
        have hhere := (haltedHere_eq_some_iff ..).mp hc
        obtain rfl : b = c := Option.some.inj (hb.symm.trans hhere.1)
        exact hother hhere
    have hheld : ¬ (u.holder n).isNone = true := by
      rw [show u.holder n = some b from hb]
      exact Bool.false_ne_true
    rw [judgeStart_of_unhalted (hpasses hfree) hunhalted, if_neg hheld] at hexec
    exact hexec

end Sys2Proof.Machine
end
